-- ==== Sys2Proof/Word.lean ====
section
/-! DEFINITION. The word type of the Luatik LB7 and its plainest arithmetic (R5, R272). -/

namespace Sys2Proof

/-- A scalar register, a control register or a virtual address: 64 bits. -/
abbrev Word := BitVec 64

/-- One byte of memory. -/
abbrev Byte := BitVec 8

/-- A natural number as a 64-bit word, taken modulo 2^64. -/
abbrev wd (n : Nat) : Word := BitVec.ofNat 64 n

end Sys2Proof
end

