-- ==== Sys2Proof/Machine/Bits.lean ====
section
/-! DEFINITION. Bit-field, sign-extension, byte-order and list helpers. All of them evaluate by structural recursion. -/

namespace Sys2Proof.Machine

/-- Bits [hi:lo] of a number. -/
def bitsOf (n hi lo : Nat) : Nat := n / 2 ^ lo % 2 ^ (hi - lo + 1)

/-- The code of width `w` read as two's complement. -/
def signedOf (w n : Nat) : Int := if n % 2 ^ w < 2 ^ (w - 1) then (n % 2 ^ w : Nat) else (n % 2 ^ w : Nat) - (2 ^ w : Nat)

/-- The code of width `w` of an integer, modulo 2^w. -/
def codeOf (w : Nat) (v : Int) : Nat := (v % (2 ^ w : Nat)).toNat

/-- A field of `w` bits sign-extended to 64 bits (R247). -/
def sextTo {w : Nat} (v : BitVec w) : BitVec 64 := v.signExtend 64

/-- Number of bits of a number: 0 for 0. -/
def bitLen (n : Nat) : Nat := if n = 0 then 0 else Nat.log2 n + 1

/-- Number of 1 bits below bit `w`. -/
def popCount : Nat → Nat → Nat
  | 0, _ => 0
  | w + 1, n => n % 2 + popCount w (n / 2)

/-- Leading zero bits of a code of width `w`. -/
def leadZeros (w n : Nat) : Nat := w - bitLen (n % 2 ^ w)

/-- The index of the lowest 1 bit at or above `i`, among the next `fuel` bits. -/
def lowestFrom : Nat → Nat → Nat → Option Nat
  | 0, _, _ => none
  | f + 1, n, i => if n.testBit i then some i else lowestFrom f n (i + 1)

/-- The index of the lowest 1 bit below bit `w`. -/
def lowestBit (w n : Nat) : Option Nat := lowestFrom w n 0

/-- Newton's iteration for the integer square root. -/
def isqrtLoop : Nat → Nat → Nat → Nat
  | 0, _, x => x
  | f + 1, n, x => let y := (x + n / x) / 2; if y < x then isqrtLoop f n y else x

/-- The largest number whose square does not exceed `n`. -/
def isqrt (n : Nat) : Nat := if n = 0 then 0 else isqrtLoop 64 n (2 ^ ((bitLen n + 1) / 2))

/-- The number with bit `i` set to `b`. -/
def setBit (n i : Nat) (b : Bool) : Nat :=
  if n.testBit i = b then n else if b then n + 2 ^ i else n - 2 ^ i

/-- The number whose low `lo` bits are those of `below`, and whose other bits are those of `above`. -/
def splice (lo below above : Nat) : Nat := below % 2 ^ lo + above / 2 ^ lo * 2 ^ lo

/-- The number `n` with bits [lo + w - 1 : lo] replaced by the low `w` bits of `v`. -/
def putBits (n lo w v : Nat) : Nat :=
  n % 2 ^ lo + v % 2 ^ w * 2 ^ lo + n / 2 ^ (lo + w) * 2 ^ (lo + w)

/-- A number from bytes, little-endian (R5). -/
def bytesNat : List Byte → Nat
  | [] => 0
  | b :: bs => b.toNat + 256 * bytesNat bs

/-- `n` bytes of a number, little-endian (R5). -/
def natToBytes : Nat → Nat → List Byte
  | 0, _ => []
  | n + 1, v => BitVec.ofNat 8 v :: natToBytes n (v / 256)

/-- Rounds `n` down to a multiple of `k`. -/
def alignDown (n k : Nat) : Nat := n / k * k

/-- A value of a list of pairs, or a default. -/
def lookupD {α : Type} (d : α) (k : Nat) : List (Nat × α) → α
  | [] => d
  | (a, v) :: l => if a = k then v else lookupD d k l

/-- Inserts a pair in a list kept in rising order of its keys, replacing an equal key. -/
def insertKey {α : Type} (k : Nat) (v : α) : List (Nat × α) → List (Nat × α)
  | [] => [(k, v)]
  | (a, x) :: l => if k < a then (k, v) :: (a, x) :: l else if k = a then (k, v) :: l else (a, x) :: insertKey k v l

/-- Removes a key. -/
def removeKey {α : Type} (k : Nat) (l : List (Nat × α)) : List (Nat × α) := l.filter fun p => p.1 != k

/-- The index of the first element that satisfies `p`. -/
def findIdx {α : Type} (p : α → Bool) : List α → Nat → Option Nat
  | [], _ => none
  | a :: l, i => if p a then some i else findIdx p l (i + 1)

/-- Replaces the elements that satisfy `p`. -/
def updateWhere {α : Type} (p : α → Bool) (f : α → α) (l : List α) : List α := l.map fun a => if p a then f a else a

end Sys2Proof.Machine
end

