-- ==== Sys2Proof/Syntax.lean ====
section
/-! DEFINITION. The abstract syntax of Ferif and of the module's own steps: one constructor of Instr per row of the
opcode table. -/

namespace Sys2Proof

/-- s0 to s63 (R245). -/
abbrev SReg := Fin 64
/-- v0 to v63 (R245). -/
abbrev VReg := Fin 64
/-- m0 to m7; m0 reads all true (R245, R301). -/
abbrev MReg := Fin 8
/-- k0 to k7 (R66). -/
abbrev KReg := Fin 8
/-- A core of the package: 16 p + c for core c of pod p (R17). -/
abbrev CoreId := Fin 512
/-- A hart context of a core. -/
abbrev Ctx := Fin 8

/-- Element formats, Table 4-1 (R59). `bsi n` and `bsn n` have width n + 1. -/
inductive Fmt where
  | i8 | i16 | i32 | i64 | n8 | n16 | n32 | n64 | i4 | n4
  | fp32 | fp16 | bf16 | e4m3 | e5m2 | e2m1 | e8m0
  | bsi (n : Fin 16) | bsn (n : Fin 16)
  deriving DecidableEq, Repr

/-- Rounding modes of FRM.RM (R70). -/
inductive RM where | rne | rtz | rdn | rup
  deriving DecidableEq, Repr

/-- The RM field of VCVT and VSCL (R71): a static mode, or the dynamic one. -/
inductive RmField where | stat (rm : RM) | dyn
  deriving DecidableEq, Repr

/-- Scopes, Table 13-2 (R246). -/
inductive Scope where | hart | core | pod | die | dev | sys
  deriving DecidableEq, Repr

/-- Access sizes .b .h .w .d. -/
inductive Sz where | b | h | w | d
  deriving DecidableEq, Repr

/-- NREG codes, Table 3-1 (R29, R42). -/
inductive NregC where | n4 | n8 | n16 | n32 | n64
  deriving DecidableEq, Repr

/-- Matrix vector lengths (R84). -/
inductive MvlC where | m16 | m32 | m64
  deriving DecidableEq, Repr

/-- Operations of AMO and VAMO (R278). -/
inductive AmoOp where | add | and | or | xor | min | max | minn | maxn | swap
  deriving DecidableEq, Repr

/-- VCMP conditions, Table 15-9 (R316). -/
inductive VCond where | eq | ne | lt | le | gt | ge | uo
  deriving DecidableEq, Repr

/-- Shell kinds of SETSH, Table 3-7 (R51). -/
inductive ShKind where | zero | const | edge | link | trap
  deriving DecidableEq, Repr

/-- Faces of SETSH, Table 3-7 (R51). -/
inductive ShFace where | xm | xp | ym | yp | zm | zp | all
  deriving DecidableEq, Repr

/-- Control registers, Table 13-16 (R269). -/
inductive Csr where
  | vl | vtype | bgeo | dil | vbase | cbypass | purse | frm | fflags | chk
  | fst | tcause | tpc | tstripe | tval | tvec | cid | inc | hmask | cyc
  deriving DecidableEq, Repr

/-- Operand modifier, Table 13-10 (R261): token pop, token push, inverted mask, queue operands. -/
structure OpMod where
  tw : Option (Fin 5)
  tp : Option (Fin 5)
  f : Bool
  qd : Bool
  q1 : Bool
  q2 : Bool
  deriving DecidableEq, Repr

/-- SEM field of the memory modifier (R262). -/
inductive Sem where | none | acq | rel | acqrel
  deriving DecidableEq, Repr

/-- Memory modifier, Table 13-11 (R262). `ntf` is 0 for no notification. -/
structure MemMod where
  ord : Bool
  sem : Sem
  scope : Scope
  ntf : SReg
  deriving DecidableEq, Repr

/-- OFS prefix word, Table 3-4 (R46): six signed offsets of 4 bits. -/
structure Ofs where
  dx1 : BitVec 4
  dy1 : BitVec 4
  dz1 : BitVec 4
  dx2 : BitVec 4
  dy2 : BitVec 4
  dz2 : BitVec 4
  deriving DecidableEq, Repr

/-- TILE prefix word, Table 5-3 (R88). -/
structure TileP where
  at_ : Fin 4
  sb : SReg
  lgr : Fin 4
  deriving DecidableEq, Repr

/-- What stands before the instruction word of a form (R243), each part at most once and in the order of the fields. -/
structure Stack where
  opm : Option OpMod := none
  memm : Option MemMod := none
  ext : Option (BitVec 12) := none
  crit : Bool := false
  ofs : Option Ofs := none
  tile : Option TileP := none
  immx : Option (BitVec 24) := none
  deriving DecidableEq, Repr

/-- A form without modifiers and prefix words. -/
def Stack.plain : Stack := {}

/-- Bytes of a form with this stack and a 32-bit instruction word (R242, R243). -/
def Stack.len (x : Stack) : Nat :=
  (if x.opm.isSome then 2 else 0) + (if x.memm.isSome then 2 else 0) + (if x.ext.isSome then 2 else 0)
    + (if x.crit then 4 else 0) + (if x.ofs.isSome then 4 else 0) + (if x.tile.isSome then 4 else 0)
    + (if x.immx.isSome then 4 else 0) + 4

/-- Agents of the coherence system (R149). A peer is named by its Weakar Link port and its device number. -/
inductive Agent where
  | cdie (d : Fin 4) | hdie (d : Fin 2) | peer (port : Fin 32) (dev : BitVec 16) | host
  deriving DecidableEq, Repr

/-- Links that train and retrain (R215, R220). -/
inductive Link where | port (p : Fin 32) | host
  deriving DecidableEq, Repr

/-- Checkpoints that report the end of a sweep (R141, R145). -/
inductive Checkpoint where
  | core (c : CoreId) | router (t : Fin 256) | slice (s : Fin 512) | teller (t : Fin 512)
  | copyEngine (t : Fin 256) | memCtrl (d : Fin 4) | port (p : Fin 32) | peerPort (p : Fin 32)
  | hostPort | launchUnit (d : Fin 4)
  deriving DecidableEq, Repr

/-- What a request and its response carry (R133, R141, R149): the context and incarnation on whose behalf it is made, and
the join number of the agent that sent it. -/
structure Tag where
  cid : BitVec 12
  inc : BitVec 8
  join : BitVec 8
  deriving DecidableEq, Repr

/-- An agent that sends a packet, and what the packet carries. -/
structure Sender where
  agent : Agent
  tag : Tag
  deriving DecidableEq, Repr

/-- The hart that makes a request. -/
structure Requester where
  core : CoreId
  ctx : Ctx
  deriving DecidableEq, Repr

/-- A physical address under the SKEW of the leaf that translated it (R183). -/
structure SkewAddr where
  pa : Nat
  skew : Fin 3
  deriving DecidableEq, Repr

/-- A physical address that a hart's request names. -/
structure HartAddr where
  hart : Requester
  pa : Nat
  deriving DecidableEq, Repr

/-- What a Weakar Link peer asks for (Table 11-3, R218). A `reduce` adds the code of format `src` times 2^(k - 127) to a word
of format `f` (R82). -/
inductive PeerKind where
  | read (len : Nat) | write (bytes : List Byte) | atomic (op : AmoOp) (z : Sz) (b : Word)
  | cas (z : Sz) (expected b : Word) | reduce (f src : Fmt) (k code : Nat)
  | amsg (h : Byte) (payload : List Byte)
  deriving DecidableEq, Repr

/-- A request that a Weakar Link peer sends (R219). -/
structure PeerReq where
  dev : BitVec 16
  addr : Nat
  cid : BitVec 12
  inc : BitVec 8
  join : BitVec 8
  kind : PeerKind
  deriving DecidableEq, Repr

/-- A CXL.io or CXL.mem request from the host (R216), under the join number that the host holds (R149): a write when `write`
holds bytes. -/
structure HostReq where
  join : BitVec 8
  addr : Nat
  len : Nat
  write : Option (List Byte)
  deriving DecidableEq, Repr

/-- A read-modify-write at a home (R161): an AMO or VAMO element, or a CAS with its expected value. -/
inductive HomeOp where
  | amo (op : AmoOp) | cas (expected : Word)
  deriving DecidableEq, Repr

/-- Words of arrays in which an error may be detected, Table 10-11 (R205). -/
inductive ErrLoc where
  | sreg (core : CoreId) (ctx : Ctx) (r : SReg)
  | vword (core : CoreId) (ctx : Ctx) (v : VReg) (lane word : Nat)
  | mask (core : CoreId) (ctx : Ctx) (m : MReg) (word : Nat)
  | scale (core : CoreId) (ctx : Ctx) (k : KReg) (word : Nat)
  | cell (core : CoreId) (ctx : Ctx) (index : Nat)
  | queue (core : CoreId) (ctx : Ctx) (q : Fin 4) (entry word : Nat)
  | l1 (core : CoreId) (pa : Nat)
  | spad (core : CoreId) (off : Nat)
  | mem (pa : Nat)
  | slice (pa : Nat)
  | packet (pa : Nat) (len : Nat)
  | teller (t : Fin 512) (off : Nat)
  | l1Tag (core : CoreId) (pa : Nat)
  | sliceTag (pa : Nat)
  | till (core : CoreId) (ctx : Ctx)
  | history (core : CoreId) (ctx : Ctx) (dword : Nat)
  deriving DecidableEq, Repr

/-- Multicast key of a VLDM header (R135). -/
structure McKey where
  base : Nat
  stride : Nat
  len : Nat
  esize : Nat
  mask : BitVec 16
  cid : BitVec 12
  inc : BitVec 8
  deriving DecidableEq, Repr

/-- A byte range that a VLDM reads at one slice, as its header names it (R133, R135). -/
structure McPart where
  slice : Fin 512
  key : McKey
  deriving DecidableEq, Repr

/-- One constructor per row of spec/opcode_table.json. The instructions carry the Stack of their form; the compressed
instructions are forms by themselves (R266); the module's steps are entries of State's inbox. The command steps act on
the oldest command that waits in a command block, and mextWrite on the value last stored to MEXT. -/
inductive Instr where
  | add (x : Stack) (d a b : SReg)
  | sub (x : Stack) (d a b : SReg)
  | and (x : Stack) (d a b : SReg)
  | or (x : Stack) (d a b : SReg)
  | xor (x : Stack) (d a b : SReg)
  | shl (x : Stack) (d a b : SReg)
  | shr (x : Stack) (d a b : SReg)
  | sra (x : Stack) (d a b : SReg)
  | mul (x : Stack) (d a b : SReg)
  | mulh (x : Stack) (d a b : SReg)
  | mulhn (x : Stack) (d a b : SReg)
  | div (x : Stack) (d a b : SReg)
  | divn (x : Stack) (d a b : SReg)
  | rem (x : Stack) (d a b : SReg)
  | remn (x : Stack) (d a b : SReg)
  | min (x : Stack) (d a b : SReg)
  | max (x : Stack) (d a b : SReg)
  | minn (x : Stack) (d a b : SReg)
  | maxn (x : Stack) (d a b : SReg)
  | slt (x : Stack) (d a b : SReg)
  | sltn (x : Stack) (d a b : SReg)
  | clz (x : Stack) (d a : SReg)
  | popc (x : Stack) (d a : SReg)
  | shli (x : Stack) (d a : SReg) (n : BitVec 6)
  | shri (x : Stack) (d a : SReg) (n : BitVec 6)
  | srai (x : Stack) (d a : SReg) (n : BitVec 6)
  | addi (x : Stack) (d a : SReg) (i : BitVec 12)
  | andi (x : Stack) (d a : SReg) (i : BitVec 12)
  | ori (x : Stack) (d a : SReg) (i : BitVec 12)
  | xori (x : Stack) (d a : SReg) (i : BitVec 12)
  | slti (x : Stack) (d a : SReg) (i : BitVec 12)
  | lih (x : Stack) (d : SReg) (i : BitVec 18)
  | adpc (x : Stack) (d : SReg) (i : BitVec 18)
  | hint (x : Stack) (e : BitVec 12)
  | nop (x : Stack)
  | ld (x : Stack) (d a : SReg) (i : BitVec 8) (z : Sz)
  | st (x : Stack) (d a : SReg) (i : BitVec 8) (z : Sz)
  | jalr (x : Stack) (d a : SReg) (i : BitVec 8)
  | jal (x : Stack) (d : SReg) (i : BitVec 18)
  | beq (x : Stack) (a b : SReg) (i : BitVec 12)
  | bne (x : Stack) (a b : SReg) (i : BitVec 12)
  | blt (x : Stack) (a b : SReg) (i : BitVec 12)
  | bge (x : Stack) (a b : SReg) (i : BitVec 12)
  | bltn (x : Stack) (a b : SReg) (i : BitVec 12)
  | bgen (x : Stack) (a b : SReg) (i : BitVec 12)
  | caddi (d : Fin 32) (i : BitVec 6)
  | cli (d : Fin 32) (i : BitVec 6)
  | cmov (d a : Fin 32)
  | cadd (d a : Fin 32)
  | csub (d a : Fin 32)
  | cbeqz (a : Fin 32) (i : BitVec 6)
  | cbnez (a : Fin 32) (i : BitVec 6)
  | cj (i : BitVec 11)
  | cldw (d a : Fin 8) (u : BitVec 5)
  | cldd (d a : Fin 8) (u : BitVec 5)
  | cstw (d a : Fin 8) (u : BitVec 5)
  | cstd (d a : Fin 8) (u : BitVec 5)
  | vadd (x : Stack) (d a : VReg) (b : Fin 64) (m : MReg) (s : Bool)
  | vsub (x : Stack) (d a : VReg) (b : Fin 64) (m : MReg) (s : Bool)
  | vmul (x : Stack) (d a : VReg) (b : Fin 64) (m : MReg) (s : Bool)
  | vmulh (x : Stack) (d a : VReg) (b : Fin 64) (m : MReg) (s : Bool)
  | vdiv (x : Stack) (d a : VReg) (b : Fin 64) (m : MReg) (s : Bool)
  | vmin (x : Stack) (d a : VReg) (b : Fin 64) (m : MReg) (s : Bool)
  | vmax (x : Stack) (d a : VReg) (b : Fin 64) (m : MReg) (s : Bool)
  | vand (x : Stack) (d a : VReg) (b : Fin 64) (m : MReg) (s : Bool)
  | vor (x : Stack) (d a : VReg) (b : Fin 64) (m : MReg) (s : Bool)
  | vxor (x : Stack) (d a : VReg) (b : Fin 64) (m : MReg) (s : Bool)
  | vshl (x : Stack) (d a : VReg) (b : Fin 64) (m : MReg) (s : Bool)
  | vshr (x : Stack) (d a : VReg) (b : Fin 64) (m : MReg) (s : Bool)
  | vsra (x : Stack) (d a : VReg) (b : Fin 64) (m : MReg) (s : Bool)
  | vadc (x : Stack) (d a : VReg) (b : Fin 64) (c : MReg) (s : Bool)
  | vsbc (x : Stack) (d a : VReg) (b : Fin 64) (c : MReg) (s : Bool)
  | vfma (x : Stack) (d a : VReg) (b : Fin 64) (m : MReg) (s : Bool)
  | vfms (x : Stack) (d a : VReg) (b : Fin 64) (m : MReg) (s : Bool)
  | vfnma (x : Stack) (d a : VReg) (b : Fin 64) (m : MReg) (s : Bool)
  | vfnms (x : Stack) (d a : VReg) (b : Fin 64) (m : MReg) (s : Bool)
  | vsel (x : Stack) (d a : VReg) (b : Fin 64) (c : MReg) (s : Bool)
  | vcmp (x : Stack) (c : VCond) (d : MReg) (a : VReg) (b : Fin 64) (m : MReg) (s : Bool)
  | vbsadd (x : Stack) (d a b : VReg) (m : MReg)
  | vbsmul (x : Stack) (d a b : VReg) (m : MReg)
  | vabs (x : Stack) (d a : VReg) (m : MReg)
  | vneg (x : Stack) (d a : VReg) (m : MReg)
  | vsqrt (x : Stack) (d a : VReg) (m : MReg)
  | vrcp (x : Stack) (d a : VReg) (m : MReg)
  | vrsq (x : Stack) (d a : VReg) (m : MReg)
  | vexp2 (x : Stack) (d a : VReg) (m : MReg)
  | vlog2 (x : Stack) (d a : VReg) (m : MReg)
  | vclass (x : Stack) (d a : VReg) (m : MReg)
  | vnot (x : Stack) (d a : VReg) (m : MReg)
  | vclz (x : Stack) (d a : VReg) (m : MReg)
  | vpopc (x : Stack) (d a : VReg) (m : MReg)
  | vfetch (x : Stack) (a : SReg) (m : MReg)
  | vstop (x : Stack)
  | vnext (x : Stack) (a : VReg)
  | vpbr (x : Stack) (o : BitVec 6) (a : VReg)
  | vmov (x : Stack) (d a : VReg) (m : MReg)
  | vmovScalar (x : Stack) (d : VReg) (a : SReg) (m : MReg)
  | vrsum (x : Stack) (d a : VReg) (m : MReg)
  | vrmax (x : Stack) (d a : VReg) (m : MReg)
  | vrmin (x : Stack) (d a : VReg) (m : MReg)
  | vrand (x : Stack) (d a : VReg) (m : MReg)
  | vror (x : Stack) (d a : VReg) (m : MReg)
  | mand (x : Stack) (d a b : MReg)
  | mor (x : Stack) (d a b : MReg)
  | mxor (x : Stack) (d a b : MReg)
  | mandn (x : Stack) (d a b : MReg)
  | mnot (x : Stack) (d a : MReg)
  | mshl (x : Stack) (d a : MReg) (b : SReg)
  | mpopc (x : Stack) (d : SReg) (a : MReg)
  | mfirst (x : Stack) (d : SReg) (a : MReg)
  | mset (x : Stack) (d : MReg) (a : SReg)
  | vscl (x : Stack) (k : KReg) (a : VReg) (f : Fmt) (m : MReg) (r : RmField)
  | vcvt (x : Stack) (d a : VReg) (f : Fmt) (m : MReg) (r : RmField)
  | vperm (x : Stack) (d a i : VReg) (m : MReg)
  | vbsj (x : Stack) (d a : VReg)
  | vresh (x : Stack) (d a : VReg) (f : Fmt)
  | vext (x : Stack) (d : SReg) (a : VReg) (b : SReg)
  | vins (x : Stack) (d : VReg) (a b : SReg)
  | vcomp (x : Stack) (d a : VReg) (m : MReg)
  | vargmax (x : Stack) (d a : VReg) (m : MReg)
  | vdecb (x : Stack) (d a : VReg) (z y w : Fin 4)
  | vbsl (x : Stack) (d a : VReg)
  | vidx (x : Stack) (d : VReg) (s : BitVec 10) (t : BitVec 8)
  | vld (x : Stack) (d : Fin 64) (a : SReg) (m : MReg)
  | vldStrided (x : Stack) (d : Fin 64) (a b : SReg) (m : MReg)
  | vldx (x : Stack) (d : Fin 64) (a : SReg) (i : VReg) (m : MReg)
  | vldm (x : Stack) (d : Fin 64) (a b : SReg) (m : MReg)
  | vldb (x : Stack) (d : Fin 64) (a b : SReg) (m : MReg)
  | vldbS2c (x : Stack) (d : Fin 64) (a b : SReg) (m : MReg)
  | vpref (x : Stack) (a : SReg) (m : MReg)
  | vprefStrided (x : Stack) (a b : SReg) (m : MReg)
  | vprefIndexed (x : Stack) (a : SReg) (i : VReg) (m : MReg)
  | vkld (x : Stack) (k : KReg) (a : SReg)
  | vst (x : Stack) (v : VReg) (a : SReg) (m : MReg)
  | vstStrided (x : Stack) (v : VReg) (a b : SReg) (m : MReg)
  | vstx (x : Stack) (v : VReg) (a : SReg) (i : VReg) (m : MReg)
  | vstb (x : Stack) (v : VReg) (a b : SReg) (m : MReg)
  | vstbC2s (x : Stack) (v : VReg) (a b : SReg) (m : MReg)
  | vred (x : Stack) (v : VReg) (a : SReg) (m : MReg)
  | vredIndexed (x : Stack) (v : VReg) (a : SReg) (i : VReg) (m : MReg)
  | vkst (x : Stack) (k : KReg) (a : SReg)
  | vamo (x : Stack) (o : Fin 8) (d : VReg) (a : SReg) (i : VReg) (m : MReg)
  | vamoSwap (x : Stack) (d : VReg) (a : SReg) (i : VReg) (m : MReg)
  | qdrop (x : Stack) (n : Fin 4)
  | tkclr (x : Stack)
  | msetm (x : Stack) (l : MvlC)
  | mzero (x : Stack) (t : Fin 4)
  | mrel (x : Stack)
  | mop (x : Stack) (a b : VReg)
  | mrow (x : Stack) (i : SReg) (v vb : VReg)
  | mmovv (x : Stack) (d : VReg) (a b : SReg) (m : MReg) (t : Fin 4)
  | mlda (x : Stack) (v : VReg) (a b : SReg) (m : MReg) (t : Fin 4)
  | mstaStrided (x : Stack) (a b : SReg) (m : MReg) (t : Fin 4)
  | mstaIndexed (x : Stack) (a : SReg) (i : VReg) (m : MReg) (t : Fin 4)
  | cecopy (x : Stack) (a b : SReg)
  | cefill (x : Stack) (a b : SReg)
  | cestat (x : Stack) (d : SReg)
  | launch (x : Stack) (d a : SReg)
  | farm (x : Stack) (a b : SReg)
  | bar (x : Stack) (a : SReg) (s : Scope)
  | xsend (x : Stack) (a : SReg) (v : VReg)
  | xrecv (x : Stack) (d : VReg) (a : SReg)
  | amsg (x : Stack) (d a b : SReg)
  | setvl (x : Stack) (d a : SReg) (f : Fmt) (n : NregC)
  | setvlb (x : Stack) (d : SReg) (f : Fmt) (n : NregC) (z y w : Fin 5)
  | setsh (x : Stack) (d : VReg) (s : Fin 64) (k : ShKind) (f : ShFace)
  | csrr (x : Stack) (d : SReg) (c : Csr)
  | csrw (x : Stack) (a : SReg) (c : Csr)
  | csrs (x : Stack) (a : SReg) (c : Csr)
  | csrc (x : Stack) (a : SReg) (c : Csr)
  | amo (x : Stack) (d a b : SReg) (o : AmoOp) (z : Sz)
  | cas (x : Stack) (d a b : SReg) (z : Sz)
  | ldaq (x : Stack) (d a : SReg) (s : Scope) (z : Sz)
  | strl (x : Stack) (d a : SReg) (s : Scope) (z : Sz)
  | claim (x : Stack) (d a b : SReg)
  | waitm (x : Stack) (a b : SReg)
  | sysc (x : Stack)
  | tret (x : Stack)
  | exit (x : Stack)
  | fence (x : Stack) (s : Scope) (c : BitVec 4)
  | vsave (x : Stack) (a : SReg)
  | vrest (x : Stack) (a : SReg)
  | incb (x : Stack) (d a : SReg)
  | rcf (x : Stack) (d a : SReg)
  | slwb (x : Stack) (a b : SReg)
  | hmsw (x : Stack) (a : SReg)
  | gangAdmission (die : Fin 4)
  | waitcRead (g : BitVec 8)
  | doneAdd (g : BitVec 8)
  | gangStaging (g : BitVec 8) (c : CoreId)
  | budgetExpiry (g : BitVec 8)
  | forcedStop (c : CoreId) (k : Ctx)
  | ageingPriorityRaise (c : CoreId) (k : Ctx)
  | lcOnToRetention (c : CoreId) (l : Fin 8)
  | lcRetentionToOff (c : CoreId) (l : Fin 8)
  | laneClusterWake (c : CoreId) (l : Fin 8)
  | registerRefill (c : CoreId) (k : Ctx) (v : VReg)
  | stripeIssue (c : CoreId) (k : Ctx)
  | instructionRetirement (c : CoreId) (k : Ctx)
  | interruptTaken (c : CoreId) (k : Ctx)
  | protectionViolation (master addr : Word)
  | pageSortingRound (c : CoreId) (k : Ctx) (pages : List Nat)
  | translationWalk (c : CoreId) (cid : BitVec 12) (va : Word)
  | tlbInvalidationAck (c : CoreId) (piece : Nat)
  | ptStoreCompletion (c : CoreId) (k : Ctx)
  | wordRegistration (c : CoreId) (k : Ctx) (at_ : SkewAddr) (val : BitVec 32) (be : BitVec 4)
  | sliceRead (r : Requester) (at_ : SkewAddr)
  | readForward (c : CoreId) (pa : Nat)
  | missTableAdmission (sl : Fin 512)
  | responseArrival (c : CoreId) (pa : Nat)
  | writeBack (c : CoreId) (pa : Nat)
  | homeWriteApply (w : Sender) (pa : Nat) (bytes : List Byte)
  | sharerInvalidation (a : Agent) (piece : Nat)
  | homeAtomic (r : Requester) (op : HomeOp) (z : Sz) (pa : Nat) (b : Word)
  | claimService (c : CoreId) (k : Ctx) (pa : Nat) (req : Word)
  | farmWrite (at_ : HartAddr) (total : Word)
  | vredElementAdd (c : CoreId) (k : Ctx)
  | progressWordAdd (c : CoreId) (k : Ctx)
  | multicastHeader (c : CoreId) (k : Ctx)
  | multicastBeatSend (part : McPart)
  | tellerHandlerRun (t : Fin 512)
  | handlerAbort (t : Fin 512)
  | copyEngineTransfer (c : CoreId) (k : Ctx)
  | monitorWake (c : CoreId) (k : Ctx)
  | xrecvMessageArrival (c : CoreId) (k : Ctx)
  | incarnationChange (p : Fin 32) (cid : BitVec 12)
  | sweepReport (ck : Checkpoint) (cid : BitVec 12) (inc : BitVec 8)
  | dieLossReport (a : Agent)
  | linkRetrain (l : Link)
  | linkRetrainTimeout (l : Link)
  | linkTrained (p : Fin 32) (dev : BitVec 16)
  | agentRejoin (a : Agent)
  | weakarRequestAdmission (p : Fin 32) (r : PeerReq)
  | hostSnoop (piece : Nat)
  | arrayErrorDetected (loc : ErrLoc) (correctable : Bool)
  | junctionOverTemperature (a : Agent)
  | powerCapExceeded (watts : BitVec 16)
  | powcapWrite (v : Word)
  | selfidWrite (v : Word)
  | portEnableWrite (p : Fin 32) (v : Word)
  | deviceRegisterWrite (off : Nat) (v : Word)
  | hostLinkRequest (r : HostReq)
  | missFillAnswer (sl : Fin 512) (piece : Nat)
  | powerDrawBelowCap (watts : BitVec 16)
  | cmdLaunch
  | cmdIncb
  | cmdRcf
  | cmdSlwb
  | cmdHmsw
  | cmdDeclareFailed
  | cmdResumeHart
  | cmdRetireHart
  | cmdPreEmptGang
  | cmdReleaseMaster
  | cmdContextTable
  | cmdInterruptHart
  | cmdRerunGang
  | cmdFarm
  | cmdLoadTellers
  | cmdAttest
  | cmdUnknown
  | commandCompletion
  | boot
  | mextWrite
  | measurementDone
  | hostLinkTrained
  deriving DecidableEq, Repr

end Sys2Proof
end

