-- ==== Sys2Proof/Machine/Floats.lean ====
section
/-! DEFINITION. The floating formats (R60, R61), exact arithmetic on their values, and the one rounding of R73. Flags
are numbers laid out as FFLAGS (Table 4-7). -/

namespace Sys2Proof.Machine

/-- FFLAGS.NX. -/
def fNX : Nat := 1
/-- FFLAGS.UF. -/
def fUF : Nat := 2
/-- FFLAGS.OF. -/
def fOF : Nat := 4
/-- FFLAGS.DZ. -/
def fDZ : Nat := 8
/-- FFLAGS.NV. -/
def fNV : Nat := 16
/-- FFLAGS.SAT. -/
def fSAT : Nat := 32

/-- R73: an operation that raises NV raises no other flag. -/
def onlyNV (f : Nat) : Nat := if f.testBit 4 then fNV else f

/-- The width of a format (Table 4-1). -/
def width : Fmt → Nat
  | .i8 | .n8 | .e4m3 | .e5m2 | .e8m0 => 8
  | .i16 | .n16 | .fp16 | .bf16 => 16
  | .i32 | .n32 | .fp32 => 32
  | .i64 | .n64 => 64
  | .i4 | .n4 | .e2m1 => 4
  | .bsi n | .bsn n => n + 1

/-- FP32, FP16 and BF16. -/
def isFloat : Fmt → Bool
  | .fp32 | .fp16 | .bf16 => true
  | .i8 | .i16 | .i32 | .i64 | .n8 | .n16 | .n32 | .n64 | .i4 | .n4 | .e4m3 | .e5m2 | .e2m1 | .e8m0 | .bsi _ | .bsn _ =>
    false

/-- E4M3, E5M2 and E2M1. -/
def isSmall : Fmt → Bool
  | .e4m3 | .e5m2 | .e2m1 => true
  | .i8 | .i16 | .i32 | .i64 | .n8 | .n16 | .n32 | .n64 | .i4 | .n4 | .fp32 | .fp16 | .bf16 | .e8m0 | .bsi _ | .bsn _ =>
    false

/-- I8 to I64 and N8 to N64. -/
def isInt : Fmt → Bool
  | .i8 | .i16 | .i32 | .i64 | .n8 | .n16 | .n32 | .n64 => true
  | .i4 | .n4 | .fp32 | .fp16 | .bf16 | .e4m3 | .e5m2 | .e2m1 | .e8m0 | .bsi _ | .bsn _ => false

/-- The formats read as signed integers. -/
def isSigned : Fmt → Bool
  | .i8 | .i16 | .i32 | .i64 | .i4 | .bsi _ => true
  | .n8 | .n16 | .n32 | .n64 | .n4 | .fp32 | .fp16 | .bf16 | .e4m3 | .e5m2 | .e2m1 | .e8m0 | .bsn _ => false

/-- The bit-sliced formats. -/
def isSliced : Fmt → Bool
  | .bsi _ | .bsn _ => true
  | .i8 | .i16 | .i32 | .i64 | .n8 | .n16 | .n32 | .n64 | .i4 | .n4 | .fp32 | .fp16 | .bf16 | .e4m3 | .e5m2 | .e2m1
  | .e8m0 => false

/-- I, N, FP32, FP16 and BF16: the formats of vector arithmetic (Table 4-1). -/
def isArith (f : Fmt) : Bool := isInt f || isFloat f

/-- Table 4-2: mantissa bits, exponent bits, bias, the code of the largest finite value, the canonical NaN. -/
structure FSpec where
  mb : Nat
  eb : Nat
  bias : Nat
  maxCode : Nat
  hasInf : Bool
  nan : Nat
  deriving DecidableEq, Repr

/-- Table 4-2. Formats that are no floats read as FP32 here and are never asked for. -/
def fspec : Fmt → FSpec
  | .fp16 => ⟨10, 5, 15, 0x7BFF, true, 0x7E00⟩
  | .bf16 => ⟨7, 8, 127, 0x7F7F, true, 0x7FC0⟩
  | .e4m3 => ⟨3, 4, 7, 0x7E, false, 0x7F⟩
  | .e5m2 => ⟨2, 5, 15, 0x7B, true, 0x7E⟩
  | .e2m1 => ⟨1, 2, 1, 0x7, false, 0x0⟩
  | .fp32 | .i8 | .i16 | .i32 | .i64 | .n8 | .n16 | .n32 | .n64 | .i4 | .n4 | .e8m0 | .bsi _ | .bsn _ =>
    ⟨23, 8, 127, 0x7F7FFFFF, true, 0x7FC00000⟩

/-- A value: a NaN (signalling or not), an infinity, or (-1)^neg * m * 2^e. -/
inductive FVal where
  | nan (sig : Bool)
  | inf (neg : Bool)
  | fin (neg : Bool) (m : Nat) (e : Int)
  deriving DecidableEq, Repr

/-- R61, but for the purse escape of E2M1, which its reader resolves first (R69). -/
def decodeF (f : Fmt) (code : Nat) : FVal :=
  if f = .e8m0 then (if code % 256 = 255 then .nan false else .fin false 1 ((code % 256 : Nat) - 127))
  else
    let s := fspec f
    let neg := code.testBit (s.mb + s.eb)
    let ex := code / 2 ^ s.mb % 2 ^ s.eb
    let ma := code % 2 ^ s.mb
    if f = .e4m3 ∧ code % 128 = 127 then .nan false
    else if ex = 2 ^ s.eb - 1 ∧ s.hasInf then (if ma = 0 then .inf neg else .nan (!ma.testBit (s.mb - 1)))
    else if ex = 0 then .fin neg ma (1 - s.bias - s.mb : Int)
    else .fin neg (2 ^ s.mb + ma) ((ex : Int) - s.bias - s.mb)

/-- A subnormal code of FP32, FP16 or BF16. -/
def isSubnormal (f : Fmt) (code : Nat) : Bool :=
  isFloat f && code / 2 ^ (fspec f).mb % 2 ^ (fspec f).eb == 0 && code % 2 ^ (fspec f).mb != 0

/-- An operand of vector arithmetic or conversion, flushed under FTZ (R74). -/
def operandF (f : Fmt) (ftz : Bool) (code : Nat) : FVal :=
  if ftz && isSubnormal f code then .fin (code.testBit ((fspec f).mb + (fspec f).eb)) 0 0 else decodeF f code

/-- An integer operand: signed for I formats, unsigned for N formats (R63). -/
def intOf (f : Fmt) (code : Nat) : Int :=
  if isSigned f then signedOf (width f) code else (code % 2 ^ width f : Nat)

/-- A signalling NaN raises NV (R62). -/
def sigNV : FVal → Nat
  | .nan true => fNV
  | .nan false | .inf _ | .fin _ _ _ => 0

/-- m * 2^e rounded to a multiple of 2^q in mode `rm`: the multiple, and whether it differs. -/
def roundAt (rm : RM) (neg : Bool) (m : Nat) (e q : Int) : Nat × Bool :=
  if q ≤ e then (m * 2 ^ (e - q).toNat, false)
  else
    let d := (q - e).toNat
    let n := m / 2 ^ d
    let r := m % 2 ^ d
    let up := match rm with
      | .rne => 2 * r > 2 ^ d || 2 * r == 2 ^ d && n % 2 == 1
      | .rtz => false
      | .rdn => neg && r != 0
      | .rup => !neg && r != 0
    (if up then n + 1 else n, r != 0)

/-- What an overflow delivers (R73, Table 4-10): an infinity, or the largest finite value. -/
def overflowCode (s : FSpec) (rm : RM) (sat neg : Bool) : Nat :=
  let toInf := match rm with
    | .rne => true
    | .rtz => false
    | .rdn => neg
    | .rup => !neg
  if s.hasInf && !sat && toInf then (2 ^ s.eb - 1) * 2 ^ s.mb else s.maxCode

/-- Rounds a finite value once to a float format: its code and its flags (R73, R74). `sat` makes an overflow deliver the
largest finite value. -/
def roundF (f : Fmt) (rm : RM) (ftz sat : Bool) (neg : Bool) (m : Nat) (e : Int) : Nat × Nat :=
  let s := fspec f
  let sign := if neg then 2 ^ (s.mb + s.eb) else 0
  if m = 0 then ((if f = .e2m1 then 0 else sign), 0)
  else
    let ev : Int := (bitLen m : Int) - 1 + e
    let emin : Int := 1 - s.bias
    let qmin : Int := emin - s.mb
    let q0 := ev - s.mb
    let q := if q0 < qmin then qmin else q0
    let (n, inex) := roundAt rm neg m e q
    let code := (q - qmin).toNat * 2 ^ s.mb + n
    if code > s.maxCode then (sign + overflowCode s rm sat neg, fOF ||| fNX)
    else
      let tiny := ev < emin && !(ev == emin - 1 && (roundAt rm neg m e q0).1 == 2 ^ (s.mb + 1))
      if ftz && isFloat f && code < 2 ^ s.mb && code != 0 then (sign, fUF ||| fNX)
      else
        let c := if f = .e2m1 ∧ code = 0 then 0 else sign + code
        (c, (if inex then fNX else 0) ||| (if tiny && inex then fUF else 0))

/-- An infinity in a float format that has one. -/
def infCode (f : Fmt) (neg : Bool) : Nat :=
  let s := fspec f
  (if neg then 2 ^ (s.mb + s.eb) else 0) + (2 ^ s.eb - 1) * 2 ^ s.mb

/-- The canonical NaN of a format (R62). -/
def nanCode (f : Fmt) : Nat := (fspec f).nan

/-- Delivers a value in FP32, FP16 or BF16 without a further operation: rounds it once. -/
def deliver (f : Fmt) (rm : RM) (ftz : Bool) : FVal → Nat × Nat
  | .nan _ => (nanCode f, 0)
  | .inf neg => (infCode f neg, 0)
  | .fin neg m e => roundF f rm ftz false neg m e

/-- Whether a value is zero. -/
def FVal.isZero : FVal → Bool
  | .fin _ m _ => m == 0
  | .nan _ | .inf _ => false

/-- Whether a value is a NaN. -/
def FVal.isNan : FVal → Bool
  | .nan _ => true
  | .inf _ | .fin _ _ _ => false

/-- The sign of a value. -/
def FVal.neg : FVal → Bool
  | .nan _ => false
  | .inf n => n
  | .fin n _ _ => n

/-- The value with its sign reversed. -/
def FVal.negate : FVal → FVal
  | .nan s => .nan s
  | .inf n => .inf (!n)
  | .fin n m e => .fin (!n) m e

/-- The value of a finite one as an integer multiple of 2^q, for q at most its exponent. -/
def scaledInt (neg : Bool) (m : Nat) (e q : Int) : Int :=
  let v : Int := (m * 2 ^ (e - q).toNat : Nat)
  if neg then -v else v

/-- The exact sum; its flags are NV alone (R73). An exact zero is +0, or −0 under RDN, unless both terms are zeros of
one sign (IEEE 754-2019, R60). Under RDN a sum of +0 with the identity −0 of R80 is therefore −0, although R80 says that
the identity leaves every sum unchanged. DESIGN CHOICE, log entry 46. -/
def addF (rm : RM) (x y : FVal) : FVal × Nat :=
  let nv := sigNV x ||| sigNV y
  match x, y with
  | .nan _, _ => (.nan false, nv)
  | _, .nan _ => (.nan false, nv)
  | .inf a, .inf b => if a = b then (.inf a, 0) else (.nan false, fNV)
  | .inf a, .fin _ _ _ => (.inf a, 0)
  | .fin _ _ _, .inf b => (.inf b, 0)
  | .fin a m e, .fin b n f =>
    if m = 0 ∧ n = 0 then (.fin (if a = b then a else rm = .rdn) 0 0, 0)
    else
      let q := if e < f then e else f
      let v := scaledInt a m e q + scaledInt b n f q
      if v = 0 then (.fin (rm = .rdn) 0 0, 0) else (.fin (v < 0) v.natAbs q, 0)

/-- The exact product; its flags are NV alone (R73). -/
def mulF (x y : FVal) : FVal × Nat :=
  let nv := sigNV x ||| sigNV y
  let s := x.neg != y.neg
  match x, y with
  | .nan _, _ => (.nan false, nv)
  | _, .nan _ => (.nan false, nv)
  | .inf _, .inf _ => (.inf s, 0)
  | .inf _, .fin _ n _ => if n = 0 then (.nan false, fNV) else (.inf s, 0)
  | .fin _ m _, .inf _ => if m = 0 then (.nan false, fNV) else (.inf s, 0)
  | .fin _ m e, .fin _ n f => (.fin s (m * n) (e + f), 0)

/-- The quotient with enough bits and a sticky bit that one rounding to a format of this chapter is correct. -/
def divFin (s : Bool) (m n : Nat) (e f : Int) : FVal :=
  let k := 40 + bitLen n
  let q := m * 2 ^ k / n
  .fin s (2 * q + (if m * 2 ^ k % n = 0 then 0 else 1)) (e - f - k - 1)

/-- The quotient; its flags are NV and DZ (R73). -/
def divF (x y : FVal) : FVal × Nat :=
  let nv := sigNV x ||| sigNV y
  let s := x.neg != y.neg
  match x, y with
  | .nan _, _ => (.nan false, nv)
  | _, .nan _ => (.nan false, nv)
  | .inf _, .inf _ => (.nan false, fNV)
  | .inf _, .fin _ _ _ => (.inf s, 0)
  | .fin _ _ _, .inf _ => (.fin s 0 0, 0)
  | .fin _ m e, .fin _ n f =>
    if n = 0 then (if m = 0 then (.nan false, fNV) else (.inf s, fDZ))
    else if m = 0 then (.fin s 0 0, 0)
    else (divFin s m n e f, 0)

/-- The square root (R73). -/
def sqrtF (x : FVal) : FVal × Nat :=
  match x with
  | .nan _ => (.nan false, sigNV x)
  | .inf neg => if neg then (.nan false, fNV) else (.inf false, 0)
  | .fin neg m e =>
    if m = 0 then (.fin neg 0 0, 0)
    else if neg then (.nan false, fNV)
    else
      let k : Nat := 80 + (e % 2).toNat
      let n := m * 2 ^ k
      let r := isqrt n
      (.fin false (2 * r + (if r * r = n then 0 else 1)) ((e - k) / 2 - 1), 0)

/-- The reciprocal square root (R73): infinity with DZ for a zero, with the zero's sign. -/
def rsqrtF (x : FVal) : FVal × Nat :=
  match x with
  | .nan _ => (.nan false, sigNV x)
  | .inf neg => if neg then (.nan false, fNV) else (.fin false 0 0, 0)
  | .fin neg m e =>
    if m = 0 then (.inf neg, fDZ)
    else if neg then (.nan false, fNV)
    else
      let m2 := if e % 2 = 0 then m else 2 * m
      let e2 := if e % 2 = 0 then e else e - 1
      let p := 40 + bitLen m2
      let r := isqrt (2 ^ (2 * p) / m2)
      (.fin false (2 * r + (if m2 * r * r = 2 ^ (2 * p) then 0 else 1)) (-(e2 / 2) - p - 1), 0)

/-- Fractional bits of the fixed-point numbers of exp2 and log2. -/
def fixBits : Nat := 320

/-- 2 atanh of `z` in fixed point, by its series: `p` is the power, `z2` the square, `k` the odd divisor. -/
def atanhLoop : Nat → Nat → Nat → Nat → Nat → Nat
  | 0, _, _, _, acc => acc
  | f + 1, p, z2, k, acc => atanhLoop f (p * z2 / 2 ^ fixBits) z2 (k + 2) (acc + p / k)

/-- The natural logarithm of m / 2^b, for 2^b ≤ m < 2^(b + 1), in fixed point. -/
def lnFix (m b : Nat) : Nat :=
  let z := (m - 2 ^ b) * 2 ^ fixBits / (m + 2 ^ b)
  2 * atanhLoop 110 z (z * z / 2 ^ fixBits) 1 0

/-- ln 2 in fixed point: 2 atanh (1/3). -/
def ln2Fix : Nat :=
  let z := 2 ^ fixBits / 3
  2 * atanhLoop 110 z (z * z / 2 ^ fixBits) 1 0

/-- exp of `y` in fixed point, by its series: `t` is the term. -/
def expLoop : Nat → Nat → Nat → Nat → Nat → Nat
  | 0, _, _, _, acc => acc
  | f + 1, y, t, k, acc => expLoop f y (t * y / 2 ^ fixBits / (k + 1)) (k + 1) (acc + t)

/-- 2^x (R325): exact for an integer x; otherwise the leading bits and a sticky bit. DEDUCED, log entry 26. -/
def exp2F (x : FVal) : FVal × Nat :=
  match x with
  | .nan _ => (.nan false, sigNV x)
  | .inf neg => if neg then (.fin false 0 0, 0) else (.inf false, 0)
  | .fin neg m e =>
    if m = 0 then (.fin false 1 0, 0)
    else if (bitLen m : Int) + e > 10 then (.fin false 1 (if neg then -1024 else 1024), 0)
    else if e ≥ 0 then (.fin false 1 (scaledInt neg m e 0), 0)
    else
      let d := (-e).toNat
      let v : Int := if neg then -(m : Int) else m
      let n := v / (2 ^ d : Nat)
      let r := (v % (2 ^ d : Nat)).toNat
      if r = 0 then (.fin false 1 n, 0)
      else
        let y := r * ln2Fix / 2 ^ d
        (.fin false (2 * expLoop 90 y (2 ^ fixBits) 0 0 + 1) (n - fixBits - 1), 0)

/-- log2 x (R325): exact for a power of two; otherwise the leading bits and a sticky bit. DEDUCED, log entry 26. -/
def log2F (x : FVal) : FVal × Nat :=
  match x with
  | .nan _ => (.nan false, sigNV x)
  | .inf neg => if neg then (.nan false, fNV) else (.inf false, 0)
  | .fin neg m e =>
    if m = 0 then (.inf true, fDZ)
    else if neg then (.nan false, fNV)
    else
      let b := bitLen m - 1
      let n : Int := b + e
      if m = 2 ^ b then (.fin (n < 0) n.natAbs 0, 0)
      else
        let l : Int := n * (2 ^ fixBits : Nat) + (lnFix m b * 2 ^ fixBits / ln2Fix : Nat)
        (.fin (l < 0) (2 * l.natAbs + 1) (-(fixBits : Int) - 1), 0)

/-- Whether x is below y; neither is a NaN. Zeros of both signs are equal. -/
def ltF (x y : FVal) : Bool :=
  match x, y with
  | .nan _, _ => false
  | _, .nan _ => false
  | .inf a, .inf b => a && !b
  | .inf a, .fin _ _ _ => a
  | .fin _ _ _, .inf b => !b
  | .fin a m e, .fin b n f =>
    let q := if e < f then e else f
    scaledInt a m e q < scaledInt b n f q

/-- The order of R78: −0 is below +0. -/
def belowF (x y : FVal) : Bool := ltF x y || x.isZero && y.isZero && x.neg && !y.neg

/-- A finite value rounded to an integer in mode `rm`, and whether it differs. -/
def toIntF (rm : RM) (neg : Bool) (m : Nat) (e : Int) : Int × Bool :=
  let (n, inex) := roundAt rm neg m e 0
  ((if neg then -(n : Int) else n), inex)

/-- The bounds of an integer format (R76). -/
def intLo (f : Fmt) : Int := if isSigned f then -(2 ^ (width f - 1) : Nat) else 0
/-- The bounds of an integer format (R76). -/
def intHi (f : Fmt) : Int := if isSigned f then (2 ^ (width f - 1) : Nat) - 1 else (2 ^ width f : Nat) - 1

/-- An exact integer result delivered under SAT (R76): its code and its flags. -/
def deliverInt (f : Fmt) (sat : Bool) (v : Int) : Nat × Nat :=
  if sat && v > intHi f then (codeOf (width f) (intHi f), fSAT)
  else if sat && v < intLo f then (codeOf (width f) (intLo f), fSAT)
  else (codeOf (width f) v, 0)

/-- A float value converted to an integer format (Table 4-10). -/
def floatToInt (f : Fmt) (rm : RM) : FVal → Nat × Nat
  | .nan _ => (0, fNV)
  | .inf neg => (codeOf (width f) (if neg then intLo f else intHi f), fNV)
  | .fin neg m e =>
    let (v, inex) := toIntF rm neg m e
    if v > intHi f then (codeOf (width f) (intHi f), fNV)
    else if v < intLo f then (codeOf (width f) (intLo f), fNV)
    else (codeOf (width f) v, if inex then fNX else 0)

/-- A float value converted to E8M0 (Table 4-10). -/
def floatToE8m0 : FVal → Nat × Nat
  | .nan _ => (255, fNV)
  | .inf _ => (255, fNV)
  | .fin _ m e =>
    if m = 0 then (255, fNV)
    else
      let ev : Int := (bitLen m : Int) - 1 + e + 127
      let c := if ev < 0 then 0 else if ev > 254 then 254 else ev
      (c.toNat, if m = 2 ^ (bitLen m - 1) && 0 ≤ ev && ev ≤ 254 then 0 else fNX)

/-- A float value converted to a float format (Table 4-10). -/
def floatToFloat (f : Fmt) (rm : RM) (ftz sat : Bool) (x : FVal) : Nat × Nat :=
  match x with
  | .nan sig => (nanCode f, if sig || f = .e2m1 then fNV else 0)
  | .inf neg =>
    let s := fspec f
    if s.hasInf then (infCode f neg, 0)
    else ((if neg then 2 ^ (s.mb + s.eb) else 0) + s.maxCode, fNV)
  | .fin neg m e => roundF f rm ftz sat neg m e

/-- R79: converts a value of a float or E8M0 source to the format `f`. -/
def convertF (f : Fmt) (rm : RM) (ftz sat : Bool) (x : FVal) : Nat × Nat :=
  if f = .e8m0 then floatToE8m0 x
  else if isFloat f || isSmall f then floatToFloat f rm ftz sat x
  else floatToInt f rm x

/-- R79: converts an integer of a source format to the format `f`. An exact zero is +0. -/
def convertI (src f : Fmt) (rm : RM) (ftz sat : Bool) (v : Int) : Nat × Nat :=
  if f = .e8m0 then floatToE8m0 (.fin (v < 0) v.natAbs 0)
  else if isFloat f || isSmall f then roundF f rm ftz sat (v < 0) v.natAbs 0
  else if isSigned src = isSigned f ∧ width src ≤ width f then (codeOf (width f) v, 0)
  else deliverInt f sat v

end Sys2Proof.Machine
end

