-- ==== Sys2Proof/WellFormed.lean ====
section
/-! DEFINITION. What each instruction admits before it (R259 to R263, R47, R88, R213), its engine queue (Table 1-1,
R274, R299, R319, R338), and the instructions that the encoding can write. -/

namespace Sys2Proof

/-- Which extension half-word a form takes, Table 13-12 (R263). -/
inductive ExtKind where | none | pitch | s2c | amsg
  deriving DecidableEq, Repr

/-- What an instruction admits. `mask`: it reads a mask and its m is not 000, and it is no carry register (F).
`ofs`: an OFS prefix may precede it, with offsets for the first source, and for the second where `ofs2`.
`tile`: 1 for MOP, 2 for MROW. `sliced`: a bit-sliced format is in force, so that no source may carry an offset (R47). -/
structure Adm where
  queue : Fin 5 := 0
  mask : Bool := false
  qd : Bool := false
  q1 : Bool := false
  q2 : Bool := false
  ord : Bool := false
  acq : Bool := false
  rel : Bool := false
  ntf : Bool := false
  ext : ExtKind := .none
  crit : Bool := false
  ofs : Bool := false
  ofs2 : Bool := false
  tile : Fin 3 := 0
  immx : Bool := false
  sliced : Bool := false
  deriving DecidableEq, Repr

namespace Adm

/-- Class 000 without an immediate of its own (R259). -/
def alu : Adm := { crit := true }

/-- ADDI, ANDI, ORI, XORI, SLTI (R259). -/
def aluI : Adm := { crit := true, immx := true }

/-- Queue 0 with TW and TP alone. -/
def scalar : Adm := {}

/-- Two-source instructions of class 010; `s` is the VS form (R47, R261). -/
def two (m : MReg) (s : Bool) : Adm :=
  { queue := 1, mask := m != 0, q1 := true, q2 := !s, crit := true, ofs := true, ofs2 := !s }

/-- VADC and VSBC, whose m field names a carry register (R312, R347). -/
def carry (s : Bool) : Adm := { queue := 1, q1 := true, q2 := !s, crit := true, ofs := true, ofs2 := !s }

/-- The unary group (R251, R47). -/
def one (m : MReg) : Adm := { queue := 1, mask := m != 0, q1 := true, crit := true, ofs := true }

/-- Instructions of class 011 that admit CRIT alone, with a mask where they read one. -/
def perm (m : MReg) : Adm := { queue := 1, mask := m != 0, crit := true }

/-- The VP group (R252): queue 1, neither CRIT nor OFS. -/
def vp (m : MReg) : Adm := { queue := 1, mask := m != 0 }

/-- VLD and VLDX (R261, R262). -/
def load (m : MReg) : Adm := { queue := 2, mask := m != 0, qd := true, ord := true, acq := true }

/-- VLDB and VLDB.S2C (R261 to R263). -/
def brickLoad (m : MReg) (e : ExtKind) : Adm := { queue := 2, mask := m != 0, qd := true, acq := true, ext := e }

/-- VST and VSTX (R262). -/
def store (m : MReg) : Adm := { queue := 2, mask := m != 0, ord := true, rel := true, ntf := true }

/-- VSTB and VSTB.C2S (R262, R263). -/
def brickStore (m : MReg) (e : ExtKind) : Adm := { queue := 2, mask := m != 0, rel := true, ext := e }

/-- VRED (R262). -/
def red (m : MReg) : Adm := { queue := 2, mask := m != 0, ord := true, rel := true }

/-- VAMO (R262). -/
def vamo (m : MReg) : Adm := { queue := 2, mask := m != 0, ord := true, acq := true, rel := true }

/-- Queue 2 with a mask where one is read, and nothing else. -/
def vmem (m : MReg) : Adm := { queue := 2, mask := m != 0 }

/-- The matrix queue (R87, R88). -/
def matrix (m : MReg) : Adm := { queue := 3, mask := m != 0 }

/-- MSTA (R96). -/
def drain (m : MReg) : Adm := { queue := 3, mask := m != 0, ntf := true }

/-- AMO and CAS (R262). -/
def atomic : Adm := { acq := true, rel := true }

end Adm

/-- What an instruction admits before it. -/
def Instr.adm : Instr → Adm
  | .add .. | .sub .. | .and .. | .or .. | .xor .. | .shl .. | .shr .. | .sra .. | .mul .. | .mulh .. | .mulhn ..
  | .div .. | .divn .. | .rem .. | .remn .. | .min .. | .max .. | .minn .. | .maxn .. | .slt .. | .sltn .. | .clz ..
  | .popc .. | .shli .. | .shri .. | .srai .. | .lih .. | .adpc .. => .alu
  | .addi .. | .andi .. | .ori .. | .xori .. | .slti .. | .hint .. | .nop .. => .aluI
  | .ld .. | .st .. | .jalr .. | .jal .. | .beq .. | .bne .. | .blt .. | .bge .. | .bltn .. | .bgen .. => .scalar
  | .vadd _ _ _ _ m s | .vsub _ _ _ _ m s | .vmul _ _ _ _ m s | .vmulh _ _ _ _ m s | .vdiv _ _ _ _ m s
  | .vmin _ _ _ _ m s | .vmax _ _ _ _ m s | .vand _ _ _ _ m s | .vor _ _ _ _ m s | .vxor _ _ _ _ m s
  | .vshl _ _ _ _ m s | .vshr _ _ _ _ m s | .vsra _ _ _ _ m s | .vfma _ _ _ _ m s | .vfms _ _ _ _ m s
  | .vfnma _ _ _ _ m s | .vfnms _ _ _ _ m s | .vsel _ _ _ _ m s | .vcmp _ _ _ _ _ m s => .two m s
  | .vadc _ _ _ _ _ s | .vsbc _ _ _ _ _ s => .carry s
  | .vbsadd _ _ _ _ m | .vbsmul _ _ _ _ m => .two m false
  | .vabs _ _ _ m | .vneg _ _ _ m | .vsqrt _ _ _ m | .vrcp _ _ _ m | .vrsq _ _ _ m | .vexp2 _ _ _ m
  | .vlog2 _ _ _ m | .vclass _ _ _ m | .vnot _ _ _ m | .vclz _ _ _ m | .vpopc _ _ _ m => .one m
  | .vfetch _ _ m => .vp m
  | .vstop .. | .vnext .. | .vpbr .. => .vp 0
  | .vmov _ _ _ m => { Adm.perm m with ofs := true }
  | .vcvt _ _ _ _ m _ => { Adm.perm m with ofs := true, q1 := true }
  | .vmovScalar _ _ _ m | .vrsum _ _ _ m | .vrmax _ _ _ m | .vrmin _ _ _ m | .vrand _ _ _ m | .vror _ _ _ m
  | .vperm _ _ _ _ m | .vcomp _ _ _ m | .vargmax _ _ _ m | .vscl _ _ _ _ m _ => .perm m
  | .mand .. | .mor .. | .mxor .. | .mandn .. | .mnot .. | .mshl .. | .mpopc .. | .mfirst .. | .mset .. | .vbsj ..
  | .vresh .. | .vext .. | .vins .. | .vdecb .. | .vbsl .. | .vidx .. => .perm 0
  | .vld _ _ _ m | .vldStrided _ _ _ _ m | .vldx _ _ _ _ m => .load m
  | .vldm _ _ _ _ m => { queue := 2, mask := m != 0, acq := true }
  | .vldb _ _ _ _ m => .brickLoad m .pitch
  | .vldbS2c _ _ _ _ m => .brickLoad m .s2c
  | .vpref _ _ m | .vprefStrided _ _ _ m | .vprefIndexed _ _ _ m => .vmem m
  | .vkld .. | .vkst .. | .qdrop .. | .tkclr .. | .xsend .. | .xrecv .. | .vsave .. | .vrest .. => .vmem 0
  | .vst _ _ _ m | .vstStrided _ _ _ _ m | .vstx _ _ _ _ m => .store m
  | .vstb _ _ _ _ m => .brickStore m .pitch
  | .vstbC2s _ _ _ _ m => .brickStore m .s2c
  | .vred _ _ _ m | .vredIndexed _ _ _ _ m => .red m
  | .vamo _ _ _ _ _ m | .vamoSwap _ _ _ _ m => .vamo m
  | .msetm .. | .mzero .. | .mrel .. => .matrix 0
  | .mop .. => { Adm.matrix 0 with ofs := true, ofs2 := true, tile := 1 }
  | .mrow .. => { Adm.matrix 0 with ofs := true, tile := 2 }
  | .mmovv _ _ _ _ m _ | .mlda _ _ _ _ m _ => .matrix m
  | .mstaStrided _ _ _ m _ | .mstaIndexed _ _ _ m _ => .drain m
  | .cecopy .. => { queue := 4, ntf := true }
  | .cefill .. | .cestat .. => { queue := 4 }
  | .amsg .. => { ext := .amsg }
  | .setvlb .. => { immx := true }
  | .setsh .. => { queue := 1 }
  | .amo .. | .cas .. => .atomic
  | .launch .. | .farm .. | .bar .. | .setvl .. | .csrr .. | .csrw .. | .csrs .. | .csrc .. | .ldaq .. | .strl ..
  | .claim .. | .waitm .. | .sysc .. | .tret .. | .exit .. | .fence .. | .incb .. | .rcf .. | .slwb .. | .hmsw ..
  | .caddi .. | .cli .. | .cmov .. | .cadd .. | .csub .. | .cbeqz .. | .cbnez .. | .cj .. | .cldw .. | .cldd ..
  | .cstw .. | .cstd .. => .scalar
  | .cmdLaunch .. | .cmdIncb .. | .cmdRcf .. | .cmdSlwb .. | .cmdHmsw .. | .cmdDeclareFailed .. | .cmdResumeHart ..
  | .cmdRetireHart .. | .cmdPreEmptGang .. | .cmdReleaseMaster .. | .cmdContextTable .. | .cmdInterruptHart ..
  | .cmdRerunGang .. | .cmdFarm .. | .cmdLoadTellers .. | .cmdAttest .. | .cmdUnknown .. | .commandCompletion ..
  | .gangAdmission .. | .waitcRead .. | .doneAdd .. | .gangStaging .. | .budgetExpiry .. | .forcedStop ..
  | .ageingPriorityRaise .. | .lcOnToRetention .. | .lcRetentionToOff .. | .laneClusterWake .. | .registerRefill ..
  | .stripeIssue .. | .instructionRetirement .. | .interruptTaken .. | .protectionViolation ..
  | .pageSortingRound .. | .translationWalk .. | .tlbInvalidationAck .. | .ptStoreCompletion ..
  | .wordRegistration .. | .sliceRead .. | .readForward .. | .missTableAdmission .. | .responseArrival ..
  | .writeBack .. | .homeWriteApply .. | .sharerInvalidation .. | .homeAtomic .. | .claimService .. | .farmWrite ..
  | .vredElementAdd .. | .progressWordAdd .. | .multicastHeader .. | .multicastBeatSend .. | .tellerHandlerRun ..
  | .handlerAbort .. | .copyEngineTransfer .. | .monitorWake .. | .xrecvMessageArrival .. | .incarnationChange ..
  | .sweepReport .. | .dieLossReport .. | .linkRetrain .. | .linkRetrainTimeout .. | .linkTrained ..
  | .hostLinkTrained | .agentRejoin .. | .weakarRequestAdmission .. | .hostSnoop .. | .arrayErrorDetected ..
  | .junctionOverTemperature .. | .powerCapExceeded .. | .boot | .mextWrite .. | .measurementDone | .powcapWrite ..
  | .selfidWrite .. | .portEnableWrite .. | .deviceRegisterWrite .. | .hostLinkRequest .. | .missFillAnswer ..
  | .powerDrawBelowCap .. => .scalar

/-- R261: what the operand modifier may hold before an instruction. -/
def Adm.opmOk (a : Adm) (o : OpMod) : Bool :=
  o.tw != some a.queue && o.tp != some a.queue && (!o.f || a.mask) && (!o.qd || a.qd) && (!o.q1 || a.q1)
    && (!o.q2 || a.q2)

/-- R262: what the memory modifier may hold before an instruction. -/
def Adm.memmOk (a : Adm) (m : MemMod) : Bool :=
  (m.ord || m.sem != .none || m.ntf != 0)
    && (m.scope == .dev || m.sem != .none || m.ntf != 0)
    && (!m.ord || a.ord) && (m.ntf == 0 || a.ntf)
    && match m.sem with
       | .none => true
       | .acq => a.acq
       | .rel => a.rel
       | .acqrel => a.acq && a.rel

/-- Table 13-12 (R263): the payload of the extension half-word, bits [13:2]. -/
def Adm.extOk (a : Adm) (e : BitVec 12) : Bool :=
  match a.ext with
  | .none => false
  | .pitch => e.toNat % 64 == 0
  | .s2c => e.toNat / 4 % 16 == 0
  | .amsg => e.toNat < 256

/-- R47: which sources of an instruction may carry offsets. `q1` and `q2` tell that the source is a load queue; no source may
while a bit-sliced format is in force. -/
def Adm.ofsOk (a : Adm) (q1 q2 : Bool) (o : Ofs) : Bool :=
  a.ofs && ((o.dx1 == 0 && o.dy1 == 0 && o.dz1 == 0) || !(q1 || a.sliced))
    && ((o.dx2 == 0 && o.dy2 == 0 && o.dz2 == 0) || (a.ofs2 && !(q2 || a.sliced)))

/-- R88: the TILE prefix stands before MOP, with SB and LGR zero, or before MROW. -/
def Adm.tileOk (a : Adm) (t : TileP) : Bool :=
  a.tile == 2 || (a.tile == 1 && t.sb == 0 && t.lgr == 0)

/-- The stack of a form is one that its instruction takes (R264, check 2). -/
def Adm.stackOk (a : Adm) (x : Stack) : Bool :=
  x.opm.all a.opmOk && x.memm.all a.memmOk && x.ext.all a.extOk && (!x.crit || a.crit)
    && x.ofs.all (a.ofsOk (x.opm.any (·.q1)) (x.opm.any (·.q2))) && x.tile.all a.tileOk
    && (x.immx.isNone || a.immx)

/-- The stack holds what the instruction requires (R263, R88). -/
def Adm.needsMet (a : Adm) (x : Stack) : Bool :=
  (a.ext == .none || x.ext.isSome) && (a.tile == 0 || x.tile.isSome)

/-- The stack of a form; the compressed instructions are forms by themselves, and the module's steps have none. -/
def Instr.stack : Instr → Stack
  | .add x _ _ _ | .sub x _ _ _ | .and x _ _ _ | .or x _ _ _ | .xor x _ _ _ | .shl x _ _ _ | .shr x _ _ _
  | .sra x _ _ _ | .mul x _ _ _ | .mulh x _ _ _ | .mulhn x _ _ _ | .div x _ _ _ | .divn x _ _ _ | .rem x _ _ _
  | .remn x _ _ _ | .min x _ _ _ | .max x _ _ _ | .minn x _ _ _ | .maxn x _ _ _ | .slt x _ _ _ | .sltn x _ _ _
  | .clz x _ _ | .popc x _ _ | .shli x _ _ _ | .shri x _ _ _ | .srai x _ _ _ | .addi x _ _ _ | .andi x _ _ _
  | .ori x _ _ _ | .xori x _ _ _ | .slti x _ _ _ | .lih x _ _ | .adpc x _ _ | .hint x _ | .nop x | .ld x _ _ _ _
  | .st x _ _ _ _ | .jalr x _ _ _ | .jal x _ _ | .beq x _ _ _ | .bne x _ _ _ | .blt x _ _ _ | .bge x _ _ _
  | .bltn x _ _ _ | .bgen x _ _ _ | .vadd x _ _ _ _ _ | .vsub x _ _ _ _ _ | .vmul x _ _ _ _ _ | .vmulh x _ _ _ _ _
  | .vdiv x _ _ _ _ _ | .vmin x _ _ _ _ _ | .vmax x _ _ _ _ _ | .vand x _ _ _ _ _ | .vor x _ _ _ _ _
  | .vxor x _ _ _ _ _ | .vshl x _ _ _ _ _ | .vshr x _ _ _ _ _ | .vsra x _ _ _ _ _ | .vadc x _ _ _ _ _
  | .vsbc x _ _ _ _ _ | .vfma x _ _ _ _ _ | .vfms x _ _ _ _ _ | .vfnma x _ _ _ _ _ | .vfnms x _ _ _ _ _
  | .vsel x _ _ _ _ _ | .vcmp x _ _ _ _ _ _ | .vbsadd x _ _ _ _ | .vbsmul x _ _ _ _ | .vabs x _ _ _ | .vneg x _ _ _
  | .vsqrt x _ _ _ | .vrcp x _ _ _ | .vrsq x _ _ _ | .vexp2 x _ _ _ | .vlog2 x _ _ _ | .vclass x _ _ _ | .vnot x _ _ _
  | .vclz x _ _ _ | .vpopc x _ _ _ | .vfetch x _ _ | .vstop x | .vnext x _ | .vpbr x _ _ | .vmov x _ _ _
  | .vmovScalar x _ _ _ | .vrsum x _ _ _ | .vrmax x _ _ _ | .vrmin x _ _ _ | .vrand x _ _ _ | .vror x _ _ _
  | .mand x _ _ _ | .mor x _ _ _ | .mxor x _ _ _ | .mandn x _ _ _ | .mnot x _ _ | .mshl x _ _ _ | .mpopc x _ _
  | .mfirst x _ _ | .mset x _ _ | .vscl x _ _ _ _ _ | .vcvt x _ _ _ _ _ | .vperm x _ _ _ _ | .vbsj x _ _
  | .vresh x _ _ _ | .vext x _ _ _ | .vins x _ _ _ | .vcomp x _ _ _ | .vargmax x _ _ _ | .vdecb x _ _ _ _ _
  | .vbsl x _ _ | .vidx x _ _ _ | .vld x _ _ _ | .vldStrided x _ _ _ _ | .vldx x _ _ _ _ | .vldm x _ _ _ _
  | .vldb x _ _ _ _ | .vldbS2c x _ _ _ _ | .vpref x _ _ | .vprefStrided x _ _ _ | .vprefIndexed x _ _ _ | .vkld x _ _
  | .vst x _ _ _ | .vstStrided x _ _ _ _ | .vstx x _ _ _ _ | .vstb x _ _ _ _ | .vstbC2s x _ _ _ _ | .vred x _ _ _
  | .vredIndexed x _ _ _ _ | .vkst x _ _ | .vamo x _ _ _ _ _ | .vamoSwap x _ _ _ _ | .qdrop x _ | .tkclr x
  | .msetm x _ | .mzero x _ | .mrel x | .mop x _ _ | .mrow x _ _ _ | .mmovv x _ _ _ _ _ | .mlda x _ _ _ _ _
  | .mstaStrided x _ _ _ _ | .mstaIndexed x _ _ _ _ | .cecopy x _ _ | .cefill x _ _ | .cestat x _ | .launch x _ _
  | .farm x _ _ | .bar x _ _ | .xsend x _ _ | .xrecv x _ _ | .amsg x _ _ _ | .setvl x _ _ _ _ | .setvlb x _ _ _ _ _ _
  | .setsh x _ _ _ _ | .csrr x _ _ | .csrw x _ _ | .csrs x _ _ | .csrc x _ _ | .amo x _ _ _ _ _ | .cas x _ _ _ _
  | .ldaq x _ _ _ _ | .strl x _ _ _ _ | .claim x _ _ _ | .waitm x _ _ | .sysc x | .tret x | .exit x | .fence x _ _
  | .vsave x _ | .vrest x _ | .incb x _ _ | .rcf x _ _ | .slwb x _ _ | .hmsw x _ => x
  | .caddi .. | .cli .. | .cmov .. | .cadd .. | .csub .. | .cbeqz .. | .cbnez .. | .cj .. | .cldw .. | .cldd ..
  | .cstw .. | .cstd .. | .cmdLaunch .. | .cmdIncb .. | .cmdRcf .. | .cmdSlwb .. | .cmdHmsw .. | .cmdDeclareFailed ..
  | .cmdResumeHart .. | .cmdRetireHart .. | .cmdPreEmptGang .. | .cmdReleaseMaster .. | .cmdContextTable ..
  | .cmdInterruptHart .. | .cmdRerunGang .. | .cmdFarm .. | .cmdLoadTellers .. | .cmdAttest .. | .cmdUnknown ..
  | .commandCompletion .. | .gangAdmission .. | .waitcRead .. | .doneAdd .. | .gangStaging .. | .budgetExpiry ..
  | .forcedStop .. | .ageingPriorityRaise .. | .lcOnToRetention .. | .lcRetentionToOff .. | .laneClusterWake ..
  | .registerRefill .. | .stripeIssue .. | .instructionRetirement .. | .interruptTaken .. | .protectionViolation ..
  | .pageSortingRound .. | .translationWalk .. | .tlbInvalidationAck .. | .ptStoreCompletion .. | .wordRegistration ..
  | .sliceRead .. | .readForward .. | .missTableAdmission .. | .responseArrival .. | .writeBack ..
  | .homeWriteApply .. | .sharerInvalidation .. | .homeAtomic .. | .claimService .. | .farmWrite ..
  | .vredElementAdd .. | .progressWordAdd .. | .multicastHeader .. | .multicastBeatSend .. | .tellerHandlerRun ..
  | .handlerAbort .. | .copyEngineTransfer .. | .monitorWake .. | .xrecvMessageArrival .. | .incarnationChange ..
  | .sweepReport .. | .dieLossReport .. | .linkRetrain .. | .linkRetrainTimeout .. | .linkTrained ..
  | .hostLinkTrained | .agentRejoin .. | .weakarRequestAdmission .. | .hostSnoop .. | .arrayErrorDetected ..
  | .junctionOverTemperature .. | .powerCapExceeded .. | .boot | .mextWrite .. | .measurementDone | .powcapWrite ..
  | .selfidWrite .. | .portEnableWrite .. | .deviceRegisterWrite .. | .hostLinkRequest .. | .missFillAnswer ..
  | .powerDrawBelowCap .. => .plain

/-- Whether an instruction is a step of the module, which has no encoding. -/
def Instr.isStep : Instr → Bool
  | .add .. | .sub .. | .and .. | .or .. | .xor .. | .shl .. | .shr .. | .sra .. | .mul .. | .mulh .. | .mulhn ..
  | .div .. | .divn .. | .rem .. | .remn .. | .min .. | .max .. | .minn .. | .maxn .. | .slt .. | .sltn .. | .clz ..
  | .popc .. | .shli .. | .shri .. | .srai .. | .addi .. | .andi .. | .ori .. | .xori .. | .slti .. | .lih ..
  | .adpc .. | .hint .. | .nop .. | .ld .. | .st .. | .jalr .. | .jal .. | .beq .. | .bne .. | .blt .. | .bge ..
  | .bltn .. | .bgen .. | .caddi .. | .cli .. | .cmov .. | .cadd .. | .csub .. | .cbeqz .. | .cbnez .. | .cj ..
  | .cldw .. | .cldd .. | .cstw .. | .cstd .. | .vadd .. | .vsub .. | .vmul .. | .vmulh .. | .vdiv .. | .vmin ..
  | .vmax .. | .vand .. | .vor .. | .vxor .. | .vshl .. | .vshr .. | .vsra .. | .vadc .. | .vsbc .. | .vfma ..
  | .vfms .. | .vfnma .. | .vfnms .. | .vsel .. | .vcmp .. | .vbsadd .. | .vbsmul .. | .vabs .. | .vneg .. | .vsqrt ..
  | .vrcp .. | .vrsq .. | .vexp2 .. | .vlog2 .. | .vclass .. | .vnot .. | .vclz .. | .vpopc .. | .vfetch ..
  | .vstop .. | .vnext .. | .vpbr .. | .vmov .. | .vmovScalar .. | .vrsum .. | .vrmax .. | .vrmin .. | .vrand ..
  | .vror .. | .mand .. | .mor .. | .mxor .. | .mandn .. | .mnot .. | .mshl .. | .mpopc .. | .mfirst .. | .mset ..
  | .vscl .. | .vcvt .. | .vperm .. | .vbsj .. | .vresh .. | .vext .. | .vins .. | .vcomp .. | .vargmax .. | .vdecb ..
  | .vbsl .. | .vidx .. | .vld .. | .vldStrided .. | .vldx .. | .vldm .. | .vldb .. | .vldbS2c .. | .vpref ..
  | .vprefStrided .. | .vprefIndexed .. | .vkld .. | .vst .. | .vstStrided .. | .vstx .. | .vstb .. | .vstbC2s ..
  | .vred .. | .vredIndexed .. | .vkst .. | .vamo .. | .vamoSwap .. | .qdrop .. | .tkclr .. | .msetm .. | .mzero ..
  | .mrel .. | .mop .. | .mrow .. | .mmovv .. | .mlda .. | .mstaStrided .. | .mstaIndexed .. | .cecopy .. | .cefill ..
  | .cestat .. | .launch .. | .farm .. | .bar .. | .xsend .. | .xrecv .. | .amsg .. | .setvl .. | .setvlb ..
  | .setsh .. | .csrr .. | .csrw .. | .csrs .. | .csrc .. | .amo .. | .cas .. | .ldaq .. | .strl .. | .claim ..
  | .waitm .. | .sysc .. | .tret .. | .exit .. | .fence .. | .vsave .. | .vrest .. | .incb .. | .rcf .. | .slwb ..
  | .hmsw .. => false
  | .cmdLaunch .. | .cmdIncb .. | .cmdRcf .. | .cmdSlwb .. | .cmdHmsw .. | .cmdDeclareFailed .. | .cmdResumeHart ..
  | .cmdRetireHart .. | .cmdPreEmptGang .. | .cmdReleaseMaster .. | .cmdContextTable .. | .cmdInterruptHart ..
  | .cmdRerunGang .. | .cmdFarm .. | .cmdLoadTellers .. | .cmdAttest .. | .cmdUnknown .. | .commandCompletion ..
  | .gangAdmission .. | .waitcRead .. | .doneAdd .. | .gangStaging .. | .budgetExpiry .. | .forcedStop ..
  | .ageingPriorityRaise .. | .lcOnToRetention .. | .lcRetentionToOff .. | .laneClusterWake .. | .registerRefill ..
  | .stripeIssue .. | .instructionRetirement .. | .interruptTaken .. | .protectionViolation .. | .pageSortingRound ..
  | .translationWalk .. | .tlbInvalidationAck .. | .ptStoreCompletion .. | .wordRegistration .. | .sliceRead ..
  | .readForward .. | .missTableAdmission .. | .responseArrival .. | .writeBack .. | .homeWriteApply ..
  | .sharerInvalidation .. | .homeAtomic .. | .claimService .. | .farmWrite .. | .vredElementAdd ..
  | .progressWordAdd .. | .multicastHeader .. | .multicastBeatSend .. | .tellerHandlerRun .. | .handlerAbort ..
  | .copyEngineTransfer .. | .monitorWake .. | .xrecvMessageArrival .. | .incarnationChange .. | .sweepReport ..
  | .dieLossReport .. | .linkRetrain .. | .linkRetrainTimeout .. | .linkTrained .. | .hostLinkTrained
  | .agentRejoin .. | .weakarRequestAdmission .. | .hostSnoop .. | .arrayErrorDetected ..
  | .junctionOverTemperature .. | .powerCapExceeded .. | .boot | .mextWrite .. | .measurementDone | .powcapWrite ..
  | .selfidWrite .. | .portEnableWrite .. | .deviceRegisterWrite .. | .hostLinkRequest .. | .missFillAnswer ..
  | .powerDrawBelowCap .. => true

/-- Field restrictions that the types do not carry: a field that names a queue holds 0 to 3 (R261), SRC is 0 but for
CONST and LINK (R51), ADDI with sd = sa = s0 is written HINT, and HINT 0 is written NOP (R267). -/
def Instr.fieldsOk (i : Instr) : Bool :=
  match i with
  | .vadd x _ a b _ _ | .vsub x _ a b _ _ | .vmul x _ a b _ _ | .vmulh x _ a b _ _ | .vdiv x _ a b _ _
  | .vmin x _ a b _ _ | .vmax x _ a b _ _ | .vand x _ a b _ _ | .vor x _ a b _ _ | .vxor x _ a b _ _
  | .vshl x _ a b _ _ | .vshr x _ a b _ _ | .vsra x _ a b _ _ | .vfma x _ a b _ _ | .vfms x _ a b _ _
  | .vfnma x _ a b _ _ | .vfnms x _ a b _ _ | .vsel x _ a b _ _ | .vcmp x _ _ a b _ _ | .vadc x _ a b _ _
  | .vsbc x _ a b _ _ | .vbsadd x _ a b _ | .vbsmul x _ a b _ =>
    (!x.opm.any (·.q1) || a.val < 4) && (!x.opm.any (·.q2) || b.val < 4)
  | .vabs x _ a _ | .vneg x _ a _ | .vsqrt x _ a _ | .vrcp x _ a _ | .vrsq x _ a _ | .vexp2 x _ a _
  | .vlog2 x _ a _ | .vclass x _ a _ | .vnot x _ a _ | .vclz x _ a _ | .vpopc x _ a _ | .vcvt x _ a _ _ _ =>
    !x.opm.any (·.q1) || a.val < 4
  | .vld x d _ _ | .vldStrided x d _ _ _ | .vldx x d _ _ _ | .vldb x d _ _ _ | .vldbS2c x d _ _ _ =>
    !x.opm.any (·.qd) || d.val < 4
  | .setsh _ _ s k _ =>
    match k with
    | .const | .link => true
    | .zero | .edge | .trap => s == 0
  | .addi _ d a _ => !(d == 0 && a == 0)
  | .hint _ e => e != 0
  | .add .. | .sub .. | .and .. | .or .. | .xor .. | .shl .. | .shr .. | .sra .. | .mul .. | .mulh .. | .mulhn ..
  | .div .. | .divn .. | .rem .. | .remn .. | .min .. | .max .. | .minn .. | .maxn .. | .slt .. | .sltn .. | .clz ..
  | .popc .. | .shli .. | .shri .. | .srai .. | .andi .. | .ori .. | .xori .. | .slti .. | .lih .. | .adpc ..
  | .nop .. | .ld .. | .st .. | .jalr .. | .jal .. | .beq .. | .bne .. | .blt .. | .bge .. | .bltn .. | .bgen ..
  | .caddi .. | .cli .. | .cmov .. | .cadd .. | .csub .. | .cbeqz .. | .cbnez .. | .cj .. | .cldw .. | .cldd ..
  | .cstw .. | .cstd .. | .vfetch .. | .vstop .. | .vnext .. | .vpbr .. | .vmov .. | .vmovScalar .. | .vrsum ..
  | .vrmax .. | .vrmin .. | .vrand .. | .vror .. | .mand .. | .mor .. | .mxor .. | .mandn .. | .mnot .. | .mshl ..
  | .mpopc .. | .mfirst .. | .mset .. | .vscl .. | .vperm .. | .vbsj .. | .vresh .. | .vext .. | .vins .. | .vcomp ..
  | .vargmax .. | .vdecb .. | .vbsl .. | .vidx .. | .vldm .. | .vpref .. | .vprefStrided .. | .vprefIndexed ..
  | .vkld .. | .vst .. | .vstStrided .. | .vstx .. | .vstb .. | .vstbC2s .. | .vred .. | .vredIndexed .. | .vkst ..
  | .vamo .. | .vamoSwap .. | .qdrop .. | .tkclr .. | .msetm .. | .mzero .. | .mrel .. | .mop .. | .mrow ..
  | .mmovv .. | .mlda .. | .mstaStrided .. | .mstaIndexed .. | .cecopy .. | .cefill .. | .cestat .. | .launch ..
  | .farm .. | .bar .. | .xsend .. | .xrecv .. | .amsg .. | .setvl .. | .setvlb .. | .csrr .. | .csrw .. | .csrs ..
  | .csrc .. | .amo .. | .cas .. | .ldaq .. | .strl .. | .claim .. | .waitm .. | .sysc .. | .tret .. | .exit ..
  | .fence .. | .vsave .. | .vrest .. | .incb .. | .rcf .. | .slwb .. | .hmsw .. | .cmdLaunch .. | .cmdIncb ..
  | .cmdRcf .. | .cmdSlwb .. | .cmdHmsw .. | .cmdDeclareFailed .. | .cmdResumeHart .. | .cmdRetireHart ..
  | .cmdPreEmptGang .. | .cmdReleaseMaster .. | .cmdContextTable .. | .cmdInterruptHart .. | .cmdRerunGang ..
  | .cmdFarm .. | .cmdLoadTellers .. | .cmdAttest .. | .cmdUnknown .. | .commandCompletion .. | .gangAdmission ..
  | .waitcRead .. | .doneAdd .. | .gangStaging .. | .budgetExpiry .. | .forcedStop .. | .ageingPriorityRaise ..
  | .lcOnToRetention .. | .lcRetentionToOff .. | .laneClusterWake .. | .registerRefill .. | .stripeIssue ..
  | .instructionRetirement .. | .interruptTaken .. | .protectionViolation .. | .pageSortingRound ..
  | .translationWalk .. | .tlbInvalidationAck .. | .ptStoreCompletion .. | .wordRegistration .. | .sliceRead ..
  | .readForward .. | .missTableAdmission .. | .responseArrival .. | .writeBack .. | .homeWriteApply ..
  | .sharerInvalidation .. | .homeAtomic .. | .claimService .. | .farmWrite .. | .vredElementAdd ..
  | .progressWordAdd .. | .multicastHeader .. | .multicastBeatSend .. | .tellerHandlerRun .. | .handlerAbort ..
  | .copyEngineTransfer .. | .monitorWake .. | .xrecvMessageArrival .. | .incarnationChange .. | .sweepReport ..
  | .dieLossReport .. | .linkRetrain .. | .linkRetrainTimeout .. | .linkTrained .. | .hostLinkTrained
  | .agentRejoin .. | .weakarRequestAdmission .. | .hostSnoop .. | .arrayErrorDetected ..
  | .junctionOverTemperature .. | .powerCapExceeded .. | .boot | .mextWrite .. | .measurementDone | .powcapWrite ..
  | .selfidWrite .. | .portEnableWrite .. | .deviceRegisterWrite .. | .hostLinkRequest .. | .missFillAnswer ..
  | .powerDrawBelowCap .. => true

/-- The instructions that some sequence of units encodes and that decode. -/
def Instr.wellFormed (i : Instr) : Bool :=
  !i.isStep && i.adm.stackOk i.stack && i.adm.needsMet i.stack && i.fieldsOk

end Sys2Proof
end

