-- ==== Sys2Proof/Decode.lean ====
section
/-! DEFINITION. The encoder and the decoder (chapter 13). The decoder is total on bytes; what it refuses it refuses by
name. It reads the function of a word first, then the stack (R264), then the word's own fields: they are legal exactly
when the encoder writes the word back. -/

namespace Sys2Proof

/-! Codes of the fields. -/

/-- Table 4-1. -/
def Fmt.code : Fmt → Nat
  | .i8 => 0 | .i16 => 1 | .i32 => 2 | .i64 => 3 | .n8 => 4 | .n16 => 5 | .n32 => 6 | .n64 => 7 | .i4 => 8 | .n4 => 9
  | .fp32 => 16 | .fp16 => 17 | .bf16 => 18 | .e4m3 => 19 | .e5m2 => 20 | .e2m1 => 21 | .e8m0 => 22
  | .bsi n => 32 + n | .bsn n => 48 + n

/-- Table 4-1; none for a reserved code. -/
def Fmt.ofCode (n : Nat) : Option Fmt :=
  match n with
  | 0 => some .i8 | 1 => some .i16 | 2 => some .i32 | 3 => some .i64
  | 4 => some .n8 | 5 => some .n16 | 6 => some .n32 | 7 => some .n64 | 8 => some .i4 | 9 => some .n4
  | 16 => some .fp32 | 17 => some .fp16 | 18 => some .bf16 | 19 => some .e4m3 | 20 => some .e5m2
  | 21 => some .e2m1 | 22 => some .e8m0
  | n => if 32 ≤ n ∧ n < 48 then some (.bsi (Fin.ofNat 16 n)) else
         if 48 ≤ n ∧ n < 64 then some (.bsn (Fin.ofNat 16 n)) else none

/-- The format of a code field; a reserved code reads as a format whose code differs. -/
def fmtOf (n : Nat) : Fmt := (Fmt.ofCode n).getD .i8

/-- Table 13-2. -/
def Scope.code : Scope → Nat
  | .hart => 0 | .core => 1 | .pod => 2 | .die => 3 | .dev => 4 | .sys => 5

/-- Table 13-2; a reserved code reads as a scope whose code differs. -/
def scopeOf (n : Nat) : Scope :=
  match n with
  | 0 => .hart | 1 => .core | 2 => .pod | 3 => .die | 4 => .dev | _ => .sys

/-- R257. -/
def Sz.code : Sz → Nat | .b => 0 | .h => 1 | .w => 2 | .d => 3

/-- R257. -/
def Sz.ofCode (n : Nat) : Sz := match n with | 0 => .b | 1 => .h | 2 => .w | _ => .d

/-- Table 3-1. -/
def NregC.code : NregC → Nat | .n4 => 0 | .n8 => 1 | .n16 => 2 | .n32 => 3 | .n64 => 4

/-- Table 3-1; a reserved code reads as one that differs. -/
def NregC.ofCode (n : Nat) : NregC := match n with | 0 => .n4 | 1 => .n8 | 2 => .n16 | 3 => .n32 | _ => .n64

/-- R87: log2 MVL. -/
def MvlC.code : MvlC → Nat | .m16 => 4 | .m32 => 5 | .m64 => 6

/-- R87: log2 MVL; none for any other value. -/
def MvlC.ofCode (n : Nat) : Option MvlC :=
  match n with | 4 => some .m16 | 5 => some .m32 | 6 => some .m64 | _ => none

/-- R257. -/
def AmoOp.code : AmoOp → Nat
  | .add => 0 | .and => 1 | .or => 2 | .xor => 3 | .min => 4 | .max => 5 | .minn => 6 | .maxn => 7 | .swap => 8

/-- R257; none for an unassigned code. -/
def AmoOp.ofCode (n : Nat) : Option AmoOp :=
  match n with
  | 0 => some .add | 1 => some .and | 2 => some .or | 3 => some .xor | 4 => some .min | 5 => some .max
  | 6 => some .minn | 7 => some .maxn | 8 => some .swap | _ => none

/-- R251. -/
def VCond.code : VCond → Nat | .eq => 0 | .ne => 1 | .lt => 2 | .le => 3 | .gt => 4 | .ge => 5 | .uo => 6

/-- R251; none for 111. -/
def VCond.ofCode (n : Nat) : Option VCond :=
  match n with
  | 0 => some .eq | 1 => some .ne | 2 => some .lt | 3 => some .le | 4 => some .gt | 5 => some .ge | 6 => some .uo
  | _ => none

/-- Table 3-7. -/
def ShKind.code : ShKind → Nat | .zero => 0 | .const => 1 | .edge => 2 | .link => 3 | .trap => 4

/-- Table 3-7; a reserved code reads as one that differs. -/
def ShKind.ofCode (n : Nat) : ShKind :=
  match n with | 0 => .zero | 1 => .const | 2 => .edge | 3 => .link | _ => .trap

/-- Table 3-7. -/
def ShFace.code : ShFace → Nat | .xm => 0 | .xp => 1 | .ym => 2 | .yp => 3 | .zm => 4 | .zp => 5 | .all => 7

/-- Table 3-7; the reserved code reads as one that differs. -/
def ShFace.ofCode (n : Nat) : ShFace :=
  match n with | 0 => .xm | 1 => .xp | 2 => .ym | 3 => .yp | 4 => .zm | 5 => .zp | _ => .all

/-- Table 13-16. -/
def Csr.num : Csr → Nat
  | .vl => 0 | .vtype => 1 | .bgeo => 2 | .dil => 3 | .vbase => 8 | .cbypass => 9 | .purse => 10 | .frm => 16
  | .fflags => 17 | .chk => 24 | .fst => 25 | .tcause => 32 | .tpc => 33 | .tstripe => 34 | .tval => 35 | .tvec => 36
  | .cid => 48 | .inc => 49 | .hmask => 56 | .cyc => 64

/-- Table 13-16; an unassigned number reads as VL, whose number differs. -/
def Csr.ofNum (n : Nat) : Csr :=
  match n with
  | 1 => .vtype | 2 => .bgeo | 3 => .dil | 8 => .vbase | 9 => .cbypass | 10 => .purse | 16 => .frm
  | 17 => .fflags | 24 => .chk | 25 => .fst | 32 => .tcause | 33 => .tpc | 34 => .tstripe | 35 => .tval | 36 => .tvec
  | 48 => .cid | 49 => .inc | 56 => .hmask | 64 => .cyc | _ => .vl

/-- FRM.RM (R70). -/
def RM.code : RM → Nat | .rne => 0 | .rtz => 1 | .rdn => 2 | .rup => 3

/-- FRM.RM (R70). -/
def RM.ofCode (n : Nat) : RM := match n % 4 with | 0 => .rne | 1 => .rtz | 2 => .rdn | _ => .rup

/-- The RM field (R71). -/
def RmField.code : RmField → Nat | .stat r => r.code | .dyn => 7

/-- The RM field (R71); 100 to 110 read as a mode whose code differs. -/
def RmField.ofCode (n : Nat) : RmField := if n < 4 then .stat (.ofCode n) else .dyn

/-! Words, Table 13-1: a word as a number below 2^32. -/

/-- The V format. -/
def wV (cls f6 d a b m : Nat) : Nat :=
  cls * 536870912 + d * 8388608 + a * 131072 + b * 2048 + m * 256 + f6 * 4 + 3

/-- The S format: funct6 in [10:5], `k` in [4:2]. -/
def wS (cls f6 k d a b : Nat) : Nat :=
  cls * 536870912 + d * 8388608 + a * 131072 + b * 2048 + f6 * 32 + k * 4 + 3

/-- The I and B formats: 12 bits in [16:5]. -/
def wI (cls k d a i : Nat) : Nat := cls * 536870912 + d * 8388608 + a * 131072 + i * 32 + k * 4 + 3

/-- The M format of class 001. -/
def wM (d a i op : Nat) : Nat := 536870912 + d * 8388608 + a * 131072 + i * 512 + op * 32 + 3

/-- The J format: 18 bits in [22:5]. -/
def wJ (cls k d i : Nat) : Nat := cls * 536870912 + d * 8388608 + i * 32 + k * 4 + 3

/-- The instruction word of a 32-bit instruction, or the half-word of a compressed one; 0 for a step of the module. -/
def Instr.word : Instr → Nat
  | .add _ d a b => wS 0 0 7 d a b
  | .sub _ d a b => wS 0 1 7 d a b
  | .and _ d a b => wS 0 2 7 d a b
  | .or _ d a b => wS 0 3 7 d a b
  | .xor _ d a b => wS 0 4 7 d a b
  | .shl _ d a b => wS 0 5 7 d a b
  | .shr _ d a b => wS 0 6 7 d a b
  | .sra _ d a b => wS 0 7 7 d a b
  | .mul _ d a b => wS 0 8 7 d a b
  | .mulh _ d a b => wS 0 9 7 d a b
  | .mulhn _ d a b => wS 0 10 7 d a b
  | .div _ d a b => wS 0 11 7 d a b
  | .divn _ d a b => wS 0 12 7 d a b
  | .rem _ d a b => wS 0 13 7 d a b
  | .remn _ d a b => wS 0 14 7 d a b
  | .min _ d a b => wS 0 15 7 d a b
  | .max _ d a b => wS 0 16 7 d a b
  | .minn _ d a b => wS 0 17 7 d a b
  | .maxn _ d a b => wS 0 18 7 d a b
  | .slt _ d a b => wS 0 19 7 d a b
  | .sltn _ d a b => wS 0 20 7 d a b
  | .clz _ d a => wS 0 21 7 d a 0
  | .popc _ d a => wS 0 22 7 d a 0
  | .shli _ d a n => wS 0 24 7 d a n.toNat
  | .shri _ d a n => wS 0 25 7 d a n.toNat
  | .srai _ d a n => wS 0 26 7 d a n.toNat
  | .addi _ d a i => wI 0 0 d a i.toNat
  | .andi _ d a i => wI 0 1 d a i.toNat
  | .ori _ d a i => wI 0 2 d a i.toNat
  | .xori _ d a i => wI 0 3 d a i.toNat
  | .slti _ d a i => wI 0 4 d a i.toNat
  | .lih _ d i => wJ 0 5 d i.toNat
  | .adpc _ d i => wJ 0 6 d i.toNat
  | .hint _ e => wI 0 0 0 0 e.toNat
  | .nop _ => wI 0 0 0 0 0
  | .ld _ d a i z => wM d a i.toNat z.code
  | .st _ d a i z => wM d a i.toNat (4 + z.code)
  | .jalr _ d a i => wM d a i.toNat 8
  | .jal _ d i => wJ 1 1 d i.toNat
  | .beq _ a b i => wI 1 2 a b i.toNat
  | .bne _ a b i => wI 1 3 a b i.toNat
  | .blt _ a b i => wI 1 4 a b i.toNat
  | .bge _ a b i => wI 1 5 a b i.toNat
  | .bltn _ a b i => wI 1 6 a b i.toNat
  | .bgen _ a b i => wI 1 7 a b i.toNat
  | .caddi d i => d * 256 + i.toNat * 4 + 1
  | .cli d i => 8192 + d * 256 + i.toNat * 4 + 1
  | .cmov d a => 16384 + d * 256 + a * 8 + 1
  | .cadd d a => 24576 + d * 256 + a * 8 + 1
  | .csub d a => 32768 + d * 256 + a * 8 + 1
  | .cbeqz a i => 40960 + a * 256 + i.toNat * 4 + 1
  | .cbnez a i => 49152 + a * 256 + i.toNat * 4 + 1
  | .cj i => 57344 + i.toNat * 4 + 1
  | .cldw d a u => 8192 + d * 1024 + a * 128 + u.toNat * 4
  | .cldd d a u => 16384 + d * 1024 + a * 128 + u.toNat * 4
  | .cstw d a u => 24576 + d * 1024 + a * 128 + u.toNat * 4
  | .cstd d a u => 32768 + d * 1024 + a * 128 + u.toNat * 4
  | .vadd _ d a b m s => wV 2 (0 + s.toNat) d a b m
  | .vsub _ d a b m s => wV 2 (2 + s.toNat) d a b m
  | .vmul _ d a b m s => wV 2 (4 + s.toNat) d a b m
  | .vmulh _ d a b m s => wV 2 (6 + s.toNat) d a b m
  | .vdiv _ d a b m s => wV 2 (8 + s.toNat) d a b m
  | .vmin _ d a b m s => wV 2 (10 + s.toNat) d a b m
  | .vmax _ d a b m s => wV 2 (12 + s.toNat) d a b m
  | .vand _ d a b m s => wV 2 (14 + s.toNat) d a b m
  | .vor _ d a b m s => wV 2 (16 + s.toNat) d a b m
  | .vxor _ d a b m s => wV 2 (18 + s.toNat) d a b m
  | .vshl _ d a b m s => wV 2 (20 + s.toNat) d a b m
  | .vshr _ d a b m s => wV 2 (22 + s.toNat) d a b m
  | .vsra _ d a b m s => wV 2 (24 + s.toNat) d a b m
  | .vadc _ d a b c s => wV 2 (26 + s.toNat) d a b c
  | .vsbc _ d a b c s => wV 2 (28 + s.toNat) d a b c
  | .vfma _ d a b m s => wV 2 (30 + s.toNat) d a b m
  | .vfms _ d a b m s => wV 2 (32 + s.toNat) d a b m
  | .vfnma _ d a b m s => wV 2 (34 + s.toNat) d a b m
  | .vfnms _ d a b m s => wV 2 (36 + s.toNat) d a b m
  | .vsel _ d a b c s => wV 2 (38 + s.toNat) d a b c
  | .vcmp _ c d a b m s => wV 2 (40 + s.toNat) (c.code * 8 + d) a b m
  | .vbsadd _ d a b m => wV 2 42 d a b m
  | .vbsmul _ d a b m => wV 2 44 d a b m
  | .vabs _ d a m => wV 2 46 d a 0 m
  | .vneg _ d a m => wV 2 46 d a 1 m
  | .vsqrt _ d a m => wV 2 46 d a 2 m
  | .vrcp _ d a m => wV 2 46 d a 3 m
  | .vrsq _ d a m => wV 2 46 d a 4 m
  | .vexp2 _ d a m => wV 2 46 d a 5 m
  | .vlog2 _ d a m => wV 2 46 d a 6 m
  | .vclass _ d a m => wV 2 46 d a 7 m
  | .vnot _ d a m => wV 2 46 d a 8 m
  | .vclz _ d a m => wV 2 46 d a 9 m
  | .vpopc _ d a m => wV 2 46 d a 10 m
  | .vfetch _ a m => wV 2 48 0 a 0 m
  | .vstop _ => wV 2 48 0 0 1 0
  | .vnext _ a => wV 2 48 0 a 2 0
  | .vpbr _ o a => wV 2 48 o.toNat a 3 0
  | .vmov _ d a m => wV 3 0 d a 0 m
  | .vmovScalar _ d a m => wV 3 1 d a 0 m
  | .vrsum _ d a m => wV 3 2 d a 0 m
  | .vrmax _ d a m => wV 3 10 d a 0 m
  | .vrmin _ d a m => wV 3 18 d a 0 m
  | .vrand _ d a m => wV 3 26 d a 0 m
  | .vror _ d a m => wV 3 34 d a 0 m
  | .mand _ d a b => wV 3 3 d a b 0
  | .mor _ d a b => wV 3 11 d a b 0
  | .mxor _ d a b => wV 3 19 d a b 0
  | .mandn _ d a b => wV 3 27 d a b 0
  | .mnot _ d a => wV 3 35 d a 0 0
  | .mshl _ d a b => wV 3 43 d a b 0
  | .mpopc _ d a => wV 3 51 d a 0 0
  | .mfirst _ d a => wV 3 59 d a 0 0
  | .mset _ d a => wV 3 4 d a 0 0
  | .vscl _ k a f m r => wV 3 (r.code * 8 + 5) k a f.code m
  | .vcvt _ d a f m r => wV 3 (r.code * 8 + 6) d a f.code m
  | .vperm _ d a i m => wV 3 8 d a i m
  | .vbsj _ d a => wV 3 9 d a 0 0
  | .vresh _ d a f => wV 3 16 d a f.code 0
  | .vext _ d a b => wV 3 24 d a b 0
  | .vins _ d a b => wV 3 32 d a b 0
  | .vcomp _ d a m => wV 3 40 d a 0 m
  | .vargmax _ d a m => wV 3 42 d a 0 m
  | .vdecb _ d a z y w => wV 3 48 d a (z * 16 + y * 4 + w) 0
  | .vbsl _ d a => wV 3 56 d a 0 0
  | .vidx _ d s t => 3 * 536870912 + d * 8388608 + s.toNat * 8192 + t.toNat * 32 + 31
  | .vld _ d a m => wV 4 0 d a 0 m
  | .vldStrided _ d a b m => wV 4 1 d a b m
  | .vldx _ d a i m => wV 4 2 d a i m
  | .vldm _ d a b m => wV 4 3 d a b m
  | .vldb _ d a b m => wV 4 4 d a b m
  | .vldbS2c _ d a b m => wV 4 5 d a b m
  | .vpref _ a m => wV 4 6 0 a 0 m
  | .vprefStrided _ a b m => wV 4 7 0 a b m
  | .vprefIndexed _ a i m => wV 4 8 0 a i m
  | .vkld _ k a => wV 4 9 k a 0 0
  | .vst _ v a m => wV 4 16 v a 0 m
  | .vstStrided _ v a b m => wV 4 17 v a b m
  | .vstx _ v a i m => wV 4 18 v a i m
  | .vstb _ v a b m => wV 4 20 v a b m
  | .vstbC2s _ v a b m => wV 4 21 v a b m
  | .vred _ v a m => wV 4 22 v a 0 m
  | .vredIndexed _ v a i m => wV 4 23 v a i m
  | .vkst _ k a => wV 4 25 k a 0 0
  | .vamo _ o d a i m => wV 4 (32 + o) d a i m
  | .vamoSwap _ d a i m => wV 4 40 d a i m
  | .qdrop _ n => wV 4 48 n 0 0 0
  | .tkclr _ => wV 4 49 0 0 0 0
  | .msetm _ l => wV 5 0 0 0 l.code 0
  | .mzero _ t => wV 5 1 t 0 0 0
  | .mrel _ => wV 5 2 0 0 0 0
  | .mop _ a b => wV 5 4 0 a b 0
  | .mrow _ i v vb => wV 5 5 i v vb 0
  | .mmovv _ d a b m t => wV 5 (8 + t) d a b m
  | .mlda _ v a b m t => wV 5 (12 + t) v a b m
  | .mstaStrided _ a b m t => wV 5 (16 + t) a b 0 m
  | .mstaIndexed _ a i m t => wV 5 (20 + t) a i 0 m
  | .cecopy _ a b => wV 5 32 0 a b 0
  | .cefill _ a b => wV 5 33 0 a b 0
  | .cestat _ d => wV 5 34 d 0 0 0
  | .launch _ d a => wV 5 36 d a 0 0
  | .farm _ a b => wV 5 37 0 a b 0
  | .bar _ a s => wV 5 40 0 a 0 s.code
  | .xsend _ a v => wV 5 42 0 a v 0
  | .xrecv _ d a => wV 5 43 d a 0 0
  | .amsg _ d a b => wV 5 44 d a b 0
  | .setvl _ d a f n => 6 * 536870912 + d * 8388608 + a * 131072 + f.code * 2048 + n.code * 256 + 3
  | .setvlb _ d f n z y w => 6 * 536870912 + d * 8388608 + f.code * 131072 + n.code * 16384 + z * 2048 + y * 256 + w * 32 + 7
  | .setsh _ d s k f => 6 * 536870912 + d * 8388608 + s * 131072 + k.code * 256 + f.code * 32 + 11
  | .csrr _ d c => 6 * 536870912 + d * 8388608 + c.num * 128 + 0 * 32 + 15
  | .csrw _ a c => 6 * 536870912 + a * 131072 + c.num * 128 + 1 * 32 + 15
  | .csrs _ a c => 6 * 536870912 + a * 131072 + c.num * 128 + 2 * 32 + 15
  | .csrc _ a c => 6 * 536870912 + a * 131072 + c.num * 128 + 3 * 32 + 15
  | .amo _ d a b o z => wS 6 (o.code * 4 + z.code) 4 d a b
  | .cas _ d a b z => wS 6 z.code 5 d a b
  | .ldaq _ d a s z => wS 6 z.code 6 d a s.code
  | .strl _ d a s z => wS 6 (4 + z.code) 6 d a s.code
  | .claim _ d a b => wS 6 11 6 d a b
  | .waitm _ a b => wS 6 14 6 0 a b
  | .sysc _ => wS 6 0 7 0 0 0
  | .tret _ => wS 6 1 7 0 0 0
  | .exit _ => wS 6 2 7 0 0 0
  | .fence _ s c => wS 6 3 7 s.code 0 c.toNat
  | .vsave _ a => wS 6 4 7 0 a 0
  | .vrest _ a => wS 6 5 7 0 a 0
  | .incb _ d a => wS 6 6 7 d a 0
  | .rcf _ d a => wS 6 7 7 d a 0
  | .slwb _ a b => wS 6 8 7 0 a b
  | .hmsw _ a => wS 6 9 7 0 a 0
  | .cmdLaunch .. | .cmdIncb .. | .cmdRcf .. | .cmdSlwb .. | .cmdHmsw .. | .cmdDeclareFailed .. | .cmdResumeHart ..
  | .cmdRetireHart .. | .cmdPreEmptGang .. | .cmdReleaseMaster .. | .cmdContextTable .. | .cmdInterruptHart ..
  | .cmdRerunGang .. | .cmdFarm .. | .cmdLoadTellers .. | .cmdAttest .. | .cmdUnknown .. | .commandCompletion ..
  | .gangAdmission .. | .waitcRead .. | .doneAdd .. | .gangStaging .. | .budgetExpiry .. | .forcedStop ..
  | .ageingPriorityRaise .. | .lcOnToRetention .. | .lcRetentionToOff .. | .laneClusterWake .. | .registerRefill ..
  | .stripeIssue .. | .instructionRetirement .. | .interruptTaken .. | .protectionViolation .. | .pageSortingRound ..
  | .translationWalk .. | .tlbInvalidationAck .. | .ptStoreCompletion .. | .wordRegistration .. | .sliceRead ..
  | .readForward .. | .missTableAdmission .. | .responseArrival .. | .writeBack .. | .homeWriteApply ..
  | .sharerInvalidation .. | .homeAtomic .. | .claimService .. | .farmWrite .. | .vredElementAdd ..
  | .progressWordAdd .. | .multicastHeader .. | .multicastBeatSend .. | .tellerHandlerRun .. | .handlerAbort ..
  | .copyEngineTransfer .. | .monitorWake .. | .xrecvMessageArrival .. | .incarnationChange .. | .sweepReport ..
  | .dieLossReport .. | .linkRetrain .. | .linkRetrainTimeout .. | .linkTrained .. | .hostLinkTrained
  | .agentRejoin .. | .weakarRequestAdmission .. | .hostSnoop .. | .arrayErrorDetected ..
  | .junctionOverTemperature .. | .powerCapExceeded .. | .boot | .mextWrite .. | .measurementDone | .powcapWrite ..
  | .selfidWrite .. | .portEnableWrite .. | .deviceRegisterWrite .. | .hostLinkRequest .. | .missFillAnswer ..
  | .powerDrawBelowCap .. => 0

/-! The units of a stack. -/

/-- TW and TP, Table 13-10. -/
def tokCode : Option (Fin 5) → Nat | none => 0 | some q => q + 1

/-- TW and TP; 110 and 111 are reserved and do not come here. -/
def tokOf (n : Nat) : Option (Fin 5) := if n = 0 then none else some (Fin.ofNat 5 (n - 1))

/-- Table 13-10. -/
def OpMod.unit (o : OpMod) : Nat :=
  tokCode o.tw * 2048 + tokCode o.tp * 256 + o.f.toNat * 128 + o.qd.toNat * 64 + o.q1.toNat * 32 + o.q2.toNat * 16 + 2

/-- Table 13-10, for a unit whose reserved fields and codes are not used. -/
def OpMod.ofUnit (u : Nat) : OpMod where
  tw := tokOf (u / 2048 % 8)
  tp := tokOf (u / 256 % 8)
  f := u / 128 % 2 == 1
  qd := u / 64 % 2 == 1
  q1 := u / 32 % 2 == 1
  q2 := u / 16 % 2 == 1

/-- The SEM field, Table 13-11. -/
def Sem.code : Sem → Nat | .none => 0 | .acq => 1 | .rel => 2 | .acqrel => 3

/-- The SEM field, Table 13-11. -/
def Sem.ofCode (n : Nat) : Sem := match n with | 0 => .none | 1 => .acq | 2 => .rel | _ => .acqrel

/-- Table 13-11. -/
def MemMod.unit (m : MemMod) : Nat :=
  16384 + m.ord.toNat * 8192 + m.sem.code * 2048 + m.scope.code * 256 + m.ntf * 4 + 2

/-- Table 13-11. -/
def MemMod.ofUnit (u : Nat) : MemMod where
  ord := u / 8192 % 2 == 1
  sem := .ofCode (u / 2048 % 4)
  scope := scopeOf (u / 256 % 8)
  ntf := Fin.ofNat 64 (u / 4)

/-- Table 3-4. -/
def Ofs.word (o : Ofs) : Nat :=
  3825205248 + o.dz2.toNat * 4194304 + o.dy2.toNat * 262144 + o.dx2.toNat * 16384 + o.dz1.toNat * 1024
    + o.dy1.toNat * 64 + o.dx1.toNat * 4 + 3

/-- Table 3-4. -/
def Ofs.ofWord (w : Nat) : Ofs where
  dx1 := .ofNat 4 (w / 4)
  dy1 := .ofNat 4 (w / 64)
  dz1 := .ofNat 4 (w / 1024)
  dx2 := .ofNat 4 (w / 16384)
  dy2 := .ofNat 4 (w / 262144)
  dz2 := .ofNat 4 (w / 4194304)

/-- Table 5-3. -/
def TileP.word (t : TileP) : Nat := 3892314112 + t.at_ * 16777216 + t.sb * 262144 + t.lgr * 65536 + 3

/-- Table 5-3. -/
def TileP.ofWord (w : Nat) : TileP where
  at_ := Fin.ofNat 4 (w / 16777216)
  sb := Fin.ofNat 64 (w / 262144)
  lgr := Fin.ofNat 4 (w / 65536)

/-- A unit of 16 bits, little-endian (R242). -/
def unitBytes (u : Nat) : List Byte := [.ofNat 8 u, .ofNat 8 (u / 256)]

/-- A word of 32 bits, the unit at the lower address first (R242). -/
def wordBytes (w : Nat) : List Byte :=
  [.ofNat 8 w, .ofNat 8 (w / 256), .ofNat 8 (w / 65536), .ofNat 8 (w / 16777216)]

/-- The bytes before the instruction word (R243). -/
def Stack.bytes (x : Stack) : List Byte :=
  (x.opm.map fun o => unitBytes o.unit).getD []
  ++ (x.memm.map fun m => unitBytes m.unit).getD []
  ++ (x.ext.map fun e => unitBytes (32768 + e.toNat * 4 + 2)).getD []
  ++ (if x.crit then wordBytes 3758096387 else [])
  ++ (x.ofs.map fun o => wordBytes o.word).getD []
  ++ (x.tile.map fun t => wordBytes t.word).getD []
  ++ (x.immx.map fun p => wordBytes (3959422976 + p.toNat * 4 + 3)).getD []

/-- Whether an instruction is a compressed one. -/
def Instr.compressed (i : Instr) : Bool := i.word % 4 != 3

/-- The bytes of a form. -/
def encode (i : Instr) : List Byte :=
  if i.compressed then unitBytes i.word else i.stack.bytes ++ wordBytes i.word

/-! Decoding. -/

/-- Why bytes are no instruction: the form needs a unit at an offset where none was fetched; an illegal-instruction
trap (R268); an illegal-prefix trap at the unit of that offset (R264). -/
inductive DecodeError where
  | short (off : Nat)
  | illegalInstr (off : Nat)
  | illegalUnit (off : Nat)
  deriving DecidableEq, Repr

/-- A register of 64 from a field. -/
def r6 (n : Nat) : Fin 64 := Fin.ofNat 64 n
/-- A register of 8 from the low bits of a field. -/
def r3 (n : Nat) : Fin 8 := Fin.ofNat 8 n
/-- A number below 4 from the low bits of a field. -/
def r2 (n : Nat) : Fin 4 := Fin.ofNat 4 n

/-- Class 000, S group (R248). -/
def decodeAlu (x : Stack) (f d a b : Nat) : Option Instr :=
  match f with
  | 0 => some (.add x (r6 d) (r6 a) (r6 b))
  | 1 => some (.sub x (r6 d) (r6 a) (r6 b))
  | 2 => some (.and x (r6 d) (r6 a) (r6 b))
  | 3 => some (.or x (r6 d) (r6 a) (r6 b))
  | 4 => some (.xor x (r6 d) (r6 a) (r6 b))
  | 5 => some (.shl x (r6 d) (r6 a) (r6 b))
  | 6 => some (.shr x (r6 d) (r6 a) (r6 b))
  | 7 => some (.sra x (r6 d) (r6 a) (r6 b))
  | 8 => some (.mul x (r6 d) (r6 a) (r6 b))
  | 9 => some (.mulh x (r6 d) (r6 a) (r6 b))
  | 10 => some (.mulhn x (r6 d) (r6 a) (r6 b))
  | 11 => some (.div x (r6 d) (r6 a) (r6 b))
  | 12 => some (.divn x (r6 d) (r6 a) (r6 b))
  | 13 => some (.rem x (r6 d) (r6 a) (r6 b))
  | 14 => some (.remn x (r6 d) (r6 a) (r6 b))
  | 15 => some (.min x (r6 d) (r6 a) (r6 b))
  | 16 => some (.max x (r6 d) (r6 a) (r6 b))
  | 17 => some (.minn x (r6 d) (r6 a) (r6 b))
  | 18 => some (.maxn x (r6 d) (r6 a) (r6 b))
  | 19 => some (.slt x (r6 d) (r6 a) (r6 b))
  | 20 => some (.sltn x (r6 d) (r6 a) (r6 b))
  | 21 => some (.clz x (r6 d) (r6 a))
  | 22 => some (.popc x (r6 d) (r6 a))
  | 24 => some (.shli x (r6 d) (r6 a) (.ofNat 6 b))
  | 25 => some (.shri x (r6 d) (r6 a) (.ofNat 6 b))
  | 26 => some (.srai x (r6 d) (r6 a) (.ofNat 6 b))
  | _ => none

/-- Class 000 (R248); the row of HINT takes ADDI with sd = sa = s0, and NOP the word 0x00000003 (R267). -/
def decode0 (x : Stack) (w d a b : Nat) : Option Instr :=
  let i := w / 32
  match w / 4 % 8 with
  | 0 => some (if d = 0 ∧ a = 0 then (if i % 4096 = 0 then .nop x else .hint x (.ofNat 12 i))
               else .addi x (r6 d) (r6 a) (.ofNat 12 i))
  | 1 => some (.andi x (r6 d) (r6 a) (.ofNat 12 i))
  | 2 => some (.ori x (r6 d) (r6 a) (.ofNat 12 i))
  | 3 => some (.xori x (r6 d) (r6 a) (.ofNat 12 i))
  | 4 => some (.slti x (r6 d) (r6 a) (.ofNat 12 i))
  | 5 => some (.lih x (r6 d) (.ofNat 18 i))
  | 6 => some (.adpc x (r6 d) (.ofNat 18 i))
  | _ => decodeAlu x (i % 64) d a b

/-- Class 001 (R249). -/
def decode1 (x : Stack) (w d a : Nat) : Option Instr :=
  let i := w / 32
  match w / 4 % 8 with
  | 0 =>
    let o := i % 16
    if o < 4 then some (.ld x (r6 d) (r6 a) (.ofNat 8 (w / 512)) (.ofCode o))
    else if o < 8 then some (.st x (r6 d) (r6 a) (.ofNat 8 (w / 512)) (.ofCode (o - 4)))
    else if o = 8 then some (.jalr x (r6 d) (r6 a) (.ofNat 8 (w / 512)))
    else none
  | 1 => some (.jal x (r6 d) (.ofNat 18 i))
  | 2 => some (.beq x (r6 d) (r6 a) (.ofNat 12 i))
  | 3 => some (.bne x (r6 d) (r6 a) (.ofNat 12 i))
  | 4 => some (.blt x (r6 d) (r6 a) (.ofNat 12 i))
  | 5 => some (.bge x (r6 d) (r6 a) (.ofNat 12 i))
  | 6 => some (.bltn x (r6 d) (r6 a) (.ofNat 12 i))
  | _ => some (.bgen x (r6 d) (r6 a) (.ofNat 12 i))

/-- Class 010 (R250 to R252): op5 is `o`, and `s` the VS form. -/
def decode2 (x : Stack) (o : Nat) (s : Bool) (d a b m : Nat) : Option Instr :=
  match o with
  | 0 => some (.vadd x (r6 d) (r6 a) (r6 b) (r3 m) s)
  | 1 => some (.vsub x (r6 d) (r6 a) (r6 b) (r3 m) s)
  | 2 => some (.vmul x (r6 d) (r6 a) (r6 b) (r3 m) s)
  | 3 => some (.vmulh x (r6 d) (r6 a) (r6 b) (r3 m) s)
  | 4 => some (.vdiv x (r6 d) (r6 a) (r6 b) (r3 m) s)
  | 5 => some (.vmin x (r6 d) (r6 a) (r6 b) (r3 m) s)
  | 6 => some (.vmax x (r6 d) (r6 a) (r6 b) (r3 m) s)
  | 7 => some (.vand x (r6 d) (r6 a) (r6 b) (r3 m) s)
  | 8 => some (.vor x (r6 d) (r6 a) (r6 b) (r3 m) s)
  | 9 => some (.vxor x (r6 d) (r6 a) (r6 b) (r3 m) s)
  | 10 => some (.vshl x (r6 d) (r6 a) (r6 b) (r3 m) s)
  | 11 => some (.vshr x (r6 d) (r6 a) (r6 b) (r3 m) s)
  | 12 => some (.vsra x (r6 d) (r6 a) (r6 b) (r3 m) s)
  | 13 => some (.vadc x (r6 d) (r6 a) (r6 b) (r3 m) s)
  | 14 => some (.vsbc x (r6 d) (r6 a) (r6 b) (r3 m) s)
  | 15 => some (.vfma x (r6 d) (r6 a) (r6 b) (r3 m) s)
  | 16 => some (.vfms x (r6 d) (r6 a) (r6 b) (r3 m) s)
  | 17 => some (.vfnma x (r6 d) (r6 a) (r6 b) (r3 m) s)
  | 18 => some (.vfnms x (r6 d) (r6 a) (r6 b) (r3 m) s)
  | 19 => some (.vsel x (r6 d) (r6 a) (r6 b) (r3 m) s)
  | 20 => (VCond.ofCode (d / 8)).map fun c => .vcmp x c (r3 d) (r6 a) (r6 b) (r3 m) s
  | 21 => if s then none else some (.vbsadd x (r6 d) (r6 a) (r6 b) (r3 m))
  | 22 => if s then none else some (.vbsmul x (r6 d) (r6 a) (r6 b) (r3 m))
  | 23 => if s then none else
    match b with
    | 0 => some (.vabs x (r6 d) (r6 a) (r3 m))
    | 1 => some (.vneg x (r6 d) (r6 a) (r3 m))
    | 2 => some (.vsqrt x (r6 d) (r6 a) (r3 m))
    | 3 => some (.vrcp x (r6 d) (r6 a) (r3 m))
    | 4 => some (.vrsq x (r6 d) (r6 a) (r3 m))
    | 5 => some (.vexp2 x (r6 d) (r6 a) (r3 m))
    | 6 => some (.vlog2 x (r6 d) (r6 a) (r3 m))
    | 7 => some (.vclass x (r6 d) (r6 a) (r3 m))
    | 8 => some (.vnot x (r6 d) (r6 a) (r3 m))
    | 9 => some (.vclz x (r6 d) (r6 a) (r3 m))
    | 10 => some (.vpopc x (r6 d) (r6 a) (r3 m))
    | _ => none
  | 24 => if s then none else
    match b with
    | 0 => some (.vfetch x (r6 a) (r3 m))
    | 1 => some (.vstop x)
    | 2 => some (.vnext x (r6 a))
    | 3 => some (.vpbr x (.ofNat 6 d) (r6 a))
    | _ => none
  | _ => none

/-- Class 011, columns 000 to 100 (R253, R254). -/
def decodePerm (x : Stack) (f d a b m : Nat) : Option Instr :=
  match f with
  | 0 => some (.vmov x (r6 d) (r6 a) (r3 m))
  | 1 => some (.vmovScalar x (r6 d) (r6 a) (r3 m))
  | 2 => some (.vrsum x (r6 d) (r6 a) (r3 m))
  | 3 => some (.mand x (r3 d) (r3 a) (r3 b))
  | 4 => some (.mset x (r3 d) (r6 a))
  | 8 => some (.vperm x (r6 d) (r6 a) (r6 b) (r3 m))
  | 9 => some (.vbsj x (r6 d) (r6 a))
  | 10 => some (.vrmax x (r6 d) (r6 a) (r3 m))
  | 11 => some (.mor x (r3 d) (r3 a) (r3 b))
  | 16 => some (.vresh x (r6 d) (r6 a) (fmtOf b))
  | 18 => some (.vrmin x (r6 d) (r6 a) (r3 m))
  | 19 => some (.mxor x (r3 d) (r3 a) (r3 b))
  | 24 => some (.vext x (r6 d) (r6 a) (r6 b))
  | 26 => some (.vrand x (r6 d) (r6 a) (r3 m))
  | 27 => some (.mandn x (r3 d) (r3 a) (r3 b))
  | 32 => some (.vins x (r6 d) (r6 a) (r6 b))
  | 34 => some (.vror x (r6 d) (r6 a) (r3 m))
  | 35 => some (.mnot x (r3 d) (r3 a))
  | 40 => some (.vcomp x (r6 d) (r6 a) (r3 m))
  | 42 => some (.vargmax x (r6 d) (r6 a) (r3 m))
  | 43 => some (.mshl x (r3 d) (r3 a) (r6 b))
  | 48 => some (.vdecb x (r6 d) (r6 a) (r2 (b / 16)) (r2 (b / 4)) (r2 b))
  | 51 => some (.mpopc x (r6 d) (r3 a))
  | 56 => some (.vbsl x (r6 d) (r6 a))
  | 59 => some (.mfirst x (r6 d) (r3 a))
  | _ => none

/-- Class 011 (R253). -/
def decode3 (x : Stack) (w d a b m : Nat) : Option Instr :=
  match w / 4 % 8 with
  | 5 => some (.vscl x (r3 d) (r6 a) (fmtOf b) (r3 m) (.ofCode (w / 32 % 8)))
  | 6 => some (.vcvt x (r6 d) (r6 a) (fmtOf b) (r3 m) (.ofCode (w / 32 % 8)))
  | 7 => some (.vidx x (r6 d) (.ofNat 10 (w / 8192)) (.ofNat 8 (w / 32)))
  | _ => decodePerm x (w / 4 % 64) d a b m

/-- Class 100 (R255). -/
def decode4 (x : Stack) (f d a b m : Nat) : Option Instr :=
  match f with
  | 0 => some (.vld x (r6 d) (r6 a) (r3 m))
  | 1 => some (.vldStrided x (r6 d) (r6 a) (r6 b) (r3 m))
  | 2 => some (.vldx x (r6 d) (r6 a) (r6 b) (r3 m))
  | 3 => some (.vldm x (r6 d) (r6 a) (r6 b) (r3 m))
  | 4 => some (.vldb x (r6 d) (r6 a) (r6 b) (r3 m))
  | 5 => some (.vldbS2c x (r6 d) (r6 a) (r6 b) (r3 m))
  | 6 => some (.vpref x (r6 a) (r3 m))
  | 7 => some (.vprefStrided x (r6 a) (r6 b) (r3 m))
  | 8 => some (.vprefIndexed x (r6 a) (r6 b) (r3 m))
  | 9 => some (.vkld x (r3 d) (r6 a))
  | 16 => some (.vst x (r6 d) (r6 a) (r3 m))
  | 17 => some (.vstStrided x (r6 d) (r6 a) (r6 b) (r3 m))
  | 18 => some (.vstx x (r6 d) (r6 a) (r6 b) (r3 m))
  | 20 => some (.vstb x (r6 d) (r6 a) (r6 b) (r3 m))
  | 21 => some (.vstbC2s x (r6 d) (r6 a) (r6 b) (r3 m))
  | 22 => some (.vred x (r6 d) (r6 a) (r3 m))
  | 23 => some (.vredIndexed x (r6 d) (r6 a) (r6 b) (r3 m))
  | 25 => some (.vkst x (r3 d) (r6 a))
  | 32 => some (.vamo x 0 (r6 d) (r6 a) (r6 b) (r3 m))
  | 33 => some (.vamo x 1 (r6 d) (r6 a) (r6 b) (r3 m))
  | 34 => some (.vamo x 2 (r6 d) (r6 a) (r6 b) (r3 m))
  | 35 => some (.vamo x 3 (r6 d) (r6 a) (r6 b) (r3 m))
  | 36 => some (.vamo x 4 (r6 d) (r6 a) (r6 b) (r3 m))
  | 37 => some (.vamo x 5 (r6 d) (r6 a) (r6 b) (r3 m))
  | 38 => some (.vamo x 6 (r6 d) (r6 a) (r6 b) (r3 m))
  | 39 => some (.vamo x 7 (r6 d) (r6 a) (r6 b) (r3 m))
  | 40 => some (.vamoSwap x (r6 d) (r6 a) (r6 b) (r3 m))
  | 48 => some (.qdrop x (r2 d))
  | 49 => some (.tkclr x)
  | _ => none

/-- Class 101 (R87, R256). -/
def decode5 (x : Stack) (f d a b m : Nat) : Option Instr :=
  match f with
  | 0 => some (.msetm x ((MvlC.ofCode b).getD .m16))
  | 1 => some (.mzero x (r2 d))
  | 2 => some (.mrel x)
  | 4 => some (.mop x (r6 a) (r6 b))
  | 5 => some (.mrow x (r6 d) (r6 a) (r6 b))
  | 8 => some (.mmovv x (r6 d) (r6 a) (r6 b) (r3 m) 0)
  | 9 => some (.mmovv x (r6 d) (r6 a) (r6 b) (r3 m) 1)
  | 10 => some (.mmovv x (r6 d) (r6 a) (r6 b) (r3 m) 2)
  | 11 => some (.mmovv x (r6 d) (r6 a) (r6 b) (r3 m) 3)
  | 12 => some (.mlda x (r6 d) (r6 a) (r6 b) (r3 m) 0)
  | 13 => some (.mlda x (r6 d) (r6 a) (r6 b) (r3 m) 1)
  | 14 => some (.mlda x (r6 d) (r6 a) (r6 b) (r3 m) 2)
  | 15 => some (.mlda x (r6 d) (r6 a) (r6 b) (r3 m) 3)
  | 16 => some (.mstaStrided x (r6 d) (r6 a) (r3 m) 0)
  | 17 => some (.mstaStrided x (r6 d) (r6 a) (r3 m) 1)
  | 18 => some (.mstaStrided x (r6 d) (r6 a) (r3 m) 2)
  | 19 => some (.mstaStrided x (r6 d) (r6 a) (r3 m) 3)
  | 20 => some (.mstaIndexed x (r6 d) (r6 a) (r3 m) 0)
  | 21 => some (.mstaIndexed x (r6 d) (r6 a) (r3 m) 1)
  | 22 => some (.mstaIndexed x (r6 d) (r6 a) (r3 m) 2)
  | 23 => some (.mstaIndexed x (r6 d) (r6 a) (r3 m) 3)
  | 32 => some (.cecopy x (r6 a) (r6 b))
  | 33 => some (.cefill x (r6 a) (r6 b))
  | 34 => some (.cestat x (r6 d))
  | 36 => some (.launch x (r6 d) (r6 a))
  | 37 => some (.farm x (r6 a) (r6 b))
  | 40 => some (.bar x (r6 a) (scopeOf m))
  | 42 => some (.xsend x (r6 a) (r6 b))
  | 43 => some (.xrecv x (r6 d) (r6 a))
  | 44 => some (.amsg x (r6 d) (r6 a) (r6 b))
  | _ => none

/-- Class 110, S group (R257, R258). -/
def decodeSys (x : Stack) (f d a b : Nat) : Option Instr :=
  match f with
  | 0 => some (.sysc x)
  | 1 => some (.tret x)
  | 2 => some (.exit x)
  | 3 => some (.fence x (scopeOf d) (.ofNat 4 b))
  | 4 => some (.vsave x (r6 a))
  | 5 => some (.vrest x (r6 a))
  | 6 => some (.incb x (r6 d) (r6 a))
  | 7 => some (.rcf x (r6 d) (r6 a))
  | 8 => some (.slwb x (r6 a) (r6 b))
  | 9 => some (.hmsw x (r6 a))
  | _ => none

/-- Class 110 (R257). -/
def decode6 (x : Stack) (w d a b : Nat) : Option Instr :=
  match w / 4 % 8 with
  | 0 => some (.setvl x (r6 d) (r6 a) (fmtOf b) (.ofCode (w / 256 % 8)))
  | 1 => some (.setvlb x (r6 d) (fmtOf a) (.ofCode (w / 16384 % 8)) (Fin.ofNat 5 (w / 2048 % 8))
      (Fin.ofNat 5 (w / 256 % 8)) (Fin.ofNat 5 (w / 32 % 8)))
  | 2 => some (.setsh x (r6 d) (r6 a) (.ofCode (w / 256 % 8)) (.ofCode (w / 32 % 8)))
  | 3 =>
    let c := Csr.ofNum (w / 128 % 1024)
    match w / 32 % 4 with
    | 0 => some (.csrr x (r6 d) c)
    | 1 => some (.csrw x (r6 a) c)
    | 2 => some (.csrs x (r6 a) c)
    | _ => some (.csrc x (r6 a) c)
  | 4 => (AmoOp.ofCode (w / 128 % 16)).map fun o => .amo x (r6 d) (r6 a) (r6 b) o (.ofCode (w / 32 % 4))
  | 5 => some (.cas x (r6 d) (r6 a) (r6 b) (.ofCode (w / 32 % 4)))
  | 6 =>
    match w / 128 % 16 with
    | 0 => some (.ldaq x (r6 d) (r6 a) (scopeOf b) (.ofCode (w / 32 % 4)))
    | 1 => some (.strl x (r6 d) (r6 a) (scopeOf b) (.ofCode (w / 32 % 4)))
    | 2 => some (.claim x (r6 d) (r6 a) (r6 b))
    | 3 => some (.waitm x (r6 a) (r6 b))
    | _ => none
  | _ => decodeSys x (w / 32 % 64) d a b

/-- The instruction that a word's function names, with the stack `x`; none for an unassigned pattern (R268). -/
def decodeWord (x : Stack) (w : Nat) : Option Instr :=
  let d := w / 8388608 % 64
  let a := w / 131072 % 64
  let b := w / 2048 % 64
  let m := w / 256 % 8
  let f := w / 4 % 64
  match w / 536870912 % 8 with
  | 0 => decode0 x w d a b
  | 1 => decode1 x w d a
  | 2 => decode2 x (f / 2) (f % 2 == 1) d a b m
  | 3 => decode3 x w d a b m
  | 4 => decode4 x f d a b m
  | 5 => decode5 x f d a b m
  | 6 => decode6 x w d a b
  | _ => none

/-- Compressed instructions, Table 13-14 (R266). -/
def decodeHalf (u : Nat) : Option Instr :=
  let d := Fin.ofNat 32 (u / 256)
  let a := Fin.ofNat 32 (u / 8)
  let i := u / 4
  let e := Fin.ofNat 8 (u / 1024)
  let g := Fin.ofNat 8 (u / 128)
  if u % 4 = 1 then
    match u / 8192 % 8 with
    | 0 => some (.caddi d (.ofNat 6 i))
    | 1 => some (.cli d (.ofNat 6 i))
    | 2 => some (.cmov d a)
    | 3 => some (.cadd d a)
    | 4 => some (.csub d a)
    | 5 => some (.cbeqz d (.ofNat 6 i))
    | 6 => some (.cbnez d (.ofNat 6 i))
    | _ => some (.cj (.ofNat 11 i))
  else
    match u / 8192 % 8 with
    | 1 => some (.cldw e g (.ofNat 5 i))
    | 2 => some (.cldd e g (.ofNat 5 i))
    | 3 => some (.cstw e g (.ofNat 5 i))
    | 4 => some (.cstd e g (.ofNat 5 i))
    | _ => none

/-- A part of a stack: its place in the order of R243 (7 for a reserved kind), its offset, its length in bytes, its
unit or word. -/
structure Part where
  rank : Nat
  off : Nat
  len : Nat
  val : Nat
  deriving DecidableEq, Repr

/-- The place of a modifier half-word in the order of R243 (R260). -/
def modRank (u : Nat) : Nat :=
  match u / 16384 % 4 with | 0 => 0 | 1 => 1 | 2 => 2 | _ => 7

/-- The place of a prefix word in the order of R243 (R259). -/
def preRank (w : Nat) : Nat :=
  match w / 67108864 % 8 with | 0 => 3 | 1 => 4 | 2 => 5 | 3 => 6 | _ => 7

/-- Check 4 of R264: a reserved kind, or a reserved field or code that is used. -/
def Part.sound (p : Part) : Bool :=
  match p.rank with
  | 0 => p.val / 4 % 4 == 0 && p.val / 2048 % 8 < 6 && p.val / 256 % 8 < 6
  | 1 => p.val / 256 % 8 < 6
  | 2 => true
  | 3 => p.val % 67108864 == 3
  | 4 => true
  | 5 => p.val / 4 % 16384 == 0
  | 6 => true
  | _ => false

/-- The stack that a part adds to. -/
def Part.addTo (p : Part) (x : Stack) : Stack :=
  match p.rank with
  | 0 => { x with opm := some (.ofUnit p.val) }
  | 1 => { x with memm := some (.ofUnit p.val) }
  | 2 => { x with ext := some (.ofNat 12 (p.val / 4)) }
  | 3 => { x with crit := true }
  | 4 => { x with ofs := some (.ofWord p.val) }
  | 5 => { x with tile := some (.ofWord p.val) }
  | 6 => { x with immx := some (.ofNat 24 (p.val / 4)) }
  | _ => x

/-- What ends a stack: a compressed half-word, or a word. -/
inductive FormEnd where | half (u : Nat) | word (w : Nat)
  deriving DecidableEq, Repr

/-- Reads the parts of a form up to the unit or word that ends it, or until more parts stand there than R243 admits. -/
def scan : Nat → Nat → List Byte → List Part → Except DecodeError (List Part × Option FormEnd)
  | 0, _, _, ps => .ok (ps.reverse, none)
  | n + 1, off, b0 :: b1 :: bs, ps =>
    let u := b0.toNat + b1.toNat * 256
    if u % 4 = 3 then
      match bs with
      | b2 :: b3 :: rest =>
        let w := u + b2.toNat * 65536 + b3.toNat * 16777216
        if w / 536870912 % 8 = 7 then scan n (off + 4) rest (⟨preRank w, off, 4, w⟩ :: ps)
        else .ok (ps.reverse, some (.word w))
      | _ => .error (.short (off + 2))
    else if u % 4 = 2 then scan n (off + 2) bs (⟨modRank u, off, 2, u⟩ :: ps)
    else .ok (ps.reverse, some (.half u))
  | _ + 1, off, _, _ => .error (.short off)

/-- Check 2 of R264 for one part, before an instruction that admits `a`; `x` is the whole stack. -/
def Part.taken (p : Part) (a : Adm) (x : Stack) : Bool :=
  match p.rank with
  | 0 => a.opmOk (.ofUnit p.val)
  | 1 => a.memmOk (.ofUnit p.val)
  | 2 => a.extOk (.ofNat 12 (p.val / 4))
  | 3 => a.crit
  | 4 => a.ofsOk (x.opm.any (·.q1)) (x.opm.any (·.q2)) (.ofWord p.val)
  | 5 => a.tileOk (.ofWord p.val)
  | 6 => a.immx
  | _ => false

/-- The first offending unit of a stack in address order (R264, checks 1 to 4). `low` is the least rank that may still
come; `adm` is what the instruction admits, none when check 2 is not made; `half` tells that a compressed instruction
ends the stack. -/
def firstOffender (adm : Option Adm) (half : Bool) (x : Stack) : Nat → List Part → Option Nat
  | _, [] => none
  | low, p :: ps =>
    if !p.sound || p.rank < low || half && ps.isEmpty || adm.any (fun a => !p.taken a x) then some p.off
    else firstOffender adm half x (p.rank + 1) ps

/-- What an instruction admits while VTYPE names a bit-sliced format: no offset that is not 0 (R47). -/
def Adm.under (sliced : Bool) (a : Adm) : Adm := { a with sliced := sliced }

/-- Decodes the form that begins the bytes, for a hart whose VTYPE names a bit-sliced format or not: the instruction and the
form's length. DEDUCED, log entry 21. -/
def decodeFor (sliced : Bool) (bs : List Byte) : Except DecodeError (Instr × Nat) :=
  match scan 8 0 bs [] with
  | .error e => .error e
  | .ok (ps, en) =>
    let x := ps.foldl (fun x p => p.addTo x) .plain
    let len := ps.foldl (fun n p => n + p.len) 0
    match en with
    | none => .error (.illegalUnit ((firstOffender none false x 0 ps).getD 0))
    | some (.half u) =>
      match firstOffender none true x 0 ps with
      | some off => .error (.illegalUnit off)
      | none =>
        match decodeHalf u with
        | some i => if i.word = u then .ok (i, 2) else .error (.illegalInstr 0)
        | none => .error (.illegalInstr 0)
    | some (.word w) =>
      match decodeWord x w with
      | none =>
        match firstOffender none false x 0 ps with
        | some off => .error (.illegalUnit off)
        | none => .error (.illegalInstr 0)
      | some i =>
        match firstOffender (some (i.adm.under sliced)) false x 0 ps with
        | some off => .error (.illegalUnit off)
        | none =>
          if i.adm.tile != 0 && x.tile.isNone then .error (.illegalInstr len)
          else if i.word = w && i.adm.needsMet x && i.fieldsOk then .ok (i, len + 4)
          else .error (.illegalInstr 0)

/-- Decodes the form that begins the bytes, in a format that is not bit-sliced. -/
def decodeForm (bs : List Byte) : Except DecodeError (Instr × Nat) := decodeFor false bs

/-- The decoder: the instruction at the start of the bytes, or why there is none. -/
def decode (bs : List Byte) : Except DecodeError Instr := (decodeForm bs).map (·.1)

/-- The bytes of a number, little-endian. -/
def natBytes : Nat → Nat → List Byte
  | 0, _ => []
  | n + 1, w => .ofNat 8 w :: natBytes n (w / 256)

/-- The instruction that the decoder reads from the bits `w` of a table row; bits above `nbits` are 0. The longest form
has 26 bytes. -/
def decodeTableWord (nbits w : Nat) : Option Instr :=
  match decodeForm (natBytes 26 (w % 2 ^ nbits)) with
  | .ok (i, _) => some i
  | .error _ => none

end Sys2Proof
end

