-- ==== Sys2Proof/Config.lean ====
section
/-! DEFINITION. The free values of the model: what the manual leaves open and no definition may choose.
Every constant here is opaque: nothing in Lean can evaluate it, so a statement about it holds of every value. -/

namespace Sys2Proof.Config

/-- The content of a dead vector-register word (R28): a free value of the hart's generation of death, the register,
the lane and the word. DESIGN CHOICE, log entry 6. -/
opaque deadWord : (generation key : Nat) → BitVec 32

/-- The content of a dead scale entry (R66, R28). DESIGN CHOICE, log entry 6. -/
opaque deadScale : (generation key : Nat) → BitVec 8

/-- The content of a mask register of a hart that has just been placed (R18). DESIGN CHOICE, log entry 6. -/
opaque placedMask : (generation mask : Nat) → BitVec 65536

/-- A value that the manual leaves unspecified, fresh for every count of the state's `tick`. DESIGN CHOICE, log entry 14. -/
opaque freeByte : (tick address : Nat) → BitVec 8

/-- Cycles that one step adds to the cycle counter of a core (R270, R3). DESIGN CHOICE, log entry 10. -/
opaque cycles : (core tick : Nat) → BitVec 64

/-- The physical base of the context table that the firmware sets at boot (R172, R225), in units of 64 KiB.
DESIGN CHOICE, log entry 4. -/
opaque bootContextTable : BitVec 20

/-- The public key whose hash is fused, by its index (R226). DESIGN CHOICE, log entry 12. -/
opaque publicKey : (index : Nat) → Nat × Nat

/-- The device identity key (R228). DESIGN CHOICE, log entry 12. -/
opaque deviceKey : Nat

/-- The random number behind a signature over a digest (R228). DESIGN CHOICE, log entry 12. -/
opaque signNonce : (digest : List (BitVec 8)) → Nat

/-- Whether the key of that index is revoked (R226). DESIGN CHOICE, log entry 12. -/
opaque keyRevoked : (key : Nat) → Bool

/-- The fused security-version counter (R226, R228). DESIGN CHOICE, log entry 12. -/
opaque fusedSvn : BitVec 32

/-- The images that the firmware brings up after itself (R225, R227): 0 the Teller handlers, 1 the operating system
loader, 2 its configuration. DESIGN CHOICE, log entry 12. -/
opaque bootImage : (which : Nat) → List (BitVec 8)

/-- Which of the values ever written a read returns when the home of an address has changed (R123, R184): true keeps
the value of the last write. DESIGN CHOICE, log entry 13. -/
opaque movedHomeKeeps : (tick address : Nat) → Bool

end Sys2Proof.Config
end

