-- ==== Sys2Proof/Machine/State.lean ====
section
/-! DEFINITION. The state of the module as plain data, and its value at reset. The hart in focus is `h`; the other
placed harts are `rest`. -/

namespace Sys2Proof.Machine

/-- Bytes by address, strictly rising, none equal to what an unlisted address reads as. -/
abbrev Store := List Host.Cell

/-- A word of the vector register file (R32, R33): key 8192 * register + 128 * lane + word. -/
structure VCell where
  key : Nat
  val : BitVec 32
  poison : Bool
  deriving DecidableEq, Repr

/-- The poisoned 32-bit words of a code (R206): bit `j` for its word `j`; 0 when it is clean. -/
abbrev Bad := Nat

/-- A shell entry (R50). -/
inductive Shell where
  | zero | const (v : Word) | edge | link (r : VReg) | trap
  deriving DecidableEq, Repr

/-- A load-queue entry (R106): the code of each element, and its poisoned words. -/
structure QEntry where
  elems : List (Nat × Bad)
  deriving DecidableEq, Repr

/-- A physical place that an access reached (R171, R110): an address of the physical map, or an offset of a core's
scratchpad; `pt` when the leaf marks the page PT (R186), `dev` when its kind is device, and the leaf's SKEW (R183). -/
structure Phys where
  pa : Nat
  spad : Bool
  pt : Bool
  dev : Bool
  skew : Fin 3
  deriving DecidableEq, Repr

/-- A read of a word on its way from a core to its die's slice, or waiting there (R127). -/
structure ReadReq where
  core : CoreId
  pa : Nat
  tag : Tag
  deriving DecidableEq, Repr

/-- Where poison stands or came from (R206, R208). -/
inductive PLoc where
  | sreg (r : SReg) | vword (key : Nat) | mask (m : MReg) (word : Nat) | scale (key : Nat) | cell (key : Nat)
  | queue (q : Fin 4) (e : Nat) | mem (word : Nat) | spad (word : Nat)
  deriving DecidableEq, Repr

/-- The open instruction of a trap at a stripe (R195), or the point at which it resumes (R196): its form, its address,
the stripe, the values its destination register and mask held before it, with the poisoned words of that mask, and what
completing it frees and takes: the load queues whose entry it consumed (R106), and the bytes by which PURSE advances (R69). -/
structure OpenInstr where
  pc : Word
  instr : Instr
  stripe : Nat
  kept : List VCell
  keptMask : Nat
  keptBad : List Nat
  frees : List (Fin 4)
  purse : Nat
  deriving DecidableEq, Repr

/-- A virtual processor (R34, R35): its element, its program counter and the entry of its current block. -/
structure Vp where
  e : Nat
  pc : Word
  entry : Word
  deriving DecidableEq, Repr

/-- The run of a VFETCH (R36): its living VPs; the address of the VFETCH; the address after it; the token FIFOs that the
VFETCH pops from and pushes to; the group that the current step executes, by its elements; and the registers and PURSE as
they stood when it issued, for a stop that unwinds it (R328) and for the scalar operands of its blocks (R35). -/
structure VpRun where
  vps : List Vp
  at_ : Word
  next : Word
  pop : Option Nat
  push : Option Nat
  group : Option (List Nat)
  regs0 : List VCell
  masks0 : Vector Nat 8
  sregs0 : Vector Word 64
  fflags0 : Word
  purse0 : Word
  poison0 : List PLoc
  deriving DecidableEq, Repr

/-- Kinds of engine transfers (R119, R162). -/
inductive XKind where | cecopy | cefill | msta | vred
  deriving DecidableEq, Repr

/-- One element of an engine transfer: a copy (R117), a store of bytes (R117, R96), or an add at a home (R82) of the value
of a code of `src` times 2^(k - 127) to a word of format `fmt`. -/
inductive XElem where
  | copy (src dst : Phys) (n : Nat)
  | put (dst : Phys) (bytes : List Byte) (poison : Bool)
  | add (dst : Phys) (fmt src : Fmt) (code k : Nat) (poison : Bool)
  | skip
  deriving DecidableEq, Repr

/-- A progress word in use (R115): its place, the elements performed and not yet added, and the scope. -/
structure Notify where
  at_ : Phys
  pending : Nat
  scope : Scope
  deriving DecidableEq, Repr

/-- An engine transfer not yet performed (R116 to R120): its remaining elements in ascending order. -/
structure Xfer where
  kind : XKind
  elems : List XElem
  notify : Option Notify
  entries : Nat
  deriving DecidableEq, Repr

/-- The geometry that a SETVL, SETVLB or VREST asks for (R307, R43, R204): for VREST the bytes of the image and the
offsets of its poisoned words. -/
inductive SetKind where
  | flat (request : Word)
  | brick (z y w : Fin 5) (gz gy gx : BitVec 8)
  | image (bytes : List Byte) (poison : List Nat)
  deriving DecidableEq, Repr

/-- A renegotiation of lane clusters (R27): what is asked, and what completing it writes. -/
structure SetReq where
  kind : SetKind
  d : SReg
  fmt : Fmt
  nreg : NregC
  demand : Nat
  x : Stack
  deriving DecidableEq, Repr

/-- A VLDM whose headers go out (R135): its operands, its active elements with the physical addresses of their bytes, the
parts that still owe it beats, and the bytes that have arrived, with their poison. -/
structure Mcast where
  x : Stack
  d : VReg
  m : MReg
  elems : List (Nat × List Nat)
  parts : List McPart
  got : List (Nat × Byte × Bool)
  deriving DecidableEq, Repr

/-- Why a hart is not ready (R25). `reclaim` stands for a resumed hart that claims the matrix unit before its first
instruction (R86). `rcf` stands for an RCF of a context, with whether a sweep that it waited for counted a link as swept
because it was declared down (R146). `beats` stands for a VLDM that waits for the beats of its entries (R135). -/
inductive Stall where
  | token (fifo : Nat)
  | lanes (r : SetReq)
  | matrix (l : MvlC) (x : Stack)
  | reclaim (l : MvlC)
  | rcf (cid : BitVec 12) (down : Bool) (d : SReg) (x : Stack)
  | barrier (scope : Scope) (x : Stack)
  | monitor (x : Stack)
  | beats (v : Mcast)
  | retry
  deriving DecidableEq, Repr

/-- What a hart is doing (R25, R23, R214). -/
inductive Status where
  | absent | running | stalled (why : Stall) | heldInFault | frozen
  deriving DecidableEq, Repr

/-- A hart (Table 2-3 and the control registers of Table 13-16). `single` is the model's own: its next vector instruction
issues one stripe. `backing` holds the physical pages of its backing area, as the tables map it (R104). `ahead`
names the forms from the pc on that have issued and wait for their turn, each by the token FIFO that it has popped (R109).
`barred` tells that the BAR at the pc has passed the checks made at its issue and waits for a slot (R282). -/
structure Hart where
  status : Status
  core : CoreId
  ctx : Ctx
  gang : BitVec 8
  index : Nat
  cid : BitVec 12
  inc : BitVec 8
  pc : Word
  sregs : Vector Word 64
  vl : Nat
  fmt : Fmt
  nregc : NregC
  bs : Bool
  sat : Bool
  bgeo : Word
  dil : Word
  vbase : Word
  cbypass : Word
  purse : Word
  frm : Word
  fflags : Word
  chkEn : Bool
  mcnt : BitVec 16
  fst : Word
  lost : Option (BitVec 28)
  tcause : Word
  tpc : Word
  tstripe : Word
  tval : Word
  tvec : Word
  lcs : BitVec 8
  requester : Bool
  waitAge : Nat
  unitAge : Nat
  demand : Nat
  vregs : List VCell
  vgen : Nat
  masks : Vector Nat 8
  scales : List (Nat × BitVec 8)
  shells : List (Nat × Shell)
  queues : Vector (List QEntry) 4
  tokens : Vector Nat 25
  poison : List PLoc
  opened : Option OpenInstr
  resume : Option OpenInstr
  mvl : Option MvlC
  cells : List (Nat × BitVec 32)
  xfers : List Xfer
  ptStores : Nat
  irq : Option (Word × Bool)
  preempt : Bool
  monitor : Option Nat
  vp : Option VpRun
  vpClosed : Option (Word × Option Nat)
  squash : Option PLoc
  offChip : List (VReg × Fin 8)
  aged : Bool
  single : Bool
  backing : List Nat
  ahead : List (Option Nat)
  barred : Bool
  deriving DecidableEq, Repr

/-- A hart record before placement. -/
def Hart.reset : Hart where
  status := .absent
  core := 0
  ctx := 0
  gang := 0
  index := 0
  cid := 0
  inc := 0
  pc := 0
  sregs := Vector.replicate 64 0
  vl := 0
  fmt := .fp32
  nregc := .n4
  bs := false
  sat := false
  bgeo := wd (2 ^ 62)
  dil := 0
  vbase := 0
  cbypass := wd 0x10000
  purse := 0
  frm := 0
  fflags := 0
  chkEn := true
  mcnt := 0
  fst := 0
  lost := none
  tcause := 0
  tpc := 0
  tstripe := 0
  tval := 0
  tvec := 0
  lcs := 0
  requester := false
  waitAge := 0
  unitAge := 0
  demand := 0
  vregs := []
  vgen := 0
  masks := Vector.replicate 8 0
  scales := []
  shells := []
  queues := Vector.replicate 4 []
  tokens := Vector.replicate 25 0
  poison := []
  opened := none
  resume := none
  mvl := none
  cells := []
  xfers := []
  ptStores := 0
  irq := none
  preempt := false
  monitor := none
  vp := none
  vpClosed := none
  squash := none
  offChip := []
  aged := false
  single := false
  backing := []
  ahead := []
  barred := false

/-- Lane-cluster power states, Table 6-2 (R105). -/
inductive Power where | on | retention | off | waking
  deriving DecidableEq, Repr

/-- What belongs to a core: power states, spare lane cluster, last context granted (R105, R209, R26). -/
structure Core where
  id : CoreId
  power : Vector Power 8
  spUsed : Bool
  retLc : Fin 8
  lastCtx : Ctx
  deriving DecidableEq, Repr

/-- A core at reset. The power states and the last context granted: DESIGN CHOICE, log entry 3. -/
def Core.reset (c : CoreId) : Core where
  id := c
  power := Vector.replicate 8 .off
  spUsed := false
  retLc := 0
  lastCtx := 7

/-- A form that has issued and not retired, because the token push of it or of an older one waits for a place (R109): the
hart as it stood when the form issued, the form, the FIFO it pushes to, whether its effect outside the hart is still to
be made, and whether it may now retire. -/
structure Held where
  snap : Hart
  instr : Instr
  fifo : Option Nat
  external : Bool
  due : Bool
  deriving DecidableEq, Repr

/-- A registered word (R126): value in the writer's L1, tagged with the writer's context and incarnation, and with the SKEW
of the leaf that translated the write; `leaving` when its write-back stands in the buffer of its slice (R121). -/
structure RegWord where
  pa : Nat
  core : CoreId
  cid : BitVec 12
  inc : BitVec 8
  val : BitVec 32
  poison : Bool
  skew : Fin 3
  leaving : Bool
  deriving DecidableEq, Repr

/-- An unregistered copy of a word in a core's L1 (R128). -/
structure L1Copy where
  core : CoreId
  pa : Nat
  val : BitVec 32
  poison : Bool
  deriving DecidableEq, Repr

/-- Read data on its way to a core (R127). -/
structure Answer where
  copy : L1Copy
  tag : Tag
  deriving DecidableEq, Repr

/-- Translation agents that hold leaves, Table 9-8 (R185). -/
inductive TAgent where
  | tlb (c : CoreId) | sorter (c : CoreId) | engine (tile : Nat)
  deriving DecidableEq, Repr

/-- A pointer entry or a context-table entry that a core's page-walk cache holds (Table 9-8): the table that it names for
the level `level` of the addresses of a context with these upper bits, and the pieces that it was derived from. -/
structure WalkPtr where
  core : CoreId
  cid : BitVec 12
  level : Nat
  upper : Nat
  table : Nat
  pieces : List Nat
  deriving DecidableEq, Repr

/-- A translation held by an agent (R185): the page, its leaf, and the 64-byte pieces it was derived from. -/
structure Transl where
  agent : TAgent
  cid : BitVec 12
  vpn : Nat
  leaf : Word
  size : Nat
  pieces : List Nat
  deriving DecidableEq, Repr

/-- The memory system. `unacked` tells that a write through PT = 0 has dropped translations, and that the agents that held them
have not acknowledged it: accesses that they translated may be outstanding (R130, R185). -/
structure Mem where
  home : Store
  poison : List Nat
  regd : List RegWord
  l1 : List L1Copy
  spad : Store
  spadPoison : List Nat
  transl : List Transl
  ptrs : List WalkPtr
  sharers : List (Agent × Nat)
  sliceCopies : List Nat
  forwards : List ReadReq
  misses : List (Fin 512 × Nat)
  missReads : List (Fin 512 × ReadReq)
  waiting : List (Fin 512 × ReadReq)
  answers : List Answer
  homeAnswers : List (CoreId × Word × Tag)
  unacked : Bool
  deriving DecidableEq, Repr

/-- An open multicast entry at a slice (R135): its bytes and their poison, the next beat, the harts whose headers are
attached with the beat they joined at, the beats to replay. -/
structure McEntry where
  part : McPart
  bytes : List (Nat × Byte × Bool)
  next : Nat
  attached : List (CoreId × Ctx × Nat)
  replay : List (CoreId × Ctx × Nat)
  deriving DecidableEq, Repr

/-- A message of the lane exchange (R136, R201). -/
structure Message where
  gang : BitVec 8
  sender : Nat
  receiver : Nat
  words : Nat
  lanes : List Nat
  data : List VCell
  deriving DecidableEq, Repr

/-- A barrier instance that waits (R281). -/
structure BarInst where
  pod : Nat
  gang : BitVec 8
  mask : BitVec 16
  scope : Scope
  arrived : List Nat
  deriving DecidableEq, Repr

/-- A message queued at a Teller (R138), and the port and the join number of the peer that sent it. -/
structure TMsg where
  teller : Fin 512
  port : Option (Fin 32 × BitVec 16 × BitVec 8)
  h : Byte
  payload : List Byte
  pa : Nat
  cid : BitVec 12
  inc : BitVec 8
  deriving DecidableEq, Repr

/-- A launch descriptor, Table 2-1 (R10). -/
structure Desc where
  entry : Word
  args : Word
  done : Word
  waitc : Word
  waitn : Word
  vbas : Word
  spsrc : Word
  pods : BitVec 32
  cores : BitVec 16
  harts : BitVec 16
  budget : BitVec 32
  prio : BitVec 8
  spq : BitVec 8
  cid : BitVec 16
  resv : Word
  deriving DecidableEq, Repr

/-- Where a gang stands (R15, R16, R19): waiting for admission, resident, or counted out and owing its DONE add. -/
inductive GState where | waiting | resident | ended
  deriving DecidableEq, Repr

/-- A hart of a stopped gang (R21, R199, R200): its index, how it stopped, its lane-cluster count; and, the model's own
since the stop record has no place for them (DESIGN CHOICE, log entry 17), its open instruction, whose register value is
that of the record, the mask kept for the instruction that resumes, and what a block that trapped still owes. -/
structure Stopped where
  index : Nat
  how : Nat
  lcn : Nat
  opened : Option OpenInstr
  resumeMask : Nat
  vpClosed : Option (Word × Option Nat)
  deriving DecidableEq, Repr

/-- A gang in its launch slots (R13). `slots` holds the slot of each die it touches; `passed` counts the admissions that
passed it over (R16); `places` where its harts were last placed; `head` tells that it lost its staging to a rerun and
stands at the head of its priority (R24). -/
structure Gang where
  num : BitVec 8
  desc : Desc
  cid : BitVec 12
  inc : BitVec 8
  priv : Bool
  slots : List (Fin 4 × Nat)
  st : GState
  ready : Bool
  age : Nat
  passed : Nat
  live : Nat
  stopped : List Stopped
  staged : List CoreId
  places : List (Nat × CoreId × Ctx)
  head : Bool
  deriving DecidableEq, Repr

/-- The state of an incarnation value (R141). -/
inductive IncState where | free | live | sweep
  deriving DecidableEq, Repr

/-- A sweep in progress (R145): the checkpoints that have not reported; whether a link was counted as swept by being
declared down. -/
structure Sweep where
  cid : BitVec 12
  inc : BitVec 8
  pending : List Checkpoint
  viaDown : Bool
  deriving DecidableEq, Repr

/-- A command in progress in a command block (R222): its code and its operands as they stood when it started; whether a sweep that it waits for counted a link as swept
because it was declared down (R146); its answer once it has taken effect. -/
structure CmdRun where
  n : Fin 16
  op : BitVec 8
  a : Word
  b : Word
  down : Bool
  ans : Option Word
  deriving DecidableEq, Repr

/-- A report record (Table 11-9). -/
structure Report where
  kind : Nat
  detail : Nat := 0
  cid : BitVec 12 := 0
  inc : BitVec 8 := 0
  tcause : Word := 0
  addr : Word := 0
  master : Word := 0
  gang : BitVec 32 := 0xFFFFFFFF
  loss : BitVec 28 := 0
  deriving DecidableEq, Repr

/-- The module outside cores and memory. `peers` holds the device that each port last trained with, `windows` every device
that a port has trained with (R215); `corrected` counts the errors corrected in place (R205); `devr` holds the device
registers by offset (R222, R231), 0 when unlisted; `measuring` the measurement in progress: its register and its bytes (R227);
`reports` the reports that wait, oldest first, for the link or the multicast entry that holds back the ring (R220, R135). -/
structure Sys where
  gangs : List Gang
  ageCount : Nat
  bars : List BarInst
  msgs : List Message
  mc : List McEntry
  cur : List (BitVec 12 × BitVec 8)
  states : List (BitVec 12 × BitVec 8 × IncState)
  sweeps : List Sweep
  portCur : List (Fin 32 × BitVec 12 × BitVec 8)
  hmask : Vector Word 4
  ctxBase : Nat
  msi : Nat
  tellerImage : List (Fin 4 × List Byte)
  tellerMem : Store
  tellerPoison : List Nat
  tellerQ : List TMsg
  frozen : List Word
  joins : List (Agent × BitVec 8)
  failed : List Agent
  hostUp : Bool
  peers : List (Fin 32 × BitVec 16)
  windows : List (Fin 32 × BitVec 16)
  retraining : List Link
  down : List Link
  devr : List (Nat × Word)
  cmds : List CmdRun
  mregs : List (Nat × BitVec 384)
  measuring : Option (Nat × List Byte)
  withheld : Bool
  flash : Store
  booted : Bool
  corrected : Nat
  reports : List Report
  deriving DecidableEq, Repr

/-- A computation upset still to come (R101, R210, R211, R213): the checks of the lanes and of the matrix array meet it
at the next instruction that they check, at a stripe and at the lowest element of the group or word that disagrees. -/
inductive Upset where
  | mismatch | outvoted (lc : Fin 8) (stripe elem : Nat) | split (stripe elem : Nat) | matrixOnce | matrixTwice
  | criticalOutvoted (n : Nat) | criticalSplit (stripe elem : Nat)
  deriving DecidableEq, Repr

/-- The module. `cyc` counts the cycles of each core since reset (R4, R270). -/
structure State where
  h : Hart
  rest : List Hart
  cores : List Core
  held : List Held
  mem : Mem
  sys : Sys
  inbox : List Instr
  tick : Nat
  cyc : Vector Word 512
  upsets : List Upset
  deriving DecidableEq, Repr

/-- The memory system at reset: nothing listed. -/
def Mem.reset : Mem where
  home := []
  poison := []
  regd := []
  l1 := []
  spad := []
  spadPoison := []
  transl := []
  ptrs := []
  sharers := []
  sliceCopies := []
  forwards := []
  misses := []
  missReads := []
  waiting := []
  answers := []
  homeAnswers := []
  unacked := false

/-- The module's own registers at reset. POWCAP, at offset 0x11000, is 1800 (R231). -/
def Sys.reset : Sys where
  gangs := []
  ageCount := 0
  bars := []
  msgs := []
  mc := []
  cur := []
  states := []
  sweeps := []
  portCur := []
  hmask := Vector.replicate 4 (BitVec.allOnes 64)
  ctxBase := 0
  msi := 0
  tellerImage := []
  tellerMem := []
  tellerPoison := []
  tellerQ := []
  frozen := []
  joins := []
  failed := []
  hostUp := false
  peers := []
  windows := []
  retraining := []
  down := []
  devr := [(0x11000, wd 1800)]
  cmds := []
  mregs := []
  measuring := none
  withheld := false
  flash := []
  booted := false
  corrected := 0
  reports := []

/-- The module right after reset: no hart is placed, and the boot of R225 is the first step. -/
def State.reset : State where
  h := Hart.reset
  rest := []
  cores := []
  held := []
  mem := Mem.reset
  sys := Sys.reset
  inbox := [.boot]
  tick := 0
  cyc := Vector.replicate 512 0
  upsets := []

/-- Why the machine stops: the manual gives every instruction and every step of the module an effect, so no meaning
raises a fault and the type has no constructor. -/
inductive Fault where
  deriving DecidableEq, Repr

/-- Why an instruction has no meaning in the model. -/
inductive Refusal where
  /-- Raised by an arm of Dispatch that has no meaning yet. Safe: the model stops. -/
  | notModelled (mnemonic : String)
  deriving DecidableEq, Repr

/-- The three outcomes of a step, for this machine. -/
abbrev Out := Host.Outcome State Fault Refusal

end Sys2Proof.Machine
end

