-- ==== Sys2Proof/Machine/Memory.lean ====
section
/-! DEFINITION. Memory: stores of bytes in canonical form, the home copies, registered words and cached copies of
chapter 7, poison, and the physical map of R171 and R215. -/

namespace Sys2Proof.Machine

/-! Stores of bytes. An unlisted byte of memory or of a scratchpad reads as 0 (log entries 1 and 2); an unlisted byte of
the flash reads as 0xFF (PRESUMED, log entry 4). -/

/-- What an unlisted byte of memory reads as. DESIGN CHOICE, log entry 1. -/
def unlisted : Byte := 0

/-- What an unlisted byte of the flash reads as. PRESUMED, log entry 4. -/
def unlistedFlash : Byte := 0xFF

/-- The byte at an address, `d` when unlisted. -/
def Store.get (d : Byte) : Store → Nat → Byte
  | [], _ => d
  | (k, v) :: l, a => if a = k then v else Store.get d l a

/-- The store with a byte listed, or with the entry removed when `v` is what an unlisted byte reads as. -/
def Store.set (d : Byte) (a : Nat) (v : Byte) : Store → Store
  | [] => if v = d then [] else [(a, v)]
  | (k, x) :: l =>
    if a < k then (if v = d then (k, x) :: l else (a, v) :: (k, x) :: l)
    else if a = k then (if v = d then l else (a, v) :: l)
    else (k, x) :: Store.set d a v l

/-- `n` consecutive bytes. -/
def Store.getN (d : Byte) (st : Store) : Nat → Nat → List Byte
  | _, 0 => []
  | a, n + 1 => st.get d a :: Store.getN d st (a + 1) n

/-- Consecutive bytes written. -/
def Store.setN (d : Byte) : Nat → List Byte → Store → Store
  | _, [], st => st
  | a, b :: bs, st => Store.setN d (a + 1) bs (st.set d a b)

/-- Every listed address is above `lo`, addresses rise strictly, and no listed byte equals `d`. -/
def Store.wfFrom (d : Byte) : Option Nat → Store → Bool
  | _, [] => true
  | lo, (k, v) :: l => (match lo with | none => true | some b => decide (b < k)) && v != d && Store.wfFrom d (some k) l

/-- The canonical form of a store. -/
def Store.wf (d : Byte) (st : Store) : Bool := Store.wfFrom d none st

/-- The canonical form of memory: the home copies, the scratchpads. -/
def Mem.wf (m : Mem) : Bool := m.home.wf unlisted && m.spad.wf unlisted

/-! The physical map. -/

/-- The end of main memory (R171). -/
def mainEnd : Nat := 0x18000000000

/-- The die of a core: 128 cores a die (R17, R10). -/
def dieOf (c : CoreId) : Fin 4 := Fin.ofNat 4 (c.val / 128)

/-- The pod of a core (R17). -/
def podOf (c : CoreId) : Nat := c.val / 16

/-- The tile of a core: two cores a tile (R230). -/
def tileOf (c : CoreId) : Nat := c.val / 2

/-- The home die of an address of main memory (R171). -/
def homeDie (pa : Nat) : Option (Fin 4) :=
  if pa < mainEnd then some (Fin.ofNat 4 (pa / 0x6000000000)) else none

/-- The home of an address is on the die of core `c`. -/
def homedOnDie (c : CoreId) (pa : Nat) : Bool := homeDie pa == some (dieOf c)

/-- The agents that home an address (R149, R215): a C-die, the host, or the peers of a device number. -/
inductive HomeAgent where
  | die (d : Fin 4) | device | host | peer (n : Nat)
  deriving DecidableEq, Repr

/-- The agent whose range holds a physical address (Tables 9-1, 11-1); none above the windows of the peers. -/
def homeAgent (pa : Nat) : Option HomeAgent :=
  if pa < mainEnd then some (.die (Fin.ofNat 4 (pa / 0x6000000000)))
  else if pa < 0x20000000000 then some .device
  else if pa < 0x100000000000 then some .host
  else
    let n := pa / 0x20000000000 - 8
    if n < 2040 ∧ pa % 0x20000000000 < mainEnd then some (.peer n) else none

/-- The base of the device registers (R215). -/
def devBase : Nat := 0x18000000000

/-- Offsets that Table 11-11 assigns, for whole doublewords (R231, Table 11-4). -/
def devAssigned (off : Nat) : Bool :=
  off % 8 == 0 &&
    (off < 0x10000 && off % 0x1000 ≤ 0x20
    || 0x10000 ≤ off && off < 0x101C0
    || off == 0x11000 || off == 0x11008 || off == 0x12000 || off == 0x13000
    || 0x20000 ≤ off && off < 0x40000 && off % 0x1000 ≤ 0x300)

/-! Words. -/

/-- The 4-byte word of an address. -/
def wordAt (pa : Nat) : Nat := pa / 4 * 4

/-- The registration of the word of an address (R126). -/
def Mem.reg (m : Mem) (pa : Nat) : Option RegWord := m.regd.find? fun r => r.pa == wordAt pa

/-- Byte `pa mod 4` of a word. -/
def byteOf (v : BitVec 32) (pa : Nat) : Byte := v.extractLsb' (8 * (pa % 4)) 8

/-- The home copy of a word. -/
def Mem.homeWord (m : Mem) (pa : Nat) : BitVec 32 :=
  BitVec.ofNat 32 (bytesNat (m.home.getN unlisted (wordAt pa) 4))

/-- The latest value of a byte of memory: the registrant's, else the home's (R126, R127). -/
def Mem.curByte (m : Mem) (pa : Nat) : Byte :=
  match m.reg pa with
  | some r => byteOf r.val pa
  | none => m.home.get unlisted pa

/-- The latest value of a word. -/
def Mem.curWord (m : Mem) (pa : Nat) : BitVec 32 :=
  match m.reg pa with
  | some r => r.val
  | none => m.homeWord pa

/-- The latest value of a word is poisoned. -/
def Mem.curPoison (m : Mem) (pa : Nat) : Bool :=
  match m.reg pa with
  | some r => r.poison
  | none => m.poison.contains (wordAt pa)

/-- The copy that core `c` holds unregistered of a word (R128). -/
def Mem.copy (m : Mem) (c : CoreId) (pa : Nat) : Option L1Copy :=
  m.l1.find? fun x => x.core == c && x.pa == wordAt pa

/-- A byte as core `c` reads it: its own registered word, its own copy, another core's registration, the home (R127). -/
def Mem.readByte (m : Mem) (c : CoreId) (pa : Nat) : Byte :=
  match m.reg pa with
  | some r =>
    if r.core = c then byteOf r.val pa
    else match m.copy c pa with
      | some x => byteOf x.val pa
      | none => byteOf r.val pa
  | none =>
    match m.copy c pa with
    | some x => byteOf x.val pa
    | none => m.home.get unlisted pa

/-- Whether the word that core `c` reads at an address is poisoned. -/
def Mem.readPoison (m : Mem) (c : CoreId) (pa : Nat) : Bool :=
  match m.reg pa with
  | some r =>
    if r.core = c then r.poison
    else match m.copy c pa with
      | some x => x.poison
      | none => r.poison
  | none =>
    match m.copy c pa with
    | some x => x.poison
    | none => m.poison.contains (wordAt pa)

/-- `n` bytes as core `c` reads them. -/
def Mem.readBytes (m : Mem) (c : CoreId) : Nat → Nat → List Byte
  | _, 0 => []
  | pa, n + 1 => m.readByte c pa :: Mem.readBytes m c (pa + 1) n

/-- `n` bytes at the point of coherence of .dev and .sys. -/
def Mem.curBytes (m : Mem) : Nat → Nat → List Byte
  | _, 0 => []
  | pa, n + 1 => m.curByte pa :: Mem.curBytes m (pa + 1) n

/-- Whether some byte of `n` lies in a word for which `p` holds. -/
def anyWord (p : Nat → Bool) : Nat → Nat → Bool
  | _, 0 => false
  | pa, n + 1 => p pa || anyWord p (pa + 1) n

/-- Marks or clears the poison of the home copy of a word. -/
def Mem.setPoison (m : Mem) (pa : Nat) (b : Bool) : Mem :=
  let w := wordAt pa
  { m with poison := if b then (if m.poison.contains w then m.poison else w :: m.poison)
                     else m.poison.filter (· != w) }

/-- The 64-byte piece of an address (R130). -/
def pieceOf (pa : Nat) : Nat := pa / 64 * 64

/-- A 64-byte piece meets `n` bytes. -/
def meets (piece pa n : Nat) : Bool := piece < pa + n && pa < piece + 64

/-- `n` bytes meet a piece that a translation, or a pointer of a page-walk cache, was derived from (R185). -/
def Mem.tablesMeet (m : Mem) (pa n : Nat) : Bool :=
  (m.transl.any fun t => t.pieces.any fun q => meets q pa n) || m.ptrs.any fun t => t.pieces.any fun q => meets q pa n

/-- Core `c` has registered a word of a table that some agent holds translations of. -/
def Mem.flushMeets (m : Mem) (c : CoreId) : Bool := m.regd.any fun r => r.core == c && m.tablesMeet r.pa 4

/-- Drops the copies that sharers other than the writer hold of the pieces of `n` bytes: proxies, peers and the host; and,
unless the write is a PT store, the translations derived from them, whose agents acknowledge it later (R130, R185, R187). -/
def Mem.invalidate (m : Mem) (writer : Option Agent) (pt : Bool) (pa n : Nat) : Mem :=
  { m with
    sharers := m.sharers.filter (fun x => some x.1 == writer || !meets x.2 pa n)
    transl := if pt then m.transl else m.transl.filter (fun t => !t.pieces.any fun q => meets q pa n)
    ptrs := if pt then m.ptrs else m.ptrs.filter (fun t => !t.pieces.any fun q => meets q pa n)
    unacked := m.unacked || !pt && m.tablesMeet pa n }

/-- The home applies one byte. -/
def Mem.homePut (m : Mem) (pa : Nat) (b : Byte) : Mem := { m with home := m.home.set unlisted pa b }

/-- The home applies bytes (R130). A whole clean word clears its poison; poisoned data poisons the words it
touches (R206). -/
def Mem.homePutAll (m : Mem) (poison : Bool) : Nat → List Byte → Mem
  | _, [] => m
  | pa, b :: bs =>
    let m := m.homePut pa b
    let m := if poison then m.setPoison pa true
             else if pa % 4 = 0 ∧ 3 ≤ bs.length then m.setPoison pa false else m
    Mem.homePutAll m poison (pa + 1) bs

/-- The home applies a write and invalidates the pieces that it touches in every sharer other than the writer (R130). The
bytes of each 64-byte piece are a packet of their own (R131); the packets of one write apply here one behind another. -/
def Mem.homeApply (m : Mem) (writer : Option Agent) (pt : Bool) (pa : Nat) (bytes : List Byte) (poison : Bool) : Mem :=
  (m.homePutAll poison pa bytes).invalidate writer pt pa bytes.length

/-- The agent whose proxy slices a core's writes pass: its die (R130). -/
def writerOf (c : CoreId) : Option Agent := some (.cdie (dieOf c))

/-- The registration of a word ends (R127). -/
def Mem.unregister (m : Mem) (pa : Nat) : Mem := { m with regd := m.regd.filter fun r => r.pa != wordAt pa }

/-- The home takes back the registration of a word: the value returns to the home (R127, R161). -/
def Mem.takeBack (m : Mem) (pa : Nat) : Mem :=
  match m.reg pa with
  | some r => (m.homeApply (writerOf r.core) false r.pa (natToBytes 4 r.val.toNat) r.poison).unregister pa
  | none => m

/-- Takes back every registered word of `n` bytes. -/
def Mem.takeBackN (m : Mem) : Nat → Nat → Mem
  | _, 0 => m
  | pa, n + 1 => Mem.takeBackN (m.takeBack pa) (pa + 1) n

/-- Core `c` drops its unregistered copies of a piece (R161). -/
def Mem.dropPiece (m : Mem) (c : CoreId) (pa : Nat) : Mem :=
  let keep := fun x : L1Copy => !(x.core == c && pieceOf x.pa == pieceOf pa)
  { m with l1 := m.l1.filter keep, answers := m.answers.filter fun a => keep a.copy }

/-- Core `c` drops every unregistered copy (R128), with those on their way to it. -/
def Mem.selfInvalidate (m : Mem) (c : CoreId) : Mem :=
  { m with l1 := m.l1.filter (fun x => x.core != c), answers := m.answers.filter fun x => x.copy.core != c }

/-- A word registered to the writer with byte `pa mod 4` merged into its latest value (R126). -/
def Mem.registerByte (m : Mem) (c : CoreId) (cid : BitVec 12) (inc : BitVec 8) (skew : Fin 3) (poison : Bool) (pa : Nat)
    (b : Byte) : Mem :=
  let old := m.curWord pa
  let sh := 8 * (pa % 4)
  let v := (old &&& ~~~(BitVec.ofNat 32 0xFF <<< sh)) ||| (b.setWidth 32 <<< sh)
  { m with
    regd := ⟨wordAt pa, c, cid, inc, v, poison, skew, false⟩ :: m.regd.filter (fun r => r.pa != wordAt pa)
    l1 := m.l1.filter fun x => !(x.core == c && x.pa == wordAt pa)
    answers := m.answers.filter fun x => !(x.copy.core == c && x.copy.pa == wordAt pa) }

/-- Bytes registered to the writer one after another. A whole clean word ends its poison; otherwise a word keeps the
poison it had, or takes that of the data (R206). -/
def Mem.registerBytes (m : Mem) (c : CoreId) (cid : BitVec 12) (inc : BitVec 8) (skew : Fin 3) (poison : Bool) :
    Nat → List Byte → Mem
  | _, [] => m
  | pa, b :: bs =>
    let p := poison || (m.curPoison pa && !(pa % 4 = 0 && 3 ≤ bs.length))
    Mem.registerBytes (m.registerByte c cid inc skew p pa b) c cid inc skew poison (pa + 1) bs

/-- A store of core `c` to normal memory: its words are registered; for a home off the writer's die, the home applies
the write at once (R126, R130). -/
def Mem.store (m : Mem) (c : CoreId) (cid : BitVec 12) (inc : BitVec 8) (skew : Fin 3) (pa : Nat) (bytes : List Byte)
    (poison : Bool) : Mem :=
  let m := m.registerBytes c cid inc skew poison pa bytes
  if homedOnDie c pa then m else m.homeApply (writerOf c) false pa bytes poison

/-- The home applies what core `c` has registered, which stays registered (R126, R187). -/
def Mem.flush (m : Mem) (c : CoreId) : Mem :=
  m.regd.foldl (fun m r =>
    if r.core = c then m.homeApply (writerOf c) false r.pa (natToBytes 4 r.val.toNat) r.poison else m) m

/-! Scratchpads: byte `off` of core `c` stands at `c * 2^20 + off`. -/

/-- The place of a scratchpad byte in the one store of scratchpads. -/
def spadAt (c : CoreId) (off : Nat) : Nat := c.val * 0x100000 + off

/-- Marks or clears the poison of a scratchpad word. -/
def Mem.setSpadPoison (m : Mem) (a : Nat) (b : Bool) : Mem :=
  let w := wordAt a
  { m with spadPoison := if b then (if m.spadPoison.contains w then m.spadPoison else w :: m.spadPoison)
                         else m.spadPoison.filter (· != w) }

/-- Scratchpad bytes written (R110, R206). -/
def Mem.spadPutAll (m : Mem) (poison : Bool) : Nat → List Byte → Mem
  | _, [] => m
  | a, b :: bs =>
    let m := { m with spad := m.spad.set unlisted a b }
    let m := if poison then m.setSpadPoison a true
             else if a % 4 = 0 ∧ 3 ≤ bs.length then m.setSpadPoison a false else m
    Mem.spadPutAll m poison (a + 1) bs

/-! Home slices (R122, R183). -/

/-- The slot of a granule in a domain of `m` slices, under a SKEW code (R183). -/
def skewSlot (skew pa m : Nat) : Nat :=
  let g := bitsOf pa 51 11
  if skew = 0 then g % m
  else if skew = 1 then
    (g % 128 ^^^ bitsOf g 13 7 ^^^ bitsOf g 20 14 ^^^ bitsOf g 27 21 ^^^ bitsOf g 34 28 ^^^ bitsOf g 40 35) % m
  else g % (m - 1)

/-- The slices of an interleave domain, in ascending order (R122). -/
def domain (hmask : Word) : List Nat :=
  (List.range 128).filter fun i => hmask.getLsbD (i / 2)

/-- The slice of die `d` that homes or proxies an address under a SKEW code (R125, R183). -/
def sliceFor (hmask : Word) (d : Fin 4) (skew pa : Nat) : Fin 512 :=
  let l := domain hmask
  Fin.ofNat 512 (128 * d.val + l.getD (skewSlot skew pa l.length) 0)

end Sys2Proof.Machine
end

