-- ==== Sys2Proof/Machine/Translate.lean ====
section
/-! DEFINITION. Virtual memory: canonical addresses, the walk, permissions, memory kinds and the probe of one element
(chapter 9). -/

namespace Sys2Proof.Machine

/-- Cause codes of Table 10-6. -/
def cIllegal : Nat := 0x01
/-- Illegal prefix or modifier. -/
def cPrefixUnit : Nat := 0x02
/-- Address fault. -/
def cAddress : Nat := 0x03
/-- Translation fault. -/
def cTranslation : Nat := 0x04
/-- Permission fault. -/
def cPermission : Nat := 0x05
/-- Access-flag fault. -/
def cAccessFlag : Nat := 0x06
/-- Access fault. -/
def cAccess : Nat := 0x07
/-- Misalignment fault. -/
def cMisaligned : Nat := 0x08
/-- Backing-area fault. -/
def cBacking : Nat := 0x09
/-- Descriptor error. -/
def cDescriptor : Nat := 0x0A
/-- Shell trap. -/
def cShell : Nat := 0x18
/-- Data error. -/
def cData : Nat := 0x20
/-- Protection violation. -/
def cProtection : Nat := 0x28
/-- System call. -/
def cSyscall : Nat := 0x30
/-- Interrupt. -/
def cInterrupt : Nat := 0x38

/-- Which memory kinds admit an access (Table 9-5): every kind; normal and scratchpad; normal only. -/
inductive KindClass where | withDevice | noDevice | normalOnly
  deriving DecidableEq, Repr

/-- What an access needs of its leaf (Table 9-4). `w` stands for W and D. -/
structure Need where
  r : Bool
  w : Bool
  x : Bool
  kind : KindClass
  deriving DecidableEq, Repr

/-- A scalar LD (Tables 9-4, 9-5). -/
def needLd : Need := ⟨true, false, false, .withDevice⟩
/-- A scalar ST. -/
def needSt : Need := ⟨false, true, false, .withDevice⟩
/-- A vector load, or another read of normal or scratchpad memory. -/
def needRead : Need := ⟨true, false, false, .noDevice⟩
/-- A vector store, or another write of normal or scratchpad memory. -/
def needWrite : Need := ⟨false, true, false, .noDevice⟩
/-- An atomic. -/
def needAtomic : Need := ⟨true, true, false, .noDevice⟩
/-- A read that only normal memory admits. -/
def needNormalRead : Need := ⟨true, false, false, .normalOnly⟩
/-- A write that only normal memory admits. -/
def needNormalWrite : Need := ⟨false, true, false, .normalOnly⟩
/-- An atomic that only normal memory admits. -/
def needNormalAtomic : Need := ⟨true, true, false, .normalOnly⟩
/-- An instruction fetch. -/
def needFetch : Need := ⟨false, false, true, .normalOnly⟩

/-- R169. -/
def canonical (a : Nat) : Bool := a < 2 ^ 56 || 2 ^ 64 - 2 ^ 56 ≤ a && a < 2 ^ 64

/-- R170, for an exact address. -/
def addressOk (a : Int) (size : Nat) : Bool :=
  0 ≤ a && a + size ≤ 2 ^ 64 && canonical a.toNat && canonical (a.toNat + size - 1)

/-- A field of a leaf or pointer entry (Table 9-3). -/
def leafBit (e : Word) (i : Nat) : Bool := e.getLsbD i

/-- KIND of a leaf. -/
def leafKind (e : Word) : Nat := bitsOf e.toNat 8 7
/-- SKEW of a leaf. -/
def leafSkew (e : Word) : Nat := bitsOf e.toNat 54 52

/-- A device register by offset (R222, R231); 0 when nothing has been written. -/
def Sys.dev (y : Sys) (off : Nat) : Word := lookupD 0 off y.devr

/-- SELFID.SET and SELFID.ID (R231). -/
def Sys.selfSet (y : Sys) : Bool := (y.dev 0x13000).getLsbD 11
/-- SELFID.ID. -/
def Sys.selfId (y : Sys) : Nat := bitsOf (y.dev 0x13000).toNat 10 0

/-- The range of a physical address is held by an agent (R215): by the host from its first training, by a peer from its
first training, whatever the port trains with later, never the device's own window. -/
def Sys.holds (y : Sys) (pa : Nat) : Bool :=
  match homeAgent pa with
  | some (.die _) => true
  | some .device => devAssigned (pa - devBase)
  | some .host => y.hostUp
  | some (.peer n) => y.selfSet && n != y.selfId && y.windows.any fun p => p.2.toNat == n
  | none => false

/-- The home of an address is on an agent declared failed (R150). -/
def Sys.homeLost (y : Sys) (pa : Nat) : Bool :=
  match homeAgent pa with
  | some (.die d) => y.failed.contains (.cdie d)
  | some .host => y.failed.contains .host
  | some (.peer n) => y.failed.any fun a => match a with
    | .peer _ dev => dev.toNat == n
    | .cdie _ | .hdie _ | .host => false
  | some .device => false
  | none => false

/-- The link that carries accesses to an address is retraining (R215, R220). Of a peer that two ports reach, the manual does not
say which link carries an access: one that retrains holds up the peer's whole window, and one declared down loses it (DESIGN
CHOICE, log entry 20). -/
def Sys.linkWaits (y : Sys) (pa : Nat) : Bool :=
  !y.homeLost pa && match homeAgent pa with
  | some .host => y.retraining.contains .host
  | some (.peer n) => y.peers.any fun p => p.2.toNat == n && y.retraining.contains (.port p.1)
  | some (.die _) => false
  | some .device => false
  | none => false

/-- An open multicast entry holds bytes of the piece of an address: the ranges of its key, piece by piece. -/
def keyHolds (k : McKey) (pa : Nat) : Bool :=
  (List.range k.len).any fun i => meets (pieceOf pa) (k.base + i * k.stride) k.esize

/-- A write to a piece that an open multicast entry holds waits until the entry closes (R135). -/
def Sys.mcHolds (y : Sys) (pa : Nat) : Bool := y.mc.any fun e => keyHolds e.part.key pa

/-- A write of `n` bytes meets a piece that an open multicast entry holds: its pieces, one by one. -/
def Sys.mcHoldsN (y : Sys) (pa n : Nat) : Bool :=
  (List.range ((pa % 64 + n + 63) / 64)).any fun i => y.mcHolds (pieceOf pa + 64 * i)

/-- cur(c); 0 at reset (R141). -/
def Sys.curInc (y : Sys) (c : BitVec 12) : BitVec 8 := ((y.cur.find? fun p => p.1 == c).map (·.2)).getD 0

/-- The join number of an agent; 0 at reset (R149; DESIGN CHOICE, log entry 3). -/
def Sys.joinOf (y : Sys) (a : Agent) : BitVec 8 := ((y.joins.find? fun x => x.1 == a).map (·.2)).getD 0

/-- A request or response that carries a tag is stale: its incarnation is no longer current, or its sender has joined again
since (R143, R151). -/
def Sys.stale (y : Sys) (a : Agent) (t : Tag) : Bool := t.inc != y.curInc t.cid || t.join != y.joinOf a

/-- The requests of a core carry the join number of its die (R149). -/
def Sys.staleAt (y : Sys) (c : CoreId) (t : Tag) : Bool := y.stale (.cdie (dieOf c)) t

/-- The FST fields that name the lost home of an address (Table 8-6). -/
def Sys.lossCode (y : Sys) (pa : Nat) : BitVec 28 :=
  match homeAgent pa with
  | some (.die d) => BitVec.ofNat 28 (d.val * 0x10000)
  | some .host => 0x3000000
  | some (.peer n) =>
    let port := (y.failed.findSome? fun a => match a with
      | .peer p dev => if dev.toNat = n then some p.val else none
      | .cdie _ | .hdie _ | .host => none).getD 0
    BitVec.ofNat 28 (0x2000000 + port * 0x10000 + n)
  | some .device => 0
  | none => 0

/-- A table entry of 8 bytes, read at its home (R175, R187). -/
def Mem.home64 (m : Mem) (pa : Nat) : Word := wd (bytesNat (m.home.getN unlisted pa 8))

/-- A word of `n` bytes at the home is poisoned. -/
def Mem.homePoisoned (m : Mem) (pa n : Nat) : Bool := anyWord (fun a => m.poison.contains (wordAt a)) pa n

/-- What a walk ends in: a leaf with the physical address, the page's size and the pieces read; a translation fault; poison
met at a word (R175); or the wait for an entry behind a link that retrains (R215, R220). -/
inductive Walk where
  | leaf (pa : Nat) (e : Word) (size : Nat) (pieces : List Nat)
  | fault
  | poisoned (pa : Nat)
  | wait
  deriving DecidableEq, Repr

/-- An entry of `n` bytes read by a walk is poisoned: in memory, or because its home has failed (R150, R175). -/
def State.entryPoisoned (s : State) (pa n : Nat) : Bool := s.sys.homeLost pa || s.mem.homePoisoned pa n

/-- The table that a pointer entry names; none of an entry that is no pointer (R173). -/
def pointerTo (e : Word) : Option Nat :=
  if leafBit e 0 && !leafBit e 1 && !leafBit e 2 && !leafBit e 3 && e.toNat % 4096 == 1 && e.toNat / 2 ^ 52 == 0 then
    some (bitsOf e.toNat 51 12 * 4096)
  else none

/-- The address of the entry of level `l` in the table at `t` (R173). -/
def entryAt (va l t : Nat) : Nat := t + 8 * bitsOf va (56 - 9 * l) (48 - 9 * l)

/-- The levels of the walk from the table at `t` (R173, R175). The manual does not say how a walk ends at a table whose address
no agent holds, or that lies in the device range: it is read as memory that nothing has written (DESIGN CHOICE, log entry 22).
-/
def walkFrom (s : State) (va : Nat) : List Nat → Nat → List Nat → Walk
  | [], _, _ => .fault
  | l :: ls, t, ps =>
    let at_ := entryAt va l t
    let ps := pieceOf at_ :: ps
    if s.sys.linkWaits at_ then .wait
    else if s.entryPoisoned at_ 8 then .poisoned (wordAt at_)
    else
      let e := s.mem.home64 at_
      let n := e.toNat
      if !leafBit e 0 then .fault
      else if !leafBit e 1 && !leafBit e 2 && !leafBit e 3 then
        match pointerTo e with
        | none => .fault
        | some next => if l = 4 then .fault else walkFrom s va ls next ps
      else if l < 2 then .fault
      else
        let size := 2 ^ (12 + 9 * (4 - l))
        let frame := bitsOf n 51 12 * 4096
        if n / 2 ^ 56 ≠ 0 || leafBit e 55 && l != 4 || leafBit e 2 && !leafBit e 1 || leafSkew e ≥ 3
            || bitsOf n 10 9 == 3 || leafKind e == 3 || frame % size != 0 then .fault
        else .leaf (frame + va % size) e size ps

/-- The address of a context's entry in the context table (R172). -/
def State.contextAt (s : State) (cid : BitVec 12) : Nat := s.sys.ctxBase + 16 * cid.toNat

/-- The root table that a context-table entry names (R172). -/
def State.rootOf (s : State) (cid : BitVec 12) : Option Nat :=
  let lo := (s.mem.home64 (s.contextAt cid)).toNat
  let hi := s.mem.home64 (s.contextAt cid + 8)
  if lo % 4096 ≠ 1 ∨ lo / 2 ^ 52 ≠ 0 ∨ hi ≠ 0 then none else some (bitsOf lo 51 12 * 4096)

/-- A translation by a walk (R172, R175): the context-table entry, then five levels. -/
def walk (s : State) (cid : BitVec 12) (va : Nat) : Walk :=
  if s.sys.linkWaits (s.contextAt cid) then .wait
  else if s.entryPoisoned (s.contextAt cid) 16 then .poisoned (wordAt (s.contextAt cid))
  else match s.rootOf cid with
    | none => .fault
    | some t => walkFrom s va [0, 1, 2, 3, 4] t [pieceOf (s.contextAt cid)]

/-- The tables that the pointer entries of a walk name, each with its level and the pieces read up to it. -/
def tablesFrom (s : State) (va : Nat) : List Nat → Nat → List Nat → List (Nat × Nat × List Nat)
  | [], _, _ => []
  | l :: ls, t, ps =>
    let at_ := entryAt va l t
    (l, t, ps) ::
      (if l = 4 || s.sys.linkWaits at_ || s.entryPoisoned at_ 8 then []
       else match pointerTo (s.mem.home64 at_) with
         | none => []
         | some next => tablesFrom s va ls next (pieceOf at_ :: ps))

/-- The tables of a whole walk, the root among them. -/
def walkTables (s : State) (cid : BitVec 12) (va : Nat) : List (Nat × Nat × List Nat) :=
  if s.sys.linkWaits (s.contextAt cid) || s.entryPoisoned (s.contextAt cid) 16 then []
  else match s.rootOf cid with
    | none => []
    | some t => tablesFrom s va [0, 1, 2, 3, 4] t [pieceOf (s.contextAt cid)]

/-- The bits of an address that choose the table of level `l`. -/
def upperBits (va l : Nat) : Nat := va % 2 ^ 57 / 2 ^ (57 - 9 * l)

/-- The deepest pointer that the page-walk cache of a core holds for an address (Table 9-8). -/
def Mem.pointer (m : Mem) (c : CoreId) (cid : BitVec 12) (va : Nat) : Option WalkPtr :=
  [4, 3, 2, 1, 0].findSome? fun l =>
    m.ptrs.find? fun p => p.core == c && p.cid == cid && p.level == l && p.upper == upperBits va l

/-- A walk of core `c`, from the deepest pointer that its page-walk cache holds (R185). -/
def walkBy (s : State) (c : CoreId) (cid : BitVec 12) (va : Nat) : Walk :=
  match s.mem.pointer c cid va with
  | some p => walkFrom s va ((List.range 5).drop p.level) p.table p.pieces
  | none => walk s cid va

/-- The leaf that an agent holds for an address (R185). -/
def Mem.leafHeld (m : Mem) (a : TAgent) (cid : BitVec 12) (va : Nat) : Option Transl :=
  m.transl.find? fun t => t.agent == a && t.cid == cid && t.vpn == va / t.size && t.size != 0

/-- A translation by agent `a` of core `c` (R185): from a leaf that it holds, else by a walk: of the core, through its
page-walk cache, or of a copy engine. -/
def translateBy (s : State) (a : TAgent) (c : CoreId) (cid : BitVec 12) (va : Nat) : Walk :=
  match s.mem.leafHeld a cid va with
  | some t => .leaf (bitsOf t.leaf.toNat 51 12 * 4096 + va % t.size) t.leaf t.size t.pieces
  | none => match a with
    | .tlb _ => walkBy s c cid va
    | .sorter _ => walkBy s c cid va
    | .engine _ => walk s cid va

/-- A translation by the TLB of core `c`. -/
def translate (s : State) (c : CoreId) (cid : BitVec 12) (va : Nat) : Walk := translateBy s (.tlb c) c cid va

/-- The physical page that a walk reaches, unless it lies in the device range. -/
def Walk.page : Walk → Option Nat
  | .leaf pa e _ _ => if leafKind e = 2 then none else some (pa / 4096 * 4096)
  | .fault => none
  | .poisoned _ => none
  | .wait => none

/-- One leaf, reached at `base`, maps the whole backing area there: 32 pages of 4096 bytes. -/
def Walk.mapsArea (base : Nat) : Walk → Bool
  | .leaf _ _ size _ => base / size == (base + 4096 * 31) / size
  | .fault => false
  | .poisoned _ => false
  | .wait => false

/-- The physical pages of a backing area, as its context maps them now (R104); the old ones while a walk waits for a link. An area
under one leaf needs one walk (`mem_backingPages` in Laws: each page is where its own walk leads). -/
def backingPages (s : State) (cid : BitVec 12) (base : Nat) (old : List Nat) : List Nat :=
  let first := walk s cid base
  if first.mapsArea base then (List.range 32).filterMap fun n => first.page.map (· + 4096 * n)
  else
    let ws := (List.range 32).map fun n => walk s cid (base + 4096 * n)
    if ws.contains .wait then old else ws.filterMap Walk.page

/-- What a probe of one element finds. -/
inductive Probe where
  | ok (p : Phys)
  | bad (code : Nat)
  | wait
  | poisoned (pa : Nat)
  deriving DecidableEq, Repr

/-- The scratchpad quarters that a gang declares (R10). -/
def State.spqOf (s : State) (g : BitVec 8) : BitVec 8 :=
  match s.sys.gangs.find? (fun x => x.num == g) with
  | some x => x.desc.spq
  | none => 0

/-- The checks of R177 and R178 on one byte's translation: the cause of the first failure, or the place. DEDUCED, log entry 22:
a store to a line of the context table is a PT store whatever its leaf's PT says (R172, R186), although R187 calls a store
through PT = 0 an ordinary one. -/
def checkLeaf (s : State) (need : Need) (cid : BitVec 12) (spq : BitVec 8) (size pa : Nat) (e : Word) : Probe :=
  if need.r && !leafBit e 1 || need.w && !leafBit e 2 || need.x && !leafBit e 3 || cid != 0 && !leafBit e 4 then
    .bad cPermission
  else if !leafBit e 5 || need.w && !leafBit e 6 then .bad cAccessFlag
  else
    let kind := leafKind e
    if kind = 2 then
      if need.kind = .normalOnly ∨ pa / 2 ^ 20 ≠ 0 ∨ !spq.getLsbD (pa / 0x40000) then .bad cAccess
      else .ok ⟨pa, true, leafBit e 11, false, Fin.ofNat 3 (leafSkew e)⟩
    else if kind = 1 && need.kind != .withDevice then .bad cAccess
    else if !s.sys.holds pa then .bad cAccess
    else if homeAgent pa == some .device && (kind != 1 || size != 8) then .bad cAccess
    else if s.sys.linkWaits pa || need.w && s.sys.mcHoldsN pa size then .wait
    else .ok ⟨pa, false, leafBit e 11 || (s.sys.ctxBase ≤ pa && pa < s.sys.ctxBase + 0x10000), kind == 1,
      Fin.ofNat 3 (leafSkew e)⟩

/-- The translation and checks of one byte, by agent `g` for a hart of core `c`; none while the walk waits for an entry. -/
def probeByte (s : State) (need : Need) (g : TAgent) (c : CoreId) (cid : BitVec 12) (spq : BitVec 8) (size va : Nat) :
    Option Probe :=
  match translateBy s g c cid va with
  | .fault => some (.bad cTranslation)
  | .poisoned pa => some (.poisoned pa)
  | .leaf pa e _ _ => some (checkLeaf s need cid spq size pa e)
  | .wait => none

/-- The probe of one element of `size` bytes at an exact address that must be a multiple of `align`, in the order of
R179. An element that crosses a page is checked in both. -/
def probeAt (s : State) (need : Need) (g : TAgent) (c : CoreId) (cid : BitVec 12) (spq : BitVec 8) (a : Int)
    (size align : Nat) : Probe :=
  if !addressOk a size then .bad cAddress
  else
    let va := a.toNat
    let mis := va % align != 0
    let one := probeByte s need g c cid spq size va
    let last := va + size - 1
    let two := if last / 4096 = va / 4096 then one else probeByte s need g c cid spq size last
    match one, two with
    | none, _ => .wait
    | _, none => .wait
    | some (.poisoned w), _ => .poisoned w
    | _, some (.poisoned w) => .poisoned w
    | some (.bad c1), some (.bad c2) => .bad (Nat.min c1 c2)
    | some (.bad c1), some (.ok _) => .bad c1
    | some (.bad c1), some .wait => .bad c1
    | some (.ok _), some (.bad c2) => .bad c2
    | some .wait, some (.bad c2) => .bad c2
    | some .wait, some (.ok _) => if mis then .bad cMisaligned else .wait
    | some .wait, some .wait => if mis then .bad cMisaligned else .wait
    | some (.ok _), some .wait => if mis then .bad cMisaligned else .wait
    | some (.ok p), some (.ok _) => if mis then .bad cMisaligned else .ok p

/-- The probe of an element of the hart in focus, by the TLB of its core. -/
def probe (s : State) (need : Need) (a : Int) (size align : Nat) : Probe :=
  probeAt s need (.tlb s.h.core) s.h.core s.h.cid (s.spqOf s.h.gang) a size align

/-- The probe of an element that the copy engine of the hart's tile makes (R185). -/
def probeEngine (s : State) (need : Need) (a : Int) (size align : Nat) : Probe :=
  probeAt s need (.engine (tileOf s.h.core)) s.h.core s.h.cid (s.spqOf s.h.gang) a size align

end Sys2Proof.Machine
end

