-- ==== Sys2Proof/Machine/Ops.lean ====
section
/-! DEFINITION. The named operations over the hart, its registers and its traps: reading and writing scalar registers,
poison, tokens, issuing and retiring a form, taking an exception and returning from one, reports. -/

namespace Sys2Proof.Machine

/-! The hart in focus. -/

/-- The state with the hart in focus changed. -/
def State.modH (s : State) (f : Hart → Hart) : State := { s with h := f s.h }

/-- The state with memory changed. -/
def State.modMem (s : State) (f : Mem → Mem) : State := { s with mem := f s.mem }

/-- The state with the module's own registers changed. -/
def State.modSys (s : State) (f : Sys → Sys) : State := { s with sys := f s.sys }

/-- What a step of the module, or of an agent outside it, comes to in a state in which it cannot occur, or is without
effect: nothing changes. DESIGN CHOICE, log entry 40. -/
def notNow (s : State) : Out := .next s

/-- Appends a module step to the inbox. -/
def State.post (s : State) (i : Instr) : State := { s with inbox := s.inbox ++ [i] }

/-- A scalar register of a hart; s0 reads as 0 (R272). -/
def Hart.sreg (h : Hart) (r : SReg) : Word := if r = 0 then 0 else h.sregs[r]

/-- A scalar register of a hart written, with its poison; a write to s0 is discarded (R272, R206). -/
def Hart.setSreg (h : Hart) (r : SReg) (v : Word) (poison : Bool := false) : Hart :=
  if r = 0 then h
  else
    { h with
      sregs := h.sregs.set r v
      poison := if poison then (if h.poison.contains (.sreg r) then h.poison else .sreg r :: h.poison)
                else h.poison.filter (· != .sreg r) }

/-- The group of virtual processors that the current step executes (R36): its elements. -/
def Hart.group (h : Hart) : Option (List Nat) := h.vp.bind (·.group)

/-- The lowest element of a group. -/
def lowest (g : List Nat) : Nat := g.foldl Nat.min (g.headD 0)

/-- The run whose block the current step executes. -/
def Hart.block (h : Hart) : Option VpRun := h.vp.bind fun r => if r.group.isSome then some r else none

/-- A scalar operand of vector work: in a block, the value that the register held when the VFETCH issued (R35). -/
def Hart.operand (h : Hart) (r : SReg) : Word :=
  match h.block with
  | some v => if r = 0 then 0 else v.sregs0[r]
  | none => h.sreg r

/-- s[r]. -/
def State.readS (s : State) (r : SReg) : Word := s.h.sreg r

/-- s[r] as an unsigned number. -/
def State.readN (s : State) (r : SReg) : Nat := (s.h.sreg r).toNat

/-- s[r] := v, clean. -/
def State.writeS (s : State) (r : SReg) (v : Word) : State := s.modH fun h => h.setSreg r v

/-- s[r] := v, with its poison. -/
def State.writeSP (s : State) (r : SReg) (v : Word) (poison : Bool) : State := s.modH fun h => h.setSreg r v poison

/-- A scalar register is poisoned (R205, R206). -/
def Hart.sPoison (h : Hart) (r : SReg) : Bool := r != 0 && h.poison.contains (.sreg r)

/-- A scalar operand of vector work is poisoned; in a block, as it stood when the VFETCH issued (R35). -/
def Hart.operandPoison (h : Hart) (r : SReg) : Bool :=
  match h.block with
  | some v => r != 0 && v.poison0.contains (.sreg r)
  | none => h.sPoison r

/-- R258. -/
def Hart.privileged (h : Hart) : Bool := h.cid == 0

/-- TVEC.INH: the hart is in its handler (R189). -/
def Hart.inHandler (h : Hart) : Bool := h.tvec.getLsbD 1

/-- The bytes of a form. -/
def formLen (i : Instr) : Nat := if i.compressed then 2 else i.stack.len

/-! What a meaning's body answers. -/

/-- A trap about to be taken (R190): CODE, DETAIL, TSTRIPE, TVAL, the open instruction it leaves (R195), and the offset
of TPC from the form's address (R264). -/
structure TrapInfo where
  code : Nat
  detail : Nat := 0
  stripe : Nat := 0
  val : Word := 0
  opened : Option OpenInstr := none
  unit : Nat := 0
  deriving DecidableEq, Repr

/-- A trap of the whole instruction (R190). -/
def wholeTrap (code : Nat) (val : Word := 0) : TrapInfo := { code := code, val := val }

/-- What the body of an instruction comes to: it completes, it completes and jumps, it traps, its hart is not ready, it
meets poison for the first time (R207), or its hart has left the program. -/
inductive Res where
  | done (s : State)
  | jump (s : State) (target : Word)
  | trap (s : State) (t : TrapInfo)
  | wait (s : State) (why : Stall)
  | squash (loc : PLoc)
  | gone (s : State)
  deriving DecidableEq, Repr

/-- What follows when a body completes. -/
def Res.after (f : State → State) : Res → Res
  | .done s => .done (f s)
  | .jump s p => .jump (f s) p
  | .trap s t => .trap s t
  | .wait s w => .wait s w
  | .squash l => .squash l
  | .gone s => .gone s

/-- Poison of `loc` is consumed: the first time the window is squashed, the second time it is a data error (R207, R208).
DEDUCED, log entry 33. -/
def consume (s : State) (loc : PLoc) (stripe : Nat) (val : Word) (opened : Option OpenInstr) : Res :=
  if s.h.squash = some loc then .trap s { code := cData, stripe := stripe, val := val, opened := opened } else .squash loc

/-- TVAL of what a block instruction meets as a whole: the lowest element of its group (R34, R198); 0 outside blocks. -/
def Hart.blockVal (h : Hart) : Word := match h.group with | some g => wd (lowest g) | none => 0

/-- Runs `k` when none of the scalar sources is poisoned (R206). -/
def withClean (rs : List SReg) (k : State → Res) (s : State) : Res :=
  match rs.find? s.h.operandPoison with
  | some r => consume s (.sreg r) 0 s.h.blockVal none
  | none => k s

/-- An illegal-instruction trap. In a block, TVAL holds the lowest element of the group (R34). -/
def illegal (s : State) : Res :=
  .trap s (wholeTrap cIllegal s.h.blockVal)

/-! Reports (R224, R230). -/

/-- The master identifier of a hart (R230). -/
def hartMaster (c : CoreId) (k : Ctx) : Word :=
  wd (2 ^ 56 + (c.val / 128) * 2 ^ 48 + (c.val % 128 / 2) * 2 ^ 40 + (c.val % 2) * 2 ^ 32 + k.val * 2 ^ 24)

/-- GANG of a report: a hart's gang number and gang index (Table 11-9). -/
def gangWord (g : BitVec 8) (index : Nat) : BitVec 32 := BitVec.ofNat 32 (g.toNat * 2 ^ 16 + index % 2 ^ 16)

/-- The 64 bytes of a record (Table 11-9). -/
def Report.bytes (r : Report) : List Byte :=
  natToBytes 2 r.kind ++ natToBytes 1 r.detail ++ [0] ++ natToBytes 2 r.cid.toNat ++ natToBytes 1 r.inc.toNat ++ [0]
  ++ natToBytes 8 r.tcause.toNat ++ natToBytes 8 r.addr.toNat ++ natToBytes 8 r.master.toNat
  ++ natToBytes 4 r.gang.toNat ++ natToBytes 4 r.loss.toNat ++ List.replicate 24 0

/-- The home applies a write of an agent: registrations of its words end, and the sharers other than the writer are
invalidated. -/
def Mem.agentWrite (m : Mem) (pt : Bool) (pa : Nat) (bytes : List Byte) (poison : Bool := false)
    (writer : Option Agent := none) : Mem :=
  (m.takeBackN pa bytes.length).homeApply writer pt pa bytes poison

/-! The backing areas of placed harts (R104). -/

/-- Bytes that the manual leaves unspecified. DESIGN CHOICE, log entry 14. -/
def State.freeBytes (s : State) (a n : Nat) : List Byte := (List.range n).map fun i => Config.freeByte s.tick (a + i)

/-- `n` bytes of main memory meet a page of the backing area of a placed hart. -/
def Hart.backsPa (h : Hart) (pa n : Nat) : Bool :=
  h.status != .absent && h.backing.any fun q => q < pa + n && pa < q + 4096

/-- The bytes lie in the backing area of some placed hart. -/
def State.backed (s : State) (pa n : Nat) : Bool := s.h.backsPa pa n || s.rest.any fun h => h.backsPa pa n

/-- A store into backing areas leaves unspecified values in the vector registers of the harts that own them. -/
def State.spoil (s : State) (p : Hart → Bool) : State :=
  let kill := fun h : Hart => if p h then { h with vregs := [], vgen := h.vgen + 1 } else h
  { s with h := kill s.h, rest := s.rest.map kill }

/-- What a write of bytes to main memory comes to: the bytes, or unspecified ones in a backing area, whose owner's vector
registers are spoiled (R104). -/
def State.intoBacking (s : State) (pa : Nat) (bytes : List Byte) (k : State → List Byte → State) : State :=
  if s.backed pa bytes.length then
    k (s.spoil fun h => h.backsPa pa bytes.length) (s.freeBytes pa bytes.length)
  else k s bytes

/-- Pushes a token into a FIFO that has a place (R109). -/
def Hart.pushTok (h : Hart) (f : Nat) : Hart := { h with tokens := h.tokens.setIfInBounds f (h.tokens.getD f 0 + 1) }

/-- A FIFO has a place: it holds 16 tokens (R109). -/
def Hart.hasPlace (h : Hart) (f : Nat) : Bool := h.tokens.getD f 0 < 16

/-- The FIFO from queue `a` to queue `b`. -/
def fifoIx (a b : Fin 5) : Nat := 5 * a.val + b.val

/-- The FIFO that a form pushes to. -/
def pushFifo (x : Stack) (q : Fin 5) : Option Nat := (x.opm.bind (·.tp)).map (fifoIx q)

/-- The FIFO that a form pops from. -/
def popFifo (x : Stack) (q : Fin 5) : Option Nat := (x.opm.bind (·.tw)).map fun w => fifoIx w q

/-- A hart of its core and context. -/
def Hart.at (h : Hart) (c : CoreId) (k : Ctx) : Bool := h.core == c && h.ctx == k && h.status != .absent

/-- Forms of a hart that have issued and not retired (R109). -/
def State.heldOf (s : State) (h : Hart) : List Held :=
  s.held.filter fun d => d.snap.core == h.core && d.snap.ctx == h.ctx

/-- The hart has issued a form that waits to make its effect. -/
def State.deferred (s : State) (h : Hart) : Bool := (s.heldOf h).any (·.external)

/-- A hart that was stalled completes its form: it pops, the pc passes it, and its push is made, or waits (R109). -/
def finishHart (h : Hart) (x : Stack) (q : Fin 5) : Hart × List Held :=
  let popped := match popFifo x q with
    | none => h.tokens
    | some f => if h.ahead.isEmpty then h.tokens.setIfInBounds f (h.tokens.getD f 0 - 1) else h.tokens
  let h1 := { h with status := .running, pc := h.pc + wd x.len, monitor := none, tokens := popped, ahead := h.ahead.tail }
  match pushFifo x q with
  | none => (h1, [])
  | some f => if h1.hasPlace f then (h1.pushTok f, []) else (h1, [⟨h, .nop x, some f, false, false⟩])

/-- Changes every hart that satisfies `p`; the held pushes that result join the list. -/
def State.finishWhere (s : State) (p : Hart → Bool) (f : Hart → Hart × List Held) : State :=
  let g := fun h : Hart => if p h then f h else (h, [])
  { s with
    h := (g s.h).1
    rest := s.rest.map fun h => (g h).1
    held := s.held ++ (g s.h).2 ++ s.rest.flatMap fun h => (g h).2 }

/-- A hart sleeps in WAITM on a piece that a write of `n` bytes touches (R165). -/
def Hart.monitors (h : Hart) (pa n : Nat) : Bool :=
  match h.status, h.monitor with
  | .stalled (.monitor _), some p => p < pa + n && pa < p + 64
  | _, _ => false

/-- Completes a WAITM (R165). -/
def wakeHart (h : Hart) : Hart × List Held :=
  match h.status with
  | .stalled (.monitor x) => finishHart h x 0
  | _ => (h, [])

/-- The 2 KiB granule that a virtual address translates to (R122). -/
def State.granuleOf (s : State) (cid : BitVec 12) (va : Word) : Option Nat :=
  match walk s cid va.toNat with
  | .leaf q _ _ _ => some (q / 2048)
  | .fault => none
  | .wait => none
  | .poisoned _ => none

/-- What a write of `n` bytes at a physical address sets off: sleeping monitors wake (R165), and the home Launch Units
read the WAITC words of its granule again (R15). -/
def State.noteWrite (s : State) (pa n : Nat) : State :=
  let s := s.finishWhere (·.monitors pa n) wakeHart
  let gs := s.sys.gangs.filter fun g : Gang =>
    g.st == .waiting && !g.ready && g.desc.waitc != (0 : Word) && (s.granuleOf g.cid g.desc.waitc).any fun q => pa / 2048 ≤ q && q ≤ (pa + n - 1) / 2048
  { s with inbox := s.inbox ++ gs.map fun g => .waitcRead g.num }

/-- A write by an agent that is no hart, with what it sets off. -/
def State.agentWrite (s : State) (pa : Nat) (bytes : List Byte) (writer : Option Agent := none) (poison : Bool := false) :
    State :=
  s.intoBacking pa bytes fun s bytes =>
    (s.modMem fun m => m.agentWrite false pa bytes poison writer).noteWrite pa bytes.length

/-- A number at the point of coherence of .dev. -/
def Mem.curNat (m : Mem) (pa n : Nat) : Nat := bytesNat (m.curBytes pa n)

/-- The report ring behind the context table (R224). -/
def State.ring (s : State) : Nat := s.sys.ctxBase + 0x100000

/-- The place of the record that a report takes next. -/
def State.recordAt (s : State) : Nat := s.ring + 0x40 + 64 * (s.mem.curNat s.ring 8 % 16383)

/-- The write of a report must wait: older ones do, a link to the ring retrains (R220), or an open multicast entry holds its
pieces (R135). -/
def State.reportWaits (s : State) : Bool :=
  !s.sys.reports.isEmpty || s.sys.linkWaits s.ring || s.sys.linkWaits s.recordAt || s.sys.mcHolds s.ring
    || s.sys.mcHolds s.recordAt

/-- Writes a report to the ring, or counts an overflow, and raises the MSI (R224, R230). What stands on a failed agent is not
written (R150), and without its header a ring takes no record; a write that must wait is made later, in the order of the
reports. -/
def State.report (s : State) (r : Report) : State :=
  let head := s.mem.curNat s.ring 8
  let tail := s.mem.curNat (s.ring + 8) 8
  if s.sys.homeLost s.ring then s
  else if s.reportWaits then s.modSys fun y => { y with reports := y.reports ++ [r] }
  else if head - tail < 16383 then
    let ring := s.ring
    let s := if s.sys.homeLost s.recordAt then s else s.agentWrite s.recordAt r.bytes
    let s := s.agentWrite ring (natToBytes 8 (head + 1))
    s.modSys fun y => { y with msi := y.msi + 1 }
  else
    let ovf := s.mem.curNat (s.ring + 16) 8
    if ovf + 1 < 2 ^ 64 then s.agentWrite (s.ring + 16) (natToBytes 8 (ovf + 1)) else s

/-- The reports that wait are written, as far as they can be. -/
def State.flushReports (s : State) : State :=
  s.sys.reports.foldl State.report (s.modSys fun y => { y with reports := [] })

/-! Taking an exception and returning from one. -/

/-- TCAUSE (Table 10-1). -/
def tcauseWord (t : TrapInfo) (vpb : Bool) : Word := wd (t.code % 256 + t.detail % 256 * 256 + (if vpb then 65536 else 0))

/-- A trap goes to the hart's handler (R192). -/
def Hart.delivers (h : Hart) (t : TrapInfo) : Bool :=
  h.tvec.getLsbD 0 && !h.inHandler && t.code != cProtection && !(t.code == cData && t.detail == 2)

/-- The trap registers after a trap (R188). An instruction that was resuming, or had issued some of its stripes, stays open with
what it keeps (R195, R196). -/
def Hart.trapRegs (h : Hart) (t : TrapInfo) (tpc : Word) (vpb : Bool) : Hart :=
  { h with
    tcause := tcauseWord t vpb
    tpc := tpc &&& ~~~1
    tstripe := wd (t.stripe % 65536)
    tval := t.val
    opened := t.opened.or (h.resume.or h.opened)
    resume := none
    barred := false }

/-- The hart enters its handler: INH becomes 1 and it continues at HADDR * 4 (R192). -/
def Hart.enterHandler (h : Hart) : Hart :=
  { h with status := .running, tvec := h.tvec ||| 2, pc := h.tvec &&& ~~~3 }

/-- The report that a trap sends: KIND 2 for a data error, KIND 4 for a violation, KIND 1 for another trap that holds
the hart in fault (R192, Table 11-10). -/
def trapReport (h : Hart) (t : TrapInfo) : Report :=
  { kind := if t.code = cData then 2 else if t.code = cProtection then 4 else 1
    detail := t.detail
    cid := h.cid
    inc := h.inc
    tcause := if t.code = cProtection then 0 else h.tcause
    addr := if t.code = cProtection then t.val else h.tpc
    master := hartMaster h.core h.ctx
    gang := gangWord h.gang h.index }

/-- Forms that have issued ahead of their turn are unwound: their popped tokens are put back (R109, R194). -/
def Hart.unwindAhead (h : Hart) : Hart :=
  if h.ahead.isEmpty then h
  else
    { h with
      ahead := []
      tokens := h.ahead.foldl (fun (t : Vector Nat 25) f => match f with
        | some f => t.setIfInBounds f (t.getD f 0 + 1)
        | none => t) h.tokens }

/-- TAKES AN EXCEPTION on the hart in focus (R188, R192): the trap registers are written, and the hart enters its
handler or is held in fault. `tpc` is where TRET resumes; `vpb` tells that a block of virtual processors trapped. -/
def takeTrap (t : TrapInfo) (tpc : Word) (vpb : Bool) (s : State) : State :=
  let deliver := s.h.delivers t
  let s := s.modH fun h => h.unwindAhead.trapRegs t tpc vpb
  let s := if deliver then s.modH Hart.enterHandler else s.modH fun h => { h with status := .heldInFault }
  if deliver && t.code != cData then s else s.report (trapReport s.h t)

/-- The token that a closed or completed form still owes is pushed, or waits (R109). -/
def State.pushOrHold (s : State) (f : Option Nat) : State :=
  match f with
  | none => s
  | some f =>
    if s.h.hasPlace f && (s.heldOf s.h).isEmpty then s.modH fun h => h.pushTok f
    else { s with held := s.held ++ [⟨s.h, .nop .plain, some f, false, false⟩] }

/-- Takes one entry from each of the queues (R106). -/
def Hart.popQueues (h : Hart) (qs : List (Fin 4)) : Hart :=
  qs.foldl (fun (h : Hart) (q : Fin 4) => { h with queues := h.queues.set q h.queues[q].tail }) h

/-- A vector instruction completes: the queue entries that it consumed are freed (R106), and PURSE advances (R69). -/
def Hart.complete (h : Hart) (frees : List (Fin 4)) (purse : Nat) : Hart :=
  let h := h.popQueues frees
  if purse = 0 then h else { h with purse := h.purse + wd purse }

/-- Closes the open instruction, if any: its destination stays as it stands, and its push is made (R196, R109). One that is
closed before it is complete frees no queue entry and leaves PURSE. DEDUCED, log entry 45. -/
def State.closeOpen (s : State) : State :=
  match s.h.opened with
  | none => s
  | some o =>
    (s.modH fun h => { h with opened := none }).pushOrHold (pushFifo o.instr.stack o.instr.adm.queue)

/-- The open instruction `o` is complete, with no stripe left to compute (R196): it closes. -/
def State.finishOpen (s : State) (o : OpenInstr) : State := (s.modH fun h => h.complete o.frees o.purse).closeOpen

/-- RETURNS FROM AN EXCEPTION at TPC, for TRET (R196) and for the command that resumes a hart (R223): the open
instruction resumes at TSTRIPE, or it closes and the hart continues at TPC; after a trap in a block, behind the VFETCH
(R198). `stripes` is S of the open instruction. -/
def returnFromTrap (stripes : Nat) (s : State) : State :=
  let s := s.modH fun h => { h with tvec := h.tvec &&& ~~~2, status := .running }
  if s.h.tcause.getLsbD 16 && s.h.vpClosed.isSome then
    match s.h.vpClosed with
    | some (next, push) =>
      ((s.closeOpen).modH fun h => { h with vpClosed := none, pc := next }).pushOrHold push
    | none => s
  else
    match s.h.opened with
    | some o =>
      if s.h.tpc = o.pc then
        let k := s.h.tstripe.toNat
        if stripes ≤ k then
          (s.finishOpen o).modH fun h => { h with pc := o.pc + wd (formLen o.instr) }
        else
          s.modH fun h => { h with opened := none, resume := some { o with stripe := k }, pc := o.pc }
      else (s.closeOpen).modH fun h => { h with pc := h.tpc }
    | none => s.modH fun h => { h with pc := h.tpc }

/-! Issuing and retiring a form. -/

/-- What a form does outside its hart's registers, for the order of retirement (R109, R194): nothing; reads of memory;
effects and no register; an effect that answers into one scalar register; anything else. -/
inductive Effect where | internal | reads | external | answers | whole
  deriving DecidableEq, Repr

end Sys2Proof.Machine

namespace Sys2Proof

/-- R109, R194. -/
def Instr.effect : Instr → Machine.Effect
  | .ld .. | .ldaq .. | .cldw .. | .cldd .. | .vld .. | .vldStrided .. | .vldx .. | .vldb .. | .vldbS2c .. | .vkld ..
  | .vpref .. | .vprefStrided .. | .vprefIndexed .. | .cestat .. => .reads
  | .st .. | .cstw .. | .cstd .. | .vst .. | .vstStrided .. | .vstx .. | .vstb .. | .vstbC2s .. | .vkst .. | .vred ..
  | .vredIndexed .. | .mstaStrided .. | .mstaIndexed .. | .cecopy .. | .cefill .. | .farm .. => .external
  | .add .. | .sub .. | .and .. | .or .. | .xor .. | .shl .. | .shr .. | .sra .. | .mul .. | .mulh .. | .mulhn ..
  | .div .. | .divn .. | .rem .. | .remn .. | .min .. | .max .. | .minn .. | .maxn .. | .slt .. | .sltn .. | .clz ..
  | .popc .. | .shli .. | .shri .. | .srai .. | .addi .. | .andi .. | .ori .. | .xori .. | .slti .. | .lih .. | .adpc ..
  | .hint .. | .nop .. | .jalr .. | .jal .. | .beq .. | .bne .. | .blt .. | .bge .. | .bltn .. | .bgen .. | .caddi ..
  | .cli .. | .cmov .. | .cadd .. | .csub .. | .cbeqz .. | .cbnez .. | .cj .. | .vadd .. | .vsub .. | .vmul ..
  | .vmulh .. | .vdiv .. | .vmin .. | .vmax .. | .vand .. | .vor .. | .vxor .. | .vshl .. | .vshr .. | .vsra ..
  | .vadc .. | .vsbc .. | .vfma .. | .vfms .. | .vfnma .. | .vfnms .. | .vsel .. | .vcmp .. | .vbsadd .. | .vbsmul ..
  | .vabs .. | .vneg .. | .vsqrt .. | .vrcp .. | .vrsq .. | .vexp2 .. | .vlog2 .. | .vclass .. | .vnot .. | .vclz ..
  | .vpopc .. | .vmov .. | .vmovScalar .. | .vrsum .. | .vrmax .. | .vrmin .. | .vrand .. | .vror .. | .mand ..
  | .mor .. | .mxor .. | .mandn .. | .mnot .. | .mshl .. | .mpopc .. | .mfirst .. | .mset .. | .vscl .. | .vperm ..
  | .vbsj .. | .vresh .. | .vext .. | .vins .. | .vcomp .. | .vargmax .. | .vdecb .. | .vbsl .. | .vidx .. | .qdrop ..
  | .setsh .. | .mzero .. | .mlda .. | .mmovv .. => .internal
  | .vcvt .. | .mop .. | .mrow .. | .vfetch .. | .vstop .. | .vnext .. | .vpbr .. | .vldm .. | .vamo .. | .vamoSwap ..
  | .tkclr .. | .msetm .. | .mrel .. | .launch .. | .bar .. | .xsend .. | .xrecv .. | .amsg .. | .setvl .. | .setvlb ..
  | .csrr .. | .csrw .. | .csrs .. | .csrc .. | .strl .. | .claim .. | .waitm .. | .sysc ..
  | .tret .. | .exit .. | .fence .. | .vsave .. | .vrest .. | .incb .. | .rcf .. | .slwb .. | .hmsw .. => .whole
  | .amo .. | .cas .. => .answers
  | .cmdLaunch .. | .cmdIncb .. | .cmdRcf .. | .cmdSlwb .. | .cmdHmsw .. | .cmdDeclareFailed .. | .cmdResumeHart ..
  | .cmdRetireHart .. | .cmdPreEmptGang .. | .cmdReleaseMaster .. | .cmdContextTable .. | .cmdInterruptHart ..
  | .cmdRerunGang .. | .cmdFarm .. | .cmdLoadTellers .. | .cmdAttest .. | .cmdUnknown .. | .commandCompletion ..
  | .gangAdmission .. | .waitcRead .. | .doneAdd .. | .gangStaging .. | .budgetExpiry .. | .forcedStop ..
  | .ageingPriorityRaise .. | .lcOnToRetention .. | .lcRetentionToOff .. | .laneClusterWake .. | .registerRefill ..
  | .stripeIssue .. | .instructionRetirement .. | .interruptTaken .. | .protectionViolation ..
  | .pageSortingRound .. | .translationWalk .. | .tlbInvalidationAck .. | .ptStoreCompletion ..
  | .wordRegistration .. | .sliceRead .. | .readForward .. | .missTableAdmission .. | .responseArrival ..
  | .writeBack .. | .homeWriteApply .. | .sharerInvalidation .. | .homeAtomic .. | .claimService .. | .farmWrite ..
  | .vredElementAdd .. | .progressWordAdd .. | .multicastHeader .. | .multicastBeatSend .. | .tellerHandlerRun ..
  | .handlerAbort .. | .copyEngineTransfer .. | .monitorWake .. | .xrecvMessageArrival .. | .incarnationChange ..
  | .sweepReport .. | .dieLossReport .. | .linkRetrain .. | .linkRetrainTimeout .. | .linkTrained ..
  | .hostLinkTrained | .agentRejoin .. | .weakarRequestAdmission .. | .hostSnoop .. | .arrayErrorDetected ..
  | .junctionOverTemperature .. | .powerCapExceeded .. | .boot | .mextWrite .. | .measurementDone | .powcapWrite ..
  | .selfidWrite .. | .portEnableWrite .. | .deviceRegisterWrite .. | .hostLinkRequest .. | .missFillAnswer ..
  | .powerDrawBelowCap .. => .whole

/-- The register that an AMO or a CAS answers into. -/
def Instr.answerReg : Instr → Option SReg
  | .amo _ d _ _ _ _ | .cas _ d _ _ _ => if d = 0 then none else some d
  | _ => none

/-- The scalar register that a form writes, if it writes one. -/
def Instr.destScalar : Instr → Option SReg
  | .add _ d _ _ | .sub _ d _ _ | .and _ d _ _ | .or _ d _ _ | .xor _ d _ _ | .shl _ d _ _ | .shr _ d _ _
  | .sra _ d _ _ | .mul _ d _ _ | .mulh _ d _ _ | .mulhn _ d _ _ | .div _ d _ _ | .divn _ d _ _ | .rem _ d _ _
  | .remn _ d _ _ | .min _ d _ _ | .max _ d _ _ | .minn _ d _ _ | .maxn _ d _ _ | .slt _ d _ _ | .sltn _ d _ _
  | .clz _ d _ | .popc _ d _ | .shli _ d _ _ | .shri _ d _ _ | .srai _ d _ _ | .addi _ d _ _ | .andi _ d _ _
  | .ori _ d _ _ | .xori _ d _ _ | .slti _ d _ _ | .lih _ d _ | .adpc _ d _ | .ld _ d _ _ _ | .jalr _ d _ _
  | .jal _ d _ | .mpopc _ d _ | .mfirst _ d _ | .vext _ d _ _ | .cestat _ d | .launch _ d _ | .amsg _ d _ _
  | .setvl _ d _ _ _ | .setvlb _ d _ _ _ _ _ | .csrr _ d _ | .amo _ d _ _ _ _ | .cas _ d _ _ _ | .ldaq _ d _ _ _
  | .claim _ d _ _ | .incb _ d _ | .rcf _ d _ => some d
  | .caddi d _ | .cli d _ | .cmov d _ | .cadd d _ | .csub d _ => some (Fin.ofNat 64 d.val)
  | .cldw d _ _ | .cldd d _ _ => some (Fin.ofNat 64 (8 + d.val))
  | .hint .. | .nop .. | .st .. | .beq .. | .bne .. | .blt .. | .bge .. | .bltn .. | .bgen .. | .cbeqz ..
  | .cbnez .. | .cj .. | .cstw .. | .cstd .. | .vadd .. | .vsub .. | .vmul .. | .vmulh .. | .vdiv .. | .vmin ..
  | .vmax .. | .vand .. | .vor .. | .vxor .. | .vshl .. | .vshr .. | .vsra .. | .vadc .. | .vsbc .. | .vfma ..
  | .vfms .. | .vfnma .. | .vfnms .. | .vsel .. | .vcmp .. | .vbsadd .. | .vbsmul .. | .vabs .. | .vneg ..
  | .vsqrt .. | .vrcp .. | .vrsq .. | .vexp2 .. | .vlog2 .. | .vclass .. | .vnot .. | .vclz .. | .vpopc ..
  | .vfetch .. | .vstop .. | .vnext .. | .vpbr .. | .vmov .. | .vmovScalar .. | .vrsum .. | .vrmax .. | .vrmin ..
  | .vrand .. | .vror .. | .mand .. | .mor .. | .mxor .. | .mandn .. | .mnot .. | .mshl .. | .mset .. | .vscl ..
  | .vcvt .. | .vperm .. | .vbsj .. | .vresh .. | .vins .. | .vcomp .. | .vargmax .. | .vdecb .. | .vbsl ..
  | .vidx .. | .vld .. | .vldStrided .. | .vldx .. | .vldm .. | .vldb .. | .vldbS2c .. | .vpref ..
  | .vprefStrided .. | .vprefIndexed .. | .vkld .. | .vst .. | .vstStrided .. | .vstx .. | .vstb .. | .vstbC2s ..
  | .vred .. | .vredIndexed .. | .vkst .. | .vamo .. | .vamoSwap .. | .qdrop .. | .tkclr .. | .msetm ..
  | .mzero .. | .mrel .. | .mop .. | .mrow .. | .mmovv .. | .mlda .. | .mstaStrided .. | .mstaIndexed ..
  | .cecopy .. | .cefill .. | .farm .. | .bar .. | .xsend .. | .xrecv .. | .setsh .. | .csrw .. | .csrs ..
  | .csrc .. | .strl .. | .waitm .. | .sysc .. | .tret .. | .exit .. | .fence .. | .vsave .. | .vrest ..
  | .slwb .. | .hmsw .. | .gangAdmission .. | .waitcRead .. | .doneAdd .. | .gangStaging .. | .budgetExpiry ..
  | .forcedStop .. | .ageingPriorityRaise .. | .lcOnToRetention .. | .lcRetentionToOff .. | .laneClusterWake ..
  | .registerRefill .. | .stripeIssue .. | .instructionRetirement .. | .interruptTaken ..
  | .protectionViolation .. | .pageSortingRound .. | .translationWalk .. | .tlbInvalidationAck ..
  | .ptStoreCompletion .. | .wordRegistration .. | .sliceRead .. | .readForward .. | .missTableAdmission ..
  | .responseArrival .. | .writeBack .. | .homeWriteApply .. | .sharerInvalidation .. | .homeAtomic ..
  | .claimService .. | .farmWrite .. | .vredElementAdd .. | .progressWordAdd .. | .multicastHeader ..
  | .multicastBeatSend .. | .tellerHandlerRun .. | .handlerAbort .. | .copyEngineTransfer .. | .monitorWake ..
  | .xrecvMessageArrival .. | .incarnationChange .. | .sweepReport .. | .dieLossReport .. | .linkRetrain ..
  | .linkRetrainTimeout .. | .linkTrained .. | .agentRejoin .. | .weakarRequestAdmission .. | .hostSnoop ..
  | .arrayErrorDetected .. | .junctionOverTemperature .. | .powerCapExceeded .. | .powcapWrite ..
  | .selfidWrite .. | .portEnableWrite .. | .deviceRegisterWrite .. | .hostLinkRequest .. | .missFillAnswer ..
  | .powerDrawBelowCap .. | .cmdLaunch | .cmdIncb | .cmdRcf | .cmdSlwb | .cmdHmsw | .cmdDeclareFailed
  | .cmdResumeHart | .cmdRetireHart | .cmdPreEmptGang | .cmdReleaseMaster | .cmdContextTable | .cmdInterruptHart
  | .cmdRerunGang | .cmdFarm | .cmdLoadTellers | .cmdAttest | .cmdUnknown | .commandCompletion | .boot
  | .mextWrite | .measurementDone | .hostLinkTrained => none

/-- Instructions of the scalar ALU and of two-source vector arithmetic that neither read nor write a scalar register;
false of every other instruction. -/
def Instr.spares (r : SReg) : Instr → Bool
  | .add _ d a b | .sub _ d a b | .and _ d a b | .or _ d a b | .xor _ d a b | .shl _ d a b | .shr _ d a b
  | .sra _ d a b | .mul _ d a b | .mulh _ d a b | .mulhn _ d a b | .div _ d a b | .divn _ d a b | .rem _ d a b
  | .remn _ d a b | .min _ d a b | .max _ d a b | .minn _ d a b | .maxn _ d a b | .slt _ d a b | .sltn _ d a b =>
    d != r && a != r && b != r
  | .addi _ d a _ | .andi _ d a _ | .ori _ d a _ | .xori _ d a _ | .slti _ d a _ | .clz _ d a | .popc _ d a
  | .shli _ d a _ | .shri _ d a _ | .srai _ d a _ | .jalr _ d a _ => d != r && a != r
  | .lih _ d _ | .adpc _ d _ | .jal _ d _ => d != r
  | .beq _ a b _ | .bne _ a b _ | .blt _ a b _ | .bge _ a b _ | .bltn _ a b _ | .bgen _ a b _ => a != r && b != r
  | .hint .. | .nop .. => true
  | .vadd _ _ _ b _ s | .vsub _ _ _ b _ s | .vmul _ _ _ b _ s | .vmin _ _ _ b _ s | .vmax _ _ _ b _ s
  | .vand _ _ _ b _ s | .vor _ _ _ b _ s | .vxor _ _ _ b _ s | .vfma _ _ _ b _ s => !s || b != r
  | _ => false

/-- The instructions that a block of virtual processors may hold (R34, R319, R338 and the entries of class 011). -/
def Instr.inBlock : Instr → Bool
  | .vadd .. | .vsub .. | .vmul .. | .vmulh .. | .vdiv .. | .vmin .. | .vmax .. | .vand .. | .vor .. | .vxor ..
  | .vshl .. | .vshr .. | .vsra .. | .vadc .. | .vsbc .. | .vfma .. | .vfms .. | .vfnma .. | .vfnms .. | .vsel ..
  | .vcmp .. | .vbsadd .. | .vbsmul .. | .vabs .. | .vneg .. | .vsqrt .. | .vrcp .. | .vrsq .. | .vexp2 .. | .vlog2 ..
  | .vclass .. | .vnot .. | .vclz .. | .vpopc .. | .vstop .. | .vnext .. | .vpbr .. | .vmov .. | .vmovScalar ..
  | .mand .. | .mor .. | .mxor .. | .mandn .. | .mnot .. | .mshl .. | .mpopc .. | .mfirst .. | .mset .. | .vcvt ..
  | .vidx .. => true
  | .add .. | .sub .. | .and .. | .or .. | .xor .. | .shl .. | .shr .. | .sra .. | .mul .. | .mulh .. | .mulhn ..
  | .div .. | .divn .. | .rem .. | .remn .. | .min .. | .max .. | .minn .. | .maxn .. | .slt .. | .sltn .. | .clz ..
  | .popc .. | .shli .. | .shri .. | .srai .. | .addi .. | .andi .. | .ori .. | .xori .. | .slti .. | .lih ..
  | .adpc .. | .hint .. | .nop .. | .ld .. | .st .. | .jalr .. | .jal .. | .beq .. | .bne .. | .blt .. | .bge ..
  | .bltn .. | .bgen .. | .caddi .. | .cli .. | .cmov .. | .cadd .. | .csub .. | .cbeqz .. | .cbnez .. | .cj ..
  | .cldw .. | .cldd .. | .cstw .. | .cstd .. | .vfetch .. | .vrsum .. | .vrmax .. | .vrmin .. | .vrand .. | .vror ..
  | .vscl .. | .vperm .. | .vbsj .. | .vresh .. | .vext .. | .vins .. | .vcomp .. | .vargmax .. | .vdecb .. | .vbsl ..
  | .vld .. | .vldStrided .. | .vldx .. | .vldm .. | .vldb .. | .vldbS2c .. | .vpref .. | .vprefStrided ..
  | .vprefIndexed .. | .vkld .. | .vst .. | .vstStrided .. | .vstx .. | .vstb .. | .vstbC2s .. | .vred ..
  | .vredIndexed .. | .vkst .. | .vamo .. | .vamoSwap .. | .qdrop .. | .tkclr .. | .msetm .. | .mzero .. | .mrel ..
  | .mop .. | .mrow .. | .mmovv .. | .mlda .. | .mstaStrided .. | .mstaIndexed .. | .cecopy .. | .cefill ..
  | .cestat .. | .launch .. | .farm .. | .bar .. | .xsend .. | .xrecv .. | .amsg .. | .setvl .. | .setvlb ..
  | .setsh .. | .csrr .. | .csrw .. | .csrs .. | .csrc .. | .amo .. | .cas .. | .ldaq .. | .strl .. | .claim ..
  | .waitm .. | .sysc .. | .tret .. | .exit .. | .fence .. | .vsave .. | .vrest .. | .incb .. | .rcf .. | .slwb ..
  | .hmsw .. | .cmdLaunch .. | .cmdIncb .. | .cmdRcf .. | .cmdSlwb .. | .cmdHmsw .. | .cmdDeclareFailed ..
  | .cmdResumeHart .. | .cmdRetireHart .. | .cmdPreEmptGang .. | .cmdReleaseMaster .. | .cmdContextTable ..
  | .cmdInterruptHart .. | .cmdRerunGang .. | .cmdFarm .. | .cmdLoadTellers .. | .cmdAttest .. | .cmdUnknown ..
  | .commandCompletion .. | .gangAdmission .. | .waitcRead .. | .doneAdd .. | .gangStaging .. | .budgetExpiry ..
  | .forcedStop .. | .ageingPriorityRaise .. | .lcOnToRetention .. | .lcRetentionToOff .. | .laneClusterWake ..
  | .registerRefill .. | .stripeIssue .. | .instructionRetirement .. | .interruptTaken .. | .protectionViolation ..
  | .pageSortingRound .. | .translationWalk .. | .tlbInvalidationAck .. | .ptStoreCompletion .. | .wordRegistration ..
  | .sliceRead .. | .readForward .. | .missTableAdmission .. | .responseArrival .. | .writeBack ..
  | .homeWriteApply .. | .sharerInvalidation .. | .homeAtomic .. | .claimService .. | .farmWrite ..
  | .vredElementAdd .. | .progressWordAdd .. | .multicastHeader .. | .multicastBeatSend .. | .tellerHandlerRun ..
  | .handlerAbort .. | .copyEngineTransfer .. | .monitorWake .. | .xrecvMessageArrival .. | .incarnationChange ..
  | .sweepReport .. | .dieLossReport .. | .linkRetrain .. | .linkRetrainTimeout .. | .linkTrained ..
  | .hostLinkTrained | .agentRejoin .. | .weakarRequestAdmission .. | .hostSnoop .. | .arrayErrorDetected ..
  | .junctionOverTemperature .. | .powerCapExceeded .. | .boot | .mextWrite .. | .measurementDone | .powcapWrite ..
  | .selfidWrite .. | .portEnableWrite .. | .deviceRegisterWrite .. | .hostLinkRequest .. | .missFillAnswer ..
  | .powerDrawBelowCap .. => false

end Sys2Proof

namespace Sys2Proof.Machine

/-- The address that a group executes. -/
def Hart.groupPc (h : Hart) : Word :=
  match h.vp with
  | none => h.pc
  | some r =>
    match r.group with
    | none => h.pc
    | some g => ((r.vps.find? fun v => g.contains v.e).map (·.pc)).getD h.pc

/-- A VFETCH whose virtual processors have all ended completes (R36): the control thread continues behind it. -/
def State.endVp (s : State) : State :=
  match s.h.vp with
  | none => s
  | some r =>
    if r.vps.isEmpty then
      (s.modH fun h => { h with vp := none, pc := r.next }).pushOrHold r.push
    else s.modH fun h => { h with vp := some { r with group := none } }

/-- Changes the virtual processors of the group. -/
def Hart.modGroup (h : Hart) (f : Vp → Option Vp) : Hart :=
  match h.vp with
  | none => h
  | some r =>
    match r.group with
    | none => h
    | some g => { h with vp := some { r with vps := r.vps.filterMap fun v => if g.contains v.e then f v else some v } }

/-- A trap inside a block (R198): every virtual processor ends, and the trap is taken with VPB set. DEDUCED, log entry 24. -/
def vpTrap (t : TrapInfo) (s : State) : State :=
  let tpc := s.h.groupPc
  let closed := s.h.vp.map fun r => (r.next, r.push)
  takeTrap { t with stripe := 0, opened := none } tpc true
    (s.modH fun h => { h with vp := none, vpClosed := closed })

/-- A first consumption (R207, R208): the hart remembers the word, and unpoisoned copies of it that caches hold
unregistered are dropped. -/
def State.squashed (s : State) (loc : PLoc) : State :=
  let s := s.modH fun h => { h with squash := some loc }
  match loc with
  | .mem w =>
    let keep := fun x : L1Copy => x.pa != w || x.poison
    s.modMem fun m => { m with l1 := m.l1.filter keep, answers := m.answers.filter fun a => keep a.copy }
  | .sreg _ | .vword _ | .mask _ _ | .scale _ | .cell _ | .queue _ _ | .spad _ => s

/-- A block instruction executed by the group (R35). -/
def issueVp (i : Instr) (g : List Nat) (body : State → Res) (s : State) : State :=
  if !i.inBlock || i.stack != .plain then vpTrap (wholeTrap cIllegal (wd (lowest g))) s
  else
    match body s with
    | .done s1 => (s1.modH fun h => h.modGroup fun v => some { v with pc := v.pc + 4 }).endVp
    | .gone s1 => s1.endVp
    | .jump s1 _ => s1.endVp
    | .trap s1 t => vpTrap (if t.code = cBacking then { t with val := wd (lowest g) } else t) s1
    | .wait s1 _ => s1.endVp
    | .squash loc => (s.squashed loc).endVp

/-- The width in bytes of an element of a format of 8 bits or more. -/
def fmtBytes (f : Fmt) : Nat := width f / 8

/-- The places that an element of a transfer writes. -/
def XElem.writes : XElem → List (Phys × Nat)
  | .skip => []
  | .put d bs _ => [(d, bs.length)]
  | .copy _ d n => [(d, n)]
  | .add d f _ _ _ _ => [(d, fmtBytes f)]

/-- The places that an element of a transfer reads, as a source range. -/
def XElem.reads : XElem → List (Phys × Nat)
  | .skip => []
  | .put _ _ _ => []
  | .copy r _ n => [(r, n)]
  | .add _ _ _ _ _ _ => []

/-- The master identifier of the engine queue of a hart (R230). -/
def engineMaster (c : CoreId) (k : Ctx) : Word := hartMaster c k + wd (2 ^ 56)

/-- The copy engine makes the transfers of CECOPY and CEFILL (R116, R162). -/
def XKind.engine : XKind → Bool
  | .cecopy | .cefill => true
  | .msta | .vred => false

/-- The engine queue of a hart is frozen (R214). -/
def State.engineFrozen (s : State) (h : Hart) : Bool := s.sys.frozen.contains (engineMaster h.core h.ctx)

/-- An access of `n` bytes at a place cannot be made now: a link that carries it is retraining (R166, R220), or it writes a
piece that an open multicast entry holds (R135). -/
def Sys.placeWaits (y : Sys) (write : Bool) (p : Phys) (n : Nat) : Bool :=
  !p.spad && (y.linkWaits p.pa || write && y.mcHoldsN p.pa n)

/-- An element of a transfer cannot be performed now. -/
def Sys.elemWaits (y : Sys) (e : XElem) : Bool :=
  e.writes.any (fun p => y.placeWaits true p.1 p.2) || e.reads.any fun p => y.placeWaits false p.1 p.2

/-- A progress add cannot be made now. -/
def Sys.noteWaits (y : Sys) (n : Notify) : Bool := y.placeWaits true n.at_ 8

/-- An outstanding transfer of a hart cannot be performed now: its queue is frozen (R214), or an element of it, or its progress
add, waits. -/
def State.stuckOf (s : State) (h : Hart) : Bool :=
  h.xfers.any fun x => x.kind.engine && s.engineFrozen h || x.elems.any s.sys.elemWaits || x.notify.any s.sys.noteWaits

/-- The places that a transfer writes: those of its elements, and its progress word. -/
def Xfer.places (x : Xfer) : List (Phys × Nat) := x.elems.flatMap XElem.writes ++ (x.notify.map fun n => (n.at_, 8)).toList

/-- Writes of a hart to tables wait for the accesses that were translated by them: a PT store that has not completed, or that a
transfer of it holds (R167); a write through PT = 0 that has dropped translations, or that will, of a word that its core has
registered or in a transfer (R130, R185). Which hart made a write that is not yet acknowledged is not kept: every hart owes it
(DESIGN CHOICE, log entry 9). -/
def State.owesAcks (s : State) (h : Hart) : Bool :=
  h.ptStores != 0 || s.mem.unacked || s.mem.flushMeets h.core ||
    h.xfers.any fun x => x.places.any fun p => !p.1.spad && (p.1.pt || s.mem.tablesMeet p.1.pa p.2)

/-- The hart in focus waits for transfers that cannot be performed now: its own, and those of every hart while it owes for a
write to tables (R166, R167, R185). -/
def State.stuck (s : State) : Bool :=
  s.stuckOf s.h || s.owesAcks s.h && s.rest.any fun h => h.status != .absent && s.stuckOf h

/-- A stalled hart: its form has not issued. -/
def State.stall (s : State) (w : Stall) : State := s.modH fun h => { h with status := .stalled w }

/-- Pops the token that a form needs; none when it is absent. A resumed instruction pops nothing, and a form that has
issued ahead of its turn has popped already. When a form waits for the place, its retirement follows (R109). -/
def State.popTok (s : State) (x : Stack) (q : Fin 5) : Option State :=
  match popFifo x q with
  | none => some s
  | some f =>
    if s.h.resume.isSome || !s.h.ahead.isEmpty then some s
    else if s.h.tokens.getD f 0 = 0 then none
    else
      let s1 := s.modH fun h => { h with tokens := h.tokens.setIfInBounds f (h.tokens.getD f 0 - 1) }
      some (if (s1.heldOf s1.h).head?.any (fun d => d.fifo.all s1.h.hasPlace)
            then s1.post (.instructionRetirement s.h.core s.h.ctx) else s1)

/-- Retires a form that has completed, with the pc behind it: its push is made, or waits (R109, R194). DEDUCED, log entry 23. -/
def retire (i : Instr) (s0 s1 s2 : State) (pc : Word) : State :=
  let x := i.stack
  let go := fun s : State => s.modH fun h =>
    { h with pc := pc, status := .running, resume := none, ahead := h.ahead.tail }
  let push := pushFifo x i.adm.queue
  if (s0.heldOf s0.h).isEmpty && push.all s2.h.hasPlace then
    match push with
    | none => go s2
    | some f => (go s2).modH fun h => h.pushTok f
  else
    match i.effect with
    | .external | .answers => { go s1 with held := s1.held ++ [⟨s1.h, i, push, true, false⟩] }
    | .whole => s0.stall .retry
    | .internal | .reads =>
      match push with
      | none => go s2
      | some _ => { go s2 with held := s2.held ++ [⟨s1.h, i, push, false, false⟩] }

/-- Issues a form of the control thread: its pop, its body, its retirement or its trap. A form that does more than write the
hart's own registers waits while transfers that it may have to wait for cannot be performed. -/
def issueForm (i : Instr) (body : State → Res) (s : State) : State :=
  let held := s.heldOf s.h
  if !held.isEmpty && (i.effect == .whole || i.effect == .reads && s.deferred s.h ||
      held.any fun d => d.instr.answerReg.any fun r => !i.spares r) then s.stall .retry
  else if i.effect != .internal && s.stuck then s.stall .retry
  else
    match s.popTok i.stack i.adm.queue with
    | none => s.stall (.token ((popFifo i.stack i.adm.queue).getD 0))
    | some s1 =>
      let back := fun t : State => t.modH fun h => { h with tokens := s.h.tokens }
      match body s1 with
      | .done s2 => retire i s s1 s2 (s.h.pc + wd (formLen i))
      | .jump s2 target => retire i s s1 s2 target
      | .trap s2 t =>
        if !held.isEmpty then s.stall .retry
        else takeTrap t (s.h.pc + wd t.unit) false
          (if t.opened.isSome then s2.modH fun h => { h with ahead := h.ahead.tail } else back s2)
      | .wait s2 w => back (s2.stall w)
      | .squash loc => s.squashed loc
      | .gone s2 => s2.modH fun h => { h with ahead := h.ahead.tail }

/-- Issues an instruction: for the group of a block, or for the control thread. -/
def issue (i : Instr) (body : State → Res) (s : State) : Out :=
  .next (match s.h.group with
    | some g => issueVp i g body s
    | none => issueForm i body s)

end Sys2Proof.Machine
end

