-- ==== Sys2Proof/Machine/Flags.lean ====
section
/-! DEFINITION. Rounding mode, flags and arithmetic traps of vector work (R70 to R75, R191). -/

namespace Sys2Proof.Machine

/-- FRM.RM (R70); the field holds 0 to 3. -/
def Hart.rm (h : Hart) : RM := RM.ofCode (bitsOf h.frm.toNat 2 0)

/-- FRM.FTZ (R74). -/
def Hart.ftz (h : Hart) : Bool := h.frm.getLsbD 3

/-- The mode of an RM field (R71). -/
def Hart.rmOf (h : Hart) : RmField → RM
  | .stat r => r
  | .dyn => h.rm

/-- The trap enables of FRM, in the order of FFLAGS (Tables 4-6, 4-7). -/
def Hart.enables (h : Hart) : Nat := bitsOf h.frm.toNat 13 8

/-- Flags join FFLAGS by OR (R72). -/
def Hart.raise (h : Hart) (f : Nat) : Hart := { h with fflags := h.fflags ||| wd f }

/-- The cause of the first enabled exception, in the order of R191. -/
def flagCause (f : Nat) : Nat :=
  if f.testBit 4 then 0x10 else if f.testBit 3 then 0x11 else if f.testBit 2 then 0x12
  else if f.testBit 1 then 0x13 else if f.testBit 0 then 0x14 else 0x15

end Sys2Proof.Machine
end

