-- ==== Sys2Proof/Machine/Operands.lean ====
section
/-! DEFINITION. Operands of vector work: the placement of elements in lane blocks (R32, R64), reading and writing
registers, masks, load queues, offsets and shells (R46 to R54), scale entries (R67), registers held off chip (R103), and
the upsets of checked execution (R210 to R213). -/

namespace Sys2Proof.Machine

/-! Geometry and layout. -/

/-- The lane clusters that a hart holds. -/
def Hart.lcn (h : Hart) : Nat := popCount 8 h.lcs.toNat

/-- NREG (R29). -/
def Hart.nreg (h : Hart) : Nat := 4 * 2 ^ h.nregc.code

/-- W, the words of a lane block (R30). -/
def Hart.blockWords (h : Hart) : Nat := 512 / h.nreg

/-- The geometry in force (R41, R44): brick extents and grid. -/
structure Geo where
  bx : Nat
  by_ : Nat
  bz : Nat
  gx : Nat
  gy : Nat
  gz : Nat
  deriving DecidableEq, Repr

/-- R41, R44. -/
def Hart.geo (h : Hart) : Geo :=
  let n := h.bgeo.toNat
  if h.bgeo.getLsbD 62 then ⟨1, 1, 1, h.vl, 1, 1⟩
  else ⟨2 ^ bitsOf n 2 0, 2 ^ bitsOf n 5 3, 2 ^ bitsOf n 8 6, bitsOf n 19 12 + 1, bitsOf n 27 20 + 1,
        bitsOf n 35 28 + 1⟩

/-- Elements of a brick. -/
def Geo.s (g : Geo) : Nat := g.bx * g.by_ * g.bz

/-- How the elements of a register stand in the lane blocks (R32, R33, R64). -/
structure Layout where
  lanes : Nat
  b : Nat
  s : Nat
  nb : Nat
  vl : Nat
  w : Nat
  sliced : Bool
  block : Nat
  deriving DecidableEq, Repr

/-- The layout of a register at width `w`. -/
def Hart.layoutAt (h : Hart) (w : Nat) (sliced : Bool) : Layout :=
  let l := 8 * h.lcn
  let s := h.geo.s
  let nb := h.vl / s
  ⟨l, if l = 0 then 0 else (nb + l - 1) / l, s, nb, h.vl, w, sliced, h.blockWords⟩

/-- The layout of the format in force: joined or contiguous elements. -/
def Hart.layout (h : Hart) : Layout := h.layoutAt (width h.fmt) false

/-- The lane of an element and its place in the lane (R32). -/
def Layout.place (y : Layout) (e : Nat) : Nat × Nat :=
  let n := e / y.s
  (n / y.b, n % y.b * y.s + e % y.s)

/-- The element positions of a lane block: b of R32, which R64 and R315 use alike. -/
def Layout.positions (y : Layout) : Nat := y.b * y.s

/-- S, the stripes of an instruction (R33). -/
def Layout.stripes (y : Layout) : Nat := (y.b * y.s * y.w + 31) / 32

/-- The words of a lane block that the stripes reach. Where VLMAX is no multiple of the lanes, the bits of a lane's last element
may fall outside its block (R31, R32): there they read as free values, and writes to them are lost. DESIGN CHOICE, log
entry 54. -/
def Layout.words (y : Layout) : Nat := Nat.min y.stripes y.block

/-- Where word `k` of a lane stands in an array of the words of every lane; past its end for a word outside the block. -/
def Layout.slot (y : Layout) (lane k : Nat) : Nat := if k < y.words then lane * y.words + k else y.lanes * y.words

/-- The stripe that holds an element's result (R53). -/
def Layout.stripe (y : Layout) (e : Nat) : Nat :=
  let p := (y.place e).2
  if y.sliced then p / 32 else p * y.w / 32

/-! Registers as words. -/

/-- The key of a word of a register (R32). -/
def wordKey (r : VReg) (lane k : Nat) : Nat := 8192 * r.val + 128 * lane + k

/-- The cells of a register. -/
def Hart.regCells (h : Hart) (r : VReg) : List VCell := h.vregs.filter fun c => c.key / 8192 == r.val

/-- The words with the given rising keys: what a dead word holds is a free value (R28; DESIGN CHOICE, log entry 6). -/
def takeWords (gen : Nat) : List Nat → List VCell → List (Nat × Bool)
  | [], _ => []
  | k :: ks, cs =>
    let cs := cs.dropWhile fun c => c.key < k
    match cs with
    | [] => ((Config.deadWord gen k).toNat, false) :: takeWords gen ks cs
    | c :: _ =>
      if c.key = k then (c.val.toNat, c.poison) :: takeWords gen ks cs
      else ((Config.deadWord gen k).toNat, false) :: takeWords gen ks cs

/-- The keys of words 0 to n - 1 of every lane held. -/
def viewKeys (r : VReg) (lanes n : Nat) : List Nat :=
  (List.range (lanes * n)).map fun i => wordKey r (i / n) (i % n)

/-- A register as an array of its words: word `k` of lane `l` stands at `l * n + k`; a word outside the lane block is free. -/
structure View where
  words : Array (Nat × Bool)
  n : Nat
  reg : VReg
  gen : Nat
  deriving Repr

/-- The words that hold the elements of a layout. -/
def viewOf (gen : Nat) (cells : List VCell) (r : VReg) (y : Layout) : View :=
  ⟨(takeWords gen (viewKeys r y.lanes y.words) cells).toArray, y.words, r, gen⟩

/-- The word `k` of a lane block. -/
def View.word (v : View) (lane k : Nat) : Nat × Bool :=
  if k < v.n then v.words.getD (lane * v.n + k) (0, false)
  else ((Config.deadWord v.gen (2 ^ 19 + 64 * v.reg.val + lane)).toNat, false)

/-- The bit `o` of a lane block. -/
def View.bit (v : View) (lane o : Nat) : Bool := (v.word lane (o / 32)).1.testBit (o % 32)

/-- A number from bits, the lowest first. -/
def bitsNat : List Bool → Nat
  | [] => 0
  | b :: bs => (if b then 1 else 0) + 2 * bitsNat bs

/-- The poisoned words of a code that is poisoned as a whole. -/
def allBad (b : Bool) : Bad := if b then 3 else 0

/-- The poisoned words of a code that a read found, from its first poisoned word and all of them. -/
def badOf (p : Option (PLoc × Bad)) : Bad := match p with
  | some l => l.2
  | none => 0

/-- The code of an element, and the first poisoned word that it stands in, with its poisoned words. -/
def View.elem (y : Layout) (v : View) (e : Nat) : Nat × Option (PLoc × Bad) :=
  let (lane, i) := y.place e
  if y.sliced then
    let c := y.positions
    let os := (List.range y.w).map fun j => j * c + i
    (bitsNat (os.map (v.bit lane)),
      (os.find? fun o => (v.word lane (o / 32)).2).map fun o => (.vword (wordKey v.reg lane (o / 32)), 1))
  else
    let o := i * y.w
    let k := o / 32
    let a := v.word lane k
    if o % 32 + y.w ≤ 32 then
      (a.1 / 2 ^ (o % 32) % 2 ^ y.w, if a.2 then some (.vword (wordKey v.reg lane k), 1) else none)
    else
      let c := v.word lane (k + 1)
      ((a.1 + c.1 * 2 ^ 32) / 2 ^ (o % 32) % 2 ^ y.w,
        if a.2 then some (.vword (wordKey v.reg lane k), if c.2 then 3 else 1)
        else if c.2 then some (.vword (wordKey v.reg lane (k + 1)), 2) else none)

/-- A word being written: its value and poison, the bits written, whether they bring poison. -/
structure WWord where
  val : Nat
  poison : Bool
  cover : Nat
  fresh : Bool
  deriving DecidableEq, Repr

/-- Writes `w` bits at bit `o` of a word. -/
def WWord.put (x : WWord) (o w v : Nat) (p : Bool) : WWord := ⟨putBits x.val o w v, x.poison, x.cover + w, x.fresh || p⟩

/-- Writes an element: a word takes poison from that of its own bits, which for an element of 64 bits is that of its half
(R206). -/
def putElem (y : Layout) (a : Array WWord) (e code : Nat) (bad : Bad) : Array WWord :=
  let (lane, i) := y.place e
  let p := bad != 0
  if y.sliced then
    let c := y.positions
    (List.range y.w).foldl (fun a j =>
      let o := j * c + i
      a.modify (y.slot lane (o / 32)) fun x => x.put (o % 32) 1 (code / 2 ^ j) p) a
  else
    let o := i * y.w
    if o % 32 + y.w ≤ 32 then a.modify (y.slot lane (o / 32)) fun x => x.put (o % 32) y.w code p
    else if y.w = 64 then
      (a.modify (y.slot lane (o / 32)) fun x => x.put 0 32 code (bad.testBit 0)).modify (y.slot lane (o / 32 + 1))
        fun x => x.put 0 32 (code / 2 ^ 32) (bad.testBit 1)
    else
      (List.range y.w).foldl (fun a j =>
        a.modify (y.slot lane ((o + j) / 32)) fun x => x.put ((o + j) % 32) 1 (code / 2 ^ j) p) a

/-- Merges two lists of cells in rising order of keys; the second wins. -/
def mergeCells : Nat → List VCell → List VCell → List VCell
  | 0, xs, _ => xs
  | _ + 1, [], ys => ys
  | _ + 1, xs, [] => xs
  | f + 1, x :: xs, c :: ys =>
    if x.key < c.key then x :: mergeCells f xs (c :: ys)
    else if x.key = c.key then c :: mergeCells f xs ys
    else c :: mergeCells f (x :: xs) ys

/-- Cells of a hart replaced or added. -/
def Hart.putCells (h : Hart) (cs : List VCell) : Hart :=
  { h with vregs := mergeCells (h.vregs.length + cs.length + 1) h.vregs cs }

/-- The elements of one instruction written to a register: element, code, poisoned words. A word whose every bit is written
clean loses its poison (R206). -/
def Hart.putElems (h : Hart) (r : VReg) (y : Layout) (es : List (Nat × Nat × Bad)) : Hart :=
  let ks := viewKeys r y.lanes y.words
  let a := ((takeWords h.vgen ks (h.regCells r)).map fun w => (⟨w.1, w.2, 0, false⟩ : WWord)).toArray
  let a := es.foldl (fun a x => putElem y a x.1 x.2.1 x.2.2) a
  h.putCells ((ks.zip a.toList).filterMap fun p =>
    if p.2.cover = 0 then none
    else some ⟨p.1, BitVec.ofNat 32 p.2.val, p.2.fresh || p.2.poison && p.2.cover < 32⟩)

/-! Masks. -/

/-- Bit `e` of a mask register; m0 is all true (R301). -/
def Hart.maskBit (h : Hart) (m : MReg) (e : Nat) : Bool := m == 0 || (h.masks[m]).testBit e

/-- The poisoned word of a mask that holds bit `e`. -/
def Hart.maskPoison (h : Hart) (m : MReg) (e : Nat) : Option PLoc :=
  if m != 0 && h.poison.contains (.mask m (e / 32)) then some (.mask m (e / 32)) else none

/-- The poisoned words of a mask. -/
def Hart.badWords (h : Hart) (m : MReg) : List Nat :=
  h.poison.filterMap fun p => match p with
    | .mask m' w => if m' = m then some w else none
    | .sreg _ | .vword _ | .scale _ | .cell _ | .queue _ _ | .mem _ | .spad _ => none

/-- Bits written to a mask, element by element. -/
def Hart.putMask (h : Hart) (m : MReg) (es : List (Nat × Bool)) : Hart :=
  { h with
    masks := h.masks.set m (es.foldl (fun n x => setBit n x.1 x.2) h.masks[m])
    poison := if h.poison.isEmpty then h.poison else
      h.poison.filter fun p => match p with
        | .mask m' w => m' != m || (List.range 32).any fun i => !(es.any fun x => x.1 == 32 * w + i)
        | .sreg _ | .vword _ | .scale _ | .cell _ | .queue _ _ | .mem _ | .spad _ => true }

/-- Whether element `e` is active under mask `m`, inverted under `f`, within the group of a block (R300, R35); or the
poisoned word of the mask that decides it. -/
def Hart.active (h : Hart) (m : MReg) (f : Bool) (e : Nat) : Except PLoc Bool :=
  if (match h.group with | some g => !g.contains e | none => false) then .ok false
  else match h.maskPoison m e with
    | some l => .error l
    | none => .ok (h.maskBit m e != (m != 0 && f))

/-! Shells and offsets. -/

/-- A shell entry (R50). -/
def Hart.shell (h : Hart) (r : VReg) (face : Nat) : Shell := lookupD .zero (6 * r.val + face) h.shells

/-- A coordinate (R41, R49). -/
structure Pt where
  x : Int
  y : Int
  z : Int
  deriving DecidableEq, Repr

/-- A component by axis 0, 1, 2. -/
def Pt.get (p : Pt) (a : Nat) : Int := match a with | 0 => p.x | 1 => p.y | _ => p.z

/-- A component replaced. -/
def Pt.set (p : Pt) (a : Nat) (v : Int) : Pt :=
  match a with | 0 => { p with x := v } | 1 => { p with y := v } | _ => { p with z := v }

/-- The extents of the field. -/
def Geo.extents (g : Geo) : Pt := ⟨g.gx * g.bx, g.gy * g.by_, g.gz * g.bz⟩

/-- The coordinate of an element (R41). -/
def Geo.coord (g : Geo) (e : Nat) : Pt :=
  let n := e / g.s
  let i := e % g.s
  ⟨(n % g.gx * g.bx + i % g.bx : Nat), (n / g.gx % g.gy * g.by_ + i / g.bx % g.by_ : Nat),
    (n / (g.gx * g.gy) * g.bz + i / (g.bx * g.by_) : Nat)⟩

/-- The element at a coordinate inside the field (R41). -/
def Geo.index (g : Geo) (p : Pt) : Nat :=
  let x := p.x.toNat
  let y := p.y.toNat
  let z := p.z.toNat
  (x / g.bx + g.gx * (y / g.by_ + g.gy * (z / g.bz))) * g.s
    + (x % g.bx + g.bx * (y % g.by_ + g.by_ * (z % g.bz)))

/-- Where a read ends: at an element of a register, at bits, at a shell trap, or at a link to another register (R52). -/
inductive SRead where
  | elem (u : VReg) (q : Pt)
  | bits (v : Word)
  | trap
  | link (t : VReg) (q : Pt)
  deriving DecidableEq, Repr

/-- The loop of shell_read over the axes (R52). -/
def shellLoop (h : Hart) (ext : Pt) (u : VReg) (linked : Bool) : List Nat → Pt → SRead
  | [], q => .elem u q
  | a :: as_, q =>
    let v := q.get a
    let f := ext.get a
    if 0 ≤ v ∧ v < f then shellLoop h ext u linked as_ q
    else
      match h.shell u (2 * a + (if v < 0 then 0 else 1)) with
      | .zero => .bits 0
      | .const c => .bits c
      | .trap => .trap
      | .edge => shellLoop h ext u linked as_ (q.set a (if v < 0 then 0 else f - 1))
      | .link t =>
        if linked then .bits 0
        else if h.nreg ≤ t.val then .trap
        else .link t (q.set a (if v < 0 then v + f else v - f))

/-- shell_read (R52). -/
def shellRead (h : Hart) (ext : Pt) (u : VReg) (q : Pt) : SRead :=
  match shellLoop h ext u false [0, 1, 2] q with
  | .link t q' => shellLoop h ext t true [0, 1, 2] q'
  | .elem u q' => .elem u q'
  | .bits v => .bits v
  | .trap => .trap

/-- A signed field of an OFS word, times the dilation of its axis (R46, R49). -/
def dilated (o : BitVec 4) (dm1 : Nat) : Int := o.toInt * (dm1 + 1)

/-- The displacement of the first source (R49). -/
def Hart.disp1 (h : Hart) (x : Stack) : Pt :=
  match x.ofs with
  | none => ⟨0, 0, 0⟩
  | some o =>
    let n := h.dil.toNat
    ⟨dilated o.dx1 (bitsOf n 7 0), dilated o.dy1 (bitsOf n 15 8), dilated o.dz1 (bitsOf n 23 16)⟩

/-- The displacement of the second source (R49). -/
def Hart.disp2 (h : Hart) (x : Stack) : Pt :=
  match x.ofs with
  | none => ⟨0, 0, 0⟩
  | some o =>
    let n := h.dil.toNat
    ⟨dilated o.dx2 (bitsOf n 7 0), dilated o.dy2 (bitsOf n 15 8), dilated o.dz2 (bitsOf n 23 16)⟩

/-- An OFS word holds a non-zero offset. -/
def Ofs.nonZero (o : Ofs) : Bool :=
  o.dx1 != 0 || o.dy1 != 0 || o.dz1 != 0 || o.dx2 != 0 || o.dy2 != 0 || o.dz2 != 0

/-- The offset of the OFS word from its form's address (R243). -/
def ofsAt (x : Stack) : Nat :=
  (if x.opm.isSome then 2 else 0) + (if x.memm.isSome then 2 else 0) + (if x.ext.isSome then 2 else 0)
    + (if x.crit then 4 else 0)

/-! Sources. -/

/-- A source of an element-wise instruction (R300): a register with a displacement, a load queue, or a scalar. -/
inductive Src where
  | reg (r : VReg) (o : Pt)
  | queue (q : Fin 4)
  | scalar (r : SReg)
  deriving DecidableEq, Repr

/-- The first source of a form: a register, or a queue under Q1. -/
def Hart.src1 (h : Hart) (x : Stack) (a : Fin 64) : Src :=
  if x.opm.any (·.q1) then .queue (Fin.ofNat 4 a.val) else .reg a (h.disp1 x)

/-- The second source of a form: a scalar in the VS form, a queue under Q2, or a register. -/
def Hart.src2 (h : Hart) (x : Stack) (b : Fin 64) (s : Bool) : Src :=
  if s then .scalar b else if x.opm.any (·.q2) then .queue (Fin.ofNat 4 b.val) else .reg b (h.disp2 x)

/-- The registers that reads of a source may end at (R52): the register, and those its shell links to. -/
def Hart.regsOf (h : Hart) : Src → List VReg
  | .reg r o =>
    if o = ⟨0, 0, 0⟩ then [r]
    else r :: (List.range 6).filterMap fun f => match h.shell r f with
      | .link t => if t.val < h.nreg then some t else none
      | .zero | .const _ | .edge | .trap => none
  | .queue _ => []
  | .scalar _ => []

/-- What reading a source at an element gives: a code, with the register and element it came from and, if it is poisoned, the
first poisoned word that it stands in and its poisoned words; or a shell trap. -/
inductive RRes where
  | code (c : Nat) (org : Option (VReg × Nat)) (poison : Option (PLoc × Bad))
  | shell
  deriving DecidableEq, Repr

/-- The operands of an instruction: the hart, the layout of the sources, the views of the registers read. -/
structure Env where
  h : Hart
  y : Layout
  views : List View
  deriving Repr

/-- The operands of an instruction that reads `srcs` in layout `y`. When an open instruction resumes, a source that is
its destination reads the value kept (R196). -/
def Hart.env (h : Hart) (y : Layout) (dst : Option VReg) (rs : List VReg) : Env :=
  let cells := fun r : VReg => match h.resume with
    | some o => if dst = some r then o.kept else h.regCells r
    | none => h.regCells r
  ⟨h, y, rs.eraseDups.map fun r => viewOf h.vgen (cells r) r y⟩

/-- An element of a register among the operands. -/
def Env.elem (v : Env) (r : VReg) (e : Nat) : RRes :=
  match v.views.find? (fun w => w.reg == r) with
  | some w =>
    let x := w.elem v.y e
    .code x.1 (some (r, e)) x.2
  | none => .code 0 none none

/-- An element of a source (R300, R52, R106); a scalar as the block's VFETCH found it (R35). -/
def Env.read (v : Env) (s : Src) (e : Nat) : RRes :=
  match s with
  | .scalar r => .code ((v.h.operand r).toNat % 2 ^ v.y.w) none (if v.h.operandPoison r then some (.sreg r, 3) else none)
  | .queue q =>
    match v.h.queues[q] with
    | [] => .code 0 none none
    | x :: _ =>
      let c := x.elems.getD e (0, 0)
      .code c.1 none (if c.2 = 0 then none else some (.queue q e, c.2))
  | .reg r o =>
    if o = ⟨0, 0, 0⟩ then v.elem r e
    else
      let g := v.h.geo
      let q := g.coord e
      match shellRead v.h g.extents r ⟨q.x + o.x, q.y + o.y, q.z + o.z⟩ with
      | .elem u q => v.elem u (g.index q)
      | .bits c => .code (c.toNat % 2 ^ v.y.w) none none
      | .trap => .shell
      | .link _ _ => .code 0 none none

/-! Scale entries. -/

/-- An entry of a scale register; a dead entry holds a free value (R66; DESIGN CHOICE, log entry 6). -/
def Hart.scale (h : Hart) (k : KReg) (j : Nat) : BitVec 8 :=
  let key := 2048 * k.val + j
  match h.scales.find? (fun p => p.1 == key) with
  | some p => p.2
  | none => Config.deadScale h.vgen key

/-- The poisoned word of a scale register that holds an entry. -/
def Hart.scalePoison (h : Hart) (k : KReg) (j : Nat) : Option PLoc :=
  let l := PLoc.scale (512 * k.val + j / 4)
  if h.poison.contains l then some l else none

/-- Entries of a scale register written. -/
def Hart.putScales (h : Hart) (k : KReg) (es : List (Nat × BitVec 8)) : Hart :=
  { h with
    scales := es.foldl (fun l e => insertKey (2048 * k.val + e.1) e.2 l) h.scales
    poison := if h.poison.isEmpty then h.poison else
      h.poison.filter fun p => match p with
        | .scale w => w / 512 != k.val || (List.range 4).any fun i => !(es.any fun e => e.1 == w % 512 * 4 + i)
        | .sreg _ | .vword _ | .mask _ _ | .cell _ | .queue _ _ | .mem _ | .spad _ => true }

/-- The scale register paired with a vector register (R66). -/
def pairK (r : VReg) : KReg := Fin.ofNat 8 r.val

/-! Load queues. -/

/-- The queues that a form consumes from (R106). -/
def queuesOf (a b : Src) : List (Fin 4) :=
  (match a with | .queue q => [q] | .reg _ _ => [] | .scalar _ => [])
    ++ (match b with | .queue q => if a = .queue q then [] else [q] | .reg _ _ => [] | .scalar _ => [])

/-- The registers that a field names: none when it names a queue or a scalar. -/
def Src.reg? : Src → List VReg
  | .reg r _ => [r]
  | .queue _ => []
  | .scalar _ => []

/-! Registers held off chip (R103, R105). -/

/-- The rank of a lane cluster among those held: its lanes are 8 * rank to 8 * rank + 7 (R32). -/
def Hart.rank (h : Hart) (l : Fin 8) : Nat := popCount l.val h.lcs.toNat

/-- The address of a word of a register in the backing area (R102). -/
def Hart.backingAt (h : Hart) (key : Nat) : Nat :=
  (h.vbase &&& ~~~4095).toNat + key / 8192 * (0x20000 / h.nreg) + key / 128 % 64 * (2048 / h.nreg) + 4 * (key % 128)

/-- The live words of a register in a lane cluster. -/
def Hart.liveIn (h : Hart) (r : VReg) (l : Fin 8) : List VCell :=
  (h.regCells r).filter fun c => c.key / 128 % 64 / 8 == h.rank l

/-- Refills a register (R103): the words of its off-chip lane clusters are read from the backing area; or what stops
the refill, which the naming instruction meets. -/
def refillWords (s : State) (r : VReg) : List VCell → Except Res (List VCell)
  | [] => .ok []
  | c :: cs =>
    match probe s { needRead with kind := .normalOnly, w := true } (s.h.backingAt c.key) 4 4 with
    | .bad _ => .error (.trap s (wholeTrap cBacking (wd r.val)))
    | .ok p =>
      (refillWords s r cs).map fun l =>
        { c with
          val := BitVec.ofNat 32 (bytesNat (s.mem.readBytes s.h.core p.pa 4))
          poison := s.mem.readPoison s.h.core p.pa } :: l
    | .wait => .error (.wait s .retry)
    | .poisoned w => .error (consume s (.mem w) 0 0 none)

/-- Refills a register that an instruction names. -/
def refill (s : State) (r : VReg) : Except Res State :=
  let lcs := s.h.offChip.filter fun p => p.1 == r
  if lcs.isEmpty then .ok s
  else
    match refillWords s r (lcs.flatMap fun p => s.h.liveIn r p.2) with
    | .ok cs =>
      .ok (s.modH fun h => { h.putCells cs with offChip := h.offChip.filter fun p => p.1 != r })
    | .error e => .error e

/-- Refills the registers that an instruction names. -/
def refillAll (s : State) : List VReg → Except Res State
  | [] => .ok s
  | r :: rs =>
    match refill s r with
    | .ok s => refillAll s rs
    | .error e => .error e

/-- Writes live words of a register of a hart to the backing area; `.error false` when the write-back faults (R103),
`.error true` behind a link that retrains. -/
def writeBackWords (s : State) (h : Hart) (m : Mem) : List VCell → Except Bool Mem
  | [] => .ok m
  | c :: cs =>
    match probeAt s { needWrite with kind := .normalOnly, r := true } (.tlb h.core) h.core h.cid (s.spqOf h.gang)
        (h.backingAt c.key) 4 4 with
    | .ok p => writeBackWords s h (m.store h.core h.cid h.inc p.skew p.pa (natToBytes 4 c.val.toNat) c.poison) cs
    | .bad _ => .error false
    | .wait => .error true
    | .poisoned _ => .error false

/-- Writes back every live register of a lane cluster of a hart (R103): memory, and the registers then off chip. -/
def writeBackLc (s : State) (h : Hart) (l : Fin 8) : Except Bool (Mem × List (VReg × Fin 8)) :=
  let rs := ((List.range h.nreg).map fun n => (Fin.ofNat 64 n : VReg)).filter fun r =>
    !(h.liveIn r l).isEmpty && !h.offChip.contains (r, l)
  (writeBackWords s h s.mem (rs.flatMap fun r => h.liveIn r l)).map fun m => (m, rs.map fun r => (r, l))

/-- The power states of a core. -/
def State.coreOf (s : State) (c : CoreId) : Core := (s.cores.find? (fun k => k.id == c)).getD (.reset c)

/-- Changes what belongs to a core. -/
def State.modCore (s : State) (c : CoreId) (f : Core → Core) : State :=
  if s.cores.any (fun k => k.id == c) then { s with cores := updateWhere (fun k => k.id == c) f s.cores }
  else { s with cores := s.cores ++ [f (.reset c)] }

/-- An access wakes the lane clusters of its hart (R105). -/
def State.wakeLanes (s : State) : State :=
  if s.h.lcs = 0 then s
  else s.modCore s.h.core fun k =>
    { k with power := (List.finRange 8).foldl (fun (p : Vector Power 8) (l : Fin 8) => if s.h.lcs.getLsbD l.val then p.set l .on else p) k.power }

/-! Checked execution. -/

/-- Takes the first upset of a kind. DESIGN CHOICE, log entry 8. -/
def takeUpset (p : Upset → Bool) (s : State) : Option (Upset × State) :=
  (s.upsets.find? p).map fun u => (u, { s with upsets := s.upsets.erase u })

/-- CHK.MCNT grows by `n` and saturates (R209). -/
def Hart.countMismatch (h : Hart) (n : Nat) : Hart := { h with mcnt := BitVec.ofNat 16 (Nat.min 0xFFFF (h.mcnt.toNat + n)) }

/-- Upsets that meet an instruction run twice. -/
def Upset.ofPair : Upset → Bool
  | .mismatch | .outvoted _ _ _ | .split _ _ => true
  | .matrixOnce | .matrixTwice | .criticalOutvoted _ | .criticalSplit _ _ => false

/-- Upsets that meet an instruction run three times. -/
def Upset.ofTriple : Upset → Bool
  | .criticalOutvoted _ | .criticalSplit _ _ => true
  | .mismatch | .outvoted _ _ _ | .split _ _ | .matrixOnce | .matrixTwice => false

/-- A disagreement that no run settles (R211, R213): DETAIL of its data error, the stripe at which it stands, and the lowest
element of the group or of the word that disagrees. -/
structure Split where
  detail : Nat
  stripe : Nat
  elem : Nat
  deriving DecidableEq, Repr

/-- An instruction left open at stripe `k` (R195), with the values kept of its destinations; none in a block (R198). An
instruction that resumes keeps what it kept (R196). -/
def Hart.openAt (h : Hart) (i : Instr) (d : Option VReg) (m : Option MReg) (frees : List (Fin 4)) (purse k : Nat) :
    Option OpenInstr :=
  if h.group.isSome then none
  else
    match h.resume with
    | some o => some { o with stripe := k, frees := frees, purse := purse }
    | none =>
      some { pc := h.pc, instr := i, stripe := k
             kept := match d with | some r => h.regCells r | none => []
             keptMask := match m with | some r => h.masks[r] | none => 0
             keptBad := match m with | some r => h.badWords r | none => []
             frees := frees, purse := purse }

/-- The stripe at which an instruction starts: that of its resumption, or 0 (R196). -/
def Hart.firstStripe (h : Hart) : Nat := (h.resume.map (·.stripe)).getD 0

/-- The data error of a disagreement in an instruction that is no plan over elements: at its stripe, or the last one; one that
writes no register and no mask has a single stripe. `part` commits the stripes below it. -/
def splitTrap (i : Instr) (p : Split) (d : Option VReg) (m : Option MReg) (part : Nat → Hart → Hart) (s : State) : Res :=
  let k := if d.isNone && m.isNone then 0 else Nat.max s.h.firstStripe (Nat.min p.stripe (s.h.layout.stripes - 1))
  .trap (s.modH (part k))
    { code := cData, detail := p.detail, stripe := k
      val := if s.h.group.isSome then s.h.blockVal else wd p.elem
      opened := s.h.openAt i d m [] 0 k }

/-- Retires a lane cluster under checked execution (R211): its registers are written back, the spare takes its logical
number, and a report of KIND 7 is sent; none behind a link that retrains. A write-back that faults is not made (R103). The spare
takes over the values written back at once, so that no register stands off chip while the instruction goes on: DESIGN CHOICE,
log entry 8. -/
def retireLc (l : Fin 8) (s : State) : Option State :=
  let go := fun s : State => (s.modCore s.h.core fun k => { k with spUsed := true, retLc := l }).report
    { kind := 7, cid := s.h.cid, inc := s.h.inc, addr := wd l.val, master := hartMaster s.h.core s.h.ctx
      gang := gangWord s.h.gang s.h.index }
  match writeBackLc s s.h l with
  | .ok (m, _) => some (go { s with mem := m })
  | .error false => some (go s)
  | .error true => none

/-- Runs a vector instruction under checked execution or triple issue (R210, R211, R213), which tell its body of a
disagreement that no run settles. -/
def checked (i : Instr) (body : Option Split → State → Res) (s : State) : Res :=
  if i.stack.crit then
    match takeUpset Upset.ofTriple s with
    | some (.criticalOutvoted n, s) => body none (s.modH fun h => h.countMismatch n)
    | some (.criticalSplit k e, s) => body (some ⟨3, k, e⟩) s
    | some (.mismatch, s) | some (.outvoted _ _ _, s) | some (.split _ _, s) | some (.matrixOnce, s)
    | some (.matrixTwice, s) => body none s
    | none => body none s
  else if s.h.chkEn then
    match takeUpset Upset.ofPair s with
    | some (.mismatch, s) => body none (s.modH fun h => h.countMismatch 1)
    | some (.outvoted l k e, s1) =>
      let s1 := s1.modH fun h => h.countMismatch 2
      if (s1.coreOf s1.h.core).spUsed then body (some ⟨2, k, e⟩) s1
      else match retireLc l s1 with
        | some s1 => body none s1
        | none => .wait s .retry
    | some (.split k e, s) => body (some ⟨2, k, e⟩) (s.modH fun h => h.countMismatch 2)
    | some (.matrixOnce, s) | some (.matrixTwice, s) | some (.criticalOutvoted _, s) | some (.criticalSplit _ _, s) =>
      body none s
    | none => body none s
  else body none s

/-- The same for an instruction that is no plan over elements. `part k` commits its stripes below `k`. -/
def checkedWhole (i : Instr) (d : Option VReg) (m : Option MReg) (body : State → Res) (s : State)
    (part : Nat → Hart → Hart := fun _ h => h) : Res :=
  checked i (fun p s => match p with
    | none => body s
    | some p => splitTrap i p d m part s) s

/-- A scalar instruction under CRIT (R213). -/
def voted (x : Stack) (body : State → Res) (s : State) : Res :=
  if x.crit then
    match takeUpset Upset.ofTriple s with
    | some (.criticalOutvoted n, s) => body (s.modH fun h => h.countMismatch n)
    | some (.criticalSplit _ _, s) => .trap s { code := cData, detail := 3 }
    | some (.mismatch, s) | some (.outvoted _ _ _, s) | some (.split _ _, s) | some (.matrixOnce, s)
    | some (.matrixTwice, s) => body s
    | none => body s
  else body s

/-- What every vector instruction is held to before its first stripe: its formats (R59), the registers that it names (R29),
its masks (R301), the OFS rule of a bit-sliced format (R47), an entry in every queue that it consumes from (R107); then the
registers that it names, and those that its reads reach through links, are refilled (R103) and its lane clusters woken
(R105). -/
def legalReads (x : Stack) (fmtOk : Bool) (regs reached : List VReg) (masks : List MReg) (qs : List (Fin 4))
    (body : State → Res) (s : State) : Res :=
  if isSliced s.h.fmt && x.ofs.any Ofs.nonZero then .trap s { code := cPrefixUnit, unit := ofsAt x }
  else if !fmtOk || regs.any (fun r => s.h.nreg ≤ r.val) || s.h.vl > 65536 && masks.any (· != 0)
      || qs.any (fun q => s.h.queues[q].isEmpty) then illegal s
  else match refillAll s (regs ++ reached) with
    | .error r => r
    | .ok s => body s.wakeLanes

/-- The same for an instruction that reads no shell and no queue. -/
def legalVec (x : Stack) (fmtOk : Bool) (regs : List VReg) (masks : List MReg) (body : State → Res) (s : State) : Res :=
  legalReads x fmtOk regs [] masks [] body s

end Sys2Proof.Machine
end

