-- ==== Sys2Proof/Machine/Access.lean ====
section
/-! DEFINITION. Accesses of a hart: reads and writes at a physical place, engine transfers and their interlock (R119,
R120), acquire and release (R128, R158), device registers (R222, R231), the backing area (R104). -/

namespace Sys2Proof.Machine

/-! Device registers. -/

/-- What a read of a device register returns; the write-only registers OP and MEXT read as 0. -/
def Sys.devRead (y : Sys) (off : Nat) : Word :=
  if off = 0x10030 ∨ off < 0x10000 ∧ off % 0x1000 = 0 then 0
  else if 0x10040 ≤ off && off < 0x101C0 then
    let i := (off - 0x10040) / 48
    wd (bytesNat (((natToBytes 48 (lookupD 0 i y.mregs).toNat).drop ((off - 0x10040) % 48)).take 8))
  else y.dev off

/-! The backing areas of placed harts (R104). -/

/-- The harts that are placed. -/
def State.harts (s : State) : List Hart := (s.h :: s.rest).filter fun h => h.status != .absent

/-- `n` bytes at a virtual address of a context meet the backing area of a placed hart. -/
def Hart.backs (h : Hart) (cid : BitVec 12) (va n : Nat) : Bool :=
  let base := (h.vbase &&& ~~~4095).toNat
  h.status != .absent && h.cid == cid && va < base + 0x20000 && base < va + n

/-- The bytes lie in some backing area, as the context of the hart in focus maps it. -/
def State.inBacking (s : State) (va n : Nat) : Bool := s.harts.any fun h => h.backs s.h.cid va n

/-! Physical places. -/

/-- The key by which monitors and interlocks name a place: scratchpads stand above the physical map. -/
def Phys.key (p : Phys) (c : CoreId) : Nat := if p.spad then 2 ^ 60 + spadAt c p.pa else p.pa

/-- Bytes of a place as a hart of core `c` reads them, and whether some word of them is poisoned. A home declared failed
answers poisoned data (R150). Where mappings of a granule differ in SKEW, any value ever written may be read: the model
returns the latest (R184, DESIGN CHOICE, log entry 49). -/
def State.readPhys (s : State) (c : CoreId) (p : Phys) (n : Nat) : List Byte × Option PLoc :=
  if p.spad then
    let a := spadAt c p.pa
    (s.mem.spad.getN unlisted a n,
      ((List.range n).find? fun i => s.mem.spadPoison.contains (wordAt (a + i))).map fun i => .spad (wordAt (a + i)))
  else if homeAgent p.pa == some .device then (natToBytes n (s.sys.devRead (p.pa - devBase)).toNat, none)
  else if s.sys.homeLost p.pa && (s.mem.reg p.pa).isNone then (s.freeBytes p.pa n, some (.mem (wordAt p.pa)))
  else if s.backed p.pa n then (s.freeBytes p.pa n, none)
  else if p.dev then
    (s.mem.curBytes p.pa n,
      ((List.range n).find? fun i => s.mem.curPoison (p.pa + i)).map fun i => .mem (wordAt (p.pa + i)))
  else
    (s.mem.readBytes c p.pa n,
      ((List.range n).find? fun i => s.mem.readPoison c (p.pa + i)).map fun i => .mem (wordAt (p.pa + i)))

/-- Bytes at the point of coherence of a place, for an atomic at its home (R161). -/
def State.curPhys (s : State) (c : CoreId) (p : Phys) (n : Nat) : List Byte × Option PLoc :=
  if p.spad then s.readPhys c p n
  else if s.sys.homeLost p.pa then (s.freeBytes p.pa n, some (.mem (wordAt p.pa)))
  else if s.backed p.pa n then (s.freeBytes p.pa n, none)
  else
    (s.mem.curBytes p.pa n,
      ((List.range n).find? fun i => s.mem.curPoison (p.pa + i)).map fun i => .mem (wordAt (p.pa + i)))

/-- Changes the hart that stands where `h` stands. -/
def State.updH (s : State) (h : Hart) (f : Hart → Hart) : State :=
  let g := fun k : Hart => if k.at h.core h.ctx then f k else k
  { s with h := g s.h, rest := s.rest.map g }

/-- A write of a hart at a place: to its core's scratchpad (R110), to a device register (R231), to a home that has failed
(R150: dropped, and recorded at a later fence, R166), as a PT store (R186), to a page of the kind device, which is never
registered (R178), or to normal memory (R126). Of the agents lost between two fences the last one is remembered: DESIGN
CHOICE, log entry 48. -/
def State.writePhys (s : State) (h : Hart) (p : Phys) (bytes : List Byte) (poison : Bool) : State :=
  let s1 :=
    if p.spad then s.modMem fun m => m.spadPutAll poison (spadAt h.core p.pa) bytes
    else if homeAgent p.pa == some .device then s.post (.deviceRegisterWrite (p.pa - devBase) (wd (bytesNat bytes)))
    else if s.sys.homeLost p.pa then s.updH h fun k => { k with lost := some (s.sys.lossCode p.pa) }
    else s.intoBacking p.pa bytes fun s bytes =>
      if p.pt then
        (s.updH h fun k => { k with ptStores := k.ptStores + 1 }).modMem fun m =>
          ((m.takeBackN p.pa bytes.length).homeApply (writerOf h.core) true p.pa bytes poison).dropPiece h.core p.pa
      else if p.dev then s.modMem fun m => m.agentWrite false p.pa bytes poison (writerOf h.core)
      else s.modMem fun m => m.store h.core h.cid h.inc p.skew p.pa bytes poison
  s1.noteWrite (p.key h.core) bytes.length

/-- A read-modify-write reaches the home of its address (R161): the home takes back the registrations, and the issuing
core drops its copies of the piece. -/
def State.atHome (s : State) (h : Hart) (p : Phys) (n : Nat) : State :=
  if p.spad || s.sys.homeLost p.pa then s else s.modMem fun m => (m.takeBackN p.pa n).dropPiece h.core p.pa

/-- A write that an atomic makes at its home (R161). -/
def State.writeHome (s : State) (h : Hart) (p : Phys) (bytes : List Byte) (poison : Bool) : State :=
  let s := s.atHome h p bytes.length
  if p.spad || p.pt || s.sys.homeLost p.pa then s.writePhys h p bytes poison
  else
    (s.intoBacking p.pa bytes fun s bytes =>
      s.modMem fun m => m.homeApply (writerOf h.core) false p.pa bytes poison).noteWrite p.pa bytes.length

/-! Engine transfers (R117, R119, R162). -/

/-- Multiplies a value by a power of two. -/
def FVal.shift (v : FVal) (k : Int) : FVal :=
  match v with
  | .fin n m e => .fin n m (e + k)
  | .inf n => .inf n
  | .nan q => .nan q

/-- An element added at its home (R82): a float add rounded once under RNE without flushing, or an add modulo 2^w. -/
def addAtHome (f src : Fmt) (k old new : Nat) : Nat :=
  if isFloat f then (deliver f .rne false (addF .rne (decodeF f old) ((decodeF src new).shift (k - 127))).1).1
  else (old + new) % 2 ^ width f

/-- Performs one element of a transfer for a hart. Where one word alone of 8 bytes is poisoned, each word goes with its own
poison (R206). -/
def performElem (h : Hart) (s : State) : XElem → State
  | .skip => s
  | .put dst bytes p => s.writePhys h dst bytes p
  | .copy src dst n =>
    let r := s.readPhys h.core src n
    let lo := (s.readPhys h.core src 4).2.isSome
    let hi := (s.readPhys h.core { src with pa := src.pa + 4 } 4).2.isSome
    if n = 8 && lo != hi then
      (s.writePhys h dst (r.1.take 4) lo).writePhys h { dst with pa := dst.pa + 4 } (r.1.drop 4) hi
    else s.writePhys h dst r.1 r.2.isSome
  | .add dst f src code k p =>
    let n := fmtBytes f
    let r := s.curPhys h.core dst n
    s.writeHome h dst (natToBytes n (addAtHome f src k (bytesNat r.1) code)) (p || r.2.isSome)

/-- Adds to a progress word at its home, atomically (R115). -/
def addProgress (h : Hart) (s : State) (p : Phys) (n : Nat) : State :=
  if n = 0 then s
  else
    let r := s.curPhys h.core p 8
    s.writeHome h p (natToBytes 8 ((bytesNat r.1 + n) % 2 ^ 64)) r.2.isSome

/-- The width of a scope: 0 for .hart to 5 for .sys. -/
def scopeRank : Scope → Nat
  | .hart => 0
  | .core => 1
  | .pod => 2
  | .die => 3
  | .dev => 4
  | .sys => 5

/-- A lost write recorded in FST (Table 8-6). -/
def Hart.recordLoss (h : Hart) : Hart :=
  match h.lost with
  | none => h
  | some l =>
    { h with lost := none
             fst := if h.fst.getLsbD 63 then h.fst ||| wd (2 ^ 62)
                    else (h.fst &&& ~~~(0xFFFFFFF : Word)) ||| l.setWidth 64 ||| wd (2 ^ 63) }

/-- A fence, a release or an EXIT at .dev or wider that finds a lost write of its hart records it in FST (R166). -/
def State.recordLoss (s : State) : State := s.modH Hart.recordLoss

/-- The progress add of a transfer, behind what it covers, as a release at its scope (R115, R158). -/
def notifyXfer (h : Hart) (s : State) (n : Notify) (count : Nat) : State :=
  let s := if 4 ≤ scopeRank n.scope then (s.modMem fun m => m.flush h.core).updH h Hart.recordLoss else s
  addProgress h s n.at_ count

/-- Performs a whole transfer, and then its progress adds. -/
def performXfer (h : Hart) (s : State) (x : Xfer) : State :=
  let s := x.elems.foldl (performElem h) s
  match x.notify with
  | none => s
  | some n => notifyXfer h s n (n.pending + x.elems.length)

/-- The home applies what every core has registered, which stays registered (R126). -/
def Mem.flushAll (m : Mem) : Mem :=
  m.regd.foldl (fun m r => m.homeApply (writerOf r.core) false r.pa (natToBytes 4 r.val.toNat) r.poison) m

/-- Once no transfer holds an element, every access translated so far is performed at .sys, and every translation agent drops
what it holds and acknowledges: the writes of every hart to tables have completed (R167, R185). -/
def State.settle (s : State) : State :=
  let s := s.modMem fun m => { m.flushAll with transl := [], ptrs := [], unacked := false }
  let done := fun h : Hart => { h with ptStores := 0 }
  { s with h := done s.h, rest := s.rest.map done }

/-- The transfers of a hart that its queue still performs; those of a frozen queue are dropped (R214). -/
def State.thawed (s : State) (h : Hart) : List Xfer := h.xfers.filter fun x => !(x.kind.engine && s.engineFrozen h)

/-- Performs the elements of the outstanding transfers of a hart; their progress adds are still owed. -/
def State.performOf (s : State) (h : Hart) : State :=
  if h.xfers.isEmpty then s
  else
    ((s.thawed h).foldl (fun s x => x.elems.foldl (performElem h) s) s).updH h fun k =>
      { k with xfers := (s.thawed h).map fun x =>
          { x with elems := [], notify := x.notify.map fun n => { n with pending := n.pending + x.elems.length } } }

/-- Makes the progress adds that a hart owes, each behind the writes to tables that a release at .dev or wider waits for. -/
def State.payOf (s : State) (h : Hart) : State :=
  if h.xfers.isEmpty then s
  else
    (h.xfers.foldl (fun s x => match x.notify with
      | none => s
      | some n => notifyXfer h (if 4 ≤ scopeRank n.scope then s.settle else s) n n.pending) s).updH h fun k => { k with xfers := [] }

/-- Every transfer of every hart is performed, and with them the writes to tables have completed; the progress adds follow
(R115, R167, R185). -/
def State.completeAll (s : State) : State :=
  let s := (s.harts.foldl State.performOf s).settle
  if s.harts.any (fun h => !h.xfers.isEmpty) then (s.harts.foldl State.payOf s).settle else s

/-- The writes of the hart in focus to tables complete (R167, R185). -/
def State.completePt (s : State) : State := if s.h.ptStores = 0 && !s.mem.unacked then s else s.completeAll

/-- A transfer adds to a progress word as a release at .dev or wider. -/
def Xfer.releases (x : Xfer) : Bool := x.notify.any fun n => 4 ≤ scopeRank n.scope

/-- Performs the outstanding transfers of a hart in order (R119). A progress add that is a release at .dev or wider waits for
the hart's writes to tables (R115, R158, R167). -/
def State.drainOf (s : State) (h : Hart) : State :=
  if h.xfers.isEmpty then s
  else if h.xfers.any (·.releases) && s.owesAcks h then s.completeAll
  else ((s.thawed h).foldl (performXfer h) s).updH h fun k => { k with xfers := [] }

/-- Performs the outstanding transfers of every hart that satisfies `p`, as they stand when its turn comes. -/
def State.drainWhere (p : Hart → Bool) (s : State) : State :=
  (s.harts.filter p).foldl (fun (s : State) (h : Hart) => match s.harts.find? (·.at h.core h.ctx) with
    | some k => s.drainOf k
    | none => s) s

/-- Performs every outstanding transfer of the hart in focus (R119, R120, R162). -/
def State.drain (s : State) : State := s.drainOf s.h

/-- A hart waits for transfers that cannot be performed now: its own, and those of every hart while it owes for a write to
tables (R166, R167, R185). -/
def State.stuckFor (s : State) (h : Hart) : Bool := s.stuckOf h || s.owesAcks h && s.harts.any s.stuckOf

/-- Two places overlap. -/
def overlaps (c : CoreId) (p : Phys) (n : Nat) (q : Phys × Nat) : Bool :=
  p.key c < q.1.key c + q.2 && q.1.key c < p.key c + n

/-- Waits for the transfers that an access of `n` bytes at a place overlaps, by performing them (R120): a read waits for
what is written, a write for what is read or written. -/
def State.interlock (s : State) (write : Bool) (p : Phys) (n : Nat) : State :=
  if s.h.xfers.any fun x => x.elems.any fun e =>
      (e.writes ++ (if write then e.reads else [])).any (overlaps s.h.core p n) then s.drain
  else s

/-- The same for an element at a virtual address, whose bytes may lie in two pages (R155, R179). -/
def State.interlockElem (s : State) (write : Bool) (next : State → Nat → Phys → Phys) (va : Nat) (p : Phys) (n : Nat) :
    State :=
  let k := 4096 - va % 4096
  if n ≤ k then s.interlock write p n
  else
    let s := s.interlock write p k
    s.interlock write (next s (va + k) p) (n - k)

/-- The slice of a core's die that homes or proxies an address under the SKEW of its page (R125, R183). -/
def State.sliceOf (s : State) (c : CoreId) (skew : Fin 3) (pa : Nat) : Fin 512 :=
  sliceFor s.sys.hmask[dieOf c] (dieOf c) skew.val pa

/-- Bytes of a range at the point of coherence, with their poison, as a multicast entry gathers them (R135). -/
def State.gather (s : State) (key : McKey) : List (Nat × Byte × Bool) :=
  (List.range key.len).flatMap fun i => (List.range key.esize).map fun j =>
    let pa := key.base + i * key.stride + j
    if s.sys.homeLost pa && (s.mem.reg pa).isNone then (pa, Config.freeByte s.tick pa, true)
    else if s.backed pa 1 then (pa, Config.freeByte s.tick pa, false)
    else (pa, s.mem.curByte pa, s.mem.curPoison pa)

/-! Acquire and release. -/

/-- A release at a scope (R158, R162): transfers of the hart are performed; at .dev or wider its core's registered words
are applied at their homes. DEDUCED, log entry 28. -/
def State.release (s : State) (sc : Scope) : State :=
  let s := s.drain
  if 4 ≤ scopeRank sc then (s.modMem fun m => m.flush s.h.core).completePt.recordLoss else s

/-- An acquire at a scope (R128): at .pod or wider the core's unregistered copies are dropped. -/
def State.acquire (s : State) (sc : Scope) : State :=
  if 2 ≤ scopeRank sc then s.modMem fun m => m.selfInvalidate s.h.core else s

/-! Scalar accesses (R273). -/

/-- A scalar access of `n` bytes at an exact address: probed, then made by `k`; a fault traps with TVAL 0. -/
def scalarAt (need : Need) (a : Int) (n align : Nat) (k : Phys → State → Res) (s : State) : Res :=
  match probe s need a n align with
  | .bad c => .trap s (wholeTrap c)
  | .wait => .wait s .retry
  | .poisoned w => consume s (.mem w) 0 0 none
  | .ok p => k p (s.interlock need.w p n)

/-- The place of the bytes of an element behind a page boundary, once the probe of the element has passed. -/
def State.nextPage (s : State) (va : Nat) (p : Phys) : Phys :=
  match probe s ⟨false, false, false, .withDevice⟩ va 1 1 with
  | .ok q => q
  | .bad _ => p
  | .wait => p
  | .poisoned _ => p

/-- Bytes that a hart loads from a place at a virtual address; an element may cross a page (R179). -/
def State.loadBytes (s : State) (va : Nat) (p : Phys) (n : Nat) : List Byte × Option PLoc :=
  if s.inBacking va n then (s.freeBytes va n, none)
  else
    let k := 4096 - va % 4096
    if n ≤ k then s.readPhys s.h.core p n
    else
      let a := s.readPhys s.h.core p k
      let b := s.readPhys s.h.core (s.nextPage (va + k) p) (n - k)
      (a.1 ++ b.1, a.2 <|> b.2)

/-- A store of a hart at a virtual address (R104): into a backing area it leaves unspecified values there and in the
vector registers of the hart that owns it. -/
def State.storeBytes (s : State) (va : Nat) (p : Phys) (bytes : List Byte) (poison : Bool) : State :=
  let put := fun (s : State) (bytes : List Byte) (poison : Bool) =>
    let k := 4096 - va % 4096
    if bytes.length ≤ k then s.writePhys s.h p bytes poison
    else
      let s1 := s.writePhys s.h p (bytes.take k) poison
      s1.writePhys s1.h (s.nextPage (va + k) p) (bytes.drop k) poison
  if s.inBacking va bytes.length then
    let cid := s.h.cid
    let kill := fun h : Hart => if h.backs cid va bytes.length then { h with vregs := [], vgen := h.vgen + 1 } else h
    let s1 := { s with h := kill s.h, rest := s.rest.map kill }
    put s1 (s.freeBytes va bytes.length) false
  else put s bytes poison

end Sys2Proof.Machine
end

