-- ==== Sys2Proof/Machine/Scalar.lean ====
section
/-! DEFINITION. The scalar instructions of classes 000 and 001, the compressed instructions, and the scalar atomics of
class 110 (R266, R267, R272 to R279, R283, R284, R294, R296 to R299, R303, R304, R309). -/

namespace Sys2Proof.Machine

/-! Shared operations. -/

/-- A scalar register operation (R272): it reads `rs`, writes `d`, and advances. With sd = s0 it is a hint (R267), which
reads nothing and traps on nothing. -/
def alu (i : Instr) (d : SReg) (rs : List SReg) (f : Hart → Word) (s : State) : Out :=
  issue i (fun s =>
    if d = 0 then .done s
    else (voted i.stack <| withClean rs fun s => .done (s.writeS d (f s.h))) s) s

/-- A branch (R283): to the form's address plus `off`, when taken. -/
def branch (i : Instr) (rs : List SReg) (c : Hart → Bool) (off : Word) (s : State) : Out :=
  issue i (withClean rs fun s => if c s.h then .jump s (s.h.pc + off) else .done s) s

/-- Bytes of an access size (R273). -/
def szBytes : Sz → Nat
  | .b => 1
  | .h => 2
  | .w => 4
  | .d => 8

/-- An n-byte value read, sign-extended (R296). -/
def sextBytes (bs : List Byte) : Word := BitVec.ofInt 64 (signedOf (8 * bs.length) (bytesNat bs))

/-- A scalar load (R273, R296) of `n` bytes at s[a] plus a displacement. `pre` comes between the probe and the read. -/
def loadBody (pre : State → State) (d a : SReg) (off : Int) (n : Nat) : State → Res :=
  withClean [a] fun s =>
    let va : Int := s.readN a + off
    scalarAt needLd va n n (fun p s =>
      let s := pre s
      let b := s.loadBytes va.toNat p n
      .done (s.writeSP d (sextBytes b.1) b.2.isSome)) s

/-- A scalar store (R273, R309): the low `n` bytes of s[d], with its poison. `pre` comes between the probe and the write.
-/
def storeBody (pre : State → State) (d a : SReg) (off : Int) (n : Nat) : State → Res :=
  withClean [a] fun s =>
    let va : Int := s.readN a + off
    scalarAt needSt va n n (fun p s =>
      .done ((pre s).storeBytes va.toNat p (natToBytes n (s.readN d)) (s.h.sPoison d))) s

/-- The acquire that a memory modifier asks for (R262). -/
def acqOf (x : Stack) (s : State) : State :=
  match x.memm with
  | some m => if m.sem = .acq ∨ m.sem = .acqrel then s.acquire m.scope else s
  | none => s

/-- The release that a memory modifier asks for (R262). -/
def relOf (x : Stack) (s : State) : State :=
  match x.memm with
  | some m => if m.sem = .rel ∨ m.sem = .acqrel then s.release m.scope else s
  | none => s

/-- A read-modify-write at the home (R161, R278, R284): `f` gives the new value, or none where nothing is written. The
old value, with its poison, goes to sd; a poisoned old value poisons what is written (R206). DEDUCED, log entry 27. -/
def atomicBody (x : Stack) (d a : SReg) (rs : List SReg) (n : Nat) (f : Hart → Nat → Option Nat) : State → Res :=
  withClean (a :: rs) fun s =>
    let va := s.readN a
    scalarAt needAtomic va n n (fun p s =>
      let s := (relOf x s).atHome s.h p n
      let b := if s.inBacking va n then (s.freeBytes va n, none) else s.curPhys s.h.core p n
      let s1 := match f s.h (bytesNat b.1) with
        | none => s
        | some v =>
          if s.inBacking va n then s.storeBytes va p (natToBytes n v) false
          else s.writeHome s.h p (natToBytes n v) b.2.isSome
      .done (acqOf x (s1.writeSP d (sextBytes b.1) b.2.isSome))) s

/-- The new value of an AMO on codes of width `w` (R278). -/
def amoNew (o : AmoOp) (w old b : Nat) : Nat :=
  match o with
  | .add => (old + b) % 2 ^ w
  | .and => old &&& b
  | .or => old ||| b
  | .xor => old ^^^ b
  | .min => if signedOf w b < signedOf w old then b else old
  | .max => if signedOf w old < signedOf w b then b else old
  | .minn => if b < old then b else old
  | .maxn => if old < b then b else old
  | .swap => b

/-- The immediate of the I-form, with IMMX (R276, R259). -/
def immOf (x : Stack) (im : BitVec 12) : Word :=
  match x.immx with
  | some p => (p ++ im).signExtend 64
  | none => im.signExtend 64

/-- s0 to s31 of a 5-bit field (R266). -/
def r32 (r : Fin 32) : SReg := Fin.ofNat 64 r.val

/-- s8 to s15 of a 3-bit field (R266). -/
def r8 (r : Fin 8) : SReg := Fin.ofNat 64 (8 + r.val)

/-- A truth value as 1 or 0. -/
def wordOf (b : Bool) : Word := if b then 1 else 0

/-! The results of Tables 14-2 and 15-3. -/

/-- DIV (R275). -/
def divS (a b : Word) : Word :=
  if b = 0 then BitVec.allOnes 64 else BitVec.ofInt 64 (Int.tdiv a.toInt b.toInt)

/-- DIVN (R275). -/
def divU (a b : Word) : Word := if b = 0 then BitVec.allOnes 64 else wd (a.toNat / b.toNat)

/-- REM (R303). -/
def remS (a b : Word) : Word := if b = 0 then a else BitVec.ofInt 64 (Int.tmod a.toInt b.toInt)

/-- REMN (R303). -/
def remU (a b : Word) : Word := if b = 0 then a else wd (a.toNat % b.toNat)

/-! The meanings. -/

/-- The result of ADD (R275). -/
def addVal (a b : Word) : Word := a + b

/-- ADD (R275). -/
def execAdd (x : Stack) (d a b : SReg) (s : State) : Out :=
  alu (.add x d a b) d [a, b] (fun h => addVal (h.sreg a) (h.sreg b)) s

/-- The result of SUB (R303). -/
def subVal (a b : Word) : Word := a - b

/-- SUB (R303). -/
def execSub (x : Stack) (d a b : SReg) (s : State) : Out :=
  alu (.sub x d a b) d [a, b] (fun h => subVal (h.sreg a) (h.sreg b)) s

/-- The result of AND (R275). -/
def andVal (a b : Word) : Word := a &&& b

/-- AND (R275). -/
def execAnd (x : Stack) (d a b : SReg) (s : State) : Out :=
  alu (.and x d a b) d [a, b] (fun h => andVal (h.sreg a) (h.sreg b)) s

/-- The result of OR (R303). -/
def orVal (a b : Word) : Word := a ||| b

/-- OR (R303). -/
def execOr (x : Stack) (d a b : SReg) (s : State) : Out :=
  alu (.or x d a b) d [a, b] (fun h => orVal (h.sreg a) (h.sreg b)) s

/-- The result of XOR (R303). -/
def xorVal (a b : Word) : Word := a ^^^ b

/-- XOR (R303). -/
def execXor (x : Stack) (d a b : SReg) (s : State) : Out :=
  alu (.xor x d a b) d [a, b] (fun h => xorVal (h.sreg a) (h.sreg b)) s

/-- The result of SHL (R303). -/
def shlVal (a b : Word) : Word := a <<< (b.toNat % 64)

/-- SHL (R303). -/
def execShl (x : Stack) (d a b : SReg) (s : State) : Out :=
  alu (.shl x d a b) d [a, b] (fun h => shlVal (h.sreg a) (h.sreg b)) s

/-- The result of SHR (R303). -/
def shrVal (a b : Word) : Word := a >>> (b.toNat % 64)

/-- SHR (R303). -/
def execShr (x : Stack) (d a b : SReg) (s : State) : Out :=
  alu (.shr x d a b) d [a, b] (fun h => shrVal (h.sreg a) (h.sreg b)) s

/-- The result of SRA (R303). -/
def sraVal (a b : Word) : Word := a.sshiftRight (b.toNat % 64)

/-- SRA (R303). -/
def execSra (x : Stack) (d a b : SReg) (s : State) : Out :=
  alu (.sra x d a b) d [a, b] (fun h => sraVal (h.sreg a) (h.sreg b)) s

/-- The result of MUL (R303). -/
def mulVal (a b : Word) : Word := a * b

/-- MUL (R303). -/
def execMul (x : Stack) (d a b : SReg) (s : State) : Out :=
  alu (.mul x d a b) d [a, b] (fun h => mulVal (h.sreg a) (h.sreg b)) s

/-- The result of MULH (R303). -/
def mulhVal (a b : Word) : Word := BitVec.ofInt 64 (a.toInt * b.toInt / 2 ^ 64)

/-- MULH (R303). -/
def execMulh (x : Stack) (d a b : SReg) (s : State) : Out :=
  alu (.mulh x d a b) d [a, b] (fun h => mulhVal (h.sreg a) (h.sreg b)) s

/-- The result of MULHN (R303). -/
def mulhnVal (a b : Word) : Word := wd (a.toNat * b.toNat / 2 ^ 64)

/-- MULHN (R303). -/
def execMulhn (x : Stack) (d a b : SReg) (s : State) : Out :=
  alu (.mulhn x d a b) d [a, b] (fun h => mulhnVal (h.sreg a) (h.sreg b)) s

/-- The result of DIV (R275). -/
def divVal (a b : Word) : Word := divS a b

/-- DIV (R275). -/
def execDiv (x : Stack) (d a b : SReg) (s : State) : Out :=
  alu (.div x d a b) d [a, b] (fun h => divVal (h.sreg a) (h.sreg b)) s

/-- The result of DIVN (R275). -/
def divnVal (a b : Word) : Word := divU a b

/-- DIVN (R275). -/
def execDivn (x : Stack) (d a b : SReg) (s : State) : Out :=
  alu (.divn x d a b) d [a, b] (fun h => divnVal (h.sreg a) (h.sreg b)) s

/-- The result of REM (R303). -/
def remVal (a b : Word) : Word := remS a b

/-- REM (R303). -/
def execRem (x : Stack) (d a b : SReg) (s : State) : Out :=
  alu (.rem x d a b) d [a, b] (fun h => remVal (h.sreg a) (h.sreg b)) s

/-- The result of REMN (R303). -/
def remnVal (a b : Word) : Word := remU a b

/-- REMN (R303). -/
def execRemn (x : Stack) (d a b : SReg) (s : State) : Out :=
  alu (.remn x d a b) d [a, b] (fun h => remnVal (h.sreg a) (h.sreg b)) s

/-- The result of MIN (R303). -/
def minVal (a b : Word) : Word := if b.slt a then b else a

/-- MIN (R303). -/
def execMin (x : Stack) (d a b : SReg) (s : State) : Out :=
  alu (.min x d a b) d [a, b] (fun h => minVal (h.sreg a) (h.sreg b)) s

/-- The result of MAX (R303). -/
def maxVal (a b : Word) : Word := if a.slt b then b else a

/-- MAX (R303). -/
def execMax (x : Stack) (d a b : SReg) (s : State) : Out :=
  alu (.max x d a b) d [a, b] (fun h => maxVal (h.sreg a) (h.sreg b)) s

/-- The result of MINN (R303). -/
def minnVal (a b : Word) : Word := if b.ult a then b else a

/-- MINN (R303). -/
def execMinn (x : Stack) (d a b : SReg) (s : State) : Out :=
  alu (.minn x d a b) d [a, b] (fun h => minnVal (h.sreg a) (h.sreg b)) s

/-- The result of MAXN (R303). -/
def maxnVal (a b : Word) : Word := if a.ult b then b else a

/-- MAXN (R303). -/
def execMaxn (x : Stack) (d a b : SReg) (s : State) : Out :=
  alu (.maxn x d a b) d [a, b] (fun h => maxnVal (h.sreg a) (h.sreg b)) s

/-- The result of SLT (R303). -/
def sltVal (a b : Word) : Word := wordOf (a.slt b)

/-- SLT (R303). -/
def execSlt (x : Stack) (d a b : SReg) (s : State) : Out :=
  alu (.slt x d a b) d [a, b] (fun h => sltVal (h.sreg a) (h.sreg b)) s

/-- The result of SLTN (R303). -/
def sltnVal (a b : Word) : Word := wordOf (a.ult b)

/-- SLTN (R303). -/
def execSltn (x : Stack) (d a b : SReg) (s : State) : Out :=
  alu (.sltn x d a b) d [a, b] (fun h => sltnVal (h.sreg a) (h.sreg b)) s

/-- CLZ (R275). -/
def execClz (x : Stack) (d a : SReg) (s : State) : Out :=
  alu (.clz x d a) d [a] (fun h => wd (leadZeros 64 (h.sreg a).toNat)) s

/-- POPC (R303). -/
def execPopc (x : Stack) (d a : SReg) (s : State) : Out :=
  alu (.popc x d a) d [a] (fun h => wd (popCount 64 (h.sreg a).toNat)) s

/-- SHLI (R303). -/
def execShli (x : Stack) (d a : SReg) (n : BitVec 6) (s : State) : Out :=
  alu (.shli x d a n) d [a] (fun h => h.sreg a <<< n.toNat) s

/-- SHRI (R303). -/
def execShri (x : Stack) (d a : SReg) (n : BitVec 6) (s : State) : Out :=
  alu (.shri x d a n) d [a] (fun h => h.sreg a >>> n.toNat) s

/-- SRAI (R303). -/
def execSrai (x : Stack) (d a : SReg) (n : BitVec 6) (s : State) : Out :=
  alu (.srai x d a n) d [a] (fun h => (h.sreg a).sshiftRight n.toNat) s

/-- ADDI (R276). -/
def execAddi (x : Stack) (d a : SReg) (im : BitVec 12) (s : State) : Out :=
  alu (.addi x d a im) d [a] (fun h => h.sreg a + immOf x im) s

/-- ANDI (R276). -/
def execAndi (x : Stack) (d a : SReg) (im : BitVec 12) (s : State) : Out :=
  alu (.andi x d a im) d [a] (fun h => h.sreg a &&& immOf x im) s

/-- ORI (R304). -/
def execOri (x : Stack) (d a : SReg) (im : BitVec 12) (s : State) : Out :=
  alu (.ori x d a im) d [a] (fun h => h.sreg a ||| immOf x im) s

/-- XORI (R304). -/
def execXori (x : Stack) (d a : SReg) (im : BitVec 12) (s : State) : Out :=
  alu (.xori x d a im) d [a] (fun h => h.sreg a ^^^ immOf x im) s

/-- SLTI (R304). -/
def execSlti (x : Stack) (d a : SReg) (im : BitVec 12) (s : State) : Out :=
  alu (.slti x d a im) d [a] (fun h => wordOf ((h.sreg a).slt (immOf x im))) s

/-- LIH (R298). -/
def execLih (x : Stack) (d : SReg) (im : BitVec 18) (s : State) : Out :=
  alu (.lih x d im) d [] (fun _ => im.signExtend 64 * 4096) s

/-- ADPC (R277): the form is the address of its first unit. -/
def execAdpc (x : Stack) (d : SReg) (im : BitVec 18) (s : State) : Out :=
  alu (.adpc x d im) d [] (fun h => h.pc + im.signExtend 64 * 4096) s

/-- HINT (R267). -/
def execHint (x : Stack) (e : BitVec 12) (s : State) : Out :=
  alu (.hint x e) 0 [] (fun _ => 0) s

/-- NOP (R267). -/
def execNop (x : Stack) (s : State) : Out :=
  alu (.nop x) 0 [] (fun _ => 0) s

/-- LD (R296). -/
def execLd (x : Stack) (d a : SReg) (im : BitVec 8) (z : Sz) (s : State) : Out :=
  issue (.ld x d a im z) (loadBody id d a im.toInt (szBytes z)) s

/-- ST (R309). -/
def execSt (x : Stack) (d a : SReg) (im : BitVec 8) (z : Sz) (s : State) : Out :=
  issue (.st x d a im z) (storeBody id d a im.toInt (szBytes z)) s

/-- JALR (R294). -/
def execJalr (x : Stack) (d a : SReg) (im : BitVec 8) (s : State) : Out :=
  issue (.jalr x d a im) (withClean [a] fun s =>
    let t := s.readS a + im.signExtend 64
    if t.getLsbD 0 then .trap s (wholeTrap cMisaligned) else .jump (s.writeS d (s.h.pc + wd x.len)) t) s

/-- JAL (R294). -/
def execJal (x : Stack) (d : SReg) (im : BitVec 18) (s : State) : Out :=
  issue (.jal x d im) (fun s =>
    .jump (s.writeS d (s.h.pc + wd x.len)) (s.h.pc + im.signExtend 64 * 4)) s

/-- BEQ (R283). -/
def execBeq (x : Stack) (a b : SReg) (im : BitVec 12) (s : State) : Out :=
  branch (.beq x a b im) [a, b] (fun h => h.sreg a == h.sreg b) (im.signExtend 64 * 2) s

/-- BNE (R283). -/
def execBne (x : Stack) (a b : SReg) (im : BitVec 12) (s : State) : Out :=
  branch (.bne x a b im) [a, b] (fun h => h.sreg a != h.sreg b) (im.signExtend 64 * 2) s

/-- BLT (R283). -/
def execBlt (x : Stack) (a b : SReg) (im : BitVec 12) (s : State) : Out :=
  branch (.blt x a b im) [a, b] (fun h => (h.sreg a).slt (h.sreg b)) (im.signExtend 64 * 2) s

/-- BGE (R283). -/
def execBge (x : Stack) (a b : SReg) (im : BitVec 12) (s : State) : Out :=
  branch (.bge x a b im) [a, b] (fun h => !(h.sreg a).slt (h.sreg b)) (im.signExtend 64 * 2) s

/-- BLTN (R283). -/
def execBltn (x : Stack) (a b : SReg) (im : BitVec 12) (s : State) : Out :=
  branch (.bltn x a b im) [a, b] (fun h => (h.sreg a).ult (h.sreg b)) (im.signExtend 64 * 2) s

/-- BGEN (R283). -/
def execBgen (x : Stack) (a b : SReg) (im : BitVec 12) (s : State) : Out :=
  branch (.bgen x a b im) [a, b] (fun h => !(h.sreg a).ult (h.sreg b)) (im.signExtend 64 * 2) s

/-- CADDI: `addi sd, sd, imm6` (R266). -/
def execCaddi (d : Fin 32) (im : BitVec 6) (s : State) : Out :=
  alu (.caddi d im) (r32 d) [r32 d] (fun h => h.sreg (r32 d) + im.signExtend 64) s

/-- CLI: `addi sd, s0, imm6` (R266). -/
def execCli (d : Fin 32) (im : BitVec 6) (s : State) : Out :=
  alu (.cli d im) (r32 d) [] (fun _ => im.signExtend 64) s

/-- CMOV: `add sd, sa, s0` (R266). -/
def execCmov (d a : Fin 32) (s : State) : Out :=
  alu (.cmov d a) (r32 d) [r32 a] (fun h => h.sreg (r32 a)) s

/-- CADD: `add sd, sd, sa` (R266). -/
def execCadd (d a : Fin 32) (s : State) : Out :=
  alu (.cadd d a) (r32 d) [r32 d, r32 a] (fun h => h.sreg (r32 d) + h.sreg (r32 a)) s

/-- CSUB: `sub sd, sd, sa` (R266). -/
def execCsub (d a : Fin 32) (s : State) : Out :=
  alu (.csub d a) (r32 d) [r32 d, r32 a] (fun h => h.sreg (r32 d) - h.sreg (r32 a)) s

/-- CBEQZ (R266). -/
def execCbeqz (a : Fin 32) (im : BitVec 6) (s : State) : Out :=
  branch (.cbeqz a im) [r32 a] (fun h => h.sreg (r32 a) == 0) (im.signExtend 64 * 2) s

/-- CBNEZ (R266). -/
def execCbnez (a : Fin 32) (im : BitVec 6) (s : State) : Out :=
  branch (.cbnez a im) [r32 a] (fun h => h.sreg (r32 a) != 0) (im.signExtend 64 * 2) s

/-- CJ (R266). -/
def execCj (im : BitVec 11) (s : State) : Out :=
  branch (.cj im) [] (fun _ => true) (im.signExtend 64 * 2) s

/-- CLDW (R266). -/
def execCldw (d a : Fin 8) (u : BitVec 5) (s : State) : Out :=
  issue (.cldw d a u) (loadBody id (r8 d) (r8 a) (4 * u.toNat : Nat) 4) s

/-- CLDD (R266). -/
def execCldd (d a : Fin 8) (u : BitVec 5) (s : State) : Out :=
  issue (.cldd d a u) (loadBody id (r8 d) (r8 a) (8 * u.toNat : Nat) 8) s

/-- CSTW (R266). -/
def execCstw (d a : Fin 8) (u : BitVec 5) (s : State) : Out :=
  issue (.cstw d a u) (storeBody id (r8 d) (r8 a) (4 * u.toNat : Nat) 4) s

/-- CSTD (R266). -/
def execCstd (d a : Fin 8) (u : BitVec 5) (s : State) : Out :=
  issue (.cstd d a u) (storeBody id (r8 d) (r8 a) (8 * u.toNat : Nat) 8) s

/-- AMO (R278, R279). -/
def execAmo (x : Stack) (d a b : SReg) (o : AmoOp) (z : Sz) (s : State) : Out :=
  issue (.amo x d a b o z) (atomicBody x d a [b] (szBytes z) fun h old =>
    some (amoNew o (8 * szBytes z) old ((h.sreg b).toNat % 2 ^ (8 * szBytes z)))) s

/-- CAS (R284). -/
def execCas (x : Stack) (d a b : SReg) (z : Sz) (s : State) : Out :=
  issue (.cas x d a b z) (atomicBody x d a [d, b] (szBytes z) fun h old =>
    if old = (h.sreg d).toNat % 2 ^ (8 * szBytes z) then some ((h.sreg b).toNat % 2 ^ (8 * szBytes z)) else none) s

/-- LDAQ (R297): a load, then an acquire. -/
def execLdaq (x : Stack) (d a : SReg) (sc : Scope) (z : Sz) (s : State) : Out :=
  issue (.ldaq x d a sc z) (loadBody (fun s => s.acquire sc) d a 0 (szBytes z)) s

/-- STRL (R309): a release, then a store. -/
def execStrl (x : Stack) (d a : SReg) (sc : Scope) (z : Sz) (s : State) : Out :=
  issue (.strl x d a sc z) (storeBody (fun s => s.release sc) d a 0 (szBytes z)) s

end Sys2Proof.Machine
end

