-- ==== Sys2Proof/Machine/Elements.lean ====
section
/-! DEFINITION. The element-wise instructions as one operation (R300): which elements are active, what each computes, the
stripe at which the first trap stands, what commits, and the instruction left open (R75, R191, R194, R195). -/

namespace Sys2Proof.Machine

/-- The elements of a block's group, or all below VL. -/
def Hart.elems (h : Hart) : List Nat :=
  match h.group with
  | some g => (List.range h.vl).filter g.contains
  | none => List.range h.vl

/-- What one element comes to: a code with flags, the poisoned words that it carries, and a mask bit; a poisoned word consumed; a
shell trap. -/
inductive EOut where
  | val (code flags : Nat) (poison : Bad) (bit : Bool)
  | poison (l : PLoc)
  | shell
  deriving DecidableEq, Repr

/-- An element of an instruction: its index, the stripe that holds its result, and what it comes to. -/
structure Row where
  e : Nat
  k : Nat
  out : EOut
  deriving DecidableEq, Repr

/-- The cause that a row traps with under the enables (R75, R191, R208); for poison, the data error. -/
def EOut.cause (enables : Nat) : EOut → Option Nat
  | .val _ f _ _ => if f &&& enables = 0 then none else some (flagCause (f &&& enables))
  | .poison _ => some cData
  | .shell => some cShell

/-- The row at which the instruction traps: the lowest stripe, and in it the lowest element (R191). -/
def firstTrap (enables : Nat) (rows : List Row) : Option (Row × Nat) :=
  rows.foldl (fun best r =>
    match r.out.cause enables with
    | none => best
    | some c =>
      match best with
      | none => some (r, c)
      | some b => if r.k < b.1.k then some (r, c) else best) none

/-- The flags of rows, each with NV alone where it is raised (R73). -/
def rowFlags (rows : List Row) : Nat :=
  rows.foldl (fun f r => match r.out with
    | .val _ g _ _ => f ||| g
    | .poison _ => f
    | .shell => f) 0

/-- The elements that rows write: element, code, poison, mask bit. -/
def rowVals (rows : List Row) : List (Nat × Nat × Bad × Bool) :=
  rows.filterMap fun r => match r.out with
    | .val c _ p b => some (r.e, c, p, b)
    | .poison _ => none
    | .shell => none

/-- What a computation over elements needs: the instruction, its activity, its function, the stripe of each element,
how elements are written, its destinations, and what completing it frees of the load queues and takes of the purse. -/
structure Plan where
  i : Instr
  act : Nat → Except PLoc Bool
  f : Nat → EOut
  stripe : Nat → Nat
  put : List (Nat × Nat × Bad × Bool) → Hart → Hart
  dreg : Option VReg
  dmask : Option MReg
  frees : List (Fin 4) := []
  purse : Nat := 0

/-- The instruction left open at stripe `k` (R195). -/
def openAt (p : Plan) (k : Nat) (h : Hart) : Option OpenInstr := h.openAt p.i p.dreg p.dmask p.frees p.purse k

/-- The rows of an instruction from its first stripe, or from the stripe at which it resumes (R196). In a block every
element stands in stripe 0 (R198). -/
def Plan.rows (p : Plan) (h : Hart) : List Row :=
  let k0 := h.firstStripe
  (List.range h.vl).filterMap fun e =>
    let k := if h.group.isSome then 0 else p.stripe e
    if k < k0 then none
    else match p.act e with
      | .error l => some ⟨e, k, .poison l⟩
      | .ok b => if b then some ⟨e, k, p.f e⟩ else none

/-- A trap of a plan (R191): its stripe and element, its cause and DETAIL, and the poisoned word that it consumes. -/
structure Stop where
  k : Nat
  e : Nat
  code : Nat
  detail : Nat
  loc : Option PLoc
  deriving DecidableEq, Repr

/-- The trap of the rows. -/
def rowStop (enables : Nat) (rows : List Row) : Option Stop :=
  (firstTrap enables rows).map fun p =>
    ⟨p.1.k, p.1.e, p.2, 0, match p.1.out with
      | .poison l => some l
      | .val _ _ _ _ => none
      | .shell => none⟩

/-- The trap of a disagreement, at its stripe as far as the rows reach (R211, R213). In a block it is that of the lowest
element of the group (R198). -/
def splitStop (h : Hart) (rows : List Row) (p : Split) : Stop :=
  let k0 := h.firstStripe
  if h.group.isSome then ⟨0, h.blockVal.toNat, cData, p.detail, none⟩
  else ⟨Nat.max k0 (Nat.min p.stripe (rows.foldl (fun n r => Nat.max n r.k) k0)), p.elem, cData, p.detail, none⟩

/-- The first of the two (R191): the lower stripe, in it the lower element, and at one element the data error. -/
def firstStop : Option Stop → Option Stop → Option Stop
  | none, b => b
  | some a, none => some a
  | some a, some b => if b.k < a.k || b.k == a.k && b.e < a.e then some b else some a

/-- Runs an instruction over its elements, from its first stripe or the one at which it resumes; `sp` is a disagreement of
its runs. -/
def Plan.runAll (p : Plan) (sp : Option Split) (s : State) : Res :=
  let rows := p.rows s.h
  match firstStop (sp.map (splitStop s.h rows)) (rowStop s.h.enables rows) with
  | none => .done (s.modH fun h => ((p.put (rowVals rows) h).raise (rowFlags rows)).complete p.frees p.purse)
  | some a =>
    let before := rows.filter fun x => x.k < a.k
    let s1 := s.modH fun h => (p.put (rowVals before) h).raise (rowFlags before)
    let t : TrapInfo :=
      { code := a.code, detail := a.detail, stripe := a.k, val := wd a.e, opened := openAt p a.k s.h }
    match a.loc with
    | some l => if s.h.squash = some l then .trap s1 t else .squash l
    | none => .trap s1 t

/-- Runs one stripe of an instruction and leaves it to resume at the next one (R33, R57); none when no stripe is left
before the last. -/
def Plan.runStripe (p : Plan) (s : State) : Option State :=
  let k0 := s.h.firstStripe
  let rows := (p.rows s.h).filter fun x => x.k == k0
  if ((p.rows s.h).any fun x => x.k > k0) && (firstTrap s.h.enables rows).isNone && s.h.group.isNone then
    let o := openAt p (k0 + 1) s.h
    some (s.modH fun h => { (p.put (rowVals rows) h).raise (rowFlags rows) with resume := o })
  else none

/-- Runs an instruction over its elements; a hart that issues a single stripe stops behind it. DEDUCED, log entry 29. -/
def Plan.run (p : Plan) (sp : Option Split) (s : State) : Res :=
  if s.h.single then
    let s := s.modH fun h => { h with single := false }
    if sp.isSome then p.runAll sp s
    else match p.runStripe s with
      | some s1 => .gone s1
      | none => p.runAll sp s
  else p.runAll sp s

/-- Codes written to a register. -/
def putReg (d : VReg) (y : Layout) (vs : List (Nat × Nat × Bad × Bool)) (h : Hart) : Hart :=
  if vs.isEmpty then h else h.putElems d y (vs.map fun v => (v.1, v.2.1, v.2.2.1))

/-- Bits written to a mask. -/
def putBitsOf (d : MReg) (vs : List (Nat × Nat × Bad × Bool)) (h : Hart) : Hart :=
  if vs.isEmpty then h else h.putMask d (vs.map fun v => (v.1, v.2.2.2))

/-- The first poisoned word, or a shell trap, or what `k` makes of two codes. -/
def on2 (a b : RRes) (k : Nat → Nat → EOut) : EOut :=
  match a, b with
  | .code _ _ (some l), _ => .poison l.1
  | .code _ _ none, .code _ _ (some l) => .poison l.1
  | .shell, .code _ _ (some l) => .poison l.1
  | .code x _ none, .code y _ none => k x y
  | .code _ _ none, .shell => .shell
  | .shell, .code _ _ none => .shell
  | .shell, .shell => .shell

/-- The same for one code. -/
def on1 (a : RRes) (k : Nat → EOut) : EOut :=
  match a with
  | .code _ _ (some l) => .poison l.1
  | .code x _ none => k x
  | .shell => .shell

/-- A code moved with its poison (R206, R62). -/
def moved (a : RRes) : EOut :=
  match a with
  | .code x _ p => .val x 0 (badOf p) false
  | .shell => .shell

/-- A result with its flags. -/
def res (r : Nat × Nat) : EOut := .val r.1 r.2 0 false

/-- F of a form: its mask is read inverted (R261). -/
def maskInv (x : Stack) : Bool := x.opm.any (·.f)

/-- The mask values of a hart, or those kept, with their poison, while an instruction that wrote `m` resumes (R196). -/
def Hart.forMask (h : Hart) (m : MReg) : Hart :=
  match h.resume with
  | some o =>
    if m = 0 then h
    else
      let others := h.poison.filter fun p => match p with
        | .mask m' _ => m' != m
        | .sreg _ | .vword _ | .scale _ | .cell _ | .queue _ _ | .mem _ | .spad _ => true
      { h with masks := h.masks.set m o.keptMask, poison := o.keptBad.map (.mask m ·) ++ others }
  | none => h

/-- What a third operand adds: its poison comes before a shell trap of the sources (R191). -/
def on3 (a b c : RRes) (k : Nat → Nat → Nat → EOut) : EOut :=
  match c with
  | .code _ _ (some l) => (match on2 a b fun _ _ => .shell with
    | .poison l' => .poison l'
    | .val _ _ _ _ => .poison l.1
    | .shell => .poison l.1)
  | .code z _ none => on2 a b fun x y => k x y z
  | .shell => .shell

/-- The plan of an element-wise instruction with two sources, and with a third operand read from `d` where `third`
(R300, R329). -/
def planTwo (i : Instr) (x : Stack) (d : VReg) (a b : Src) (m : MReg) (y : Layout) (third : Bool)
    (f : Hart → Nat → Nat → Nat → Nat × Nat) (h : Hart) : Plan :=
  let v := h.env y (some d) ((if third then [d] else []) ++ h.regsOf a ++ h.regsOf b)
  { i := i, act := fun e => h.active m (maskInv x) e
    f := fun e =>
      if third then on3 (v.read a e) (v.read b e) (v.elem d e) fun p q c => res (f h p q c)
      else on2 (v.read a e) (v.read b e) fun p q => res (f h p q 0)
    stripe := y.stripe, put := putReg d y, dreg := some d, dmask := none, frees := queuesOf a b }

/-- The body of an element-wise instruction with two sources (R300). -/
def twoSource (i : Instr) (x : Stack) (d : VReg) (a b : Fin 64) (m : MReg) (sc : Bool) (ok : Fmt → Bool)
    (third : Bool) (f : Hart → Nat → Nat → Nat → Nat × Nat) (s : State) : Res :=
  let p := s.h.src1 x a
  let q := s.h.src2 x b sc
  (legalReads x (ok s.h.fmt) (d :: (p.reg? ++ q.reg?)) (s.h.regsOf p ++ s.h.regsOf q) [m] (queuesOf p q) <|
    checked i fun sp s => (planTwo i x d p q m s.h.layout third f s.h).run sp s) s

/-- The body of an element-wise instruction with one source (R300). -/
def oneSource (i : Instr) (x : Stack) (d a : VReg) (m : MReg) (ok : Fmt → Bool) (f : Hart → Nat → Nat × Nat) (s : State) :
    Res :=
  let p := s.h.src1 x a
  (legalReads x (ok s.h.fmt) (d :: p.reg?) (s.h.regsOf p) [m] (queuesOf p p) <| checked i fun sp s =>
    (planTwo i x d p p m s.h.layout false (fun h c _ _ => f h c) s.h).run sp s) s

end Sys2Proof.Machine
end

