-- ==== Sys2Proof/Machine/VecArith.lean ====
section
/-! DEFINITION. The element-wise arithmetic of class 010 and the moves of class 011: two sources, carries, fused
operations, selection, comparison, one source, VIDX. -/

namespace Sys2Proof.Machine

/-! The function of each element: code and flags. -/

/-- An exact integer result of the format in force, delivered under SAT (R76). -/
def intRes (h : Hart) (v : Int) : Nat × Nat := deliverInt h.fmt h.sat v

/-- A float result, rounded once, with the flags of the operation (R73, R74). -/
def floatRes (h : Hart) (r : FVal × Nat) : Nat × Nat :=
  let d := deliver h.fmt h.rm h.ftz r.1
  (d.1, onlyNV (r.2 ||| d.2))

/-- A float operand (R74). -/
def opF (h : Hart) (c : Nat) : FVal := operandF h.fmt h.ftz c

/-- An integer operand (R63). -/
def opI (h : Hart) (c : Nat) : Int := intOf h.fmt c

/-- An integer function or a float function, by the format in force. -/
def byFmt (fi : Hart → Int → Int → Int) (ff : Hart → FVal → FVal → FVal × Nat) (h : Hart) (a b _c : Nat) : Nat × Nat :=
  if isFloat h.fmt then floatRes h (ff h (opF h a) (opF h b)) else intRes h (fi h (opI h a) (opI h b))

/-- VADD. -/
def fVadd := byFmt (fun _ a b => a + b) (fun h a b => addF h.rm a b)
/-- VSUB (R351). -/
def fVsub := byFmt (fun _ a b => a - b) (fun h a b => addF h.rm a b.negate)
/-- VMUL (R324). -/
def fVmul := byFmt (fun _ a b => a * b) (fun _ a b => mulF a b)

/-- VMULH: the upper w bits of the exact product (R324). -/
def fVmulh (h : Hart) (a b _c : Nat) : Nat × Nat :=
  (codeOf (width h.fmt) (opI h a * opI h b / (2 ^ width h.fmt : Nat)), 0)

/-- VDIV (R324, R77, Table 4-9). -/
def fVdiv (h : Hart) (a b _c : Nat) : Nat × Nat :=
  if isFloat h.fmt then floatRes h (divF (opF h a) (opF h b))
  else if opI h b = 0 then (2 ^ width h.fmt - 1, fDZ)
  else intRes h ((opI h a).tdiv (opI h b))

/-- The lesser or the greater of two floats (R78). -/
def pickF (h : Hart) (less : Bool) (a b : FVal) : Nat × Nat :=
  let nv := sigNV a ||| sigNV b
  let v := if a.isNan then b else if b.isNan then a else if belowF b a = less then b else a
  ((deliver h.fmt h.rm h.ftz v).1, nv)

/-- VMIN (R78). -/
def fVmin (h : Hart) (a b _c : Nat) : Nat × Nat :=
  if isFloat h.fmt then pickF h true (opF h a) (opF h b) else if opI h b < opI h a then (b, 0) else (a, 0)

/-- VMAX (R78). -/
def fVmax (h : Hart) (a b _c : Nat) : Nat × Nat :=
  if isFloat h.fmt then pickF h false (opF h a) (opF h b) else if opI h a < opI h b then (b, 0) else (a, 0)

/-- VAND. -/
def fVand (_ : Hart) (a b _c : Nat) : Nat × Nat := (a &&& b, 0)
/-- VOR. -/
def fVor (_ : Hart) (a b _c : Nat) : Nat × Nat := (a ||| b, 0)
/-- VXOR. -/
def fVxor (_ : Hart) (a b _c : Nat) : Nat × Nat := (a ^^^ b, 0)

/-- VSHL (R351, R76). -/
def fVshl (h : Hart) (a b _c : Nat) : Nat × Nat := intRes h (opI h a * (2 ^ (b % width h.fmt) : Nat))
/-- VSHR (R351). -/
def fVshr (h : Hart) (a b _c : Nat) : Nat × Nat := (a / 2 ^ (b % width h.fmt), 0)
/-- VSRA (R351). -/
def fVsra (h : Hart) (a b _c : Nat) : Nat × Nat :=
  let w := width h.fmt
  (codeOf w (signedOf w a / (2 ^ (b % w) : Nat)), 0)

/-- The fused operations (R329): the product negated under `np`, the addend under `nc`. -/
def fFused (np nc : Bool) (h : Hart) (a b c : Nat) : Nat × Nat :=
  if isFloat h.fmt then
    let p := mulF (opF h a) (opF h b)
    let r := addF h.rm (if np then p.1.negate else p.1) (if nc then (opF h c).negate else opF h c)
    floatRes h (r.1, p.2 ||| r.2)
  else
    let p := opI h a * opI h b
    intRes h ((if np then -p else p) + (if nc then -(opI h c) else opI h c))

/-- VBSADD and VBSMUL (R314). -/
def fVbs (g : Int → Int → Int) (h : Hart) (a b _c : Nat) : Nat × Nat := intRes h (g (opI h a) (opI h b))

/-- VABS (R311). -/
def fVabs (h : Hart) (a : Nat) : Nat × Nat :=
  if isFloat h.fmt then
    let v := opF h a
    floatRes h (if v.neg then v.negate else v, sigNV v)
  else if isSigned h.fmt then intRes h ((opI h a).natAbs : Int) else (a, 0)

/-- VNEG (R325). -/
def fVneg (h : Hart) (a : Nat) : Nat × Nat :=
  if isFloat h.fmt then floatRes h ((opF h a).negate, sigNV (opF h a)) else intRes h (-(opI h a))

/-- VSQRT (R341). -/
def fVsqrt (h : Hart) (a : Nat) : Nat × Nat := floatRes h (sqrtF (opF h a))
/-- VRCP (R341). -/
def fVrcp (h : Hart) (a : Nat) : Nat × Nat := floatRes h (divF (.fin false 1 0) (opF h a))
/-- VRSQ (R341). -/
def fVrsq (h : Hart) (a : Nat) : Nat × Nat := floatRes h (rsqrtF (opF h a))
/-- VEXP2 (R325). -/
def fVexp2 (h : Hart) (a : Nat) : Nat × Nat := floatRes h (exp2F (opF h a))
/-- VLOG2 (R325). -/
def fVlog2 (h : Hart) (a : Nat) : Nat × Nat := floatRes h (log2F (opF h a))

/-- The bit of Table 15-7 (R311). -/
def classBit (f : Fmt) (c : Nat) : Nat :=
  match decodeF f c with
  | .nan sig => if sig then 8 else 9
  | .inf neg => if neg then 0 else 7
  | .fin neg m _ =>
    if m = 0 then (if neg then 3 else 4)
    else if isSubnormal f c then (if neg then 2 else 5)
    else if neg then 1 else 6

/-- VCLASS (R311). -/
def fVclass (h : Hart) (a : Nat) : Nat × Nat := (2 ^ classBit h.fmt a, 0)
/-- VNOT (R325). -/
def fVnot (h : Hart) (a : Nat) : Nat × Nat := (2 ^ width h.fmt - 1 - a % 2 ^ width h.fmt, 0)
/-- VCLZ (R311). -/
def fVclz (h : Hart) (a : Nat) : Nat × Nat := (leadZeros (width h.fmt) a, 0)
/-- VPOPC (R341). -/
def fVpopc (h : Hart) (a : Nat) : Nat × Nat := (popCount (width h.fmt) a, 0)

/-- A VCMP condition on integers (Table 15-9). -/
def condI : VCond → Int → Int → Bool
  | .eq, a, b => a == b
  | .ne, a, b => a != b
  | .lt, a, b => a < b
  | .le, a, b => a ≤ b
  | .gt, a, b => b < a
  | .ge, a, b => b ≤ a
  | .uo, _, _ => false

/-- A VCMP condition on floats, and the NV it raises (Table 15-9). -/
def condF (c : VCond) (a b : FVal) : Bool × Nat :=
  let nan := a.isNan || b.isNan
  let sig := sigNV a ||| sigNV b
  let any := if nan then fNV else 0
  match c with
  | .eq => (!nan && !ltF a b && !ltF b a, sig)
  | .ne => (nan || ltF a b || ltF b a, sig)
  | .lt => (!nan && ltF a b, any)
  | .le => (!nan && !ltF b a, any)
  | .gt => (!nan && ltF b a, any)
  | .ge => (!nan && !ltF a b, any)
  | .uo => (nan, sig)

/-! Bodies of their own. -/

/-- VADC and VSBC (R312, R347): every element; `mc` is read before it is written. `g` gives the exact sum, and the new
carry is its sign or its overflow. -/
def carryBody (i : Instr) (x : Stack) (d : VReg) (a b : Fin 64) (mc : MReg) (sc : Bool) (g : Int → Int → Int → Int)
    (s : State) : Res :=
  let p := s.h.src1 x a
  let q := s.h.src2 x b sc
  (legalReads x (isInt s.h.fmt && mc != 0) (d :: (p.reg? ++ q.reg?)) (s.h.regsOf p ++ s.h.regsOf q) [mc] (queuesOf p q) <|
    checked i fun sp s =>
      let h := s.h.forMask mc
      let y := h.layout
      let w := width h.fmt
      let v := h.env y (some d) (h.regsOf p ++ h.regsOf q)
      let plan : Plan :=
        { i := i
          act := fun e => h.active 0 false e
          f := fun e =>
            match h.maskPoison mc e with
            | some l => .poison l
            | none =>
              on2 (v.read p e) (v.read q e) fun m n =>
                let t := g m n (if h.maskBit mc e then 1 else 0)
                .val (codeOf w t) 0 0 (t < 0 || (2 ^ w : Nat) ≤ t)
          stripe := y.stripe
          put := fun vs h => putBitsOf mc vs (putReg d y vs h)
          dreg := some d, dmask := some mc
          frees := queuesOf p q }
      plan.run sp s) s

/-- VSEL (R350): the selected source alone is read; codes move with their poison. -/
def vselBody (i : Instr) (x : Stack) (d : VReg) (a b : Fin 64) (mc : MReg) (sc : Bool) (s : State) : Res :=
  let p := s.h.src1 x a
  let q := s.h.src2 x b sc
  (legalReads x (isArith s.h.fmt) (d :: (p.reg? ++ q.reg?)) (s.h.regsOf p ++ s.h.regsOf q) [mc] (queuesOf p q) <|
    checked i fun sp s =>
      let h := s.h
      let y := h.layout
      let v := h.env y (some d) (h.regsOf p ++ h.regsOf q)
      let plan : Plan :=
        { i := i
          act := fun e => h.active 0 false e
          f := fun e =>
            match h.maskPoison mc e with
            | some l => .poison l
            | none => moved (if h.maskBit mc e != (mc != 0 && maskInv x) then v.read p e else v.read q e)
          stripe := y.stripe, put := putReg d y, dreg := some d, dmask := none
          frees := queuesOf p q }
      plan.run sp s) s

/-- VCMP (R316). -/
def vcmpBody (i : Instr) (x : Stack) (c : VCond) (d : MReg) (a : VReg) (b : Fin 64) (m : MReg) (sc : Bool) (s : State) :
    Res :=
  let p := s.h.src1 x a
  let q := s.h.src2 x b sc
  (legalReads x (isArith s.h.fmt && d != 0) (p.reg? ++ q.reg?) (s.h.regsOf p ++ s.h.regsOf q) [d, m] (queuesOf p q) <|
    checked i fun sp s =>
      let h := s.h
      let y := h.layout
      let v := h.env y none (h.regsOf p ++ h.regsOf q)
      let hm := if m = d then h.forMask d else h
      let plan : Plan :=
        { i := i
          act := fun e => hm.active m (maskInv x) e
          f := fun e => on2 (v.read p e) (v.read q e) fun k n =>
            if isFloat h.fmt then
              let r := condF c (opF h k) (opF h n)
              .val 0 r.2 0 r.1
            else .val 0 0 0 (condI c (opI h k) (opI h n))
          stripe := y.stripe, put := putBitsOf d, dreg := none, dmask := some d
          frees := queuesOf p q }
      plan.run sp s) s

/-- VBSADD and VBSMUL (R314): sliced layout, all stripes together. -/
def slicedBody (i : Instr) (x : Stack) (d a b : VReg) (m : MReg) (g : Int → Int → Int) (s : State) : Res :=
  let p := s.h.src1 x a
  let q := s.h.src2 x b false
  (legalReads x (isSliced s.h.fmt) (d :: (p.reg? ++ q.reg?)) (s.h.regsOf p ++ s.h.regsOf q) [m] (queuesOf p q) <|
    checked i fun sp s =>
      let y := s.h.layoutAt (width s.h.fmt) true
      Plan.run { planTwo i x d p q m y false (fVbs g) s.h with stripe := fun _ => 0 } sp s) s

/-- The words of stripes `lo` to `hi` - 1 of a register as `f` leaves them, and its other words as they stood (R195, R196).
-/
def stripesOf (d : VReg) (lo hi : Nat) (f : Hart → Hart) (h : Hart) : Hart :=
  if lo = 0 ∧ 128 ≤ hi then f h
  else
    let n := f h
    let bare : Hart := { n with vregs := n.vregs.filter fun c => c.key / 8192 != d.val }
    let inside := fun c : VCell => lo ≤ c.key % 128 && c.key % 128 < hi
    (bare.putCells ((n.regCells d).filter inside)).putCells ((h.regCells d).filter fun c => !inside c)

/-- The cells of a source; when an open instruction resumes, a source that is its destination reads the value kept (R196). -/
def Hart.source (h : Hart) (d r : VReg) : List VCell :=
  match h.resume with
  | some o => if d = r then o.kept else h.regCells r
  | none => h.regCells r

/-- An instruction that writes whole words of `d`, each in its stripe (R33): run from its first stripe, or up to the stripe of
a disagreement. -/
def wordsBody (i : Instr) (d : VReg) (f : Hart → Hart) : State → Res :=
  checkedWhole i (some d) none (fun s => .done (s.modH fun h => stripesOf d h.firstStripe 128 f h))
    (part := fun k h => stripesOf d h.firstStripe k f h)

/-- Copies every bit of every lane block held, with its poison (R337 for the bit-sliced formats). -/
def copyBlocks (d a : VReg) (h : Hart) : Hart :=
  let h1 : Hart := { h with vregs := h.vregs.filter fun c => c.key / 8192 != d.val }
  h1.putCells ((h.source d a).map fun c => { c with key := 8192 * d.val + c.key % 8192 })

/-- VMOV, vector form (R337). -/
def vmovBody (i : Instr) (x : Stack) (d a : VReg) (m : MReg) (s : State) : Res :=
  (legalReads x (isArith s.h.fmt || isSliced s.h.fmt && m == 0) [d, a] (s.h.regsOf (s.h.src1 x a)) [m] [] fun s =>
    if isSliced s.h.fmt && s.h.group.isNone then wordsBody i d (copyBlocks d a) s
    else checked i (fun sp s =>
      let h := s.h
      let y := h.layoutAt (width h.fmt) (isSliced h.fmt)
      let p := h.src1 x a
      let v := h.env y (some d) (h.regsOf p)
      let plan : Plan :=
        { i := i, act := fun e => h.active m (maskInv x) e, f := fun e => moved (v.read p e)
          stripe := y.stripe, put := putReg d y, dreg := some d, dmask := none }
      plan.run sp s) s) s

/-- VMOV, scalar form (R337): the scalar's poison travels. -/
def vmovScalarBody (i : Instr) (x : Stack) (d : VReg) (a : SReg) (m : MReg) (s : State) : Res :=
  (legalVec x (isArith s.h.fmt) [d] [m] <| checked i fun sp s =>
    let h := s.h
    let y := h.layout
    let plan : Plan :=
      { i := i, act := fun e => h.active m (maskInv x) e
        f := fun _ => .val ((h.operand a).toNat % 2 ^ y.w) 0 (allBad (h.operandPoison a)) false
        stripe := y.stripe, put := putReg d y, dreg := some d, dmask := none }
    plan.run sp s) s

/-- VIDX (R330). -/
def vidxBody (i : Instr) (x : Stack) (d : VReg) (start : BitVec 10) (step : BitVec 8) (s : State) : Res :=
  (legalVec x (isInt s.h.fmt) [d] [] <| checked i fun sp s =>
    let h := s.h
    let y := h.layout
    let plan : Plan :=
      { i := i, act := fun e => h.active 0 false e
        f := fun e => .val (codeOf y.w (start.toInt + e * step.toInt)) 0 0 false
        stripe := y.stripe, put := putReg d y, dreg := some d, dmask := none }
    plan.run sp s) s

/-! The meanings. -/

/-- VADD (R300, R351). -/
def execVadd (x : Stack) (d a : VReg) (b : Fin 64) (m : MReg) (sc : Bool) (s : State) : Out :=
  issue (.vadd x d a b m sc) (twoSource (.vadd x d a b m sc) x d a b m sc isArith false fVadd) s

/-- VSUB (R351). -/
def execVsub (x : Stack) (d a : VReg) (b : Fin 64) (m : MReg) (sc : Bool) (s : State) : Out :=
  issue (.vsub x d a b m sc) (twoSource (.vsub x d a b m sc) x d a b m sc isArith false fVsub) s

/-- VMUL (R324). -/
def execVmul (x : Stack) (d a : VReg) (b : Fin 64) (m : MReg) (sc : Bool) (s : State) : Out :=
  issue (.vmul x d a b m sc) (twoSource (.vmul x d a b m sc) x d a b m sc isArith false fVmul) s

/-- VMULH (R324). -/
def execVmulh (x : Stack) (d a : VReg) (b : Fin 64) (m : MReg) (sc : Bool) (s : State) : Out :=
  issue (.vmulh x d a b m sc) (twoSource (.vmulh x d a b m sc) x d a b m sc isInt false fVmulh) s

/-- VDIV (R324, R77). -/
def execVdiv (x : Stack) (d a : VReg) (b : Fin 64) (m : MReg) (sc : Bool) (s : State) : Out :=
  issue (.vdiv x d a b m sc) (twoSource (.vdiv x d a b m sc) x d a b m sc isArith false fVdiv) s

/-- VMIN (R324, R78). -/
def execVmin (x : Stack) (d a : VReg) (b : Fin 64) (m : MReg) (sc : Bool) (s : State) : Out :=
  issue (.vmin x d a b m sc) (twoSource (.vmin x d a b m sc) x d a b m sc isArith false fVmin) s

/-- VMAX (R324, R78). -/
def execVmax (x : Stack) (d a : VReg) (b : Fin 64) (m : MReg) (sc : Bool) (s : State) : Out :=
  issue (.vmax x d a b m sc) (twoSource (.vmax x d a b m sc) x d a b m sc isArith false fVmax) s

/-- VAND (R300). -/
def execVand (x : Stack) (d a : VReg) (b : Fin 64) (m : MReg) (sc : Bool) (s : State) : Out :=
  issue (.vand x d a b m sc) (twoSource (.vand x d a b m sc) x d a b m sc isArith false fVand) s

/-- VOR (R324). -/
def execVor (x : Stack) (d a : VReg) (b : Fin 64) (m : MReg) (sc : Bool) (s : State) : Out :=
  issue (.vor x d a b m sc) (twoSource (.vor x d a b m sc) x d a b m sc isArith false fVor) s

/-- VXOR (R351). -/
def execVxor (x : Stack) (d a : VReg) (b : Fin 64) (m : MReg) (sc : Bool) (s : State) : Out :=
  issue (.vxor x d a b m sc) (twoSource (.vxor x d a b m sc) x d a b m sc isArith false fVxor) s

/-- VSHL (R351). -/
def execVshl (x : Stack) (d a : VReg) (b : Fin 64) (m : MReg) (sc : Bool) (s : State) : Out :=
  issue (.vshl x d a b m sc) (twoSource (.vshl x d a b m sc) x d a b m sc isInt false fVshl) s

/-- VSHR (R351). -/
def execVshr (x : Stack) (d a : VReg) (b : Fin 64) (m : MReg) (sc : Bool) (s : State) : Out :=
  issue (.vshr x d a b m sc) (twoSource (.vshr x d a b m sc) x d a b m sc isInt false fVshr) s

/-- VSRA (R351). -/
def execVsra (x : Stack) (d a : VReg) (b : Fin 64) (m : MReg) (sc : Bool) (s : State) : Out :=
  issue (.vsra x d a b m sc) (twoSource (.vsra x d a b m sc) x d a b m sc isInt false fVsra) s

/-- VFMA (R329). -/
def execVfma (x : Stack) (d a : VReg) (b : Fin 64) (m : MReg) (sc : Bool) (s : State) : Out :=
  issue (.vfma x d a b m sc) (twoSource (.vfma x d a b m sc) x d a b m sc isArith true (fFused false false)) s

/-- VFMS (R329). -/
def execVfms (x : Stack) (d a : VReg) (b : Fin 64) (m : MReg) (sc : Bool) (s : State) : Out :=
  issue (.vfms x d a b m sc) (twoSource (.vfms x d a b m sc) x d a b m sc isArith true (fFused false true)) s

/-- VFNMA (R329). -/
def execVfnma (x : Stack) (d a : VReg) (b : Fin 64) (m : MReg) (sc : Bool) (s : State) : Out :=
  issue (.vfnma x d a b m sc) (twoSource (.vfnma x d a b m sc) x d a b m sc isArith true (fFused true true)) s

/-- VFNMS (R329). -/
def execVfnms (x : Stack) (d a : VReg) (b : Fin 64) (m : MReg) (sc : Bool) (s : State) : Out :=
  issue (.vfnms x d a b m sc) (twoSource (.vfnms x d a b m sc) x d a b m sc isArith true (fFused true false)) s

/-- VADC (R312). -/
def execVadc (x : Stack) (d a : VReg) (b : Fin 64) (mc : MReg) (sc : Bool) (s : State) : Out :=
  issue (.vadc x d a b mc sc) (carryBody (.vadc x d a b mc sc) x d a b mc sc (fun a b c => a + b + c)) s

/-- VSBC (R347). -/
def execVsbc (x : Stack) (d a : VReg) (b : Fin 64) (mc : MReg) (sc : Bool) (s : State) : Out :=
  issue (.vsbc x d a b mc sc) (carryBody (.vsbc x d a b mc sc) x d a b mc sc (fun a b c => a - b - c)) s

/-- VSEL (R350). -/
def execVsel (x : Stack) (d a : VReg) (b : Fin 64) (mc : MReg) (sc : Bool) (s : State) : Out :=
  issue (.vsel x d a b mc sc) (vselBody (.vsel x d a b mc sc) x d a b mc sc) s

/-- VCMP (R316). -/
def execVcmp (x : Stack) (c : VCond) (d : MReg) (a : VReg) (b : Fin 64) (m : MReg) (sc : Bool) (s : State) : Out :=
  issue (.vcmp x c d a b m sc) (vcmpBody (.vcmp x c d a b m sc) x c d a b m sc) s

/-- VBSADD (R314). -/
def execVbsadd (x : Stack) (d a b : VReg) (m : MReg) (s : State) : Out :=
  issue (.vbsadd x d a b m) (slicedBody (.vbsadd x d a b m) x d a b m (fun p q => p + q)) s

/-- VBSMUL (R314). -/
def execVbsmul (x : Stack) (d a b : VReg) (m : MReg) (s : State) : Out :=
  issue (.vbsmul x d a b m) (slicedBody (.vbsmul x d a b m) x d a b m (fun p q => p * q)) s

/-- VABS (R311). -/
def execVabs (x : Stack) (d a : VReg) (m : MReg) (s : State) : Out :=
  issue (.vabs x d a m) (oneSource (.vabs x d a m) x d a m isArith fVabs) s

/-- VNEG (R325). -/
def execVneg (x : Stack) (d a : VReg) (m : MReg) (s : State) : Out :=
  issue (.vneg x d a m) (oneSource (.vneg x d a m) x d a m isArith fVneg) s

/-- VSQRT (R341). -/
def execVsqrt (x : Stack) (d a : VReg) (m : MReg) (s : State) : Out :=
  issue (.vsqrt x d a m) (oneSource (.vsqrt x d a m) x d a m isFloat fVsqrt) s

/-- VRCP (R341). -/
def execVrcp (x : Stack) (d a : VReg) (m : MReg) (s : State) : Out :=
  issue (.vrcp x d a m) (oneSource (.vrcp x d a m) x d a m isFloat fVrcp) s

/-- VRSQ (R341). -/
def execVrsq (x : Stack) (d a : VReg) (m : MReg) (s : State) : Out :=
  issue (.vrsq x d a m) (oneSource (.vrsq x d a m) x d a m isFloat fVrsq) s

/-- VEXP2 (R325). -/
def execVexp2 (x : Stack) (d a : VReg) (m : MReg) (s : State) : Out :=
  issue (.vexp2 x d a m) (oneSource (.vexp2 x d a m) x d a m isFloat fVexp2) s

/-- VLOG2 (R325). -/
def execVlog2 (x : Stack) (d a : VReg) (m : MReg) (s : State) : Out :=
  issue (.vlog2 x d a m) (oneSource (.vlog2 x d a m) x d a m isFloat fVlog2) s

/-- VCLASS (R311). -/
def execVclass (x : Stack) (d a : VReg) (m : MReg) (s : State) : Out :=
  issue (.vclass x d a m) (oneSource (.vclass x d a m) x d a m isFloat fVclass) s

/-- VNOT (R325). -/
def execVnot (x : Stack) (d a : VReg) (m : MReg) (s : State) : Out :=
  issue (.vnot x d a m) (oneSource (.vnot x d a m) x d a m isArith fVnot) s

/-- VCLZ (R311). -/
def execVclz (x : Stack) (d a : VReg) (m : MReg) (s : State) : Out :=
  issue (.vclz x d a m) (oneSource (.vclz x d a m) x d a m isInt fVclz) s

/-- VPOPC (R341). -/
def execVpopc (x : Stack) (d a : VReg) (m : MReg) (s : State) : Out :=
  issue (.vpopc x d a m) (oneSource (.vpopc x d a m) x d a m isInt fVpopc) s

/-- VMOV, vector form (R337). -/
def execVmov (x : Stack) (d a : VReg) (m : MReg) (s : State) : Out :=
  issue (.vmov x d a m) (vmovBody (.vmov x d a m) x d a m) s

/-- VMOV, scalar form (R337). -/
def execVmovScalar (x : Stack) (d : VReg) (a : SReg) (m : MReg) (s : State) : Out :=
  issue (.vmovScalar x d a m) (vmovScalarBody (.vmovScalar x d a m) x d a m) s

/-- VIDX (R330). -/
def execVidx (x : Stack) (d : VReg) (start : BitVec 10) (step : BitVec 8) (s : State) : Out :=
  issue (.vidx x d start step) (vidxBody (.vidx x d start step) x d start step) s

end Sys2Proof.Machine
end

