-- ==== Sys2Proof/Machine/VecMove.lean ====
section
/-! DEFINITION. The rest of class 011: mask instructions (R302), permutations (R317, R323, R326, R331, R340, R345, R315),
reductions (R80, R343), conversion with block scales and the purse (R67 to R69, R79, R318), VSCL (R348). -/

namespace Sys2Proof.Machine

/-! Mask instructions. -/

/-- A mask instruction that writes a mask: bit `e` of the result, from bit `src e` of the masks that it reads (R302). -/
def maskBody (i : Instr) (x : Stack) (d : MReg) (ms : List MReg) (rs : List SReg) (f : Hart → Nat → Bool)
    (s : State) (src : Nat → Option Nat := some) : Res :=
  (legalVec x (d != 0) [] (d :: ms) <| withClean rs <| checked i fun sp s =>
    let h := s.h.forMask d
    let y := h.layout
    let plan : Plan :=
      { i := i
        act := fun e => h.active 0 false e
        f := fun e => match ms.findSome? (fun m => (src e).bind (h.maskPoison m)) with
          | some l => .poison l
          | none => .val 0 0 0 (f h e)
        stripe := y.stripe, put := putBitsOf d, dreg := none, dmask := some d }
    plan.run sp s) s

/-- MPOPC and MFIRST (R302): the result for the elements given. In a block each virtual processor acts on its own
element, in ascending order, and the last write stands. -/
def maskScalarBody (i : Instr) (x : Stack) (d : SReg) (a : MReg) (f : Hart → List Nat → Word) (s : State) : Res :=
  (legalVec x true [] [a] <| checkedWhole i none none fun s =>
    let es := s.h.elems
    match es.findSome? (fun e => (s.h.maskPoison a e).map fun l => (e, l)) with
    | some (e, l) => consume s l 0 (wd e) none
    | none =>
      if s.h.group.isSome then .done (es.foldl (fun s e => s.writeS d (f s.h [e])) s)
      else .done (s.writeS d (f s.h es))) s

/-- MPOPC. -/
def fMpopc (a : MReg) (h : Hart) (es : List Nat) : Word := wd (es.countP (h.maskBit a))
/-- MFIRST. -/
def fMfirst (a : MReg) (h : Hart) (es : List Nat) : Word :=
  match es.find? (h.maskBit a) with
  | some e => wd e
  | none => BitVec.allOnes 64

/-! Permutations. -/

/-- A permutation: element `e` of the result is moved from element `f e` of `a`, where it is written (R317, R323). -/
def movePlan (i : Instr) (d a : VReg) (h : Hart) (act : Nat → Except PLoc Bool) (f : Nat → Nat) : Plan :=
  let y := h.layout
  let v := h.env y (some d) [a]
  { i := i, act := act, f := fun e => moved (v.elem a (f e))
    stripe := y.stripe, put := putReg d y, dreg := some d, dmask := none }

/-- VPERM (R340): the index is consumed, the element moved. -/
def vpermBody (i : Instr) (x : Stack) (d a j : VReg) (m : MReg) (s : State) : Res :=
  (legalVec x (!isSliced s.h.fmt && 8 ≤ width s.h.fmt) [d, a, j] [m] <| checked i fun sp s =>
    let h := s.h
    let y := h.layout
    let v := h.env y (some d) [a, j]
    let plan : Plan :=
      { i := i, act := fun e => h.active m (maskInv x) e
        f := fun e => on1 (v.elem j e) fun n => if n < h.vl then moved (v.elem a n) else .val 0 0 0 false
        stripe := y.stripe, put := putReg d y, dreg := some d, dmask := none }
    plan.run sp s) s

/-- VCOMP (R317). -/
def vcompBody (i : Instr) (x : Stack) (d a : VReg) (m : MReg) (s : State) : Res :=
  (legalVec x (!isSliced s.h.fmt) [d, a] [m] <| checked i fun sp s =>
    let h := s.h
    let es := ((List.range h.vl).filter fun e => h.maskBit m e != (m != 0 && maskInv x)).toArray
    let act := fun e => match h.maskPoison m e with
      | some l => Except.error l
      | none => .ok (e < es.size)
    (movePlan i d a h act fun e => es.getD e 0).run sp s) s

/-- VDECB (R323): the strides are 2 ^ lx, 2 ^ ly, 2 ^ lz. -/
def vdecbBody (i : Instr) (x : Stack) (d a : VReg) (lz ly lx : Nat) (s : State) : Res :=
  (legalVec x (!isSliced s.h.fmt) [d, a] [] <| checked i fun sp s =>
    let h := s.h
    let g := h.geo
    let up := fun n l : Nat => (n + 2 ^ l - 1) / 2 ^ l
    let fx := up (g.gx * g.bx) lx
    let fy := up (g.gy * g.by_) ly
    let fz := up (g.gz * g.bz) lz
    let src := fun j : Nat =>
      g.index ⟨(j % fx * 2 ^ lx : Nat), (j / fx % fy * 2 ^ ly : Nat), (j / (fx * fy) * 2 ^ lz : Nat)⟩
    (movePlan i d a h (fun e => .ok (e < fx * fy * fz)) src).run sp s) s

/-- The poisoned words of the code that codes of width `w` join to, the lowest first. -/
def joinBad (w : Nat) (cs : List (Nat × Bad)) : Bad :=
  ((List.range cs.length).zip cs).foldl (fun b c => if c.2.2 = 0 then b else b ||| c.2.2 * 2 ^ (c.1 * w / 32)) 0

/-- VRESH (R345). -/
def vreshBody (i : Instr) (x : Stack) (d a : VReg) (f : Fmt) (s : State) : Res :=
  let ys := s.h.layoutAt (width f) false
  (legalVec x (!isSliced s.h.fmt && !isSliced f && ys.b * ys.s * ys.w ≤ 32 * s.h.blockWords) [d, a] [] <|
    checked i fun sp s =>
      let h := s.h
      let y := h.layout
      let v := h.env ys (some d) [a]
      let n := Nat.min h.vl (h.vl * ys.w / y.w)
      let code := fun e => match v.elem a e with
        | .code c _ p => (c, badOf p)
        | .shell => (0, 0)
      let plan : Plan :=
        { i := i, act := fun _ => .ok true
          f := fun j =>
            if n ≤ j then .val 0 0 0 false
            else if ys.w ≤ y.w then
              let k := y.w / ys.w
              let cs := (List.range k).map fun t => code (j * k + t)
              .val (cs.foldr (fun c n => c.1 + 2 ^ ys.w * n) 0) 0 (joinBad ys.w cs) false
            else
              let k := ys.w / y.w
              let c := code (j / k)
              .val (c.1 / 2 ^ (j % k * y.w) % 2 ^ y.w) 0 (if c.2.testBit (j % k * y.w / 32) then 1 else 0) false
          stripe := fun _ => 0, put := putReg d y, dreg := some d, dmask := none }
      plan.run sp s) s

/-- VEXT (R326). -/
def vextBody (i : Instr) (x : Stack) (d : SReg) (a : VReg) (b : SReg) (s : State) : Res :=
  (legalVec x (!isSliced s.h.fmt) [a] [] <| withClean [b] <| checkedWhole i none none fun s =>
    let h := s.h
    let n := (h.sreg b).toNat
    if n < h.vl then
      match (h.env h.layout none [a]).elem a n with
      | .code c _ p =>
        .done (s.writeSP d (if isSigned h.fmt then BitVec.ofInt 64 (signedOf (width h.fmt) c) else wd c) p.isSome)
      | .shell => .done s
    else .done (s.writeS d 0)) s

/-- The stripes of a register from the one at which its instruction resumes, and below `k`, as they were kept (R195, R196). -/
def Hart.rebuilt (h : Hart) (d : VReg) (k : Nat) : Hart :=
  match h.resume with
  | none => h
  | some o =>
    let mine := fun c : VCell => c.key / 8192 == d.val && o.stripe ≤ c.key % 128 && c.key % 128 < k
    let others := h.vregs.filter fun c => !mine c
    { h with vregs := mergeCells (others.length + o.kept.length + 1) others (o.kept.filter mine) }

/-- VINS (R331): its destination is read in every stripe, so one that resumes rebuilds its stripes from what was kept. -/
def vinsBody (i : Instr) (x : Stack) (d : VReg) (a b : SReg) (s : State) : Res :=
  let n := (s.h.sreg b).toNat
  let put := fun h : Hart => h.putElems d h.layout [(n, (h.sreg a).toNat % 2 ^ width h.fmt, allBad (h.sPoison a))]
  (legalVec x (!isSliced s.h.fmt) [d] [] <| withClean [b] <| checkedWhole i (some d) none
    (fun s => .done (s.modH fun h =>
      let h := h.rebuilt d 128
      if n < h.vl && h.firstStripe ≤ h.layout.stripe n then put h else h))
    (part := fun k h =>
      let h := h.rebuilt d k
      if n < h.vl && h.firstStripe ≤ h.layout.stripe n && h.layout.stripe n < k then put h else h)) s

/-- The words of VBSL and VBSJ (R315): every local position of every lane held. Bit `j * b + i` of the sliced layout is bit
`i * n + j` of the joined one. -/
def reslice (d a : VReg) (toSliced : Bool) (h : Hart) : Hart :=
  let y := h.layout
  let n := y.w
  let b := y.positions
  let v := viewOf h.vgen (h.source d a) a y
  let ks := viewKeys d y.lanes y.words
  let old := ((takeWords h.vgen ks (h.regCells d)).map fun w => (⟨w.1, w.2, 0, false⟩ : WWord)).toArray
  let new := (List.range y.lanes).foldl (fun arr lane =>
    (List.range (n * b)).foldl (fun arr p =>
      let j := p / b
      let k := p % b
      let src := if toSliced then k * n + j else p
      let dst := if toSliced then p else k * n + j
      arr.modify (y.slot lane (dst / 32)) fun w =>
        w.put (dst % 32) 1 (if v.bit lane src then 1 else 0) (v.word lane (src / 32)).2) arr) old
  h.putCells ((ks.zip new.toList).filterMap fun p =>
    if p.2.cover = 0 then none
    else some ⟨p.1, BitVec.ofNat 32 p.2.val, p.2.fresh || p.2.poison && p.2.cover < 32⟩)

/-- VBSL and VBSJ (R315). -/
def resliceBody (i : Instr) (x : Stack) (d a : VReg) (toSliced : Bool) (s : State) : Res :=
  (legalVec x (isSliced s.h.fmt) [d, a] [] <| wordsBody i d (reslice d a toSliced)) s

/-! Reductions. -/

/-- A node of the tree of R80, over two leaves or nodes, of which none stands for the identity: `f` combines two values, and `g`
combines one with the identity, which leaves it unchanged but for what every operation does to a NaN or a subnormal. -/
def treeNode (f : Nat → Nat → Nat × Nat) (g : Nat → Nat × Nat) : Option Nat → Option Nat → Option Nat × Nat
  | some a, some b => (some (f a b).1, (f a b).2)
  | some a, none => (some (g a).1, (g a).2)
  | none, some b => (some (g b).1, (g b).2)
  | none, none => (none, 0)

/-- One level of the tree of R80: pairs combined, an odd one with the identity. -/
def treeLevel (node : Option Nat → Option Nat → Option Nat × Nat) : List (Option Nat) → Nat → List (Option Nat) × Nat
  | [], fl => ([], fl)
  | [a], fl => ([(node a none).1], fl ||| (node a none).2)
  | a :: b :: l, fl =>
    let r := node a b
    let t := treeLevel node l (fl ||| r.2)
    (r.1 :: t.1, t.2)

/-- The levels of the tree of R80; the leaves beyond the list are identities, and stay so. -/
def tree (node : Option Nat → Option Nat → Option Nat × Nat) : Nat → List (Option Nat) → Nat → Option Nat × Nat
  | 0, l, fl => (l.headD none, fl)
  | k + 1, l, fl => let t := treeLevel node l fl; tree node k t.1 t.2

/-- Levels of the tree over `n` elements. -/
def treeDepth (n : Nat) : Nat := if n ≤ 1 then 0 else bitLen (n - 1)

/-- The body of a reduction (R343). With VL = 1 the tree of R80 has no node, so a single element is delivered as it stands, with
no flag and no rounding: DESIGN CHOICE, log entry 46. The identity -0 leaves every sum unchanged under every rounding mode
(R80): a node with an identity adds under RNE. -/
def reduceBody (i : Instr) (x : Stack) (d a : VReg) (m : MReg) (ok : Fmt → Bool) (ident : Hart → Nat)
    (f : Hart → Nat → Nat → Nat × Nat) (s : State) : Res :=
  (legalVec x (ok s.h.fmt) [d, a] [m] <| checked i fun sp s =>
    let h := s.h
    let y := h.layout
    let v := h.env y (some d) [a]
    let leaf := fun e => match h.active m (maskInv x) e with
      | .error l => (none, some l)
      | .ok false => (none, none)
      | .ok true => match v.elem a e with
        | .code c _ p => (some c, p.map (·.1))
        | .shell => (none, none)
    let leaves := (List.range h.vl).map leaf
    let bad := findIdx (fun p : Option Nat × Option PLoc => p.2.isSome) leaves 0
    let node := treeNode (f h) fun a => f { h with frm := h.frm &&& ~~~7 } a (ident h)
    let r := tree node (treeDepth h.vl) (leaves.map (·.1)) 0
    let plan : Plan :=
      { i := i, act := fun e => .ok (e == 0)
        f := fun _ => match bad.bind (fun e => (leaves.getD e (none, none)).2) with
          | some l => .poison l
          | none => .val (r.1.getD (ident h)) r.2 0 false
        stripe := fun _ => 0, put := putReg d y, dreg := some d, dmask := none }
    match plan.run sp s with
    | .trap s t => .trap s (if t.code = cData then { t with val := wd (bad.getD 0) } else t)
    | .done s => .done s
    | .jump s p => .jump s p
    | .wait s w => .wait s w
    | .squash l => .squash l
    | .gone s => .gone s) s

/-- The identity of VRSUM (Table 4-11). -/
def idSum (h : Hart) : Nat := if isFloat h.fmt then 2 ^ (width h.fmt - 1) else 0
/-- The identity of VRMAX. -/
def idMax (h : Hart) : Nat :=
  if isFloat h.fmt then infCode h.fmt true else if isSigned h.fmt then 2 ^ (width h.fmt - 1) else 0
/-- The identity of VRMIN. -/
def idMin (h : Hart) : Nat :=
  if isFloat h.fmt then infCode h.fmt false
  else if isSigned h.fmt then 2 ^ (width h.fmt - 1) - 1 else 2 ^ width h.fmt - 1
/-- The identity of VRAND. -/
def idAnd (h : Hart) : Nat := 2 ^ width h.fmt - 1
/-- The identity of VROR. -/
def idOr (_ : Hart) : Nat := 0

/-! Block scales, the purse and conversion. -/

/-- The values of a purse entry: where it belongs, its BF16 code, its poison. -/
structure PEntry where
  reg : VReg
  e : Nat
  code : Nat
  poison : Option PLoc
  deriving DecidableEq, Repr

/-- Reads the purse entries of a list of escapes, in order (R69); or the fault, at the element of the first escape whose
entry faulted. DEDUCED, log entry 30. -/
def readPurse (s : State) : Nat → List (VReg × Nat) → Except Res (List PEntry)
  | _, [] => .ok []
  | n, (r, e) :: l =>
    match probe s needRead (s.h.purse.toNat + 2 * n : Nat) 2 2 with
    | .bad c => .error (.trap s (wholeTrap c (wd e)))
    | .wait => .error (.wait s .retry)
    | .poisoned w => .error (consume s (.mem w) 0 (wd e) none)
    | .ok p =>
      match readPurse s (n + 1) l with
      | .error x => .error x
      | .ok es =>
        let b := s.loadBytes (s.h.purse.toNat + 2 * n) p 2
        .ok (⟨r, e, bytesNat b.1, b.2⟩ :: es)

/-- The escapes of E2M1 among the given elements of registers, in the order of R69. -/
def escapes (v : Env) (ranges : List (VReg × List Nat)) : List (VReg × Nat) :=
  ranges.flatMap fun p => (p.2.filter fun e => match v.elem p.1 e with
    | .code c _ _ => c == 8
    | .shell => false).map fun e => (p.1, e)

/-- Runs `k` with the purse entries that an instruction reserves. Transfers that write the purse are performed first. -/
def withPurse (ranges : Hart → Env → List (VReg × List Nat)) (y : Layout) (dst : Option VReg) (rs : List VReg)
    (k : List PEntry → State → Res) (s : State) : Res :=
  if s.h.fmt != .e2m1 then k [] s
  else
    let v := s.h.env y dst rs
    let es := escapes v (ranges s.h v)
    if es.isEmpty then k [] s
    else
      let s := s.drain
      match readPurse s 0 es with
      | .error r => r
      | .ok l => k l s

/-- Block scaling applies (R67). -/
def Hart.scaled (h : Hart) (f : Fmt) : Bool := h.bs && isSmall f

/-- The value of an element read as a block-scaled or small-float value: with the purse escapes of E2M1 resolved and the
scale applied (R67, R69); or the poisoned word it consumes. An escape with no purse entry yields NaN and raises the invalid
exception whatever its scale: R69 says so of a read through LINK that ends in a register not named. A queue entry and a
shell constant have no register, and so no scale and no purse entry (DEDUCED, log entry 30); nor has an element of a named
register outside its read range (DESIGN CHOICE, log entry 46). -/
def smallVal (h : Hart) (f : Fmt) (ents : List PEntry) (c : Nat) (org : Option (VReg × Nat)) : Except PLoc FVal :=
  let entry := org.bind fun u => ents.find? fun p => p.reg == u.1 && p.e == u.2
  if f = .e2m1 ∧ c % 16 = 8 ∧ entry.isNone then .ok (.nan true)
  else
    let base : Except PLoc FVal :=
      if f = .e2m1 ∧ c % 16 = 8 then
        match entry with
        | none => .ok (.nan true)
        | some p => match p.poison with
          | some l => .error l
          | none => .ok (decodeF .bf16 p.code)
      else .ok (decodeF f c)
    match base, org with
    | .error l, _ => .error l
    | .ok v, none => .ok v
    | .ok v, some (u, j) =>
      if !h.scaled f then .ok v
      else match h.scalePoison (pairK u) (j / 32) with
        | some l => .error l
        | none =>
          let k := (h.scale (pairK u) (j / 32)).toNat
          if k = 255 then .ok (.nan false)
          else match v with
            | .fin n m e => .ok (.fin n m (e + (k - 127)))
            | .inf n => .ok (.inf n)
            | .nan q => .ok (.nan q)

/-- One element of VCVT (R79, R318): from the source's code to the destination's. A poisoned scale word of the destination
comes before a shell trap of the source (R191). -/
def cvtElem (h : Hart) (fd : Fmt) (rm : RM) (ents : List PEntry) (d : VReg) (e : Nat) (r : RRes) : EOut :=
  match r with
  | .shell => match if h.scaled fd then h.scalePoison (pairK d) (e / 32) else none with
    | some l => .poison l
    | none => .shell
  | .code _ _ (some l) => .poison l.1
  | .code c org none =>
    let fs := h.fmt
    let src : Except PLoc FVal :=
      if isSmall fs then smallVal h fs ents c org
      else if isFloat fs || fs = .e8m0 then .ok (operandF fs h.ftz c)
      else .ok (.fin (intOf fs c < 0) (intOf fs c).natAbs 0)
    match src with
    | .error l => .poison l
    | .ok v =>
      if h.scaled fd then
        match h.scalePoison (pairK d) (e / 32) with
        | some l => .poison l
        | none =>
          let k := (h.scale (pairK d) (e / 32)).toNat
          if k = 255 then .val (nanCode fd) fNV 0 false
          else
            let r := convertF fd rm h.ftz h.sat (v.shift (127 - k))
            .val r.1 (onlyNV r.2) 0 false
      else
        let r := if isFloat fs || isSmall fs || fs = .e8m0 then convertF fd rm h.ftz h.sat v
                 else convertI fs fd rm h.ftz h.sat (intOf fs c)
        .val r.1 (onlyNV r.2) 0 false

/-- VCVT (R318). In a block of virtual processors each execution reads the purse for the elements of its group: DESIGN CHOICE,
log entry 46. -/
def vcvtBody (i : Instr) (x : Stack) (d : VReg) (a : VReg) (fd : Fmt) (m : MReg) (r : RmField) (s : State) : Res :=
  let p := s.h.src1 x a
  let yd := s.h.layoutAt (width fd) false
  (legalReads x (!isSliced s.h.fmt && !isSliced fd && yd.b * yd.s * yd.w ≤ 32 * s.h.blockWords) (d :: p.reg?) (s.h.regsOf p) [m] (queuesOf p p) <|
    checked i fun sp s =>
      let y := s.h.layout
      withPurse (fun h _ => p.reg?.map fun u => (u, h.elems)) y (some d) (s.h.regsOf p) (fun ents s =>
        let h := s.h
        let v := h.env y (some d) (h.regsOf p)
        let plan : Plan :=
          { i := i, act := fun e => h.active m (maskInv x) e
            f := fun e => cvtElem h fd (h.rmOf r) ents d e (v.read p e)
            stripe := yd.stripe, put := putReg d yd, dreg := some d, dmask := none
            frees := queuesOf p p, purse := 2 * ents.length }
        plan.run sp s) s) s

/-- a * 2^t is at least b, for naturals. -/
def geScaled (a b : Nat) (t : Int) : Bool := if 0 ≤ t then b * 2 ^ t.toNat ≤ a else b ≤ a * 2 ^ (-t).toNat

/-- round_RM(log2(a / b)) for positive naturals, exactly (R348). -/
def log2Ratio (rm : RM) (a b : Nat) : Int :=
  let t : Int := bitLen a - bitLen b
  let f := if geScaled a b t then t else t - 1
  let exact := if 0 ≤ f then a == b * 2 ^ f.toNat else a * 2 ^ (-f).toNat == b
  if exact then f
  else match rm with
    | .rne => if geScaled (a * a) (b * b) (2 * f + 1) then f + 1 else f
    | .rtz => if 0 ≤ f then f else f + 1
    | .rdn => f
    | .rup => f + 1

/-- The entry of a block (R348), from its values: none when the block is empty. -/
def sclEntry (rm : RM) (target : Fmt) (vs : List FVal) : Option (BitVec 8) :=
  if vs.isEmpty then none
  else if vs.any fun v => match v with
      | .nan _ => true
      | .inf _ => true
      | .fin _ _ _ => false then some 255
  else
    let top := vs.foldl (fun b v => if ltF b (if v.neg then v.negate else v) then (if v.neg then v.negate else v) else b)
      (.fin false 0 0)
    match top, decodeF target (fspec target).maxCode with
    | .fin _ m e, .fin _ n f =>
      if m = 0 then some 127
      else
        let q := if e < f then e else f
        let k := log2Ratio rm (m * 2 ^ (e - q).toNat) (n * 2 ^ (f - q).toNat) + 127
        some (BitVec.ofInt 8 (if k < 0 then 0 else if 254 < k then 254 else k))
    | _, _ => some 127

/-- VSCL (R348): its flags and its data errors are taken before any entry is written. -/
def vsclBody (i : Instr) (x : Stack) (k : KReg) (a : VReg) (f : Fmt) (m : MReg) (r : RmField) (s : State) : Res :=
  (legalVec x (isFloat s.h.fmt && isSmall f) [a] [m] <| checked i fun sp s =>
    let h := s.h
    let v := h.env h.layout none [a]
    let val := fun e => match v.elem a e with
      | .code c _ _ => operandF h.fmt h.ftz c
      | .shell => .fin false 0 0
    let on := fun e => match h.active m (maskInv x) e with
      | .ok b => b
      | .error _ => false
    let entries := (List.range ((h.vl + 31) / 32)).filterMap fun j =>
      (sclEntry (h.rmOf r) f (((List.range (Nat.min 32 (h.vl - 32 * j))).filter fun t => on (32 * j + t)).map
        fun t => val (32 * j + t))).map fun b => (j, b)
    let plan : Plan :=
      { i := i, act := fun e => h.active m (maskInv x) e
        f := fun e => on1 (v.elem a e) fun c => match operandF h.fmt h.ftz c with
          | .nan sig => .val 0 (if sig then fNV else 0) 0 false
          | .inf _ => .val 0 fNV 0 false
          | .fin _ _ _ => .val 0 0 0 false
        stripe := fun _ => 0
        put := fun vs h => if vs.isEmpty then h else h.putScales k entries
        dreg := none, dmask := none }
    plan.run sp s) s

/-! The meanings. -/

/-- MAND (R302). -/
def execMand (x : Stack) (d a b : MReg) (s : State) : Out :=
  issue (.mand x d a b) (maskBody (.mand x d a b) x d [a, b] [] fun h e => h.maskBit a e && h.maskBit b e) s

/-- MOR (R302). -/
def execMor (x : Stack) (d a b : MReg) (s : State) : Out :=
  issue (.mor x d a b) (maskBody (.mor x d a b) x d [a, b] [] fun h e => h.maskBit a e || h.maskBit b e) s

/-- MXOR (R302). -/
def execMxor (x : Stack) (d a b : MReg) (s : State) : Out :=
  issue (.mxor x d a b) (maskBody (.mxor x d a b) x d [a, b] [] fun h e => h.maskBit a e != h.maskBit b e) s

/-- MANDN (R302). -/
def execMandn (x : Stack) (d a b : MReg) (s : State) : Out :=
  issue (.mandn x d a b) (maskBody (.mandn x d a b) x d [a, b] [] fun h e => h.maskBit a e && !h.maskBit b e) s

/-- MNOT (R302). -/
def execMnot (x : Stack) (d a : MReg) (s : State) : Out :=
  issue (.mnot x d a) (maskBody (.mnot x d a) x d [a] [] fun h e => !h.maskBit a e) s

/-- MSHL (R302). -/
def execMshl (x : Stack) (d a : MReg) (b : SReg) (s : State) : Out :=
  issue (.mshl x d a b) (fun s => maskBody (.mshl x d a b) x d [a] [b] (fun h e =>
    if e = 0 then (h.operand b).getLsbD 0 else h.maskBit a (e - 1)) s
      (fun e => if e = 0 then none else some (e - 1))) s

/-- MPOPC (R302). -/
def execMpopc (x : Stack) (d : SReg) (a : MReg) (s : State) : Out :=
  issue (.mpopc x d a) (maskScalarBody (.mpopc x d a) x d a (fMpopc a)) s

/-- MFIRST (R302). -/
def execMfirst (x : Stack) (d : SReg) (a : MReg) (s : State) : Out :=
  issue (.mfirst x d a) (maskScalarBody (.mfirst x d a) x d a (fMfirst a)) s

/-- MSET (R302). -/
def execMset (x : Stack) (d : MReg) (a : SReg) (s : State) : Out :=
  issue (.mset x d a) (maskBody (.mset x d a) x d [] [a] fun h e => e < (h.operand a).toNat) s

/-- VPERM (R340). -/
def execVperm (x : Stack) (d a j : VReg) (m : MReg) (s : State) : Out :=
  issue (.vperm x d a j m) (vpermBody (.vperm x d a j m) x d a j m) s

/-- VCOMP (R317). -/
def execVcomp (x : Stack) (d a : VReg) (m : MReg) (s : State) : Out :=
  issue (.vcomp x d a m) (vcompBody (.vcomp x d a m) x d a m) s

/-- VDECB (R323). -/
def execVdecb (x : Stack) (d a : VReg) (z y w : Fin 4) (s : State) : Out :=
  issue (.vdecb x d a z y w) (vdecbBody (.vdecb x d a z y w) x d a z y w) s

/-- VRESH (R345). -/
def execVresh (x : Stack) (d a : VReg) (f : Fmt) (s : State) : Out :=
  issue (.vresh x d a f) (vreshBody (.vresh x d a f) x d a f) s

/-- VEXT (R326). -/
def execVext (x : Stack) (d : SReg) (a : VReg) (b : SReg) (s : State) : Out :=
  issue (.vext x d a b) (vextBody (.vext x d a b) x d a b) s

/-- VINS (R331). -/
def execVins (x : Stack) (d : VReg) (a b : SReg) (s : State) : Out :=
  issue (.vins x d a b) (vinsBody (.vins x d a b) x d a b) s

/-- VBSL (R315). -/
def execVbsl (x : Stack) (d a : VReg) (s : State) : Out :=
  issue (.vbsl x d a) (resliceBody (.vbsl x d a) x d a true) s

/-- VBSJ (R315). -/
def execVbsj (x : Stack) (d a : VReg) (s : State) : Out :=
  issue (.vbsj x d a) (resliceBody (.vbsj x d a) x d a false) s

/-- VRSUM (R343). -/
def execVrsum (x : Stack) (d a : VReg) (m : MReg) (s : State) : Out :=
  issue (.vrsum x d a m) (reduceBody (.vrsum x d a m) x d a m isArith idSum fun h p q => fVadd h p q 0) s

/-- VRMAX (R343). -/
def execVrmax (x : Stack) (d a : VReg) (m : MReg) (s : State) : Out :=
  issue (.vrmax x d a m) (reduceBody (.vrmax x d a m) x d a m isArith idMax fun h p q => fVmax h p q 0) s

/-- VRMIN (R343). -/
def execVrmin (x : Stack) (d a : VReg) (m : MReg) (s : State) : Out :=
  issue (.vrmin x d a m) (reduceBody (.vrmin x d a m) x d a m isArith idMin fun h p q => fVmin h p q 0) s

/-- VRAND (R343). -/
def execVrand (x : Stack) (d a : VReg) (m : MReg) (s : State) : Out :=
  issue (.vrand x d a m) (reduceBody (.vrand x d a m) x d a m isInt idAnd fun h p q => fVand h p q 0) s

/-- VROR (R343). -/
def execVror (x : Stack) (d a : VReg) (m : MReg) (s : State) : Out :=
  issue (.vror x d a m) (reduceBody (.vror x d a m) x d a m isInt idOr fun h p q => fVor h p q 0) s

/-- VCVT (R318). -/
def execVcvt (x : Stack) (d a : VReg) (f : Fmt) (m : MReg) (r : RmField) (s : State) : Out :=
  issue (.vcvt x d a f m r) (vcvtBody (.vcvt x d a f m r) x d a f m r) s

/-- VSCL (R348). -/
def execVscl (x : Stack) (k : KReg) (a : VReg) (f : Fmt) (m : MReg) (r : RmField) (s : State) : Out :=
  issue (.vscl x k a f m r) (vsclBody (.vscl x k a f m r) x k a f m r) s

end Sys2Proof.Machine
end

