-- ==== Sys2Proof/Machine/VecMem.lean ====
section
/-! DEFINITION. Vector memory: loads (R320 to R322, R332 to R336, R98), stores (R352, R353, R99, R349), prefetches (R342),
atomics (R313), remote reductions (R344), QDROP and TKCLR (R305, R109). -/

namespace Sys2Proof.Machine

/-! Elements and their places. -/

/-- An element access: its element, its exact address, its bytes; 0 bytes when the element makes no access. -/
structure Acc where
  e : Nat
  a : Int
  n : Nat
  deriving DecidableEq, Repr

/-- The accesses of the active elements of a list, or the element and the poisoned word that decides one of them. -/
def collect (act : Nat → Except PLoc Bool) (addr : Nat → Except PLoc (Int × Nat)) :
    List Nat → Except (Nat × PLoc) (List Acc)
  | [] => .ok []
  | e :: es =>
    match act e with
    | .error l => .error (e, l)
    | .ok false => collect act addr es
    | .ok true =>
      match addr e with
      | .error l => .error (e, l)
      | .ok (a, n) => (collect act addr es).map fun l => ⟨e, a, n⟩ :: l

/-- Probes every access (R179, R180): the places, or what the lowest element that fails comes to. -/
def probeAll (s : State) (need : Need) (align : Nat) : List Acc → Except Res (List (Acc × Phys))
  | [] => .ok []
  | x :: xs =>
    if x.n = 0 then (probeAll s need align xs).map fun l => (x, ⟨0, false, false, false, 0⟩) :: l
    else
      match probe s need x.a x.n align with
      | .bad c => .error (.trap s (wholeTrap c (wd x.e)))
      | .wait => .error (.wait s .retry)
      | .poisoned w => .error (consume s (.mem w) 0 (wd x.e) none)
      | .ok p => (probeAll s need align xs).map fun l => (x, p) :: l

/-- Runs `k` on the places of the active elements among `es`, once all of them have been probed and no outstanding
transfer of the hart overlaps them (R179, R120). -/
def withElems (need : Need) (align : Nat) (es : List Nat) (act : Nat → Except PLoc Bool)
    (addr : Nat → Except PLoc (Int × Nat)) (k : List (Acc × Phys) → State → Res) (s : State) : Res :=
  match collect act addr es with
  | .error (e, l) => consume s l 0 (wd e) none
  | .ok xs =>
    match probeAll s need align xs with
    | .error r => r
    | .ok ps =>
      k ps (ps.foldl (fun s p =>
        if p.1.n = 0 then s else s.interlockElem need.w State.nextPage p.1.a.toNat p.2 p.1.n) s)

/-! Address forms (Tables 16-8, 17-5). -/

/-- Unit stride (R321): the bits from e * w on of the byte string at the base. -/
def unitAddr (base : Int) (w e : Nat) : Except PLoc (Int × Nat) :=
  .ok (base + (e * w / 8 : Nat), (e * w % 8 + w + 7) / 8)

/-- A signed stride counted in elements. -/
def strideAddr (base stride : Int) (w e : Nat) : Except PLoc (Int × Nat) := .ok (base + e * stride * (w / 8 : Nat), w / 8)

/-- A signed byte offset taken from a register; `n` bytes are accessed. -/
def indexAddr (base : Int) (v : Env) (i : VReg) (w n e : Nat) : Except PLoc (Int × Nat) :=
  match v.elem i e with
  | .code _ _ (some l) => .error l.1
  | .code c _ none => .ok (base + signedOf w c, n)
  | .shell => .ok (base, n)

/-- A brick field in a raster array (R334). -/
def brickAddr (h : Hart) (base row plane : Int) (w e : Nat) : Except PLoc (Int × Nat) :=
  let p := h.geo.coord e
  .ok (base + p.z * plane + p.y * row + p.x * (w / 8 : Nat), w / 8)

/-- FX, FY and C of VLDB.S2C (R98, Table 13-12). -/
def s2cShape (h : Hart) (ext : BitVec 12) : Nat × Nat × Nat :=
  (if ext.getLsbD 0 then 4 else 2, if ext.getLsbD 1 then 4 else 2, (h.sreg (Fin.ofNat 64 (ext.toNat / 64))).toNat)

/-- An element of VLDB.S2C (R98); no access for a channel beyond FX * FY * C. -/
def s2cAddr (h : Hart) (base row : Int) (ext : BitVec 12) (w e : Nat) : Except PLoc (Int × Nat) :=
  let (fx, fy, c) := s2cShape h ext
  let p := h.geo.coord e
  let x := p.x.toNat
  if fx * fy * c ≤ x then .ok (0, 0)
  else
    let g := x / c
    let px := p.y.toNat * fx + g % fx
    let py := p.z.toNat * fy + g / fx
    .ok (base + py * row + ((px * c + x % c) * (w / 8) : Nat), w / 8)

/-- The operand limits of VLDB.S2C (R98). -/
def s2cOk (h : Hart) (ext : BitVec 12) : Bool :=
  let (fx, fy, c) := s2cShape h ext
  c != 0 && ((fx * fy * c : Nat) : Int) ≤ h.geo.extents.x

/-- The scalar register that an extension half-word names. -/
def extReg (x : Stack) : SReg := match x.ext with
  | some e => Fin.ofNat 64 (e.toNat / 64)
  | none => 0

/-- Alignment of an element (R321): its width in bytes, for the joined formats of 8 bits or more. -/
def elemAlign (f : Fmt) : Nat := if isSliced f || width f < 8 then 1 else width f / 8

/-- The formats of every vector memory instruction but the unit-stride ones (R321). -/
def wideFmt (f : Fmt) : Bool := !isSliced f && 8 ≤ width f

/-! Loads. -/

/-- A word is a scope miss of an acquire (R163, Table 8-4). Scratchpads never miss (R112). -/
def scopeMissWord (s : State) (sc : Scope) (pa : Nat) : Bool :=
  let off := !homedOnDie s.h.core pa
  match s.mem.reg pa, sc with
  | _, .sys => false
  | some r, .hart => r.core != s.h.core
  | some r, .core => r.core != s.h.core
  | some r, .pod => podOf r.core != podOf s.h.core
  | some _, .die => false
  | some _, .dev => false
  | none, .hart => true
  | none, .core => true
  | none, .pod => off
  | none, .die => off
  | none, .dev => (homeDie pa).isNone

/-- An element is a scope miss. DEDUCED, log entry 28. -/
def scopeMiss (s : State) (sc : Scope) (p : Phys) (n : Nat) : Bool :=
  !p.spad && (scopeMissWord s sc p.pa || scopeMissWord s sc (p.pa + n - 1))

/-- The scope of the acquire of a form, if it has one. -/
def acqScope (x : Stack) : Option Scope :=
  x.memm.bind fun m => if m.sem = .acq ∨ m.sem = .acqrel then some m.scope else none

/-- The code of an element in its bytes (R63, R321). -/
def codeIn (w e : Nat) (bytes : List Byte) : Nat := bytesNat bytes / 2 ^ (e * w % 8) % 2 ^ w

/-- The elements of a queue entry, 0 where nothing was loaded (R106). -/
def entryOf : Nat → Nat → List (Nat × Nat × Bad) → List (Nat × Bad)
  | 0, _, _ => []
  | n + 1, e, [] => (0, 0) :: entryOf n (e + 1) []
  | n + 1, e, v :: vs =>
    if v.1 = e then v.2 :: entryOf n (e + 1) vs else (0, 0) :: entryOf n (e + 1) (v :: vs)

/-- A load has a queue as its destination (R261). -/
def toQueue (x : Stack) : Bool := x.opm.any (·.qd)

/-- The poisoned words of `n` bytes that a hart loads: of 8 bytes, each half on its own (R206). -/
def State.loadBad (s : State) (va : Nat) (p : Phys) (n : Nat) : Bad :=
  if n = 8 then
    (if (s.loadBytes va p 4).2.isSome then 1 else 0)
      + (if (s.loadBytes (va + 4) { p with pa := p.pa + 4 } 4).2.isSome then 2 else 0)
  else if (s.loadBytes va p n).2.isSome then 1 else 0

/-- The values that a load finds at its places, with their poisoned words. -/
def loaded (s : State) (ps : List (Acc × Phys)) : List (Nat × Nat × Bad) :=
  let w := width s.h.fmt
  ps.map fun p =>
    if p.1.n = 0 then (p.1.e, 0, 0)
    else
      let va := p.1.a.toNat
      (p.1.e, codeIn w p.1.e (s.loadBytes va p.2 p.1.n).1, s.loadBad va p.2 p.1.n)

/-- Writes what a load has found to its register or queue (R320). -/
def deliverLoad (x : Stack) (d : Fin 64) (vs : List (Nat × Nat × Bad)) (h : Hart) : Hart :=
  if toQueue x then
    let q : Fin 4 := Fin.ofNat 4 d.val
    { h with queues := h.queues.set q (h.queues[q] ++ [⟨entryOf h.vl 0 vs⟩]) }
  else if vs.isEmpty then h
  else h.putElems d h.layout vs

/-- The body of a vector load (R320): `ok` is what the form requires, `rs` the scalars and `is_` the registers that form
its addresses. The acquire stands before the reads, which are then made at the point of coherence of its scope (R322).
Where `miss`, an acquire records its scope misses in m7 (R163). -/
def loadVec (x : Stack) (d : Fin 64) (is_ : List VReg) (m : MReg) (rs : List SReg) (ok : Hart → Bool) (need : Need)
    (addr : Hart → Env → Nat → Except PLoc (Int × Nat)) (miss : Bool) (s : State) : Res :=
  let q : Fin 4 := Fin.ofNat 4 d.val
  let full := toQueue x && 4 ≤ s.h.queues[q].length
  let sc := if miss then acqScope x else none
  (legalVec x (ok s.h && !full) ((if toQueue x then [] else [d]) ++ is_) (if sc.isSome then [m, 7] else [m]) <|
    withClean rs fun s =>
      let h := s.h
      withElems need (elemAlign h.fmt) (List.range h.vl) (fun e => h.active m (maskInv x) e)
        (addr h (h.env h.layout none is_)) (fun ps s =>
          match sc with
          | none =>
            let s := acqOf x s
            .done (s.modH (deliverLoad x d (loaded s ps)))
          | some sc =>
            let bad := ps.filter fun p => scopeMiss s sc p.2 p.1.n
            let good := ps.filter fun p => !scopeMiss s sc p.2 p.1.n
            let s := s.acquire sc
            .done (s.modH fun h =>
              (deliverLoad x d (loaded s good) h).putMask 7
                ((List.range h.vl).map fun e => (e, bad.any fun p => p.1.e == e)))) s) s

/-- What a unit-stride VLD or VST needs: device memory only with ORD (R321). -/
def unitNeed (x : Stack) (write : Bool) : Need :=
  { r := !write, w := write, x := false, kind := if x.memm.any (·.ord) then .withDevice else .noDevice }

/-- The core mask of VLDM is legal (R134). -/
def coreMaskOk (h : Hart) (b : SReg) : Bool :=
  let n := (h.sreg b).toNat
  n < 65536 && n.testBit (h.core.val % 16)

/-! Multicast loads (R134, R135). -/

/-- The two ends of the bytes of an element: their virtual and physical addresses, each with the SKEW of its page (R183). -/
def endsOf (s : State) (p : Acc × Phys) : List (Nat × Nat × Fin 3) :=
  let va := p.1.a.toNat
  let k := 4096 - va % 4096
  let last := if p.1.n ≤ k then (p.2.pa + p.1.n - 1, p.2.skew)
    else
      let q := s.nextPage (va + k) p.2
      (q.pa + (p.1.n - k) - 1, q.skew)
  [(va, p.2.pa, p.2.skew), (va + p.1.n - 1, last)]

/-- The physical addresses of the bytes of an element. -/
def bytesOf (s : State) (p : Acc × Phys) : List Nat :=
  let va := p.1.a.toNat
  let k := 4096 - va % 4096
  (List.range p.1.n).map fun i => if i < k then p.2.pa + i else (s.nextPage (va + k) p.2).pa + (i - k)

/-- The headers of a VLDM (R133, R135): one for each granule that an active element touches, over the bytes of the elements
below VL in it. -/
def mcParts (s : State) (base w : Nat) (mask : BitVec 16) (ps : List (Acc × Phys)) : List McPart :=
  let h := s.h
  let size := if w % 8 = 0 then w / 8 else 1
  let top := base + (h.vl * w + 7) / 8
  let grains := (ps.flatMap fun p => (endsOf s p).map fun q => (q.1 / 2048, q.2.1 / 2048, q.2.2)).foldl
    (fun (l : List (Nat × Nat × Fin 3)) g => if l.any fun x => x.1 == g.1 then l else l ++ [g]) []
  grains.map fun g =>
    let lo := Nat.max base (2048 * g.1)
    let hi := Nat.min top (2048 * g.1 + 2048)
    let pa := 2048 * g.2.1 + lo % 2048
    { slice := s.sliceOf h.core g.2.2 pa
      key := { base := pa, stride := size, len := (hi - lo) / size, esize := size, mask := mask, cid := h.cid, inc := h.inc } }

/-- The poisoned words of a code, from the poison of its bytes. -/
def badBytes (ps : List Bool) : Bad :=
  if ps.length = 8 then (if (ps.take 4).any id then 1 else 0) + (if (ps.drop 4).any id then 2 else 0)
  else if ps.any id then 1 else 0

/-- What a VLDM delivers of the bytes that have arrived; a byte that never came is poisoned (R150). -/
def Mcast.values (v : Mcast) (tick w : Nat) : List (Nat × Nat × Bad) :=
  v.elems.map fun p =>
    let bs := p.2.map fun pa => ((v.got.find? fun b => b.1 == pa).map (·.2)).getD (Config.freeByte tick pa, true)
    (p.1, codeIn w p.1 (bs.map (·.1)), badBytes (bs.map (·.2)))

/-- Core `c` drops its unregistered copies of the words of some bytes. -/
def Mem.dropWords (m : Mem) (c : CoreId) (pas : List Nat) : Mem :=
  let ws := (pas.map wordAt).eraseDups
  let keep := fun x : L1Copy => !(x.core == c && ws.contains x.pa)
  if m.l1.isEmpty && m.answers.isEmpty then m
  else { m with l1 := m.l1.filter keep, answers := m.answers.filter fun a => keep a.copy }

/-- The hart in focus writes what its VLDM received. Its core drops the older copies of the words that it read, so that no
later read of the hart goes back behind them (R159). -/
def deliverMcast (v : Mcast) (s : State) : State :=
  (s.modH fun h => deliverLoad v.x v.d (v.values s.tick (width h.fmt)) h).modMem fun m =>
    m.dropWords s.h.core (v.elems.flatMap (·.2))

/-- The body of VLDM (R134, R336), up to its headers. -/
def vldmBody (x : Stack) (d : VReg) (a b : SReg) (m : MReg) (k : Mcast → State → Res) : State → Res :=
  withClean [b] fun s =>
    (legalVec x (coreMaskOk s.h b) [d] [m] <| withClean [a] fun s =>
      let h := s.h
      let w := width h.fmt
      withElems needNormalRead (elemAlign h.fmt) (List.range h.vl) (fun e => h.active m (maskInv x) e)
        (unitAddr (h.sreg a).toNat w) (fun ps s =>
          let s := acqOf x s
          k { x := x, d := d, m := m, elems := ps.map fun p => (p.1.e, bytesOf s p)
              parts := mcParts s (h.sreg a).toNat w ((h.sreg b).setWidth 16) ps, got := [] } s) s) s

/-- The bytes of a part: those of the open entry that its header joins, else of an entry that opens and closes for it. -/
def State.partBytes (s : State) (p : McPart) : List (Nat × Byte × Bool) :=
  match s.sys.mc.find? fun e => e.part == p with
  | some e => e.bytes
  | none => s.gather p.key

/-! Stores. -/

/-- Runs `k` with the place of the progress word of a form with NTF (R115): it is probed before every element, and its
fault names no element. DEDUCED, log entry 39. -/
def withNotify (x : Stack) (k : Option (Phys × Scope) → State → Res) (s : State) : Res :=
  match x.memm with
  | none => k none s
  | some m =>
    if m.ntf = 0 then k none s
    else
      withClean [m.ntf] (fun s =>
        match probe s needNormalWrite (s.readN m.ntf) 8 8 with
        | .bad c => .trap s (wholeTrap c (wd (2 ^ 64 - 2)))
        | .wait => .wait s .retry
        | .poisoned w => consume s (.mem w) 0 (wd (2 ^ 64 - 2)) none
        | .ok p => k (some (p, m.scope)) (s.interlock true p 8)) s

/-- Adds `n` to the progress word, as a release at its scope (R115). -/
def notify (t : Option (Phys × Scope)) (n : Nat) (s : State) : State :=
  match t with
  | none => s
  | some (p, sc) => let s := s.release sc; addProgress s.h s p n

/-- Stores one element (R352): whole bytes, or its bits merged into the latest value of its bytes. Where one half alone of 8
bytes is poisoned, each half is stored with its own (R206). -/
def storeElem (w : Nat) (s : State) (p : Acc × Phys) (code : Nat) (bad : Bad) : State :=
  let va := p.1.a.toNat
  let n := p.1.n
  let poison := bad != 0
  if n = 8 && (bad == 1 || bad == 2) then
    (s.storeBytes va p.2 (natToBytes 4 code) (bad == 1)).storeBytes (va + 4) { p.2 with pa := p.2.pa + 4 }
      (natToBytes 4 (code / 2 ^ 32)) (bad == 2)
  else if n * 8 = w then s.storeBytes va p.2 (natToBytes n code) poison
  else
    let rd := fun (q : Phys) (n : Nat) =>
      if q.dev then (s.readPhys s.h.core q n).1 else (s.curPhys s.h.core q n).1
    let k := 4096 - va % 4096
    let old := if n ≤ k then rd p.2 n else rd p.2 k ++ rd (s.nextPage (va + k) p.2) (n - k)
    s.storeBytes va p.2 (natToBytes n (putBits (bytesNat old) (p.1.e * w % 8) w code)) poison

/-- The body of a vector store (R352). -/
def storeVec (x : Stack) (v : VReg) (is_ : List VReg) (m : MReg) (rs : List SReg) (ok : Hart → Bool) (need : Need)
    (addr : Hart → Env → Nat → Except PLoc (Int × Nat)) (s : State) : Res :=
  (legalVec x (ok s.h) (v :: is_) [m] <| withClean rs <| withNotify x fun t s =>
    let h := s.h
    let env := h.env h.layout none (v :: is_)
    withElems need (elemAlign h.fmt) (List.range h.vl) (fun e => h.active m (maskInv x) e) (addr h env) (fun ps s =>
      let s := relOf x s
      let s := ps.foldl (fun s p =>
        if p.1.n = 0 then s
        else match env.elem v p.1.e with
          | .code c _ l => storeElem (width h.fmt) s p c (badOf l)
          | .shell => s) s
      .done (notify t h.vl s)) s) s

/-! Prefetches. -/

/-- The body of a prefetch (R342): its addresses are formed, and nothing else is seen of it; under VL = 0 it does nothing. -/
def prefBody (x : Stack) (is_ : List VReg) (m : MReg) (rs : List SReg) (ok : Hart → Bool)
    (addr : Hart → Env → Nat → Except PLoc (Int × Nat)) (s : State) : Res :=
  (legalVec x (ok s.h) is_ [m] <| fun s => if s.h.vl = 0 then .done s else withClean rs (fun s =>
    let h := s.h
    match collect (fun e => h.active m (maskInv x) e) (addr h (h.env h.layout none is_)) (List.range h.vl) with
    | .error (e, l) => consume s l 0 (wd e) none
    | .ok _ => .done s) s) s

/-! Scale registers (R332, R349). -/

/-- Entries that scale the elements below VL. -/
def Hart.entries (h : Hart) : Nat := (h.vl + 31) / 32

/-- Entries of a scale register marked poisoned, by words of four. -/
def Hart.poisonScales (h : Hart) (k : KReg) (js : List Nat) : Hart :=
  { h with poison := js.foldl (fun l j =>
      let p := PLoc.scale (512 * k.val + j / 4)
      if l.contains p then l else p :: l) h.poison }

/-- A fault of VKLD or VKST reports TVAL 0. -/
def atZero : Res → Res
  | .trap s t => .trap s { t with val := 0 }
  | .done s => .done s
  | .jump s p => .jump s p
  | .wait s w => .wait s w
  | .squash l => .squash l
  | .gone s => .gone s

/-- VKLD (R332). A scale register has 2048 entries; bytes beyond them are probed and not kept (DESIGN CHOICE, log entry 16). -/
def vkldBody (x : Stack) (k : KReg) (a : SReg) : State → Res :=
  legalVec x true [] [] <| withClean [a] fun s =>
    let base : Int := s.readN a
    atZero <| withElems needRead 1 (List.range s.h.entries) (fun _ => .ok true) (fun j => .ok (base + j, 1)) (fun ps s =>
      let bs := (ps.filter fun p => p.1.e < 2048).map fun p => (p.1.e, s.loadBytes p.1.a.toNat p.2 1)
      .done (s.modH fun h =>
        (h.putScales k (bs.map fun b => (b.1, b.2.1.headD 0))).poisonScales k
          ((bs.filter fun b => b.2.2.isSome).map (·.1)))) s

/-- VKST (R349). What it stores for entries beyond 2048 is a free value (DESIGN CHOICE, log entry 16). -/
def vkstBody (x : Stack) (k : KReg) (a : SReg) : State → Res :=
  legalVec x true [] [] <| withClean [a] fun s =>
    let base : Int := s.readN a
    let h := s.h
    atZero <| withElems needWrite 1 (List.range h.entries) (fun _ => .ok true) (fun j => .ok (base + j, 1)) (fun ps s =>
      .done (ps.foldl (fun s p =>
        let b := if p.1.e < 2048 then [h.scale k p.1.e] else s.freeBytes p.1.e 1
        s.storeBytes p.1.a.toNat p.2 b (p.1.e < 2048 && (h.scalePoison k p.1.e).isSome)) s)) s

/-! Atomics (R313). -/

/-- The operation of a VAMO by its OP. -/
def vamoOp (o : Fin 8) : AmoOp :=
  match o with
  | 0 => .add | 1 => .and | 2 => .or | 3 => .xor | 4 => .min | 5 => .max | 6 => .minn | 7 => .maxn

/-- The formats of VAMO. -/
def vamoFmt (f : Fmt) : Bool := f == .i32 || f == .i64 || f == .n32 || f == .n64

/-- One element of a VAMO at its home: the state, and the old value with its poison. -/
def vamoElem (o : AmoOp) (w : Nat) (p : Acc × Phys) (c : Nat) (poison : Bool) (s : State) : State × Nat × Bad :=
  let n := p.1.n
  let va := p.1.a.toNat
  let s := s.atHome s.h p.2 n
  if s.inBacking va n then
    let old := bytesNat (s.freeBytes va n)
    (s.storeBytes va p.2 (natToBytes n (amoNew o w old c)) false, old, 0)
  else
    let b := s.curPhys s.h.core p.2 n
    let old := bytesNat b.1
    (s.writeHome s.h p.2 (natToBytes n (amoNew o w old c)) (poison || b.2.isSome), old, allBad b.2.isSome)

/-- VAMO (R313): each element is tested for a scope miss at its turn. -/
def vamoBody (x : Stack) (o : AmoOp) (d : VReg) (a : SReg) (i : VReg) (m : MReg) (s : State) : Res :=
  let sc := acqScope x
  (legalVec x (vamoFmt s.h.fmt) [d, i] (if sc.isSome then [m, 7] else [m]) <| withClean [a] fun s =>
    let h := s.h
    let w := width h.fmt
    let env := h.env h.layout none [d, i]
    withElems needAtomic (w / 8) (List.range h.vl) (fun e => h.active m (maskInv x) e)
      (indexAddr (s.readN a) env i w (w / 8)) (fun ps s =>
        let s := relOf x s
        let missed := fun (s : State) (p : Acc × Phys) => match sc with
          | some sc => scopeMiss s sc p.2 p.1.n
          | none => false
        let r := ps.foldl (fun (r : State × List (Nat × Nat × Bad) × List Nat) p =>
          if missed r.1 p then (r.1, r.2.1, p.1.e :: r.2.2)
          else match env.elem d p.1.e with
            | .code c _ l =>
              let t := vamoElem o w p c l.isSome r.1
              (t.1, r.2.1 ++ [(p.1.e, t.2)], r.2.2)
            | .shell => r) (s, [], [])
        let s := acqOf x r.1
        .done (s.modH fun h =>
          let h := if r.2.1.isEmpty then h else h.putElems d h.layout r.2.1
          if sc.isSome then h.putMask 7 ((List.range h.vl).map fun e => (e, r.2.2.contains e)) else h)) s) s

/-! Engine transfers (R119). -/

/-- The interlock entries in use on the core of the hart in focus. -/
def State.entriesUsed (s : State) : Nat :=
  (s.harts.filter fun h => h.core == s.h.core).foldl (fun n h => h.xfers.foldl (fun n x => n + x.entries) n) 0

/-- Runs `k` once the 32 interlock entries of the core have room for `n` more: the outstanding transfers of the core are
performed, when they can be (R119). -/
def withEntries (n : Nat) (k : State → Res) (s : State) : Res :=
  if s.entriesUsed + n ≤ 32 then k s
  else if s.harts.any fun h => h.core == s.h.core && s.stuckFor h then .wait s .retry
  else k (s.drainWhere fun h => h.core == s.h.core)

/-- Enters a transfer in the queue (R119). -/
def State.enqueue (s : State) (x : Xfer) : State := s.modH fun h => { h with xfers := h.xfers ++ [x] }

/-- What VRED sends of an element (R344, R67, R69): the source format, the code, the scale entry, and whether poison comes
with it. -/
def senderOf (h : Hart) (v : VReg) (ents : List PEntry) (e c : Nat) (poison : Bool) : Fmt × Nat × Nat × Bool :=
  let f := h.fmt
  if !h.scaled f then (f, c, 127, poison)
  else
    let k := (h.scale (pairK v) (e / 32)).toNat
    let p := poison || (h.scalePoison (pairK v) (e / 32)).isSome
    if k = 255 then (.fp32, nanCode .fp32, 127, p)
    else if f = .e2m1 ∧ c = 8 then
      match ents.find? (fun x => x.reg == v && x.e == e) with
      | some x => (.bf16, x.code, k, p || x.poison.isSome)
      | none => (.fp32, nanCode .fp32, 127, p)
    else (f, c, k, p)

/-- The formats of VRED (R344). -/
def vredFmt (h : Hart) : Bool := vamoFmt h.fmt || isFloat h.fmt || h.scaled h.fmt

/-- VRED (R344): the adds are an engine transfer. -/
def vredBody (x : Stack) (v : VReg) (a : SReg) (i : Option VReg) (m : MReg) (s : State) : Res :=
  let is_ := match i with | some i => [i] | none => []
  (legalVec x (vredFmt s.h && (i.isNone || 16 ≤ width s.h.fmt)) (v :: is_) [m] <| withClean [a] <| withEntries 1 fun s =>
    withPurse (fun h _ => [(v, List.range h.vl)]) s.h.layout none [v] (fun ents s =>
      let h := s.h
      let fm := if h.scaled h.fmt then .fp32 else h.fmt
      let n := fmtBytes fm
      let env := h.env h.layout none (v :: is_)
      let addr := fun e => match i with
        | some i => indexAddr (s.readN a) env i (width h.fmt) n e
        | none => .ok ((s.readN a : Int) + (e * n : Nat), n)
      withElems needNormalWrite n (List.range h.vl) (fun e => h.active m (maskInv x) e) addr (fun ps s =>
        let s := relOf x s
        let es := ps.map fun p => match env.elem v p.1.e with
          | .code c _ l =>
            let q := senderOf h v ents p.1.e c l.isSome
            XElem.add p.2 fm q.1 q.2.1 q.2.2.1 q.2.2.2
          | .shell => .skip
        .done ((if es.isEmpty then s else s.enqueue ⟨.vred, es, none, 1⟩).modH fun h =>
          { h with purse := h.purse + wd (2 * ents.length) })) s) s) s

/-! Queues and tokens. -/

/-- QDROP (R305). -/
def qdropBody (n : Fin 4) (s : State) : Res :=
  if s.h.queues[n].isEmpty then illegal s else .done (s.modH fun h => h.popQueues [n])

/-! The meanings. -/

/-- VLD, unit stride (R333). -/
def execVld (x : Stack) (d : Fin 64) (a : SReg) (m : MReg) (s : State) : Out :=
  issue (.vld x d a m) (loadVec x d [] m [a] (fun _ => true) (unitNeed x false)
    (fun h _ => unitAddr (h.sreg a).toNat (width h.fmt)) false) s

/-- VLD, strided (R333). -/
def execVldStrided (x : Stack) (d : Fin 64) (a b : SReg) (m : MReg) (s : State) : Out :=
  issue (.vldStrided x d a b m) (loadVec x d [] m [a, b] (fun h => wideFmt h.fmt) needRead
    (fun h _ => strideAddr (h.sreg a).toNat (h.sreg b).toInt (width h.fmt)) false) s

/-- VLDX (R333, R163). -/
def execVldx (x : Stack) (d : Fin 64) (a : SReg) (j : VReg) (m : MReg) (s : State) : Out :=
  issue (.vldx x d a j m) (loadVec x d [j] m [a] (fun h => wideFmt h.fmt) needRead
    (fun h v => indexAddr (h.sreg a).toNat v j (width h.fmt) (width h.fmt / 8)) true) s

/-- VLDM (R336, R134, R135): its headers open entries, or join open ones, and their beats arrive within the step. A VLDM
whose beats come one by one starts with MULTICAST_HEADER. -/
def execVldm (x : Stack) (d : Fin 64) (a b : SReg) (m : MReg) (s : State) : Out :=
  issue (.vldm x d a b m) (vldmBody x d a b m fun v s =>
    .done (deliverMcast { v with got := v.parts.flatMap s.partBytes } s)) s

/-- VLDB (R334). -/
def execVldb (x : Stack) (d : Fin 64) (a b : SReg) (m : MReg) (s : State) : Out :=
  issue (.vldb x d a b m) (loadVec x d [] m [a, b, extReg x] (fun h => x.ext.isSome && wideFmt h.fmt) needRead
    (fun h _ => brickAddr h (h.sreg a).toNat (h.sreg b).toInt (h.sreg (extReg x)).toInt (width h.fmt)) false) s

/-- VLDB.S2C (R335, R98). -/
def execVldbS2c (x : Stack) (d : Fin 64) (a b : SReg) (m : MReg) (s : State) : Out :=
  issue (.vldbS2c x d a b m) (withClean [extReg x] <| loadVec x d [] m [a, b]
    (fun h => x.ext.any (s2cOk h) && wideFmt h.fmt) needRead
    (fun h _ => s2cAddr h (h.sreg a).toNat (h.sreg b).toInt (x.ext.getD 0) (width h.fmt)) false) s

/-- VPREF, unit stride (R342). -/
def execVpref (x : Stack) (a : SReg) (m : MReg) (s : State) : Out :=
  issue (.vpref x a m) (prefBody x [] m [a] (fun _ => true) fun h _ => unitAddr (h.sreg a).toNat (width h.fmt)) s

/-- VPREF, strided (R342). -/
def execVprefStrided (x : Stack) (a b : SReg) (m : MReg) (s : State) : Out :=
  issue (.vprefStrided x a b m) (prefBody x [] m [a, b] (fun h => wideFmt h.fmt) fun h _ =>
    strideAddr (h.sreg a).toNat (h.sreg b).toInt (width h.fmt)) s

/-- VPREF, indexed (R342). -/
def execVprefIndexed (x : Stack) (a : SReg) (j : VReg) (m : MReg) (s : State) : Out :=
  issue (.vprefIndexed x a j m) (prefBody x [j] m [a] (fun h => wideFmt h.fmt) fun h v =>
    indexAddr (h.sreg a).toNat v j (width h.fmt) (width h.fmt / 8)) s

/-- VKLD (R332). -/
def execVkld (x : Stack) (k : KReg) (a : SReg) (s : State) : Out := issue (.vkld x k a) (vkldBody x k a) s

/-- VST, unit stride (R353). -/
def execVst (x : Stack) (v : VReg) (a : SReg) (m : MReg) (s : State) : Out :=
  issue (.vst x v a m) (storeVec x v [] m [a] (fun _ => true) (unitNeed x true)
    fun h _ => unitAddr (h.sreg a).toNat (width h.fmt)) s

/-- VST, strided (R353). -/
def execVstStrided (x : Stack) (v : VReg) (a b : SReg) (m : MReg) (s : State) : Out :=
  issue (.vstStrided x v a b m) (storeVec x v [] m [a, b] (fun h => wideFmt h.fmt) needWrite
    fun h _ => strideAddr (h.sreg a).toNat (h.sreg b).toInt (width h.fmt)) s

/-- VSTX (R353). -/
def execVstx (x : Stack) (v : VReg) (a : SReg) (j : VReg) (m : MReg) (s : State) : Out :=
  issue (.vstx x v a j m) (storeVec x v [j] m [a] (fun h => wideFmt h.fmt) needWrite
    fun h e => indexAddr (h.sreg a).toNat e j (width h.fmt) (width h.fmt / 8)) s

/-- VSTB (R353). -/
def execVstb (x : Stack) (v : VReg) (a b : SReg) (m : MReg) (s : State) : Out :=
  issue (.vstb x v a b m) (storeVec x v [] m [a, b, extReg x] (fun h => x.ext.isSome && wideFmt h.fmt) needWrite
    fun h _ => brickAddr h (h.sreg a).toNat (h.sreg b).toInt (h.sreg (extReg x)).toInt (width h.fmt)) s

/-- VSTB.C2S (R353, R99). -/
def execVstbC2s (x : Stack) (v : VReg) (a b : SReg) (m : MReg) (s : State) : Out :=
  issue (.vstbC2s x v a b m) (withClean [extReg x] <| storeVec x v [] m [a, b]
    (fun h => x.ext.any (s2cOk h) && wideFmt h.fmt) needWrite
    fun h _ => s2cAddr h (h.sreg a).toNat (h.sreg b).toInt (x.ext.getD 0) (width h.fmt)) s

/-- VRED, unit form (R344). -/
def execVred (x : Stack) (v : VReg) (a : SReg) (m : MReg) (s : State) : Out :=
  issue (.vred x v a m) (vredBody x v a none m) s

/-- VRED, indexed form (R344). -/
def execVredIndexed (x : Stack) (v : VReg) (a : SReg) (j : VReg) (m : MReg) (s : State) : Out :=
  issue (.vredIndexed x v a j m) (vredBody x v a (some j) m) s

/-- VKST (R349). -/
def execVkst (x : Stack) (k : KReg) (a : SReg) (s : State) : Out := issue (.vkst x k a) (vkstBody x k a) s

/-- VAMO (R313). -/
def execVamo (x : Stack) (o : Fin 8) (d : VReg) (a : SReg) (j : VReg) (m : MReg) (s : State) : Out :=
  issue (.vamo x o d a j m) (vamoBody x (vamoOp o) d a j m) s

/-- VAMO swap (R313). -/
def execVamoSwap (x : Stack) (d : VReg) (a : SReg) (j : VReg) (m : MReg) (s : State) : Out :=
  issue (.vamoSwap x d a j m) (vamoBody x .swap d a j m) s

/-- QDROP (R305). -/
def execQdrop (x : Stack) (n : Fin 4) (s : State) : Out := issue (.qdrop x n) (qdropBody n) s

/-- TKCLR (R109): it issues only when every older push has been made. -/
def execTkclr (x : Stack) (s : State) : Out :=
  issue (.tkclr x) (fun s => .done (s.modH fun h => { h with tokens := Vector.replicate 25 0 })) s

end Sys2Proof.Machine
end

