-- ==== Sys2Proof/Machine/Lanes.lean ====
section
/-! DEFINITION. The Lane Allocation Table (R27, R28), what SETVL, SETVLB and VREST write when they complete (R307, R43,
R204), and the matrix unit's claims (R85, R86). -/

namespace Sys2Proof.Machine

/-! Harts of a core. -/

/-- The placed harts of a core. -/
def State.onCore (s : State) (c : CoreId) : List Hart := s.harts.filter fun h => h.core == c

/-- Changes one hart, which may complete its form. -/
def State.updHart (s : State) (h : Hart) (f : Hart → Hart × List Held) : State := s.finishWhere (·.at h.core h.ctx) f

/-- A hart inserted in ascending order of a number. -/
def insertBy (f : Hart → Nat) (h : Hart) : List Hart → List Hart
  | [] => [h]
  | x :: xs => if f h < f x then h :: x :: xs else x :: insertBy f h xs

/-- Harts in ascending order of a number. -/
def sortBy (f : Hart → Nat) (hs : List Hart) : List Hart := hs.foldl (fun l h => insertBy f h l) []

/-- The next age of a waiting hart. -/
def State.nextAge (s : State) : Nat := s.harts.foldl (fun n h => Nat.max n (Nat.max h.waitAge h.unitAge + 1)) 1

/-! Lane clusters. -/

/-- VLMAX (R31). -/
def vlMax (lcs nreg w : Nat) : Nat := lcs * 262144 / (2 * nreg * w)

/-- fits(C) of R43. -/
def bricksFit (s nb w nreg c : Nat) : Bool :=
  s ≤ 512 && (nb + 8 * c - 1) / (8 * c) * s * w ≤ 32 * (512 / nreg)

/-- Registers declared by an NREG code. -/
def nregOf (n : NregC) : Nat := 4 * 2 ^ n.code

/-- The bytes of an image as a number. -/
def imageAt (bytes : List Byte) (off n : Nat) : Nat := bytesNat ((bytes.drop off).take n)

/-- The requested geometry fits `c` lane clusters (R31, R43, R204). -/
def SetReq.fits (r : SetReq) (c : Nat) : Bool :=
  let w := width r.fmt
  let n := nregOf r.nreg
  match r.kind with
  | .flat q => q.toNat ≤ vlMax c n w
  | .brick z y x gz gy gx =>
    bricksFit (2 ^ z.val * 2 ^ y.val * 2 ^ x.val) ((gz.toNat + 1) * (gy.toNat + 1) * (gx.toNat + 1)) w n c
  | .image b _ =>
    let vl := imageAt b 0 8
    let g := imageAt b 16 8
    vl ≤ vlMax c n w &&
      (g.testBit 62 || bricksFit (2 ^ bitsOf g 2 0 * 2 ^ bitsOf g 5 3 * 2 ^ bitsOf g 8 6)
        ((bitsOf g 19 12 + 1) * (bitsOf g 27 20 + 1) * (bitsOf g 35 28 + 1)) w n c)

/-- The demand of a request: the smallest count that fits, never more than 8 (R27, R43, R204). -/
def demandOf (kind : SetKind) (fmt : Fmt) (nreg : NregC) : Nat :=
  let r : SetReq := ⟨kind, 0, fmt, nreg, 0, .plain⟩
  ((List.range 8).map (· + 1)).find? r.fits |>.getD 8

/-- Every vector and scale register of a hart is dead (R28, R66). -/
def Hart.dead (h : Hart) : Hart :=
  { h with
    vregs := []
    scales := []
    offChip := []
    vgen := h.vgen + 1
    poison := h.poison.filter fun p => match p with
      | .vword _ | .scale _ => false
      | .sreg _ | .mask _ _ | .cell _ | .queue _ _ | .mem _ | .spad _ => true }

/-- The entries of every queue are discarded (R108). -/
def Hart.dropQueues (h : Hart) : Hart :=
  { h with
    queues := Vector.replicate 4 []
    poison := h.poison.filter fun p => match p with
      | .queue _ _ => false
      | .sreg _ | .vword _ | .mask _ _ | .scale _ | .cell _ | .mem _ | .spad _ => true }

/-- A shell entry in a record of 16 bytes (Table 10-9). What a reserved KIND code restores is a free value (DESIGN CHOICE,
log entry 16). A LINK whose byte names no register, 64 or more, is restored as TRAP: DESIGN CHOICE, log entry 50. -/
def shellOf (free : Word) (value kind vt : Nat) : Shell :=
  match kind with
  | 0 => .zero
  | 1 => .const (wd value)
  | 2 => .edge
  | 3 => if vt < 64 then .link (Fin.ofNat 64 vt) else .trap
  | 4 => .trap
  | _ => .const free

/-- The shells of an image or a stop record, from the offset of register 0, face 0. -/
def shellsAt (free : Word) (bytes : List Byte) (off : Nat) : List (Nat × Shell) :=
  let bs := (bytes.drop off).take 6144
  ((List.range 384).map fun i =>
    (i, shellOf free (imageAt bs (16 * i) 8) (imageAt bs (16 * i + 8) 1) (imageAt bs (16 * i + 9) 1))).filter
    fun p => p.2 != .zero

/-- Sizes of the parts of a VSAVE image (Table 10-10): RB, MB, KB. -/
def imageSizes (vl w : Nat) : Nat × Nat × Nat :=
  (64 * ((vl * w + 511) / 512), 64 * ((vl + 511) / 512), 64 * ((vl + 2047) / 2048))

/-- LEN of an image (Table 10-10). -/
def imageLen (vl w nreg : Nat) : Nat :=
  let (rb, mb, kb) := imageSizes vl w
  0x2000 + nreg * rb + 8 * mb + 8 * kb

/-- Restores the registers, masks and scale registers of an image (R204). A mask word restored whole loses its old poison
(R206). -/
def restoreImage (bytes : List Byte) (poison : List Nat) (vl w nreg : Nat) (h : Hart) : Hart :=
  let (rb, mb, kb) := imageSizes vl w
  let bad := fun off n : Nat => poison.any fun p => p < off + n && off < p + 4
  let y := h.layoutAt w false
  let h := (List.range nreg).foldl (fun (h : Hart) n =>
    let bs := (bytes.drop (0x2000 + n * rb)).take rb
    let v := bytesNat bs
    if vl = 0 then h
    else h.putElems (Fin.ofNat 64 n) y ((List.range vl).map fun e =>
      let at_ := 0x2000 + n * rb + e * w / 8
      (e, v / 2 ^ (e * w) % 2 ^ w,
        if w = 64 then (if bad at_ 4 then 1 else 0) + (if bad (at_ + 4) 4 then 2 else 0)
        else if bad at_ ((w + 7) / 8) then 1 else 0))) h
  let mo := 0x2000 + nreg * rb
  let h := (List.range 8).foldl (fun (h : Hart) n =>
    if n = 0 then h
    else
      let v := imageAt bytes (mo + n * mb) mb
      let m : MReg := Fin.ofNat 8 n
      { h with
        masks := h.masks.set m (splice vl v h.masks[m])
        poison :=
          (h.poison.filter fun p => match p with
            | .mask m' k => m' != m || vl < 32 * (k + 1)
            | .sreg _ | .vword _ | .scale _ | .cell _ | .queue _ _ | .mem _ | .spad _ => true)
          ++ ((List.range ((vl + 31) / 32)).filter fun k => bad (mo + n * mb + 4 * k) 4).map (.mask m ·) }) h
  let ko := mo + 8 * mb
  (List.range 8).foldl (fun (h : Hart) n =>
    let js := List.range (Nat.min 2048 ((vl + 31) / 32))
    let bs := (bytes.drop (ko + n * kb)).take kb
    (h.putScales (Fin.ofNat 8 n) (js.map fun j => (j, bs.getD j 0))).poisonScales (Fin.ofNat 8 n)
      (js.filter fun j => bad (ko + n * kb + j) 1)) h

/-- What a renegotiation writes in its hart when it completes with the lane clusters that the hart holds (R307, R43,
R204); `old` is the count it held before. -/
def Hart.settle (h : Hart) (old : Nat) (r : SetReq) (free : Word) : Hart :=
  let w := width r.fmt
  let n := nregOf r.nreg
  let same := old == h.lcn && h.nreg == n && width h.fmt == w
  let h := (if same then h else h.dead).dropQueues
  let h := { h with fmt := r.fmt, nregc := r.nreg }
  match r.kind with
  | .flat q =>
    let vl := Nat.min q.toNat (vlMax h.lcn n w)
    ({ h with vl := vl, bgeo := wd (2 ^ 62) }).setSreg r.d (wd vl)
  | .brick z y x gz gy gx =>
    let ok := h.lcn != 0 && r.fits h.lcn
    let nb := (gz.toNat + 1) * (gy.toNat + 1) * (gx.toNat + 1)
    let vl := if ok then nb * (2 ^ z.val * 2 ^ y.val * 2 ^ x.val) else 0
    ({ h with
      vl := vl
      bgeo := wd (x.val + 8 * y.val + 64 * z.val + 4096 * gx.toNat + 2 ^ 20 * gy.toNat + 2 ^ 28 * gz.toNat
        + (if ok then 0 else 2 ^ 63)) }).setSreg r.d (wd vl)
  | .image b p =>
    let vt := imageAt b 8 8
    let g := wd (imageAt b 16 8)
    let vl := imageAt b 0 8
    let ok := h.lcn != 0 && r.fits h.lcn
    let h : Hart :=
      { h with
        bs := vt.testBit 7, sat := vt.testBit 6, dil := wd (imageAt b 24 8 % 2 ^ 24)
        shells := shellsAt free b 0x100
        bgeo := if ok then g else g ||| wd (2 ^ 63)
        vl := if ok then vl else 0 }
    if ok then restoreImage b p vl w n h else h.dead

/-- A value that no rule states. -/
def State.freeWord (s : State) (a : Nat) : Word := wd (bytesNat (s.freeBytes a 8))

/-- The lane clusters of a core that no hart holds. -/
def State.freeLcs (s : State) (c : CoreId) : BitVec 8 := ~~~((s.onCore c).foldl (fun b h => b ||| h.lcs) 0)

/-- The lowest `n` bits that are set. -/
def takeLow (b : BitVec 8) (n : Nat) : BitVec 8 :=
  ((List.range 8).foldl (fun (p : BitVec 8 × Nat) i =>
    if b.getLsbD i && 0 < p.2 then (p.1 ||| BitVec.ofNat 8 (2 ^ i), p.2 - 1) else p) (0, n)).1

/-- A requester that holds no lane cluster (R27). -/
def Hart.waits (h : Hart) : Bool := h.requester && h.lcs == 0

/-- The fair share of a core (R27). -/
def State.fairShare (s : State) (c : CoreId) : Nat :=
  Nat.max 1 (8 / Nat.max 1 ((s.onCore c).countP (·.requester)))

/-- Lane clusters granted start in On (R105). -/
def State.powerOn (s : State) (c : CoreId) (lcs : BitVec 8) : State :=
  if lcs = 0 then s
  else s.modCore c fun k =>
    { k with power := (List.finRange 8).foldl (fun (p : Vector Power 8) (l : Fin 8) =>
        if lcs.getLsbD l.val then p.set l .on else p) k.power }

/-- The engine queue of the instruction that waits for lane clusters. -/
def SetReq.queue (r : SetReq) : Fin 5 := match r.kind with
  | .flat _ => 0
  | .brick _ _ _ _ _ _ => 0
  | .image _ _ => 2

/-- A waiting hart is granted lane clusters: its stalled SETVL, SETVLB or VREST completes (R27). -/
def giveLanes (got : BitVec 8) (free : Word) (h : Hart) : Hart × List Held :=
  let h1 : Hart := { h with lcs := got }
  match h.status with
  | .stalled (.lanes r) => finishHart (h1.settle h.lcn r free) r.x r.queue
  | .stalled (.rcf _ _ _ _) | .stalled (.beats _) | .stalled (.token _) | .stalled (.matrix _ _) | .stalled (.reclaim _) | .stalled (.barrier _ _)
  | .stalled (.monitor _) | .stalled .retry | .absent | .running | .heldInFault | .frozen => (h1.dead, [])

/-- The grants of R27 to waiting harts, oldest first. -/
def grantLoop (c : CoreId) (share : Nat) : List Hart → State → State
  | [], s => s
  | w :: ws, s =>
    let got := takeLow (s.freeLcs c) (Nat.min w.demand share)
    grantLoop c share ws
      (if got = 0 then s else (s.updHart w (giveLanes got (s.freeWord w.ctx.val))).powerOn c got)

/-- The lane clusters of a core that no hart holds are Off (R105). -/
def State.gateFree (s : State) (c : CoreId) : State :=
  let free := s.freeLcs c
  if (List.finRange 8).all fun l => !free.getLsbD l.val || (s.coreOf c).power[l] == .off then s
  else s.modCore c fun k =>
    { k with power := (List.finRange 8).foldl (fun (p : Vector Power 8) (l : Fin 8) =>
        if free.getLsbD l.val then p.set l .off else p) k.power }

/-- grant_waiting() of R27. -/
def State.grantWaiting (s : State) (c : CoreId) : State :=
  (grantLoop c (s.fairShare c) (sortBy (·.waitAge) ((s.onCore c).filter Hart.waits)) s).gateFree c

/-- The hart in focus releases its lane clusters (R27). -/
def State.releaseLanes (s : State) : State :=
  (s.modH fun h => { (if h.lcs = 0 then h else h.dead) with lcs := 0, requester := false, waitAge := 0 }).grantWaiting
    s.h.core

/-- The renegotiation of R27 for the hart in focus, and what follows: it completes, or it waits. DEDUCED, log entry 31. -/
def renegotiate (r : SetReq) (s : State) : Res :=
  let c := s.h.core
  let old := s.h.lcn
  if r.kind = .flat 0 then .done (s.releaseLanes.modH fun h => h.settle old r (s.freeWord 0))
  else
    let age := s.nextAge
    let s := s.modH fun h =>
      { h with requester := true, demand := r.demand, waitAge := if h.lcs = 0 && !h.requester then age else h.waitAge }
    let share := s.fairShare c
    let contested := (s.onCore c).any Hart.waits
    let s := if contested && share < old then
        s.modH fun h => { h with lcs := h.lcs &&& ~~~takeLow h.lcs (old - share) }
      else s
    let s := grantLoop c share (sortBy (·.waitAge) ((s.onCore c).filter Hart.waits)) s
    let want := Nat.min r.demand (if contested then share else 8) - s.h.lcn
    let got := takeLow (s.freeLcs c) want
    let s := ((s.modH fun h => { h with lcs := h.lcs ||| got }).powerOn c got).gateFree c
    if s.h.lcs = 0 then .wait s (.lanes r) else .done (s.modH fun h => h.settle old r (s.freeWord 0))

/-! The matrix unit (R85, R86). -/

/-- The matrix unit of a core is held by some hart. -/
def State.unitHeld (s : State) (c : CoreId) : Bool := (s.onCore c).any fun h => h.mvl.isSome

/-- A hart waits for the matrix unit. -/
def Hart.waitsUnit (h : Hart) : Bool := match h.status with
  | .stalled (.matrix _ _) | .stalled (.reclaim _) => true
  | .stalled (.rcf _ _ _ _) | .stalled (.beats _) | .stalled (.token _) | .stalled (.lanes _) | .stalled (.barrier _ _) | .stalled (.monitor _) | .stalled .retry
  | .absent | .running | .heldInFault | .frozen => false

/-- Poison of cells. -/
def Hart.dropCellPoison (h : Hart) : Hart :=
  { h with poison := h.poison.filter fun p => match p with
      | .cell _ => false
      | .sreg _ | .vword _ | .mask _ _ | .scale _ | .queue _ _ | .mem _ | .spad _ => true }

/-- A hart claims the matrix unit: every cell becomes +0 (R85). -/
def Hart.claimUnit (h : Hart) (l : MvlC) : Hart := { h.dropCellPoison with mvl := some l, cells := [] }

/-- The oldest waiting hart is granted the unit (R85). A resumed hart has its saved cells back (R86). -/
def takeUnit (h : Hart) : Hart × List Held :=
  match h.status with
  | .stalled (.matrix l x) => finishHart (h.claimUnit l) x 3
  | .stalled (.reclaim l) => ({ h with mvl := some l, status := .running }, [])
  | .stalled (.rcf _ _ _ _) | .stalled (.beats _) | .stalled (.token _) | .stalled (.lanes _) | .stalled (.barrier _ _) | .stalled (.monitor _) | .stalled .retry
  | .absent | .running | .heldInFault | .frozen => (h, [])

/-- Grants a free matrix unit (R85). -/
def State.grantUnit (s : State) (c : CoreId) : State :=
  if s.unitHeld c then s
  else match sortBy (·.unitAge) ((s.onCore c).filter Hart.waitsUnit) with
    | [] => s
    | w :: _ => s.updHart w takeUnit

/-- The hart in focus releases the matrix unit, if it holds it (R86). -/
def State.releaseUnit (s : State) : State :=
  if s.h.mvl.isNone then s
  else (s.modH fun h => { h.dropCellPoison with mvl := none, cells := [] }).grantUnit s.h.core

end Sys2Proof.Machine
end

