-- ==== Sys2Proof/Machine/Csrs.lean ====
section
/-! DEFINITION. The control registers (R269, R270, R288, Table 13-16): their values, their fields and the instructions
that read and write them. -/

namespace Sys2Proof.Machine

/-- A control register of the hart in focus. -/
def csrRead (s : State) (c : Csr) : Word :=
  let h := s.h
  match c with
  | .vl => wd h.vl
  | .vtype => wd (h.fmt.code + (if h.sat then 64 else 0) + (if h.bs then 128 else 0) + 256 * h.nregc.code)
  | .bgeo => h.bgeo
  | .dil => h.dil
  | .vbase => h.vbase &&& ~~~4095
  | .cbypass => h.cbypass
  | .purse => h.purse
  | .frm => h.frm
  | .fflags => h.fflags
  | .chk =>
    let k := s.coreOf h.core
    wd ((if h.chkEn then 1 else 0) + (if k.spUsed then 256 else 0) + 512 * k.retLc.val + 65536 * h.mcnt.toNat)
  | .fst => h.fst
  | .tcause => h.tcause
  | .tpc => h.tpc
  | .tstripe => h.tstripe
  | .tval => h.tval
  | .tvec => h.tvec
  | .cid => h.cid.setWidth 64
  | .inc => h.inc.setWidth 64
  | .hmask => s.sys.hmask[dieOf h.core]
  | .cyc => s.cyc[h.core]

/-- The RW bits of a control register. -/
def csrRw : Csr → Word
  | .vtype => 0xC0
  | .dil => 0xFFFFFF
  | .cbypass => 0xFFFFFFFF
  | .purse => ~~~1
  | .frm => 0x3F0F
  | .fflags => 0x3F
  | .chk => 0xFFFF0001
  | .tcause => 0x1FFFF
  | .tpc => ~~~1
  | .tstripe => 0xFFFF
  | .tval => BitVec.allOnes 64
  | .tvec => ~~~2
  | .vl | .bgeo | .vbase | .fst | .cid | .inc | .hmask | .cyc => 0

/-- The W1C bits of a control register (Table 8-6). -/
def csrW1c : Csr → Word
  | .fst => 0xC000000000000000
  | .vl | .vtype | .bgeo | .dil | .vbase | .cbypass | .purse | .frm | .fflags | .chk | .tcause | .tpc | .tstripe
  | .tval | .tvec | .cid | .inc | .hmask | .cyc => 0

/-- Stores the new value of a control register in the hart; the registers without a RW or W1C field keep theirs. -/
def csrPut (c : Csr) (v : Word) (h : Hart) : Hart :=
  match c with
  | .vtype => { h with sat := v.getLsbD 6, bs := v.getLsbD 7 }
  | .dil => { h with dil := v }
  | .cbypass => { h with cbypass := v }
  | .purse => { h with purse := v }
  | .frm => { h with frm := if v.getLsbD 2 then (v &&& ~~~7) ||| (h.frm &&& 7) else v }
  | .fflags => { h with fflags := v }
  | .chk => { h with chkEn := v.getLsbD 0, mcnt := v.extractLsb' 16 16 }
  | .fst => { h with fst := v }
  | .tcause => { h with tcause := v }
  | .tpc => { h with tpc := v }
  | .tstripe => { h with tstripe := v }
  | .tval => { h with tval := v }
  | .tvec => { h with tvec := v }
  | .vl | .bgeo | .vbase | .cid | .inc | .hmask | .cyc => h

/-- CSRW (R269): RW fields take the operand, and W1C bits for which it holds a 1 are cleared. -/
def csrwValue (c : Csr) (old v : Word) : Word := ((old &&& ~~~csrRw c) ||| (v &&& csrRw c)) &&& ~~~(v &&& csrW1c c)

/-- CSRS (R269). -/
def csrsValue (c : Csr) (old v : Word) : Word := (old ||| (v &&& csrRw c)) &&& ~~~(v &&& csrW1c c)

/-- CSRC (R269). -/
def csrcValue (c : Csr) (old v : Word) : Word := old &&& ~~~(v &&& csrRw c)

/-- A write of a control register from a scalar. -/
def csrWriteBody (c : Csr) (a : SReg) (f : Csr → Word → Word → Word) : State → Res :=
  withClean [a] fun s => .done (s.modH (csrPut c (f c (csrRead s c) (s.readS a))))

/-! The meanings. -/

/-- CSRR (R288). -/
def execCsrr (x : Stack) (d : SReg) (c : Csr) (s : State) : Out :=
  issue (.csrr x d c) (fun s => .done (s.writeS d (csrRead s c))) s

/-- CSRW (R288). -/
def execCsrw (x : Stack) (a : SReg) (c : Csr) (s : State) : Out := issue (.csrw x a c) (csrWriteBody c a csrwValue) s

/-- CSRS (R288). -/
def execCsrs (x : Stack) (a : SReg) (c : Csr) (s : State) : Out := issue (.csrs x a c) (csrWriteBody c a csrsValue) s

/-- CSRC (R288). -/
def execCsrc (x : Stack) (a : SReg) (c : Csr) (s : State) : Out := issue (.csrc x a c) (csrWriteBody c a csrcValue) s

end Sys2Proof.Machine
end

