-- ==== Sys2Proof/Machine/Run.lean ====
section
/-! DEFINITION. What a step does around one instruction: the inbox, the issue arbiter (R25, R26), interrupts (R193), the
groups of virtual processors (R36), fetching and decoding (R264, R265), and forms held for their retirement (R109). -/

namespace Sys2Proof.Machine

/-! Which hart. -/

/-- Brings a hart into focus; the one in focus before goes to the end of the others. -/
def State.focus (s : State) (c : CoreId) (k : Ctx) : Option State :=
  if s.h.at c k then some s
  else
    (s.rest.find? (·.at c k)).map fun h =>
      { s with h := h
               rest := s.rest.filter (fun x => !(x.at c k)) ++ (if s.h.status = .absent then [] else [s.h]) }

/-- Applies `f` with a hart in focus, and then puts the harts back where they stood; none when it is not placed. -/
def State.onHart (s : State) (c : CoreId) (k : Ctx) (f : State → State) : Option State :=
  if s.h.at c k then some (f s)
  else
    match findIdx (·.at c k) s.rest 0 with
    | none => none
    | some n =>
      let s1 := f { s with h := s.rest.getD n s.h, rest := s.rest.set n s.h }
      some { s1 with h := s1.rest.getD n s1.h, rest := s1.rest.set n s1.h }

/-! Interrupts. -/

/-- The arrival of a hart at its barrier is withdrawn (R193, R200). DEDUCED, log entry 25. -/
def State.leaveBarrier (s : State) (h : Hart) : State :=
  s.modSys fun y =>
    { y with bars := y.bars.filterMap fun b =>
        if b.gang == h.gang && b.arrived.contains h.index then
          (if b.arrived.length ≤ 1 then none else some { b with arrived := b.arrived.filter (· != h.index) })
        else some b }

/-- Takes the pending interrupt of the hart in focus (R193). -/
def takeInterrupt (s : State) : State :=
  match s.h.irq with
  | none => s
  | some (v, again) =>
    let s := s.leaveBarrier s.h
    (takeTrap { code := cInterrupt, detail := if again then 1 else 0, val := v } s.h.pc false s).modH fun h =>
      { h with irq := none, monitor := none }

/-! Fetching. -/

/-- How many of `n` units from an even address lie in its page. -/
def unitsInPage (n a : Nat) : Nat := Nat.min n ((4096 - a % 4096) / 2)

/-- The bytes of up to `n` units from an address, as far as the fetch does not fault (R265), at their latest values: of a
write to code that runs, a fetch sees the new units (R271, DESIGN CHOICE, log entry 51). -/
def fetchBytes (s : State) (n a : Nat) : List Byte :=
  let k := unitsInPage n a
  match probe s needFetch (a : Int) 2 2 with
  | .ok p =>
    (s.curPhys s.h.core p (2 * k)).1 ++
      (if n ≤ k then []
       else match probe s needFetch (a + 2 * k : Nat) 2 2 with
        | .ok q => (s.curPhys s.h.core q (2 * (n - k))).1
        | .bad _ | .wait | .poisoned _ => [])
  | .bad _ | .wait | .poisoned _ => []

/-- The form at an address as the hart in focus decodes it (R264, R265): of 18 units at most. -/
def State.formAt (s : State) (a : Nat) : Except DecodeError (Instr × Nat) :=
  decodeFor (isSliced s.h.fmt) (fetchBytes s 18 a)

/-- The first poisoned word among `n` units fetched from an address (R206). -/
def fetchPoison (s : State) (n a : Nat) : Option PLoc :=
  let k := unitsInPage n a
  match probe s needFetch (a : Int) 2 2 with
  | .ok p =>
    (s.curPhys s.h.core p (2 * k)).2.or
      (if n ≤ k then none
       else match probe s needFetch (a + 2 * k : Nat) 2 2 with
        | .ok q => (s.curPhys s.h.core q (2 * (n - k))).2
        | .poisoned w => some (.mem w)
        | .bad _ | .wait => none)
  | .poisoned w => some (.mem w)
  | .bad _ | .wait => none

/-! Readiness. -/

/-- The pending interrupt can be taken now: delivery is enabled, and every form issued has completed (R193). -/
def State.takable (s : State) (h : Hart) : Bool :=
  h.irq.isSome && h.tvec.getLsbD 0 && !h.inHandler && h.vp.isNone && h.resume.isNone && (s.heldOf h).isEmpty

/-- The form that a hart would issue next must pop a token that is absent (R25). -/
def State.lacksToken (s : State) (h : Hart) : Bool :=
  h.vp.isNone && h.resume.isNone && h.ahead.isEmpty &&
    match State.formAt { s with h := h } h.pc.toNat with
    | .ok (i, _) => (popFifo i.stack i.adm.queue).any fun f => h.tokens.getD f 0 == 0
    | .error _ => false

/-- A hart may be granted the issue slot (R25), or takes its interrupt. -/
def State.ready (s : State) (h : Hart) : Bool :=
  match h.status with
  | .running => s.takable h || !s.lacksToken h
  | .stalled .retry => true
  | .stalled (.token f) => h.tokens.getD f 0 != 0 || s.takable h
  | .stalled (.lanes _) | .stalled (.matrix _ _) | .stalled (.barrier _ _) | .stalled (.monitor _)
  | .stalled (.rcf _ _ _ _) => s.takable h
  | .stalled (.beats _) | .stalled (.reclaim _) | .absent | .heldInFault | .frozen => false

/-- The priority of a hart (R26). -/
def State.priority (s : State) (h : Hart) : Nat :=
  let p := match s.sys.gangs.find? (fun g => g.num == h.gang) with
    | some g => bitsOf g.desc.prio.toNat 1 0
    | none => 0
  Nat.min 3 (if h.aged then p + 1 else p)

/-- Whether hart `a` comes before hart `b` of its core (R26): a higher effective priority, then the round robin after
the last context granted. -/
def State.before (s : State) (last : Ctx) (a b : Hart) : Bool :=
  let turn := fun h : Hart => (h.ctx.val + 15 - last.val) % 8
  s.priority b < s.priority a || s.priority a == s.priority b && turn a < turn b

/-- Inserts a hart in a list in arbitration order. -/
def State.rank (s : State) (last : Ctx) (h : Hart) : List Hart → List Hart
  | [] => [h]
  | x :: xs => if s.before last h x then h :: x :: xs else x :: s.rank last h xs

/-- The harts that may be granted, in the order in which the step tries them: cores by the hart that has run least
recently, and within a core as R26 says. -/
def State.tries (s : State) : List (CoreId × Ctx) :=
  let hs := (s.rest ++ [s.h]).filter s.ready
  let cs := (hs.map (·.core)).eraseDups
  cs.flatMap fun c =>
    let last := (s.coreOf c).lastCtx
    ((hs.filter (·.core == c)).foldl (fun l h => s.rank last h l) []).map fun h => (h.core, h.ctx)

/-- The bookkeeping of a grant (R26). -/
def State.grant (s : State) : State :=
  (s.modH fun h => { h with aged := false, status := .running }).modCore s.h.core fun k => { k with lastCtx := s.h.ctx }

/-! Fetching and running. -/

/-- Consumes a poisoned word of a fetch: a squash, or a data error (R206 to R208). -/
def fetchConsume (l : PLoc) (trap : TrapInfo → State → State) (s : State) : State :=
  if s.h.squash = some l then trap { code := cData } s else s.squashed l

/-- Fetches, decodes and runs the form at the pc (R264, R265). DEDUCED, log entry 44. -/
def fetchRun (ex : Instr → State → Out) (s : State) : Out :=
  let a := s.h.pc.toNat
  let trap := fun (t : TrapInfo) (s : State) =>
    if (s.heldOf s.h).isEmpty then takeTrap t (s.h.pc + wd t.unit) false s else s.stall .retry
  let clean := fun (n : Nat) (k : State → Out) =>
    match fetchPoison s ((n + 1) / 2) a with
    | some l => .next (fetchConsume l trap s)
    | none => k s
  match s.formAt a with
  | .ok (i, len) => clean len (ex i)
  | .error (.illegalInstr off) => clean (off + 2) fun s => .next (trap { code := cIllegal, unit := off } s)
  | .error (.illegalUnit off) => clean (off + 2) fun s => .next (trap { code := cPrefixUnit, unit := off } s)
  | .error (.short off) =>
    clean off fun s =>
      match probe s needFetch (a + off : Nat) 2 2 with
      | .bad c => .next (trap { code := c, val := wd off } s)
      | .wait => .next (s.stall .retry)
      | .poisoned w => .next (fetchConsume (.mem w) trap s)
      | .ok _ => .next (trap { code := cIllegal } s)

/-! Virtual processors. -/

/-- The group that runs next (R36): the virtual processors at the lowest pc of the first lane cluster that has any. -/
def Hart.nextGroup (h : Hart) (vps : List Vp) : List Nat :=
  let y := h.layout
  let lc := fun v : Vp => (y.place v.e).1 / 8
  let first := vps.foldl (fun n v => Nat.min n (lc v)) 64
  let mine := vps.filter fun v => lc v == first
  let pc := mine.foldl (fun n v => Nat.min n v.pc.toNat) (2 ^ 64)
  (mine.filter fun v => v.pc.toNat == pc).map (·.e)

/-- Runs one instruction of a block for a group (R34 to R36, R198). DESIGN CHOICE, log entry 9. -/
def vpStep (ex : Instr → State → Out) (r : VpRun) (s : State) : Out :=
  if r.vps.isEmpty then .next s.endVp
  else
    let g := s.h.nextGroup r.vps
    let s := s.modH fun h => { h with vp := some { r with group := some g } }
    let out := (r.vps.filter fun v => g.contains v.e && 128 ≤ (v.pc - v.entry).toNat).map (·.e)
    let a := s.h.groupPc.toNat
    let trap := fun (t : TrapInfo) (s : State) => vpTrap { t with val := wd (lowest g) } s
    if !out.isEmpty then .next (vpTrap (wholeTrap cIllegal (wd (lowest out))) s)
    else
      match fetchPoison s 2 a with
      | some l => .next (fetchConsume l trap s).endVp
      | none =>
        match decodeForm (fetchBytes s 2 a) with
        | .ok (i, _) => ex i s
        | .error (.illegalInstr _) => .next (trap (wholeTrap cIllegal) s)
        | .error (.illegalUnit _) => .next (trap (wholeTrap cIllegal) s)
        | .error (.short off) =>
          match probe s needFetch (a + off : Nat) 2 2 with
          | .bad c => .next (trap (wholeTrap c) s)
          | .wait => .next s.endVp
          | .poisoned w => .next (fetchConsume (.mem w) trap s).endVp
          | .ok _ => .next (trap (wholeTrap cIllegal) s)

/-! One grant. -/

/-- What the granted hart does: a step of its block, its interrupt, the instruction that resumes, or its next form. -/
def runHart (ex : Instr → State → Out) (s : State) : Out :=
  match s.h.vp with
  | some r => vpStep ex r s
  | none =>
    if s.takable s.h then .next (takeInterrupt s)
    else match s.h.resume with
      | some o => ex o.instr s
      | none => fetchRun ex s

/-- A hart waits for something that it tries again. -/
def Hart.retries (h : Hart) : Bool := match h.status with
  | .stalled .retry => true
  | .stalled (.rcf _ _ _ _) | .stalled (.token _) | .stalled (.lanes _) | .stalled (.matrix _ _) | .stalled (.barrier _ _)
  | .stalled (.monitor _) | .stalled (.reclaim _) | .stalled (.beats _) | .absent | .running | .heldInFault | .frozen => false

/-- A younger form may issue past this one while it waits for its turn: it stalls no issue (R25), and neither leaves the
program nor clears the FIFOs. -/
def Instr.passable (i : Instr) : Bool :=
  match i with
  | .vcvt .. | .mop .. | .mrow .. | .vamo .. | .vamoSwap .. | .vldm .. | .fence .. | .strl .. | .csrr .. | .csrw ..
  | .csrs .. | .csrc .. | .xsend .. | .xrecv .. | .amsg .. | .launch .. | .claim .. | .vsave .. | .slwb .. | .mrel ..
  | .vfetch .. => true
  | _ => i.effect != .whole

/-- A form that reads no memory and writes nothing but scalar registers and the pc: of the scalar ALU, a jump or a branch. -/
def Instr.scalarWork (i : Instr) : Bool := i.effect == .internal && i.adm.queue == 0

/-- A jump or a branch. -/
def Instr.jumps (i : Instr) : Bool :=
  match i with
  | .jal .. | .jalr .. | .beq .. | .bne .. | .blt .. | .bge .. | .bltn .. | .bgen .. | .cbeqz .. | .cbnez .. | .cj .. => true
  | _ => false

/-- A form leaves every one of some scalar registers alone, and reads none of them; a branch of 16 bits reads one. -/
def Instr.sparesAll (i : Instr) (rs : List SReg) : Bool :=
  rs.isEmpty || match i with
    | .cj _ => true
    | .cbeqz a _ | .cbnez a _ => !rs.any fun r => r.val == a.val
    | _ => rs.all i.spares

/-- The form that stands `n` forms behind the pc of the hart in focus, when those between may be passed. Forms of the scalar
ALU are worked out on a copy of the state, and jumps and branches followed, as long as they read no register that a form
passed has yet to write (`bad`). -/
def State.formAhead (ex : Instr → State → Out) : Nat → List SReg → State → Option Instr
  | n, bad, s =>
    match s.formAt s.h.pc.toNat with
    | .error _ => none
    | .ok (i, len) => match n with
      | 0 => some i
      | n + 1 =>
        if !Instr.passable i then none
        else if Instr.scalarWork i && Instr.sparesAll i bad then
          match ex i { s with held := [], h := { s.h with status := .running, ahead := [], tokens := Vector.replicate 25 8 } } with
          | .next t =>
            if t.h.status = .running ∧ t.h.tvec = s.h.tvec ∧ t.h.squash = s.h.squash then State.formAhead ex n bad t else none
          | .fault _ => none
          | .refused _ => none
        else if Instr.jumps i then none
        else State.formAhead ex n (i.destScalar.toList ++ bad) (s.modH fun h => { h with pc := h.pc + wd len })

/-- A hart that waits for a place in a token FIFO issues the next of its forms ahead of its turn, when the token that it
pops is there: the pop may free the place (R109). The depth is that of an engine queue, 16 (R356). -/
def State.issueAhead (ex : Instr → State → Out) (s : State) : State :=
  let h := s.h
  if h.resume.isSome || 16 ≤ h.ahead.length then s
  else match State.formAhead ex h.ahead.length [] s with
    | none => s
    | some i =>
      match popFifo i.stack i.adm.queue with
      | none => s.modH fun h => { h with ahead := h.ahead ++ [none] }
      | some f =>
        if h.tokens.getD f 0 = 0 then s
        else
          let s1 := s.modH fun h =>
            { h with ahead := h.ahead ++ [some f], tokens := h.tokens.setIfInBounds f (h.tokens.getD f 0 - 1) }
          if (s1.heldOf s1.h).head?.any (fun d => d.fifo.all s1.h.hasPlace)
          then s1.post (.instructionRetirement h.core h.ctx) else s1

/-- The form at the pc waits for a place in a token FIFO: its own push, or that of an older form. -/
def State.waitsForPlace (s : State) : Bool :=
  !(s.heldOf s.h).isEmpty ||
    match s.formAt s.h.pc.toNat with
    | .ok (i, _) => (pushFifo i.stack i.adm.queue).any fun f => !s.h.hasPlace f
    | .error _ => false

/-- Grants the issue slot to the first hart that is ready; one that tries again in vain is passed over, but for a BAR that now
has passed the checks of its issue (R282). With none, the machine idles. A hart that waits for a place in a token FIFO issues
ahead. -/
def tryHarts (ex : Instr → State → Out) (s : State) : List (CoreId × Ctx) → Out
  | [] => .next s
  | (c, k) :: l =>
    match s.focus c k with
    | none => tryHarts ex s l
    | some s1 =>
      match runHart ex s1.grant with
      | .next t =>
        if s1.h.retries && t.h.retries then
          let u := if t.waitsForPlace then t.issueAhead ex else t
          if u.h.ahead.length != t.h.ahead.length || t.h.barred != s1.h.barred then .next u else tryHarts ex s l
        else .next t
      | .fault f => .fault f
      | .refused r => .refused r

/-! Held forms. -/

/-- Makes the effect of a form whose push has found its place (R109): it runs on the hart as it stood when it issued, and
the hart takes back the transfers, the lost write, its record in FST and the answer that result. A form that can no longer be performed is dropped. DEDUCED, log entry 23. -/
def releaseHeld (ex : Instr → State → Out) (d : Held) (s : State) : Out :=
  match s.focus d.snap.core d.snap.ctx with
  | none => .next { s with held := s.held.erase d }
  | some s1 =>
    let cur := s1.h
    let others := s1.held.filter fun x => !(x.snap.core == cur.core && x.snap.ctx == cur.ctx)
    let mine := (s1.heldOf cur).erase d
    let run : Hart :=
      { d.snap with
        xfers := cur.xfers, ptStores := cur.ptStores, lost := cur.lost, fst := cur.fst, ahead := []
        tokens := Vector.replicate 25 0
        resume := some { pc := d.snap.pc, instr := d.instr, stripe := 0, kept := [], keptMask := 0, keptBad := [], frees := [], purse := 0 } }
    let push := fun h : Hart => match d.fifo with
      | none => h
      | some f => h.pushTok f
    let finish := fun (s : State) (h : Hart) =>
      let s2 := { s with h := push h, held := mine ++ others }
      if mine.head?.any fun x => x.fifo.all s2.h.hasPlace then s2.post (.instructionRetirement cur.core cur.ctx) else s2
    match ex d.instr { s1 with h := run, held := others } with
    | .next t =>
      if t.h.retries then .next s
      else if t.h.pc = d.snap.pc + wd (formLen d.instr) && t.h.status = .running then
        let cur := match d.instr.answerReg with
          | none => cur
          | some r =>
            let bad := t.h.poison.filter fun l => l == PLoc.sreg r
            { cur with sregs := cur.sregs.set r t.h.sregs[r]
                       poison := bad ++ cur.poison.filter fun l => l != PLoc.sreg r }
        .next (finish t { cur with xfers := t.h.xfers, ptStores := t.h.ptStores, lost := t.h.lost, fst := t.h.fst })
      else .next (finish s1 cur)
    | .fault f => .fault f
    | .refused r => .refused r

/-! The step. -/

/-- A placed hart's backing area as the tables now map it (R104). -/
def Hart.remapped (s : State) (h : Hart) : Hart :=
  if h.status == .absent then h
  else { h with backing := backingPages s h.cid (h.vbase &&& ~~~4095).toNat h.backing }

/-- What every step adds: the count of steps, the cycles of the cores (DESIGN CHOICE, log entry 10); the backing areas as the
tables map them (R104); harts that have gone. -/
def State.tock (s : State) : State :=
  { s with
    tick := s.tick + 1
    cyc := Vector.ofFn fun c => s.cyc[c] + Config.cycles c.val s.tick
    h := s.h.remapped s
    rest := (s.rest.filter fun h => h.status != .absent).map fun h => h.remapped s }

/-- An outcome with what every step adds. -/
def tocked : Out → Out
  | .next s => .next s.tock
  | .fault f => .fault f
  | .refused r => .refused r

/-- What still acts while the module stays in reset because neither firmware image verified: the Vault and the host-link port
(R225). -/
def Instr.inReset (i : Instr) : Bool :=
  match i with
  | .boot | .mextWrite .. | .measurementDone | .hostLinkTrained | .hostLinkRequest .. | .deviceRegisterWrite .. => true
  | .linkRetrain l => l == .host
  | _ => false

/-- One step, for a meaning `ex` of instructions: a module step that waits in the inbox, a held form that may retire, or
an instruction of a hart. -/
def runStep (ex : Instr → State → Out) (s : State) : Out :=
  tocked <|
    match s.inbox with
    | i :: is => if s.sys.booted || Instr.inReset i then ex i { s with inbox := is } else .next { s with inbox := is }
    | [] =>
      if !s.sys.booted then .next s
      else match s.held.find? (·.due) with
        | some d => releaseHeld ex d s
        | none => if s.sys.withheld then .next s else tryHarts ex s s.tries

end Sys2Proof.Machine
end

