-- ==== Sys2Proof/Machine/Stops.lean ====
section
/-! DEFINITION. How a hart stops: barrier completion and withdrawal (R281), EXIT (R289), the stop record and stopping
(R199 to R202), discarding (R142). -/

namespace Sys2Proof.Machine

/-! What waits for the outside. -/

/-- Commands in progress that wait for something are tried again: one row for each of those codes. -/
def State.retryCmds (s : State) (ops : List (BitVec 8 × Instr)) : State :=
  let rows := s.sys.cmds.filterMap fun k => if k.ans.isSome then none else (ops.find? fun p => p.1 == k.op).map (·.2)
  { s with inbox := s.inbox ++ rows }

/-- What waited on a link, a multicast entry, a frozen queue or a Teller is tried again: reports and commands. -/
def State.goOn (s : State) : State :=
  if s.sys.reports.isEmpty && s.sys.cmds.isEmpty then s
  else
    s.flushReports.retryCmds
      [(4, .cmdSlwb), (5, .cmdHmsw), (8, .cmdRetireHart), (0x0B, .cmdContextTable), (0x0D, .cmdRerunGang), (0x0E, .cmdFarm),
        (0x0F, .cmdLoadTellers), (0x10, .cmdAttest)]

/-! Barriers (R281). -/

/-- The participants of a barrier: the harts of a gang on the named cores of a pod. -/
def State.participants (s : State) (b : BarInst) : List Hart :=
  s.harts.filter fun h => h.gang == b.gang && podOf h.core == b.pod && b.mask.getLsbD (h.core.val % 16)

/-- Completes the BAR of every hart that waits at an instance, as an acquire at its scope. -/
def State.completeBar (s : State) (b : BarInst) : State :=
  let ps := (s.participants b).filter fun h => match h.status with
    | .stalled (.barrier _ _) => b.arrived.contains h.index
    | .stalled (.token _) | .stalled (.lanes _) | .stalled (.matrix _ _) | .stalled (.reclaim _) | .stalled (.rcf _ _ _ _)
    | .stalled (.monitor _) | .stalled (.beats _) | .stalled .retry | .absent | .running | .heldInFault | .frozen => false
  let s := ps.foldl (fun (s : State) (h : Hart) =>
    let s := s.updHart h fun h => match h.status with
      | .stalled (.barrier _ x) => finishHart h x 0
      | _ => (h, [])
    if 2 ≤ scopeRank b.scope then s.modMem fun m => m.selfInvalidate h.core else s) s
  s.modSys fun y => { y with bars := y.bars.filter (· != b) }

/-- The indices of the participants: of the placed harts, and of those that stand stopped on a named core, which have not
exited (R281). -/
def State.awaits (s : State) (b : BarInst) : List Nat :=
  (s.participants b).map (·.index) ++
    (s.sys.gangs.filter (·.num == b.gang)).flatMap fun g => (g.stopped.map (·.index)).filter fun i =>
      g.places.any fun p => p.1 == i && podOf p.2.1 == b.pod && b.mask.getLsbD (p.2.1.val % 16)

/-- Every participant has arrived. -/
def State.allArrived (s : State) (b : BarInst) : Bool := (s.awaits b).all b.arrived.contains

/-- Completes an instance once every participant has arrived. -/
def State.checkBar (s : State) (b : BarInst) : State := if s.allArrived b then s.completeBar b else s

/-- Completes the instances of a gang that wait for nobody any more, after a participant has gone. -/
def State.checkBars (s : State) (g : BitVec 8) : State :=
  (s.sys.bars.filter (·.gang == g)).foldl (fun (s : State) b => s.checkBar b) s

/-! Leaving. -/

/-- Changes a gang. -/
def State.modGang (s : State) (g : BitVec 8) (f : Gang → Gang) : State :=
  s.modSys fun y => { y with gangs := updateWhere (fun x => x.num == g) f y.gangs }

/-- The gang of a number. -/
def State.gangOf (s : State) (g : BitVec 8) : Option Gang := s.sys.gangs.find? fun x => x.num == g

/-- The home die of a gang: bits [7:6] of its number (R11, R13). -/
def Gang.home (g : Gang) : Fin 4 := Fin.ofNat 4 (g.num.toNat / 64)

/-- The Launch Units in which a ready gang waits try an admission again (R16). -/
def State.askAdmission (s : State) : State :=
  let wants := fun d : Fin 4 => s.sys.gangs.any fun g => g.st == .waiting && g.ready && g.home == d
  let asks := ((List.finRange 4).filter wants).map Instr.gangAdmission
  { s with inbox := s.inbox ++ asks.filter fun i => !s.inbox.contains i }

/-- A gang whose last hart has exited owes its DONE add (R19); when all that remain have stopped it waits again, the
youngest of its priority (R20, R16). -/
def State.countGang (s : State) (g : BitVec 8) : State :=
  match s.gangOf g with
  | none => s
  | some x =>
    if x.st != .resident then s
    else if x.live = 0 then (s.modGang g fun x => { x with st := .ended }).post (.doneAdd g)
    else if x.stopped.length = x.live then
      ((s.modGang g fun x => { x with st := .waiting, ready := true, age := s.sys.ageCount, passed := 0 }).modSys
        fun y => { y with ageCount := y.ageCount + 1 }).askAdmission
    else s

/-- The hart in focus leaves its core: what it holds there is freed, and its held forms with it. -/
def State.leave (s : State) : State :=
  let h := s.h
  let s := { s with held := s.held.filter fun d => !(d.snap.core == h.core && d.snap.ctx == h.ctx) }
  ((s.releaseLanes.releaseUnit).modH fun h => { h with status := .absent, irq := none, preempt := false }).askAdmission

/-- A release at .sys, and whether it, or a progress add that it makes, has recorded a lost write (R166). -/
def State.releaseLossy (s : State) : State × Bool :=
  let old := s.h.fst
  let t := (s.modH fun h => { h with fst := 0 }).release .sys
  let hit := t.h.fst != 0
  let now := if !hit then old else if old.getLsbD 63 then old ||| wd (2 ^ 62) else (old &&& ~~~(0xFFFFFFF : Word)) ||| t.h.fst
  (t.modH fun h => { h with fst := now }, hit)

/-- EXIT (R289), for the instruction and for command 0x08: accesses are performed at .sys, writes that were lost are
reported (R166), the open instruction closes, what the hart holds is freed, and the gang is counted out. -/
def exitHart (s : State) : State :=
  let g := s.h.gang
  let i := s.h.index
  let r := s.releaseLossy
  let s := r.1
  let lossy := r.2
  let s := if lossy then
      s.report { kind := 5, cid := s.h.cid, inc := s.h.inc, master := hartMaster s.h.core s.h.ctx
                 gang := gangWord g i, loss := s.h.fst.setWidth 28 }
    else s
  let s := s.closeOpen
  let s := s.modSys fun y =>
    { y with
      msgs := y.msgs.filter fun m => !(m.gang == g && m.receiver == i)
      bars := y.bars.filterMap fun b =>
        if b.gang == g && b.arrived.contains i then
          (if b.arrived.length ≤ 1 then none else some { b with arrived := b.arrived.filter (· != i) })
        else some b }
  (((s.leave).modGang g fun x => { x with live := x.live - 1 }).checkBars g).countGang g

/-- A hart is detached from the open multicast entries; one that nobody is attached to any more closes (R135). -/
def Sys.detach (y : Sys) (h : Hart) : Sys :=
  let keep := fun x : CoreId × Ctx × Nat => !(x.1 == h.core && x.2.1 == h.ctx)
  let cut := fun e : McEntry => { e with attached := e.attached.filter keep, replay := e.replay.filter keep }
  { y with mc := (y.mc.map cut).filter fun e => !(e.attached.isEmpty && e.replay.isEmpty) }

/-- A hart that is discarded stops at once (R142): nothing is written back, and its channels are emptied. -/
def discardHart (s : State) : State :=
  let g := s.h.gang
  let i := s.h.index
  let s := s.modH fun h => { h with xfers := [], opened := none }
  let s := s.modSys fun y =>
    { y.detach s.h with
      msgs := y.msgs.filter fun m => !(m.gang == g && (m.receiver == i || m.sender == i))
      bars := y.bars.filterMap fun b =>
        if b.gang == g && b.arrived.contains i then
          (if b.arrived.length ≤ 1 then none else some { b with arrived := b.arrived.filter (· != i) })
        else some b }
  s.leave.goOn

/-! The stop record (R201). -/

/-- The address of hart `i`'s record. -/
def recordBase (d : Desc) (i : Nat) : Nat := d.vbas.toNat + d.harts.toNat * 0x20000 + i * 0x100000

/-- A piece of a record: its offset, its bytes, and whether they are poisoned. -/
structure Seg where
  off : Nat
  bytes : List Byte
  poison : Bool
  deriving DecidableEq, Repr

/-- The frames of the 256 pages of a record; none at a fault, `.error true` behind a link that retrains. -/
def recordFrames (s : State) (need : Need) (h : Hart) (base : Nat) : List Nat → Except Bool (List Nat)
  | [] => .ok []
  | n :: ns =>
    match probeAt s need (.tlb h.core) h.core h.cid (s.spqOf h.gang) (base + 4096 * n : Nat) 4096 1 with
    | .ok p => (recordFrames s need h base ns).map (p.pa :: ·)
    | .bad _ => .error false
    | .poisoned _ => .error false
    | .wait => .error true

/-- Bytes cleared at their home: what is registered there, and the poison, go with them. -/
def Mem.clear (m : Mem) (c : CoreId) (pa n : Nat) : Mem :=
  let out := fun a : Nat => a < pa || pa + n ≤ a
  { m with
    home := m.home.filter fun p => out p.1
    poison := m.poison.filter out
    regd := m.regd.filter fun r => out r.pa
    l1 := m.l1.filter fun x => out x.pa || x.core != c
    sharers := m.sharers.filter fun x => out x.2
    transl := m.transl.filter fun t => t.pieces.all out
    ptrs := m.ptrs.filter fun t => t.pieces.all out }

/-- The bytes of a piece that are not 0, written to the frames of a record. -/
def putSeg (frames : Array Nat) (poison : Bool) : Nat → List Byte → Mem → Mem
  | _, [], m => m
  | off, b :: bs, m =>
    let pa := frames.getD (off / 4096) 0 + off % 4096
    let m := if b = 0 then m else m.homePut pa b
    putSeg frames poison (off + 1) bs (if poison then m.setPoison pa true else m)

/-- A number as a piece of a record. -/
def seg (off n v : Nat) (poison : Bool := false) : Seg := ⟨off, natToBytes n v, poison⟩

/-- A shell entry in 16 bytes (Table 10-9). -/
def shellBytes : Shell → List Byte
  | .zero => List.replicate 16 0
  | .const v => natToBytes 8 v.toNat ++ [1] ++ List.replicate 7 0
  | .edge => List.replicate 8 0 ++ [2] ++ List.replicate 7 0
  | .link r => List.replicate 8 0 ++ [3, BitVec.ofNat 8 r.val] ++ List.replicate 6 0
  | .trap => List.replicate 8 0 ++ [4] ++ List.replicate 7 0

/-- The shells of a hart as pieces. -/
def shellSegs (h : Hart) (off : Nat) : List Seg :=
  (List.range 384).map fun i => ⟨off + 16 * i, shellBytes (lookupD .zero i h.shells), false⟩

/-- The cells of a register in lane blocks, from an offset (R102). -/
def blockSegs (h : Hart) (off : Nat) (cells : List VCell) : List Seg :=
  cells.map fun c => seg (off + c.key / 128 % 64 * (2048 / h.nreg) + 4 * (c.key % 128)) 4 c.val.toNat c.poison

/-- The vector register that an instruction of classes 010 and 011 writes, which stays open at a trap (R195). -/
def destReg : Instr → Option VReg
  | .vadd _ d _ _ _ _ | .vsub _ d _ _ _ _ | .vmul _ d _ _ _ _ | .vmulh _ d _ _ _ _ | .vdiv _ d _ _ _ _
  | .vmin _ d _ _ _ _ | .vmax _ d _ _ _ _ | .vand _ d _ _ _ _ | .vor _ d _ _ _ _ | .vxor _ d _ _ _ _
  | .vshl _ d _ _ _ _ | .vshr _ d _ _ _ _ | .vsra _ d _ _ _ _ | .vadc _ d _ _ _ _ | .vsbc _ d _ _ _ _
  | .vfma _ d _ _ _ _ | .vfms _ d _ _ _ _ | .vfnma _ d _ _ _ _ | .vfnms _ d _ _ _ _ | .vsel _ d _ _ _ _
  | .vbsadd _ d _ _ _ | .vbsmul _ d _ _ _ | .vabs _ d _ _ | .vneg _ d _ _ | .vsqrt _ d _ _ | .vrcp _ d _ _
  | .vrsq _ d _ _ | .vexp2 _ d _ _ | .vlog2 _ d _ _ | .vclass _ d _ _ | .vnot _ d _ _ | .vclz _ d _ _
  | .vpopc _ d _ _ | .vmov _ d _ _ | .vmovScalar _ d _ _ | .vrsum _ d _ _ | .vrmax _ d _ _ | .vrmin _ d _ _
  | .vrand _ d _ _ | .vror _ d _ _ | .vcvt _ d _ _ _ _ | .vperm _ d _ _ _ | .vbsj _ d _ | .vresh _ d _ _
  | .vins _ d _ _ | .vcomp _ d _ _ | .vargmax _ d _ _ | .vdecb _ d _ _ _ _ | .vbsl _ d _ | .vidx _ d _ _ => some d
  | .add .. | .sub .. | .and .. | .or .. | .xor .. | .shl .. | .shr .. | .sra .. | .mul .. | .mulh .. | .mulhn ..
  | .div .. | .divn .. | .rem .. | .remn .. | .min .. | .max .. | .minn .. | .maxn .. | .slt .. | .sltn .. | .clz ..
  | .popc .. | .shli .. | .shri .. | .srai .. | .addi .. | .andi .. | .ori .. | .xori .. | .slti .. | .lih ..
  | .adpc .. | .hint .. | .nop .. | .ld .. | .st .. | .jalr .. | .jal .. | .beq .. | .bne .. | .blt .. | .bge ..
  | .bltn .. | .bgen .. | .caddi .. | .cli .. | .cmov .. | .cadd .. | .csub .. | .cbeqz .. | .cbnez .. | .cj ..
  | .cldw .. | .cldd .. | .cstw .. | .cstd .. | .vcmp .. | .vfetch .. | .vstop .. | .vnext .. | .vpbr .. | .mand ..
  | .mor .. | .mxor .. | .mandn .. | .mnot .. | .mshl .. | .mpopc .. | .mfirst .. | .mset .. | .vscl .. | .vext ..
  | .vld .. | .vldStrided .. | .vldx .. | .vldm .. | .vldb .. | .vldbS2c .. | .vpref .. | .vprefStrided ..
  | .vprefIndexed .. | .vkld .. | .vst .. | .vstStrided .. | .vstx .. | .vstb .. | .vstbC2s .. | .vred ..
  | .vredIndexed .. | .vkst .. | .vamo .. | .vamoSwap .. | .qdrop .. | .tkclr .. | .msetm .. | .mzero .. | .mrel ..
  | .mop .. | .mrow .. | .mmovv .. | .mlda .. | .mstaStrided .. | .mstaIndexed .. | .cecopy .. | .cefill ..
  | .cestat .. | .launch .. | .farm .. | .bar .. | .xsend .. | .xrecv .. | .amsg .. | .setvl .. | .setvlb ..
  | .setsh .. | .csrr .. | .csrw .. | .csrs .. | .csrc .. | .amo .. | .cas .. | .ldaq .. | .strl .. | .claim ..
  | .waitm .. | .sysc .. | .tret .. | .exit .. | .fence .. | .vsave .. | .vrest .. | .incb .. | .rcf .. | .slwb ..
  | .hmsw .. | .gangAdmission .. | .waitcRead .. | .doneAdd .. | .gangStaging .. | .budgetExpiry .. | .forcedStop ..
  | .ageingPriorityRaise .. | .lcOnToRetention .. | .lcRetentionToOff .. | .laneClusterWake .. | .registerRefill ..
  | .stripeIssue .. | .instructionRetirement .. | .interruptTaken .. | .protectionViolation .. | .pageSortingRound ..
  | .translationWalk .. | .tlbInvalidationAck .. | .ptStoreCompletion .. | .wordRegistration .. | .sliceRead ..
  | .readForward .. | .missTableAdmission .. | .responseArrival .. | .writeBack .. | .homeWriteApply ..
  | .sharerInvalidation .. | .homeAtomic .. | .claimService .. | .farmWrite .. | .vredElementAdd ..
  | .progressWordAdd .. | .multicastHeader .. | .multicastBeatSend .. | .tellerHandlerRun .. | .handlerAbort ..
  | .copyEngineTransfer .. | .monitorWake .. | .xrecvMessageArrival .. | .incarnationChange .. | .sweepReport ..
  | .dieLossReport .. | .linkRetrain .. | .linkRetrainTimeout .. | .linkTrained .. | .agentRejoin ..
  | .weakarRequestAdmission .. | .hostSnoop .. | .arrayErrorDetected .. | .junctionOverTemperature ..
  | .powerCapExceeded .. | .powcapWrite .. | .selfidWrite .. | .portEnableWrite .. | .deviceRegisterWrite ..
  | .hostLinkRequest .. | .missFillAnswer .. | .powerDrawBelowCap .. | .cmdLaunch .. | .cmdIncb .. | .cmdRcf ..
  | .cmdSlwb .. | .cmdHmsw .. | .cmdDeclareFailed .. | .cmdResumeHart .. | .cmdRetireHart .. | .cmdPreEmptGang ..
  | .cmdReleaseMaster .. | .cmdContextTable .. | .cmdInterruptHart .. | .cmdRerunGang .. | .cmdFarm ..
  | .cmdLoadTellers .. | .cmdAttest .. | .cmdUnknown .. | .commandCompletion .. | .boot .. | .mextWrite ..
  | .measurementDone .. | .hostLinkTrained .. => none

/-- The value kept of an open instruction (R195): its register in lane blocks, or its mask in order of elements, for which
Table 10-9 gives no layout (DESIGN CHOICE, log entry 17). -/
def keptSegs (h : Hart) (off : Nat) : Option OpenInstr → List Seg
  | none => []
  | some o =>
    if (destReg o.instr).isNone then
      seg off 8192 o.keptMask :: o.keptBad.map fun w => ⟨off + 4 * w, List.replicate 4 0, true⟩
    else blockSegs h off o.kept

/-- The messages that wait for a hart (R201). -/
def State.messagesFor (s : State) (h : Hart) : List Message :=
  s.sys.msgs.filter fun m => m.gang == h.gang && m.receiver == h.index

/-- A word of a message. -/
def Message.cell (m : Message) (key : Nat) : VCell := (m.data.find? fun c => c.key == key).getD ⟨key, 0, false⟩

/-- The lanes of a message, in ascending order. -/
def Message.laneList (m : Message) : List Nat := (List.range 64).filter m.lanes.contains

/-- The messages of a hart as pieces: lane blocks in ascending lane order. -/
def messageSegs (ms : List Message) : List Seg :=
  ((List.range 8).zip ms).flatMap fun p =>
    let m := p.2
    let lanes := m.laneList
    [seg (0x380 + 16 * p.1) 4 m.sender, seg (0x384 + 16 * p.1) 4 m.words,
     seg (0x388 + 16 * p.1) 8 (lanes.foldl (fun n l => n + 2 ^ l) 0)]
    ++ ((List.range lanes.length).zip lanes).flatMap fun l => (List.range (Nat.min 128 m.words)).map fun w =>
      let c := m.cell (128 * l.2 + w)
      seg (0xC0000 + p.1 * 0x8000 + 4 * (l.1 * Nat.min 128 m.words + w)) 4 c.val.toNat c.poison

/-- A mask register as a number: m0 reads all ones wherever it is read (R301). -/
def Hart.maskWord (h : Hart) (m : MReg) : Nat := if m = 0 then 2 ^ 65536 - 1 else h.masks[m]

/-- log2 MVL, for a hart that holds the matrix unit or claims it on its resumption (R86). -/
def lmvl (h : Hart) : Nat := match h.mvl with
  | some l => l.code
  | none => match h.status with
    | .stalled (.reclaim l) => l.code
    | .stalled (.token _) | .stalled (.lanes _) | .stalled (.matrix _ _) | .stalled (.rcf _ _ _ _)
    | .stalled (.barrier _ _) | .stalled (.monitor _) | .stalled (.beats _) | .stalled .retry | .absent | .running | .heldInFault | .frozen => 0

/-- What both kinds of stop save (Table 10-9). -/
def commonSegs (s : State) (how : Nat) : List Seg :=
  let h := s.h
  let ms := s.messagesFor h
  [seg 0 8 how, seg 8 8 h.pc.toNat, seg 0x12 1 h.lcn, seg 0x13 1 (lmvl h), seg 0x16 1 ms.length,
   seg 0x17 1 (match h.irq with | none => 0 | some (_, again) => if again then 3 else 1),
   seg 0x18 8 (match h.irq with | none => 0 | some (v, _) => v.toNat)]
  ++ (List.range 25).map (fun i => seg (0x20 + i) 1 (h.tokens.getD i 0))
  ++ (List.finRange 64).map (fun r => seg (0x40 + 8 * r.val) 8 (h.sreg r).toNat (h.sPoison r))
  ++ ((List.range 15).zip [Csr.vl, .vtype, .bgeo, .dil, .cbypass, .purse, .frm, .fflags, .chk, .fst, .tvec, .tcause,
      .tpc, .tstripe, .tval]).map (fun p => seg (0x240 + 8 * p.1) 8 (csrRead s p.2).toNat)
  ++ (List.finRange 8).map (fun m => seg (0x1000 + 8192 * m.val) 8192 (h.maskWord m))
  ++ ((List.finRange 8).flatMap fun m => (List.range 2048).filterMap fun k =>
      if h.poison.contains (.mask m k) then some (⟨0x1000 + 8192 * m.val + 4 * k, List.replicate 4 0, true⟩ : Seg)
      else none)
  ++ (List.range 4096).map (fun k => seg (0x15000 + 4 * k) 4 (lookupD 0 k h.cells).toNat)
  ++ (h.poison.filterMap fun l => match l with
      | .cell k => some (⟨0x15000 + 4 * k, List.replicate 4 0, true⟩ : Seg)
      | .sreg _ | .vword _ | .mask _ _ | .scale _ | .queue _ _ | .mem _ | .spad _ => none)
  ++ shellSegs h 0x19000
  ++ messageSegs ms

/-- P of a register: complete, but for the destination of an open instruction, which holds its stripe (R195, R201, R203). Of
registers from NREG on a stop record holds 0, as an image does, though Table 10-9 does not say so: DESIGN CHOICE, log entry 17.
-/
def progressOf (h : Hart) (r : VReg) : Nat :=
  let dst := fun o : OpenInstr => destReg o.instr == some r
  if h.nreg ≤ r.val then 0
  else match h.resume with
    | some o => if dst o then o.stripe % 65536 else if h.opened.any dst then h.tstripe.toNat % 65536 else 0xFFFF
    | none => if h.opened.any dst then h.tstripe.toNat % 65536 else 0xFFFF

/-- P of v0 to v63 in 128 bytes. -/
def progressBytes (h : Hart) : List Byte := (List.finRange 64).flatMap fun r => natToBytes 2 (progressOf h r)

/-- The offsets of the words that hold `n` bytes at an offset. -/
def wordsOf (off n : Nat) : List Nat := (List.range ((off % 4 + n + 3) / 4)).map fun i => off / 4 * 4 + 4 * i

/-- The offsets of the poisoned words of element `e`, in elements of width `w` from an offset on. -/
def elemBad (w off e : Nat) (bad : Bad) : List Nat :=
  if bad = 0 then []
  else if w = 64 then
    (if bad.testBit 0 then [off + 8 * e] else []) ++ (if bad.testBit 1 then [off + 8 * e + 4] else [])
  else wordsOf (off + e * w / 8) ((e * w % 8 + w + 7) / 8)

/-- An entry of a load queue in element order; poison stands with the words that hold a poisoned element (R206). -/
def entrySegs (w off : Nat) (q : QEntry) : List Seg :=
  seg off 0x8000 (q.elems.foldr (fun e n => e.1 % 2 ^ w + 2 ^ w * n) 0) ::
    ((List.range q.elems.length).zip q.elems).flatMap fun p =>
      (elemBad w off p.1 p.2.2).map fun a => (⟨a, List.replicate 4 0, true⟩ : Seg)

/-- What a forced stop saves besides (Table 10-9). -/
def forcedSegs (h : Hart) : List Seg :=
  [seg 0x10 2 (match h.resume with | some o => o.stripe | none => 0xFFFF),
   seg 0x14 2 ((List.finRange 4).foldl (fun n q => n + h.queues[q].length * 16 ^ q.val) 0)]
  ++ [⟨0x300, progressBytes h, false⟩]
  ++ (List.finRange 8).map (fun k => (⟨0x11000 + 2048 * k.val, (List.range 2048).map (h.scale k), false⟩ : Seg))
  ++ ((List.range 4096).filter fun w => h.poison.contains (.scale w)).map (fun w =>
      (⟨0x11000 + 4 * w, [0, 0, 0, 0], true⟩ : Seg))
  ++ ((List.finRange 4).flatMap fun q => ((List.range 4).zip h.queues[q]).flatMap fun p =>
      entrySegs (width h.fmt) (0x20000 + (4 * q.val + p.1) * 0x8000) p.2)
  ++ keptSegs h 0xA0000 h.opened ++ keptSegs h 0xA8000 h.resume

/-- Writes a stop record (R201), with what writes set off (R165): none behind a link that retrains, `.error` at a fault. -/
def writeRecord (segs : List Seg) (s : State) : Except Bool State :=
  match s.gangOf s.h.gang with
  | none => .ok s
  | some g =>
    match recordFrames s needNormalWrite s.h (recordBase g.desc s.h.index) (List.range 256) with
    | .error b => .error b
    | .ok fs =>
      let a := fs.toArray
      let s := s.modMem fun m =>
        segs.foldl (fun m x => putSeg a x.poison x.off x.bytes m) (fs.foldl (fun m pa => m.clear s.h.core pa 4096) m)
      .ok (fs.foldl (fun (s : State) pa => s.noteWrite pa 4096) s)

/-- A fault of a stop record holds the hart in fault (R201), and so does one of a write-back at a stop, for which R103 says only
that the write-back is not made (DESIGN CHOICE, log entry 17). -/
def holdBacking (s : State) : State :=
  let t : TrapInfo := { code := cBacking, val := 0xFFFF }
  let s := s.modH fun h => { h.trapRegs t h.pc false with status := .heldInFault }
  s.report (trapReport s.h t)

/-- Frees a hart that has written its stop record (R199, R200). -/
def finishStop (how : Nat) (s : State) : State :=
  let g := s.h.gang
  let me : Stopped :=
    { index := s.h.index, how := how, lcn := s.h.lcn, opened := s.h.opened.map fun o => { o with kept := [] }
      resumeMask := (s.h.resume.map (·.keptMask)).getD 0, vpClosed := s.h.vpClosed }
  let s := s.modSys fun y =>
    { y with msgs := y.msgs.filter fun m => !(m.gang == g && m.receiver == me.index) }
  ((s.leave).modGang g fun x => { x with stopped := x.stopped ++ [me] }).countGang g

/-- A pending pre-emption taken at SETVL, SETVLB or VREST (R199): the hart stops with HOW = 1; or it waits for a link. -/
def preemptStop (s : State) : Res :=
  let s := (s.release .sys).modH fun h => { h.dead.dropQueues with preempt := true }
  match writeRecord (commonSegs s 1) s with
  | .ok s => .gone (finishStop 1 s)
  | .error true => .wait s .retry
  | .error false => .gone (holdBacking s)

/-- The hart without the forms that it has issued and not retired (R194, R200): a VFETCH that has not completed, the held
forms, and those that wait for their turn. -/
def State.unwound (s : State) : Hart :=
  let h := s.h.unwindAhead
  let h := match h.vp with
    | none => h
    | some r =>
      { h with
        vp := none, vregs := r.regs0, masks := r.masks0, sregs := r.sregs0, fflags := r.fflags0, purse := r.purse0
        poison := r.poison0, pc := r.at_
        tokens := match r.pop with
          | none => h.tokens
          | some f => h.tokens.setIfInBounds f (h.tokens.getD f 0 + 1) }
  match (s.heldOf h).head? with
  | none => h
  | some d =>
    let k := if d.snap.ahead.isEmpty then (match popFifo d.instr.stack d.instr.adm.queue with
        | none => d.snap
        | some f => d.snap.pushTok f)
      else d.snap.unwindAhead
    { k with
      irq := h.irq, preempt := h.preempt, xfers := h.xfers, ptStores := h.ptStores, lost := h.lost, fst := h.fst, lcs := h.lcs
      requester := h.requester, demand := h.demand, offChip := h.offChip }

/-- Writes back every live register of the hart in focus (R200, R102); `.error false` at a fault, `.error true` behind a
link that retrains. -/
def writeBackAll (s : State) : Except Bool State :=
  (List.finRange 8).foldl (fun (o : Except Bool State) (l : Fin 8) =>
    o.bind fun s =>
      if !s.h.lcs.getLsbD l.val then .ok s
      else (writeBackLc s s.h l).map fun p => { s with mem := p.1, h := { s.h with offChip := s.h.offChip ++ p.2 } })
    (.ok s)

/-- Stops the hart in focus by force (R200); none while a link that carries its accesses, its backing area or its record
retrains. -/
def forceStop (s : State) : Option State :=
  if s.stuck then none
  else
  let h := s.unwound
  let s := { s with h := h, held := s.held.filter fun d => !(d.snap.core == h.core && d.snap.ctx == h.ctx) }
  let s := ((s.leaveBarrier s.h).modSys fun y => y.detach s.h).release .sys
  match writeBackAll s with
  | .error true => none
  | .error false => some (holdBacking s)
  | .ok s =>
    match writeRecord (commonSegs s 2 ++ forcedSegs s.h) s with
    | .ok s => some (finishStop 2 s).goOn
    | .error true => none
    | .error false => some (holdBacking s)

end Sys2Proof.Machine
end

