-- ==== Sys2Proof/Machine/Contexts.lean ====
section
/-! DEFINITION. Contexts and incarnations (R141 to R147): the states of incarnation values, INCB and its sweep, RCF; and
the write-backs of SLWB and HMSW (R123). -/

namespace Sys2Proof.Machine

/-! Incarnations (R141). -/

/-- state(c, v); at reset (c, 0) is LIVE and every other value is FREE. -/
def Sys.incState (y : Sys) (c : BitVec 12) (v : BitVec 8) : IncState :=
  match y.states.find? fun p => p.1 == c && p.2.1 == v with
  | some p => p.2.2
  | none => if v = 0 then .live else .free

/-- state(c, v) set. -/
def Sys.setIncState (y : Sys) (c : BitVec 12) (v : BitVec 8) (t : IncState) : Sys :=
  { y with states := (c, v, t) :: y.states.filter fun p => !(p.1 == c && p.2.1 == v) }

/-- cur(c) set. -/
def Sys.setCur (y : Sys) (c : BitVec 12) (v : BitVec 8) : Sys :=
  { y with cur := (c, v) :: y.cur.filter fun p => p.1 != c }

/-- A die has been declared failed. -/
def Sys.dieLost (y : Sys) (d : Nat) : Bool := y.failed.any fun a => match a with
  | .cdie k => k.val == d
  | .hdie _ | .peer _ _ | .host => false

/-- The checkpoints of the device (R141), and the ports of its peers (R145); those of a failed die are gone, and a link
declared down counts as swept. -/
def Sys.checkpoints (y : Sys) : List Checkpoint :=
  let up := fun n k : Nat => !y.dieLost (n / k)
  ((List.finRange 512).filter fun c => up c.val 128).map .core
  ++ ((List.finRange 256).filter fun t => up t.val 64).map .router
  ++ ((List.finRange 512).filter fun c => up c.val 128).map .slice
  ++ ((List.finRange 512).filter fun c => up c.val 128).map .teller
  ++ ((List.finRange 256).filter fun t => up t.val 64).map .copyEngine
  ++ ((List.finRange 4).filter fun d => up d.val 1).map .memCtrl
  ++ (List.finRange 32).map .port
  ++ (y.peers.filter fun p => !y.down.contains (.port p.1)).map (fun p => .peerPort p.1)
  ++ (if y.down.contains .host then [] else [.hostPort])
  ++ ((List.finRange 4).filter fun d => up d.val 1).map .launchUnit

/-- A checkpoint behind a link that is retraining does not report until the link is up (R145). -/
def Sys.canReport (y : Sys) : Checkpoint → Bool
  | .peerPort p => !y.retraining.contains (.port p)
  | .hostPort => !y.retraining.contains .host
  | .core _ | .router _ | .slice _ | .teller _ | .copyEngine _ | .memCtrl _ | .port _ | .launchUnit _ => true

/-! Discarding (R14, R142). -/

/-- A gang is discarded: its harts stop, its barriers and messages go, and its slots are free. -/
def State.discardGang (s : State) (g : Gang) : State :=
  let s := (s.harts.filter fun h => h.gang == g.num).foldl
    (fun (s : State) (h : Hart) => (s.onHart h.core h.ctx discardHart).getD s) s
  s.modSys fun y =>
    { y with
      gangs := y.gangs.filter fun x => x.num != g.num
      bars := y.bars.filter fun b => b.gang != g.num
      msgs := y.msgs.filter fun m => m.gang != g.num }

/-- Everything of an incarnation is discarded: gangs, harts, registered words, messages to Tellers, multicast entries and
freezes (R142 to R144, R214). -/
def State.discardInc (s : State) (c : BitVec 12) (v : BitVec 8) : State :=
  let masters := (s.harts.filter fun h => h.cid == c && h.inc == v).map fun h => hartMaster h.core h.ctx
  let s := (s.sys.gangs.filter fun g => g.cid == c && g.inc == v).foldl (fun (s : State) g => s.discardGang g) s
  let s := (s.harts.filter fun h => h.cid == c && h.inc == v).foldl
    (fun (s : State) (h : Hart) => (s.onHart h.core h.ctx discardHart).getD s) s
  (s.modMem fun m => { m with regd := m.regd.filter fun r => !(r.cid == c && r.inc == v) }).modSys fun y =>
    { y with
      tellerQ := y.tellerQ.filter fun t => !(t.port.isNone && t.cid == c && t.inc == v)
      mc := y.mc.filter fun e => !(e.part.key.cid == c && e.part.key.inc == v)
      frozen := y.frozen.filter fun w => !masters.any fun m => w.toNat % 2 ^ 56 == m.toNat % 2 ^ 56 && w.toNat / 2 ^ 56 ≤ 2 }

/-! INCB and RCF. -/

/-- INCB of a context (R142): none while its next value is not FREE, else the new incarnation. The sweep of the old one
begins (R145). -/
def State.incb (s : State) (c : BitVec 12) : Option (State × BitVec 8) :=
  let old := s.sys.curInc c
  let new := old + 1
  if s.sys.incState c new != .free then none
  else
    let s := s.modSys fun y => ((y.setIncState c new .live).setIncState c old .sweep).setCur c new
    let s := s.discardInc c old
    let cks := s.sys.checkpoints
    let s := s.modSys fun y => { y with sweeps := y.sweeps ++ [⟨c, old, cks, !y.down.isEmpty⟩] }
    let s : State := { s with inbox := s.inbox ++ (cks.filter s.sys.canReport).map fun k => .sweepReport k c old }
    some (s.goOn, new)

/-- A sweep of a context is in progress. -/
def Sys.sweeping (y : Sys) (c : BitVec 12) : Bool := y.sweeps.any fun w => w.cid == c

/-- A hart that waits in RCF learns that a sweep has ended (R146); it completes, as an acquire at .sys, when none is
left. -/
def rcfStep (c : BitVec 12) (viaDown more : Bool) (h : Hart) : Hart × List Held :=
  match h.status with
  | .stalled (.rcf k down d x) =>
    if k != c then (h, [])
    else if more then ({ h with status := .stalled (.rcf k (down || viaDown) d x) }, [])
    else finishHart (h.setSreg d (if down || viaDown then 1 else 0)) x 0
  | .stalled (.token _) | .stalled (.lanes _) | .stalled (.matrix _ _) | .stalled (.reclaim _) | .stalled (.barrier _ _)
  | .stalled (.monitor _) | .stalled (.beats _) | .stalled .retry | .absent | .running | .heldInFault | .frozen => (h, [])

/-- A hart waits in RCF of a context. -/
def Hart.waitsRcf (c : BitVec 12) (h : Hart) : Bool :=
  match h.status with
  | .stalled (.rcf k _ _ _) => k == c
  | .stalled (.token _) | .stalled (.lanes _) | .stalled (.matrix _ _) | .stalled (.reclaim _) | .stalled (.barrier _ _)
  | .stalled (.monitor _) | .stalled (.beats _) | .stalled .retry | .absent | .running | .heldInFault | .frozen => false

/-- A request or response of (c, v). -/
def Tag.ofInc (c : BitVec 12) (v : BitVec 8) (t : Tag) : Bool := t.cid == c && t.inc == v

/-- The sweep of (c, v) ends (R145): the value is FREE, and what waits for it goes on: an RCF, an INCB, or a command of a
control core. A forwarded read of (c, v) that has moved with its registration since is at a checkpoint that has reported, and
that drops it as stale (R143). -/
def State.endSweep (s : State) (w : Sweep) : State :=
  let s := s.modMem fun m => { m with forwards := m.forwards.filter fun r => !Tag.ofInc w.cid w.inc r.tag }
  let s := s.modSys fun y =>
    { (y.setIncState w.cid w.inc .free) with
      sweeps := y.sweeps.filter fun x => !(x.cid == w.cid && x.inc == w.inc)
      cmds := y.cmds.map fun k => if k.op == 3 && k.ans.isNone && k.a == w.cid.setWidth 64 then { k with down := k.down || w.viaDown } else k }
  let more := s.sys.sweeping w.cid
  let waiters := s.harts.filter (Hart.waitsRcf w.cid)
  let s := s.finishWhere (Hart.waitsRcf w.cid) (rcfStep w.cid w.viaDown more)
  let s := if more then s
    else s.modMem fun m => waiters.foldl (fun (m : Mem) (h : Hart) => m.selfInvalidate h.core) m
  s.retryCmds [(2, .cmdIncb), (3, .cmdRcf)]

/-- A checkpoint reports that it holds nothing of (c, v) (R145). `viaDown` tells that it counts as swept because its link
was declared down. -/
def State.reportSwept (s : State) (ck : Checkpoint) (c : BitVec 12) (v : BitVec 8) (viaDown : Bool) : State :=
  match s.sys.sweeps.find? fun w => w.cid == c && w.inc == v with
  | none => s
  | some w =>
    if !w.pending.contains ck then s
    else
      let w' : Sweep := { w with pending := w.pending.erase ck, viaDown := w.viaDown || viaDown }
      let s := s.modSys fun y => { y with sweeps := updateWhere (fun x => x.cid == c && x.inc == v) (fun _ => w') y.sweeps }
      if w'.pending.isEmpty then s.endSweep w' else s

/-! What checkpoints hold of an incarnation (R143, R145). -/

/-- A checkpoint drops the requests of (c, v) that it holds and absorbs the responses (Table 7-8). What gangs, harts,
registrations, multicast entries and engine queues held went when the incarnation changed (R142). -/
def State.absorb (s : State) (ck : Checkpoint) (c : BitVec 12) (v : BitVec 8) : State :=
  match ck with
  | .core k => s.modMem fun m =>
    { m with
      answers := m.answers.filter fun a => !(a.copy.core == k && Tag.ofInc c v a.tag)
      homeAnswers := m.homeAnswers.filter fun a => !(a.1 == k && Tag.ofInc c v a.2.2)
      forwards := m.forwards.filter fun r => !((m.reg r.pa).any (·.core == k) && Tag.ofInc c v r.tag) }
  | .slice sl => s.modMem fun m =>
    let gone := fun r : Fin 512 × ReadReq => r.1 == sl && Tag.ofInc c v r.2.tag
    let reads := m.missReads.filter fun r => !gone r
    { m with
      missReads := reads
      misses := m.misses.filter fun k => k.1 != sl || reads.any fun r => r.1 == sl && pieceOf r.2.pa == k.2
      waiting := m.waiting.filter fun r => !gone r
      forwards := m.forwards.filter fun r => !((m.reg r.pa).isNone && Tag.ofInc c v r.tag) }
  | .teller t => s.modSys fun y =>
    { y with tellerQ := y.tellerQ.filter fun m => !(m.teller == t && m.port.isNone && m.cid == c && m.inc == v) }
  | .router _ | .copyEngine _ | .memCtrl _ | .port _ | .peerPort _ | .hostPort | .launchUnit _ => s

/-- A checkpoint holds something of (c, v). -/
def State.holdsInc (s : State) (ck : Checkpoint) (c : BitVec 12) (v : BitVec 8) : Bool :=
  let mine := fun h : Hart => h.status != .absent && h.cid == c && h.inc == v
  match ck with
  | .core k =>
    (s.mem.answers.any fun a => a.copy.core == k && Tag.ofInc c v a.tag)
    || (s.mem.homeAnswers.any fun a => a.1 == k && Tag.ofInc c v a.2.2)
    || (s.mem.forwards.any fun r => (s.mem.reg r.pa).any (·.core == k) && Tag.ofInc c v r.tag)
    || s.harts.any fun h => h.core == k && mine h
  | .slice sl =>
    (s.mem.missReads.any fun r => r.1 == sl && Tag.ofInc c v r.2.tag)
    || (s.mem.waiting.any fun r => r.1 == sl && Tag.ofInc c v r.2.tag)
    || (s.mem.forwards.any fun r => (s.mem.reg r.pa).isNone && Tag.ofInc c v r.tag)
    || (s.mem.regd.any fun r => r.cid == c && r.inc == v && s.sliceOf r.core r.skew r.pa == sl)
    || s.sys.mc.any fun e => e.part.slice == sl && e.part.key.cid == c && e.part.key.inc == v
  | .teller t => s.sys.tellerQ.any fun m => m.teller == t && m.port.isNone && m.cid == c && m.inc == v
  | .copyEngine t => s.harts.any fun h => tileOf h.core == t.val && mine h && !h.xfers.isEmpty
  | .launchUnit d => s.sys.gangs.any fun g => g.cid == c && g.inc == v && g.slots.any (·.1 == d)
  | .peerPort p => s.sys.retraining.contains (.port p)
  | .hostPort => s.sys.retraining.contains .host
  | .router _ | .memCtrl _ | .port _ => false

/-! Reads at the slices (R127). -/

/-- The die's slice of a core holds its copy of a piece: at home in its own right, else as a sharer (R127, R130). -/
def Mem.sliceHas (m : Mem) (c : CoreId) (pa : Nat) : Bool :=
  if homedOnDie c pa then m.sliceCopies.contains (pieceOf pa) else m.sharers.contains (.cdie (dieOf c), pieceOf pa)

/-- The die's slice fills its copy of a piece. -/
def Mem.sliceFill (m : Mem) (c : CoreId) (pa : Nat) : Mem :=
  if m.sliceHas c pa then m
  else if homedOnDie c pa then { m with sliceCopies := pieceOf pa :: m.sliceCopies }
  else { m with sharers := (.cdie (dieOf c), pieceOf pa) :: m.sharers }

/-- The slice, or the registrant, answers a read of a word with its latest value (R127); a stale read is dropped (R143,
R151). -/
def State.answerRead (s : State) (r : ReadReq) : State :=
  if s.sys.staleAt r.core r.tag then s
  else
    let w := wordAt r.pa
    let free := BitVec.ofNat 32 (bytesNat (s.freeBytes w 4))
    let x : L1Copy :=
      if s.sys.homeLost w && (s.mem.reg w).isNone then ⟨r.core, w, free, true⟩
      else if s.backed w 4 then ⟨r.core, w, free, false⟩
      else ⟨r.core, w, s.mem.curWord w, s.mem.curPoison w⟩
    s.modMem fun m => { m with answers := m.answers ++ [⟨x, r.tag⟩] }

/-- The reads that wait for a piece at a slice are answered, and its miss entry is free. -/
def State.fillMiss (s : State) (sl : Fin 512) (piece : Nat) : State :=
  let mine := fun r : Fin 512 × ReadReq => r.1 == sl && pieceOf r.2.pa == piece
  let rs := s.mem.missReads.filter mine
  let s := s.modMem fun m =>
    { m with misses := m.misses.erase (sl, piece), missReads := m.missReads.filter fun r => !mine r }
  rs.foldl (fun (s : State) r =>
    (if s.sys.staleAt r.2.core r.2.tag then s else s.modMem fun m => m.sliceFill r.2.core r.2.pa).answerRead r.2) s

/-- Every read that a die's slices hold is answered, in the order in which they arrived. -/
def State.finishReads (s : State) (d : Fin 4) : State :=
  let on := fun sl : Fin 512 => sl.val / 128 == d.val
  let s := (s.mem.misses.filter fun k => on k.1).foldl (fun (s : State) k => s.fillMiss k.1 k.2) s
  let ws := (s.mem.waiting.filter fun w => on w.1).map (·.2) ++ s.mem.forwards.filter fun r => dieOf r.core == d
  let s := s.modMem fun m =>
    { m with waiting := m.waiting.filter (fun w => !on w.1), forwards := m.forwards.filter fun r => dieOf r.core != d }
  ws.foldl (fun (s : State) r => s.answerRead r) s

/-! SLWB and HMSW (R123, R308). -/

/-- Every registered word of a range whose writer stands on a die is written back to its home, and the slices of the die,
home and proxy, drop their copies of the range. -/
def Mem.slwb (m : Mem) (d : Fin 4) (pa n : Nat) : Mem :=
  let inside := fun a : Nat => pa < a + 4 && a < pa + n
  let m := m.regd.foldl (fun m r => if dieOf r.core == d && inside r.pa then m.takeBack r.pa else m) m
  { m with
    sliceCopies := m.sliceCopies.filter fun a => !(homeDie a == some d && meets a pa n)
    sharers := m.sharers.filter fun x => !(x.1 == .cdie d && meets x.2 pa n) }

/-- SLWB loses the monitors of a die that are armed on the pieces of a range (R165). -/
def State.slwb (s : State) (d : Fin 4) (pa n : Nat) : State :=
  (s.modMem fun m => m.slwb d pa n).finishWhere (fun h => dieOf h.core == d && h.monitors pa n) wakeHart

/-- A word that SLWB of a die would write back must wait: for a link that retrains (R220), or for an open multicast entry
(R135). -/
def State.slwbWaits (s : State) (d : Fin 4) (pa n : Nat) : Bool :=
  s.mem.regd.any fun r => dieOf r.core == d && pa < r.pa + 4 && r.pa < pa + n && (s.sys.linkWaits r.pa || s.sys.mcHolds r.pa)

/-- An access in flight on a die cannot be performed now: one of its harts waits for transfers, or for the beats of a multicast
entry at a slice of the die; a Teller of it has messages queued; or a read at a slice waits for a link. -/
def State.stuckOn (s : State) (d : Fin 4) : Bool :=
  let on := fun sl : Fin 512 => sl.val / 128 == d.val
  (s.harts.any fun h => dieOf h.core == d && s.stuckFor h)
    || (s.sys.mc.any fun e => on e.part.slice) || (s.sys.tellerQ.any fun m => on m.teller)
    || (s.mem.misses.any fun k => on k.1 && s.sys.linkWaits k.2) || s.mem.waiting.any fun w => on w.1 && s.sys.linkWaits w.2.pa

/-- HMSW on a die (R123): accesses in flight on it are performed, with the writes of its harts to tables, and the mask is
switched. A word whose slice changed keeps its last value, or loses it to its home's, as a free value decides (DESIGN CHOICE,
log entry 13). -/
def State.hmsw (s : State) (d : Fin 4) (v : Word) : State :=
  let on := fun h : Hart => dieOf h.core == d
  let s := if s.harts.any fun h => on h && s.owesAcks h then s.completeAll else s.drainWhere on
  let s := s.finishReads d
  let old := s.sys.hmask[d]
  let moved := fun r : RegWord => dieOf r.core == d && sliceFor old d r.skew.val r.pa != sliceFor v d r.skew.val r.pa
  let tick := s.tick
  let s := s.modMem fun m => m.regd.foldl (fun m r =>
    if moved r then (if r.leaving || Config.movedHomeKeeps tick r.pa then m.takeBack r.pa else m.unregister r.pa) else m) m
  s.modSys fun y => { y with hmask := y.hmask.set d v }

end Sys2Proof.Machine
end

