-- ==== Sys2Proof/Machine/Curve.lean ====
section
/-! DEFINITION. Signatures over the brainpool 384-bit curve with the random parameters of RFC 5639 (R226, R228): the curve's
parameters are those of that document, and making and checking a signature as the ECDSA standard has it (PRESUMED, log
entry 12). The numbers r and s of a signature are little-endian (R5). -/

namespace Sys2Proof.Machine

/-- The prime of the field. -/
def curveP : Nat := 0x8CB91E82A3386D280F5D6F7E50E641DF152F7109ED5456B412B1DA197FB71123ACD3A729901D1A71874700133107EC53

/-- The coefficient of x in the curve's equation. -/
def curveA : Nat := 0x7BC382C63D8C150C3C72080ACE05AFA0C2BEA28E4FB22787139165EFBA91F90F8AA5814A503AD4EB04A8C7DD22CE2826

/-- The order of the base point. -/
def curveOrder : Nat := 0x8CB91E82A3386D280F5D6F7E50E641DF152F7109ED5456B31F166E6CAC0425A7CF3AB6AF6B7FC3103B883202E9046565

/-- A point of the curve: none is the neutral one. -/
abbrev CurvePoint := Option (Nat × Nat)

/-- The base point. -/
def curveBase : CurvePoint :=
  some (0x1D1C64F068CF45FFA2A63A81B7C13F6B8847A3E77EF14FE3DB7FCAFE0CBD10E8E826E03436D646AAEF87B2E247D4AF1E,
    0x8ABE1D7520F9C2A45CB1EB8E95CFD55262B70B29FEEC5864E19C054FF99129280E4646217791811142820341263C5315)

/-- A power modulo `m`, of an exponent of at most `n` bits. -/
def powMod (m : Nat) : (n b e : Nat) → Nat
  | 0, _, _ => 1 % m
  | n + 1, b, e =>
    let r := powMod m n (b * b % m) (e / 2)
    if e % 2 = 1 then b * r % m else r

/-- The inverse modulo a prime of at most 384 bits. -/
def inverse (m x : Nat) : Nat := powMod m 384 (x % m) (m - 2)

/-- A difference modulo the field's prime. -/
def lessP (a b : Nat) : Nat := (a + curveP - b % curveP) % curveP

/-- The sum of two points, by the line through them. -/
def CurvePoint.plus : CurvePoint → CurvePoint → CurvePoint
  | none, b => b
  | a, none => a
  | some (x, y), some (u, v) =>
    if x = u ∧ (y + v) % curveP = 0 then none
    else
      let slope :=
        if x = u then (3 * x * x + curveA) * inverse curveP (2 * y) % curveP
        else lessP v y * inverse curveP (lessP u x) % curveP
      let z := lessP (slope * slope) (x + u)
      some (z, lessP (slope * lessP x z) y)

/-- A multiple of a point, of a factor of at most `n` bits. -/
def CurvePoint.times : (n k : Nat) → CurvePoint → CurvePoint
  | 0, _, _ => none
  | n + 1, k, a =>
    let twice := CurvePoint.times n (k / 2) (CurvePoint.plus a a)
    if k % 2 = 1 then CurvePoint.plus a twice else twice

/-- The number that a 48-byte digest stands for. -/
def digestNat (d : List Byte) : Nat := bytesNat d.reverse

/-- A signature of a digest verifies under a public key. -/
def signatureOk (key : Nat × Nat) (digest r s : List Byte) : Bool :=
  let r := bytesNat r
  let s := bytesNat s
  let w := inverse curveOrder s
  let u := CurvePoint.times 384 (digestNat digest * w % curveOrder) curveBase
  let v := CurvePoint.times 384 (r * w % curveOrder) (some key)
  0 < r && r < curveOrder && 0 < s && s < curveOrder &&
    match CurvePoint.plus u v with
    | none => false
    | some q => q.1 % curveOrder == r

/-- The signature, r and then s, that the device identity key makes over a digest (R228). -/
def signWith (key nonce : Nat) (digest : List Byte) : List Byte :=
  let k := 1 + nonce % (curveOrder - 1)
  let r := ((CurvePoint.times 384 k curveBase).map fun q => q.1 % curveOrder).getD 0
  let s := inverse curveOrder k * (digestNat digest + r * key) % curveOrder
  natToBytes 48 r ++ natToBytes 48 s

end Sys2Proof.Machine
end

