-- ==== Sys2Proof/Machine/System.lean ====
section
/-! DEFINITION. The instructions of classes 101 and 110 that act on the hart and its surroundings: geometry and shells
(R307, R42, R51), images (R346), the farm (R287, R290), traps (R310, R196), EXIT (R289), fences, waiting and barriers (R291,
R354, R281), the matrix unit's claims (R84 to R86), the lane exchange (R355), and the privileged operations (R292, R293,
R306, R308). -/

namespace Sys2Proof.Machine

/-- Outside a handler only (R197). -/
def outsideHandler (k : State → Res) (s : State) : Res := if s.h.inHandler then illegal s else k s

/-- A privileged instruction (R258). -/
def privilegedOnly (k : State → Res) (s : State) : Res := if s.h.privileged then k s else illegal s

/-- The token that a form popped is put back, for a form that executes again from its start. -/
def State.unpop (s : State) (x : Stack) (q : Fin 5) : State :=
  match popFifo x q with
  | none => s
  | some f => s.modH fun h => h.pushTok f

/-- Takes a pending pre-emption first (R199). -/
def preemptible (x : Stack) (q : Fin 5) (k : State → Res) (s : State) : Res :=
  if s.h.preempt then preemptStop (s.unpop x q) else k s

/-! Geometry and shells. -/

/-- SETVL (R307). -/
def setvlBody (x : Stack) (d a : SReg) (f : Fmt) (n : NregC) : State → Res :=
  outsideHandler <| preemptible x 0 <| withClean [a] fun s =>
    let kind := SetKind.flat (s.readS a)
    renegotiate ⟨kind, d, f, n, demandOf kind f n, x⟩ s

/-- GZM1, GYM1, GXM1 of the IMMX payload (Table 3-2); 0 without one. -/
def gridOf (x : Stack) : BitVec 8 × BitVec 8 × BitVec 8 :=
  match x.immx with
  | none => (0, 0, 0)
  | some p => (p.extractLsb' 16 8, p.extractLsb' 8 8, p.extractLsb' 0 8)

/-- SETVLB (R42, R43). A bit-sliced format is illegal. -/
def setvlbBody (x : Stack) (d : SReg) (f : Fmt) (n : NregC) (z y w : Fin 5) (s : State) : Res :=
  if isSliced f then illegal s
  else
    (outsideHandler <| preemptible x 0 fun s =>
      let g := gridOf x
      let kind := SetKind.brick z y w g.1 g.2.1 g.2.2
      renegotiate ⟨kind, d, f, n, demandOf kind f n, x⟩ s) s

/-- The faces that a FACE code names, by number (Table 3-7). -/
def facesOf : ShFace → List Nat
  | .xm => [0]
  | .xp => [1]
  | .ym => [2]
  | .yp => [3]
  | .zm => [4]
  | .zp => [5]
  | .all => [0, 1, 2, 3, 4, 5]

/-- A shell entry set; a ZERO entry is not listed. -/
def Hart.setShell (h : Hart) (r : VReg) (face : Nat) (v : Shell) : Hart :=
  let k := 6 * r.val + face
  { h with shells := if v = .zero then removeKey k h.shells else insertKey k v h.shells }

/-- SETSH (R51). -/
def setshBody (d : VReg) (src : Fin 64) (k : ShKind) (f : ShFace) (s : State) : Res :=
  if s.h.nreg ≤ d.val || k = .link && s.h.nreg ≤ src.val then illegal s
  else
    withClean (if k = .const then [src] else []) (fun s =>
      let v := match k with
        | .zero => Shell.zero
        | .const => .const (s.readS src)
        | .edge => .edge
        | .link => .link src
        | .trap => .trap
      .done (s.modH fun h => (facesOf f).foldl (fun (h : Hart) face => h.setShell d face v) h)) s

/-! Ranges of bytes, for images and SLWB. -/

/-- The parts of a range that lie in one page each: offset and length. -/
def pageParts (base len : Nat) : List (Nat × Nat) :=
  let skew := base % 4096
  (List.range ((skew + len + 4095) / 4096)).map fun i =>
    let lo := 4096 * i - skew
    (lo, Nat.min len (4096 * (i + 1) - skew) - lo)

/-- Probes a range page by page with `pr`: the places, or the first fault with the offset of its lowest failing byte (R346).
-/
def rangeBy (s : State) (pr : Nat → Nat → Probe) (base : Nat) : List (Nat × Nat) → Except Res (List (Nat × Nat × Phys))
  | [] => .ok []
  | (o, n) :: ps =>
    match pr (base + o) n with
    | .bad c => .error (.trap s (wholeTrap c (wd o)))
    | .wait => .error (.wait s .retry)
    | .poisoned w => .error (consume s (.mem w) 0 (wd o) none)
    | .ok p => (rangeBy s pr base ps).map fun l => (o, n, p) :: l

/-- The same under the checks of a load or a store. -/
def rangeProbe (s : State) (need : Need) (base : Nat) (ps : List (Nat × Nat)) : Except Res (List (Nat × Nat × Phys)) :=
  rangeBy s (fun a n => probe s need (a : Int) n 1) base ps

/-- The probe of a page by SLWB (R308): a page of the kind device, which it passes over, is checked for its permissions. -/
def slwbProbe (s : State) (va n : Nat) : Probe :=
  match translate s s.h.core s.h.cid va with
  | .leaf _ e _ _ =>
    if leafKind e = 1 then
      (match checkLeaf s ⟨true, false, false, .withDevice⟩ s.h.cid 0 n 0 e with
      | .ok p => .ok { p with dev := true }
      | .bad c => .bad c
      | .wait => .wait
      | .poisoned w => .poisoned w)
    else probe s needRead (va : Int) n 1
  | .fault => probe s needRead (va : Int) n 1
  | .poisoned _ => probe s needRead (va : Int) n 1
  | .wait => .wait

/-- The bytes of a range, and the offsets of its poisoned words. -/
def State.rangeBytes (s : State) (base : Nat) (ps : List (Nat × Nat × Phys)) : List Byte × List Nat :=
  (ps.flatMap fun p => (s.loadBytes (base + p.1) p.2.2 p.2.1).1,
    ps.flatMap fun p => ((List.range ((p.2.1 + 3) / 4)).filter fun i =>
      (s.loadBytes (base + p.1 + 4 * i) { p.2.2 with pa := p.2.2.pa + 4 * i } 4).2.isSome).map fun i => p.1 + 4 * i)

/-- Stores the bytes of an image, and marks its poisoned words. -/
def State.storeRange (s : State) (base : Nat) (bytes : List Byte) (poison : List Nat) (ps : List (Nat × Nat × Phys)) :
    State :=
  ps.foldl (fun (s : State) p =>
    let s := s.storeBytes (base + p.1) p.2.2 ((bytes.drop p.1).take p.2.1) false
    (poison.filter fun o => p.1 ≤ o && o < p.1 + p.2.1).foldl (fun (s : State) o =>
      s.storeBytes (base + o) { p.2.2 with pa := p.2.2.pa + (o - p.1) } ((bytes.drop o).take 4) true) s) s

/-! Images (R203, R204). -/

/-- A register in an image: its bytes, padded to `rb`, and the offsets of its poisoned words. -/
def imageReg (h : Hart) (r : VReg) (rb off : Nat) : List Byte × List Nat :=
  let y := h.layout
  let v := h.env y none [r]
  let es := (List.range h.vl).map fun e => match v.elem r e with
    | .code c _ l => (e, c, badOf l)
    | .shell => (e, 0, 0)
  (natToBytes rb (es.foldr (fun e n => e.2.1 + 2 ^ y.w * n) 0),
    es.flatMap fun e => elemBad y.w off e.1 e.2.2)

/-- The image of a hart (Table 10-10): its bytes, and the offsets of its poisoned words. -/
def imageOf (s : State) : List Byte × List Nat :=
  let h := s.h
  let (rb, mb, kb) := imageSizes h.vl (width h.fmt)
  let len := imageLen h.vl (width h.fmt) h.nreg
  let head := natToBytes 8 h.vl ++ natToBytes 8 (csrRead s .vtype).toNat ++ natToBytes 8 h.bgeo.toNat
    ++ natToBytes 8 h.dil.toNat ++ natToBytes 8 len ++ List.replicate 24 0 ++ progressBytes h ++ List.replicate 64 0
  let shells := (List.range 384).flatMap fun i => shellBytes (lookupD .zero i h.shells)
  let mo := 0x2000 + h.nreg * rb
  let ko := mo + 8 * mb
  let regs := (List.range h.nreg).map fun n => imageReg h (Fin.ofNat 64 n) rb (0x2000 + n * rb)
  let masks := (List.finRange 8).map fun m =>
    (natToBytes mb (h.maskWord m % 2 ^ h.vl),
      ((List.range ((h.vl + 31) / 32)).filter fun k => m != 0 && h.poison.contains (.mask m k)).map fun k =>
        mo + m.val * mb + 4 * k)
  let scales := (List.finRange 8).map fun k =>
    ((List.range kb).map fun j => if j < h.entries && j < 2048 then h.scale k j else 0,
      ((List.range ((h.entries + 3) / 4)).filter fun j => (h.scalePoison k (4 * j)).isSome).map fun j =>
        ko + k.val * kb + 4 * j)
  let parts := regs ++ masks ++ scales
  (head ++ shells ++ List.replicate 1792 0 ++ parts.flatMap (·.1), parts.flatMap (·.2))

/-- VSAVE (R203, R346). DEDUCED, log entry 32. -/
def vsaveBody (a : SReg) : State → Res :=
  withClean [a] fun s =>
    let base := s.readN a
    if 65536 < s.h.vl then illegal s
    else if base % 64 ≠ 0 then .trap s (wholeTrap cMisaligned)
    else match refillAll s ((List.range s.h.nreg).map fun n => Fin.ofNat 64 n) with
      | .error r => r
      | .ok s =>
        match rangeProbe s needWrite base (pageParts base (imageLen s.h.vl (width s.h.fmt) s.h.nreg)) with
        | .error r => r
        | .ok ps =>
          let s := ps.foldl (fun (s : State) p => s.interlock true p.2.2 p.2.1) s.wakeLanes
          let im := imageOf s
          .done (s.storeRange base im.1 im.2 ps)

/-- The format and the NREG of a VTYPE value; none for a reserved bit or code (Table 4-3). -/
def vtypeFields (v : Nat) : Option (Fmt × NregC) :=
  if v / 2 ^ 11 ≠ 0 ∨ 5 ≤ v / 256 then none else (Fmt.ofCode (v % 64)).map fun f => (f, NregC.ofCode (v / 256))

/-- VREST (R204, R346): the header is read, and checked against LEN; then the image is probed and read whole, registers that
stand off chip are refilled if they may keep values beyond the image (R103), and the geometry is renegotiated. DEDUCED, log
entry 32. -/
def vrestBody (x : Stack) (a : SReg) : State → Res :=
  outsideHandler <| preemptible x 2 <| withClean [a] fun s =>
    let base := s.readN a
    if base % 64 ≠ 0 then .trap s (wholeTrap cMisaligned)
    else match rangeProbe s needRead base (pageParts base 64) with
      | .error r => r
      | .ok ps =>
        let s := ps.foldl (fun (s : State) p => s.interlock false p.2.2 p.2.1) s
        let hd := s.rangeBytes base ps
        match hd.2.find? (fun o => o < 0x28), ps with
        | some o, p :: _ => consume s (.mem (p.2.2.pa + o)) 0 0 none
        | some _, [] => .done s
        | none, _ =>
          let vl := imageAt hd.1 0 8
          let len := imageAt hd.1 0x20 8
          let err := Res.trap s (wholeTrap cDescriptor (wd base))
          match vtypeFields (imageAt hd.1 8 8) with
          | none => err
          | some (f, n) =>
            if imageAt hd.1 0x10 8 / 2 ^ 36 % 2 ^ 26 ≠ 0 ∨ imageAt hd.1 0x10 8 / 2 ^ 9 % 8 ≠ 0
                ∨ len ≠ imageLen vl (width f) (nregOf n) then err
            else if 65536 < vl then illegal s
            else match rangeProbe s needRead base (pageParts base len) with
              | .error r => r
              | .ok ps =>
                let s := ps.foldl (fun (s : State) p => s.interlock false p.2.2 p.2.1) s
                let im := s.rangeBytes base ps
                match refillAll s (if s.h.nreg = nregOf n ∧ width s.h.fmt = width f then (s.h.offChip.map (·.1)).eraseDups
                    else []) with
                | .error r => r
                | .ok s =>
                  let kind := SetKind.image im.1 im.2
                  renegotiate ⟨kind, 0, f, n, demandOf kind f n, x⟩ s

/-! The strip farm (R37, R38). -/

/-- The grant of a CLAIM of `b` strips from a block that holds `n` and `t` (R38). -/
def claimGrant (vlmax b n t : Nat) : Nat := Nat.min (Nat.min b vlmax) (t - n)

/-- CLAIM (R38, R287). -/
def claimBody (d a b : SReg) : State → Res :=
  outsideHandler fun s =>
    if s.h.lcs = 0 then illegal s
    else
      withClean [a, b] (fun s =>
        if s.readS b = 0 then illegal s
        else
          let va := s.readN a
          scalarAt needAtomic va 16 16 (fun p s =>
            let s := s.atHome s.h p 16
            let back := s.inBacking va 16
            let c := if back then (s.freeBytes va 16, none) else s.curPhys s.h.core p 16
            match c.2 with
            | some l => consume s l 0 0 none
            | none =>
              let n := imageAt c.1 0 8
              let t := imageAt c.1 8 8
              let g := claimGrant (vlMax s.h.lcn s.h.nreg (width s.h.fmt)) (s.readN b) n t
              let bytes := natToBytes 8 (n + g)
              let s := if back then s.storeBytes va p bytes false else s.writeHome s.h p bytes false
              let s := s.modH fun h => ({ h.dropQueues with vl := g, bgeo := wd (2 ^ 62) }).setSreg d (wd n)
              .done (s.acquire .dev)) s) s

/-- FARM (R37, R290). -/
def farmBody (a b : SReg) : State → Res :=
  withClean [a, b] fun s =>
    let va := s.readN a
    scalarAt needAtomic va 16 16 (fun p s =>
      let s := s.release .dev
      let bytes := natToBytes 8 0 ++ natToBytes 8 (s.readN b)
      .done (if s.inBacking va 16 then s.storeBytes va p bytes false else s.writeHome s.h p bytes false)) s

/-! Traps and the end of a hart. -/

/-- SYSC (R310): it completes as its trap is taken, with TPC behind it, and its pop stands, also one made ahead of its turn
(R109). -/
def syscBody (x : Stack) (s : State) : Res :=
  .gone (takeTrap (wholeTrap cSyscall) (s.h.pc + wd x.len) false
    ((s.modH fun h => { h with ahead := h.ahead.tail }).pushOrHold (pushFifo x 0)))

/-- S of the open instruction (R33): the stripes of its destination. An instruction that writes one element, a scalar, a
mask word or a scale register, or moves whole blocks, counts as one stripe. -/
def openStripes (h : Hart) : Nat :=
  match h.opened with
  | none => 0
  | some o =>
    match destReg o.instr, o.instr with
    | some _, .vcvt _ _ _ f _ _ => (h.layoutAt (width f) false).stripes
    | some _, .vrsum .. | some _, .vrmax .. | some _, .vrmin .. | some _, .vrand .. | some _, .vror ..
    | some _, .vresh .. => 1
    | some _, _ => h.layout.stripes
    | none, .vcmp .. | none, .mand .. | none, .mor .. | none, .mxor .. | none, .mandn .. | none, .mnot ..
    | none, .mshl .. | none, .mset .. => h.layout.stripes
    | none, _ => 1

/-- TRET (R196). -/
def tretBody (x : Stack) (s : State) : Res :=
  if !s.h.inHandler then illegal s
  else .gone (returnFromTrap (openStripes s.h) (s.pushOrHold (pushFifo x 0)))

/-! Fences and waiting. -/

/-- FENCE (R291, R160, R167): classes l, s, e, t in bits 3 to 0. At .dev and .sys, a FENCE of any class waits until the older
writes are performed there, and records a loss (R166). DEDUCED, log entry 28. -/
def fenceBody (sc : Scope) (c : BitVec 4) (s : State) : Res :=
  if c = 0 then illegal s else
  let wide := decide (4 ≤ scopeRank sc)
  let s := if wide || c.getLsbD 2 || c.getLsbD 1 then s.release sc else if c.getLsbD 0 then s.drain else s
  let s := if c.getLsbD 0 then s.completePt else s
  .done (if c.getLsbD 3 then s.acquire sc else s)

/-- WAITM (R354, R165). DEDUCED, log entry 44. -/
def waitmBody (x : Stack) (a b : SReg) : State → Res :=
  withClean [a, b] fun s =>
    scalarAt needRead (s.readN a) 4 4 (fun p s =>
      let c := s.curPhys s.h.core p 4
      match c.2 with
      | some l => consume s l 0 0 none
      | none =>
        if bytesNat c.1 != s.readN b % 2 ^ 32 || s.h.irq.isSome || s.h.preempt then .done s
        else .wait (s.modH fun h => { h with monitor := some (pieceOf (p.key h.core)) }) (.monitor x)) s

/-- The scopes that BAR takes (R282). -/
def barScope : Scope → Bool
  | .hart | .core => false
  | .pod | .die | .dev | .sys => true

/-- A core holds a participant of a gang's barriers: a placed hart, or one that stands stopped there (R281). -/
def State.hasParticipant (s : State) (g : BitVec 8) (c : Nat) : Bool :=
  (s.harts.any fun h => h.gang == g && h.core.val == c) ||
    (s.gangOf g).any fun x => x.stopped.any fun k => x.places.any fun p => p.1 == k.index && p.2.1.val == c

/-- BAR (R281, R282): the checks of its issue, its slot, the scope of its instance, its arrival. A BAR that waits for a slot
has passed the checks. -/
def barBody (x : Stack) (a : SReg) (sc : Scope) : State → Res :=
  withClean [a] fun s =>
    let m := s.readN a
    let pod := podOf s.h.core
    let g := s.h.gang
    let i := s.h.index
    if !s.h.barred && (!barScope sc || 2 ^ 16 ≤ m || !m.testBit (s.h.core.val % 16)
        || (List.range 16).any (fun c => m.testBit c && !s.hasParticipant g (16 * pod + c))) then illegal s
    else
      let mask := BitVec.ofNat 16 m
      let arrive := fun (b : BarInst) (s : State) =>
        let s := (s.modH fun h => { h with barred := false }).release sc
        let b' : BarInst := { b with arrived := b.arrived ++ [i] }
        let s := s.modSys fun y => { y with bars := y.bars.filter (· != b) ++ [b'] }
        if s.allArrived b' then Res.done ((s.completeBar b').acquire sc)
        else .wait s (.barrier sc x)
      match s.sys.bars.find? fun b => b.pod == pod && b.gang == g && b.mask == mask with
      | some b => if b.scope != sc then illegal s else arrive b s
      | none =>
        if 16 ≤ s.sys.bars.countP fun b => b.pod == pod then .wait (s.modH fun h => { h with barred := true }) .retry
        else arrive ⟨pod, g, mask, sc, []⟩ s

/-! The matrix unit. -/

/-- MSETM (R84, R85). -/
def msetmBody (x : Stack) (l : MvlC) : State → Res :=
  outsideHandler fun s =>
    match s.h.mvl with
    | some k => .done (if k = l then s else s.modH fun h => h.claimUnit l)
    | none =>
      if s.unitHeld s.h.core then
        let age := s.nextAge
        .wait (s.modH fun h => { h with unitAge := age }) (.matrix l x)
      else .done (s.modH fun h => h.claimUnit l)

/-- MREL (R86, R87). -/
def mrelBody : State → Res :=
  outsideHandler fun s => if s.h.mvl.isNone then illegal s else .done s.releaseUnit

/-! The lane exchange (R136, R137). -/

/-- The peer that an exchange names, or the trap of R137. DEDUCED, log entry 35. -/
def withPeer (a : SReg) (v : VReg) (k : Nat → State → Res) : State → Res :=
  withClean [a] fun s =>
    let j := s.readN a
    let wrong := match s.gangOf s.h.gang with
      | some g => g.desc.harts.toNat ≤ j || g.places.any fun p =>
          p.1 == j && (podOf p.2.1 != podOf s.h.core || p.2.1 == s.h.core)
      | none => true
    if j == s.h.index || wrong || s.h.nreg ≤ v.val then illegal s
    else match refillAll s [v] with
      | .error r => r
      | .ok s => k j s.wakeLanes

/-- The message that XSEND forms (R355). -/
def messageOf (h : Hart) (v : VReg) (j : Nat) : Message :=
  let y := h.layout
  let ws := takeWords h.vgen (viewKeys v y.lanes y.words) (h.regCells v)
  { gang := h.gang, sender := h.index, receiver := j, words := y.words, lanes := List.range y.lanes
    data := ((List.range (y.lanes * y.words)).zip ws).map fun p =>
      ⟨128 * (p.1 / y.words) + p.1 % y.words, BitVec.ofNat 32 p.2.1, p.2.2⟩ }

/-- XSEND (R136, R355, R201). -/
def xsendBody (a : SReg) (v : VReg) : State → Res :=
  withPeer a v fun j s =>
    let mine := s.sys.msgs.filter fun m => m.gang == s.h.gang && m.receiver == j
    if 8 ≤ mine.length || 2 ≤ mine.countP fun m => m.sender == s.h.index then .wait s .retry
    else .done (s.modSys fun y => { y with msgs := y.msgs ++ [messageOf s.h v j] })

/-- XRECV (R136, R355). -/
def xrecvBody (d : VReg) (a : SReg) : State → Res :=
  withPeer a d fun j s =>
    match s.sys.msgs.find? fun m => m.gang == s.h.gang && m.receiver == s.h.index && m.sender == j with
    | none => .wait s .retry
    | some m =>
      let s := s.modSys fun y => { y with msgs := y.msgs.erase m }
      .done (s.modH fun h => h.putCells ((m.data.filter fun c =>
        c.key / 128 < 8 * h.lcn && c.key % 128 < h.blockWords).map fun c =>
          { c with key := 8192 * d.val + c.key }))

/-! Privileged operations. -/

/-- INCB (R142, R147, R168). -/
def incbBody (d a : SReg) : State → Res :=
  privilegedOnly <| withClean [a] fun s =>
    let c := s.readN a
    if 4096 ≤ c ∨ c = s.h.cid.toNat then illegal s
    else match (s.release .sys).incb (BitVec.ofNat 12 c) with
      | none => .wait s .retry
      | some (s, v) => .done (s.writeS d (v.setWidth 64))

/-- RCF (R146, R168). -/
def rcfBody (x : Stack) (d a : SReg) : State → Res :=
  privilegedOnly <| withClean [a] fun s =>
    let c := s.readN a
    if 4096 ≤ c then illegal s
    else if s.sys.sweeping (BitVec.ofNat 12 c) then .wait s (.rcf (BitVec.ofNat 12 c) false d x)
    else .done ((s.writeS d 0).acquire .sys)

/-- SLWB (R308, R123). -/
def slwbBody (a b : SReg) : State → Res :=
  privilegedOnly <| withClean [a, b] fun s =>
    let base := s.readN a
    let n := s.readN b
    if n = 0 then .done s
    else if !addressOk base n then .trap s (wholeTrap cAddress)
    else match rangeBy s (slwbProbe s) base (pageParts base n) with
      | .error r => atZero r
      | .ok ps =>
        let d := dieOf s.h.core
        let ps := ps.filter fun p => !p.2.2.spad && !p.2.2.dev
        if ps.any fun p => s.slwbWaits d p.2.2.pa p.2.1 then .wait s .retry
        else .done (ps.foldl (fun (s : State) p => s.slwb d p.2.2.pa p.2.1) s.drain)

/-- HMSW (R292, R123). -/
def hmswBody (a : SReg) : State → Res :=
  privilegedOnly <| withClean [a] fun s =>
    if s.readS a = 0 then illegal s
    else if s.stuckOn (dieOf s.h.core) then .wait s .retry
    else .done (s.hmsw (dieOf s.h.core) (s.readS a))

/-! The meanings. -/

/-- SETVL (R307). -/
def execSetvl (x : Stack) (d a : SReg) (f : Fmt) (n : NregC) (s : State) : Out :=
  issue (.setvl x d a f n) (setvlBody x d a f n) s

/-- SETVLB (R42, R43). -/
def execSetvlb (x : Stack) (d : SReg) (f : Fmt) (n : NregC) (z y w : Fin 5) (s : State) : Out :=
  issue (.setvlb x d f n z y w) (setvlbBody x d f n z y w) s

/-- SETSH (R51). -/
def execSetsh (x : Stack) (d : VReg) (r : Fin 64) (k : ShKind) (f : ShFace) (s : State) : Out :=
  issue (.setsh x d r k f) (setshBody d r k f) s

/-- VSAVE (R346). -/
def execVsave (x : Stack) (a : SReg) (s : State) : Out := issue (.vsave x a) (vsaveBody a) s

/-- VREST (R346). -/
def execVrest (x : Stack) (a : SReg) (s : State) : Out := issue (.vrest x a) (vrestBody x a) s

/-- CLAIM (R287). -/
def execClaim (x : Stack) (d a b : SReg) (s : State) : Out := issue (.claim x d a b) (claimBody d a b) s

/-- FARM (R290). -/
def execFarm (x : Stack) (a b : SReg) (s : State) : Out := issue (.farm x a b) (farmBody a b) s

/-- SYSC (R310). -/
def execSysc (x : Stack) (s : State) : Out := issue (.sysc x) (syscBody x) s

/-- TRET (R196). -/
def execTret (x : Stack) (s : State) : Out := issue (.tret x) (tretBody x) s

/-- EXIT (R289). -/
def execExit (x : Stack) (s : State) : Out := issue (.exit x) (fun s => .gone (exitHart s)) s

/-- FENCE (R291). -/
def execFence (x : Stack) (sc : Scope) (c : BitVec 4) (s : State) : Out := issue (.fence x sc c) (fenceBody sc c) s

/-- WAITM (R354). -/
def execWaitm (x : Stack) (a b : SReg) (s : State) : Out := issue (.waitm x a b) (waitmBody x a b) s

/-- BAR (R281). -/
def execBar (x : Stack) (a : SReg) (sc : Scope) (s : State) : Out := issue (.bar x a sc) (barBody x a sc) s

/-- MSETM (R84, R85). -/
def execMsetm (x : Stack) (l : MvlC) (s : State) : Out := issue (.msetm x l) (msetmBody x l) s

/-- MREL (R86). -/
def execMrel (x : Stack) (s : State) : Out := issue (.mrel x) mrelBody s

/-- XSEND (R355). -/
def execXsend (x : Stack) (a : SReg) (v : VReg) (s : State) : Out := issue (.xsend x a v) (xsendBody a v) s

/-- XRECV (R355). -/
def execXrecv (x : Stack) (d : VReg) (a : SReg) (s : State) : Out := issue (.xrecv x d a) (xrecvBody d a) s

/-- INCB (R293). -/
def execIncb (x : Stack) (d a : SReg) (s : State) : Out := issue (.incb x d a) (incbBody d a) s

/-- RCF (R306). -/
def execRcf (x : Stack) (d a : SReg) (s : State) : Out := issue (.rcf x d a) (rcfBody x d a) s

/-- SLWB (R308). -/
def execSlwb (x : Stack) (a b : SReg) (s : State) : Out := issue (.slwb x a b) (slwbBody a b) s

/-- HMSW (R292). -/
def execHmsw (x : Stack) (a : SReg) (s : State) : Out := issue (.hmsw x a) (hmswBody a) s

end Sys2Proof.Machine
end

