-- ==== Sys2Proof/Machine/Engines.lean ====
section
/-! DEFINITION. The copy engine: tensor descriptors (R116), CECOPY, CEFILL and CESTAT (R117, R118, R285, R286). -/

namespace Sys2Proof.Machine

/-- A tensor: its base, its element size in bytes, and its extents and strides from dimension 0 on (R116). -/
structure Tensor where
  base : Nat
  esz : Nat
  dims : List (Nat × Int)
  deriving DecidableEq, Repr

/-- The tensor of a descriptor's 256 bytes (Table 6-4); none for a descriptor error that one descriptor shows (R117). -/
def Tensor.ofBytes (b : List Byte) : Option Tensor :=
  let f := imageAt b 8 1
  let nd := imageAt b 9 1
  let dims := (List.range nd).map fun d => (imageAt b (0x10 + 16 * d) 8, signedOf 64 (imageAt b (0x18 + 16 * d) 8))
  if 4 ≤ f ∨ nd = 0 ∨ 14 < nd ∨ imageAt b 10 6 ≠ 0 ∨ (dims.any fun d => d.1 == 0) then none
  else some ⟨imageAt b 0 8, 2 ^ f, dims⟩

/-- The element count of a tensor. -/
def Tensor.count (t : Tensor) : Nat := t.dims.foldl (fun n d => n * d.1) 1

/-- The addresses of the elements, dimension 0 varying fastest (R116). -/
def Tensor.addrs (t : Tensor) : List Int :=
  t.dims.foldr (fun d as_ => as_.flatMap fun a => (List.range d.1).map fun i => a + (i : Nat) * d.2) [(t.base : Int)]

/-- TVAL of a fault on a descriptor read (R285). -/
def noElement : Word := BitVec.allOnes 64

/-- Reads a descriptor as one load, whose causes stand in one order over both of its pages (R179), and checks it on its own
(R285, R117). -/
def withTensor (va : Nat) (k : Tensor → State → Res) (s : State) : Res :=
  match probe s needRead (va : Int) 256 1 with
  | .bad c => .trap s (wholeTrap c noElement)
  | .wait => .wait s .retry
  | .poisoned w => consume s (.mem w) 0 noElement none
  | .ok p =>
    let s := s.interlockElem false State.nextPage va p 256
    let b := s.loadBytes va p 256
    match b.2 with
    | some l => consume s l 0 noElement none
    | none =>
      match Tensor.ofBytes b.1 with
      | none => .trap s (wholeTrap cDescriptor (wd va))
      | some t => k t s

/-- Probes the elements of a transfer by the copy engine of the hart's tile (R118, R185). -/
def probeTensor (s : State) (need : Need) (align : Nat) : List Acc → Except Res (List (Acc × Phys))
  | [] => .ok []
  | x :: xs =>
    match probeEngine s need x.a x.n align with
    | .bad c => .error (.trap s (wholeTrap c (wd x.e)))
    | .wait => .error (.wait s .retry)
    | .poisoned w => .error (consume s (.mem w) 0 (wd x.e) none)
    | .ok p => (probeTensor s need align xs).map fun l => (x, p) :: l

/-- The element accesses of a tensor. -/
def Tensor.accs (t : Tensor) : List Acc := ((List.range t.count).zip t.addrs).map fun p => ⟨p.1, p.2, t.esz⟩

/-- Both alignments of the descriptors, the destination's first (R285). -/
def alignedDescs (vas : List Nat) (k : State → Res) (s : State) : Res :=
  match vas.find? fun v => v % 64 != 0 with
  | some v => .trap s (wholeTrap cDescriptor (wd v))
  | none => k s

/-- The bytes of one transfer are at most 2^40 (R117). -/
def Tensor.fits (t : Tensor) : Bool := t.count * t.esz ≤ 2 ^ 40

/-- CECOPY (R285, R117, R118). -/
def cecopyBody (x : Stack) (a b : SReg) : State → Res :=
  withClean [a, b] <| withEntries 2 fun s =>
    let dva := s.readN a
    let sva := s.readN b
    alignedDescs [dva, sva] (withTensor dva fun dt => withTensor sva fun st s =>
      if dt.esz ≠ st.esz ∨ dt.count ≠ st.count ∨ !dt.fits then .trap s (wholeTrap cDescriptor (wd dva))
      else
        withNotify x (fun nt s =>
          match probeTensor s needRead st.esz st.accs with
          | .error r => r
          | .ok ss =>
            match probeTensor s needWrite dt.esz dt.accs with
            | .error r => r
            | .ok ds =>
              let s := ss.foldl (fun (s : State) p => s.interlock false p.2 p.1.n) s
              let s := ds.foldl (fun (s : State) p => s.interlock true p.2 p.1.n) s
              .done (s.enqueue ⟨.cecopy, (ss.zip ds).map fun p => XElem.copy p.1.2 p.2.2 dt.esz,
                nt.map fun q => ⟨q.1, 0, q.2⟩, 2⟩)) s) s

/-- CEFILL (R285, R117, R118). -/
def cefillBody (a b : SReg) : State → Res :=
  withClean [a] <| withEntries 1 fun s =>
    let dva := s.readN a
    alignedDescs [dva] (withTensor dva fun dt s =>
      if !dt.fits then .trap s (wholeTrap cDescriptor (wd dva))
      else
        match probeTensor s needWrite dt.esz dt.accs with
        | .error r => r
        | .ok ds =>
          let s := ds.foldl (fun (s : State) p => s.interlock true p.2 p.1.n) s
          .done (s.enqueue ⟨.cefill, ds.map fun p =>
            XElem.put p.2 (natToBytes dt.esz (s.readN b)) (s.h.sPoison b), none, 1⟩)) s

/-- CESTAT (R286): the CECOPY and CEFILL of the hart that are not yet performed. -/
def cestatBody (d : SReg) (s : State) : Res :=
  .done (s.writeS d (wd (s.h.xfers.countP fun x => x.kind == .cecopy || x.kind == .cefill)))

/-- CECOPY (R285). -/
def execCecopy (x : Stack) (a b : SReg) (s : State) : Out := issue (.cecopy x a b) (cecopyBody x a b) s

/-- CEFILL (R285). -/
def execCefill (x : Stack) (a b : SReg) (s : State) : Out := issue (.cefill x a b) (cefillBody a b) s

/-- CESTAT (R286). -/
def execCestat (x : Stack) (d : SReg) (s : State) : Out := issue (.cestat x d) (cestatBody d) s

end Sys2Proof.Machine
end

