-- ==== Sys2Proof/Machine/Matrix.lean ====
section
/-! DEFINITION. The matrix unit (R87 to R96, R101, R81) and VARGMAX (R100). -/

namespace Sys2Proof.Machine

/-! Tiles. -/

/-- MVL (R84). -/
def mvlOf : MvlC → Nat
  | .m16 => 16
  | .m32 => 32
  | .m64 => 64

/-- The tiles at an MVL (Table 5-1). -/
def tilesOf : MvlC → Nat
  | .m16 => 4
  | .m32 => 4
  | .m64 => 1

/-- Runs `k` with MVL, for a hart that holds the unit and a tile that exists at its MVL; else the illegal-instruction trap
(R87). -/
def withTile (t : Fin 4) (k : Nat → State → Res) (s : State) : Res :=
  match s.h.mvl with
  | none => illegal s
  | some l => if tilesOf l ≤ t.val then illegal s else k (mvlOf l) s

/-- A cell; a cell that is not listed is +0 (R85). -/
def Hart.cell (h : Hart) (k : Nat) : BitVec 32 := lookupD 0 k h.cells

/-- Cells `lo` to `lo + n - 1` set. -/
def Hart.putTile (h : Hart) (lo n : Nat) (f : Nat → BitVec 32) : Hart :=
  { h with
    cells := (h.cells.filter fun c => c.1 < lo)
      ++ ((List.range n).filterMap fun j => if f j = 0 then none else some (lo + j, f j))
      ++ h.cells.filter fun c => lo + n ≤ c.1
    poison := if h.poison.isEmpty then h.poison else
      h.poison.filter fun p => match p with
        | .cell k => k < lo || lo + n ≤ k
        | .sreg _ | .vword _ | .mask _ _ | .scale _ | .queue _ _ | .mem _ | .spad _ => true }

/-- The first poisoned cell among `n` from `lo`. -/
def Hart.cellPoison (h : Hart) (lo n : Nat) : Option Nat :=
  if h.poison.isEmpty then none else (List.range n).find? fun j => h.poison.contains (.cell (lo + j))

/-- The data error, or squash, of a poisoned word that a matrix instruction reads at element `e` (R206, R208). -/
def consumeAt (s : State) (l : PLoc) (e : Nat) : Res := consume s l 0 (wd e) none

/-! Sums (R81). -/

/-- The exact sum of products and an old value, with its flags. A quiet NaN among them gives NaN without NV even where
infinities of both signs stand beside it: DESIGN CHOICE, log entry 46. -/
def sumF (vs : List FVal) : FVal × Nat :=
  let nv := vs.foldl (fun f v => f ||| sigNV v) 0
  let inf := fun n : Bool => vs.any fun v => match v with
    | .inf k => k == n
    | .nan _ => false
    | .fin _ _ _ => false
  if vs.any FVal.isNan then (.nan false, nv)
  else if inf true && inf false then (.nan false, fNV)
  else if inf true then (.inf true, 0)
  else if inf false then (.inf false, 0)
  else
    let q := vs.foldl (fun (q : Int) v => match v with
      | .fin _ _ e => if e < q then e else q
      | .inf _ => q
      | .nan _ => q) 0
    let t := vs.foldl (fun (t : Int) v => match v with
      | .fin n m e => t + scaledInt n m e q
      | .inf _ => t
      | .nan _ => t) 0
    if t = 0 then (.fin (vs.all fun v => v.isZero && v.neg) 0 0, 0) else (.fin (t < 0) t.natAbs q, 0)

/-- A cell's new value: the old value and the products of the pairs, summed exactly and rounded once (R81); and its
flags. -/
def accumulate (old : BitVec 32) (ps : List (FVal × FVal)) : BitVec 32 × Nat :=
  let ms := ps.map fun p => mulF p.1 p.2
  let nv := ms.foldl (fun f m => f ||| m.2) 0
  let t := sumF (decodeF .fp32 old.toNat :: ms.map (·.1))
  let r := deliver .fp32 .rne false t.1
  (BitVec.ofNat 32 r.1, onlyNV (nv ||| t.2 ||| r.2))

/-! Operands (R89). -/

/-- The formats of MOP and MROW. -/
def matFmt (f : Fmt) : Bool := isFloat f || isSmall f

/-- The packing factor p (R89). -/
def packing (f : Fmt) : Nat := if width f = 8 then 2 else if width f = 4 then 4 else 1

/-- What a matrix read comes to: a value, a poisoned word, or a shell trap. -/
inductive MRead where
  | val (v : FVal)
  | poison (l : PLoc)
  | shell
  deriving DecidableEq, Repr

/-- mval of R89, before its read begins at an element at or beyond VL, which is +0. -/
def mread (v : Env) (ents : List PEntry) (s : Src) (e : Nat) : MRead :=
  if v.h.vl ≤ e then .val (.fin false 0 0)
  else match v.read s e with
    | .shell => .shell
    | .code _ _ (some l) => .poison l.1
    | .code c org none =>
      if isSmall v.h.fmt then
        match smallVal v.h v.h.fmt ents c org with
        | .ok x => .val x
        | .error l => .poison l
      else .val (decodeF v.h.fmt c)

/-- The values of reads, or what the first read that fails comes to. -/
def mreads (s : State) (rs : List (Nat × MRead)) (k : Array FVal → Res) : Res :=
  match rs.find? fun r => match r.2 with
      | .val _ => false
      | .poison _ => true
      | .shell => true with
  | some (e, .poison l) => consumeAt s l e
  | some (e, .shell) => .trap s (wholeTrap cShell (wd e))
  | some (_, .val v) => k #[v]
  | none => k (rs.map fun r => match r.2 with
      | .val v => v
      | .poison _ => .fin false 0 0
      | .shell => .fin false 0 0).toArray

/-- The elements of registers in the order of R69: each register once, in ascending index. -/
def readOrder (vl : Nat) (rs : List VReg) (inside : VReg → Nat → Bool) : List (VReg × List Nat) :=
  rs.eraseDups.map fun r => (r, (List.range vl).filter (inside r))

/-- The residue check of the array (R101): a mismatch reissues the instruction; a second one is a data
error with TVAL 0, since the manual names no element for it (DESIGN CHOICE, log entry 47). -/
def residueChecked (body : State → Res) (s : State) : Res :=
  match takeUpset (fun u => u == .matrixOnce || u == .matrixTwice) s with
  | some (.matrixTwice, s) => .trap s { code := cData, detail := 1 }
  | some (.matrixOnce, s) => body s
  | some (.mismatch, s) | some (.outvoted _ _ _, s) | some (.split _ _, s) | some (.criticalOutvoted _, s)
  | some (.criticalSplit _ _, s) => body s
  | none => body s

/-- The tile of a TILE prefix. -/
def tileAt (x : Stack) : TileP := x.tile.getD ⟨0, 0, 0⟩

/-! The instructions. -/

/-- MZERO (R94). -/
def mzeroBody (t : Fin 4) : State → Res :=
  withTile t fun n s => .done (s.modH fun h => h.putTile (t.val * n * n) (n * n) fun _ => 0)

/-- MOP (R90). Poison in a cell is consumed at the cell's index in the tile: DESIGN CHOICE, log entry 47. -/
def mopBody (x : Stack) (a b : VReg) (s : State) : Res :=
  let t := (tileAt x).at_
  withTile t (fun n s =>
    let o1 := s.h.disp1 x
    let o2 := s.h.disp2 x
    let p := packing s.h.fmt
    let rs := s.h.regsOf (.reg a o1) ++ s.h.regsOf (.reg b o2)
    (legalReads x (matFmt s.h.fmt) [a, b] rs [] [] <|
      withPurse (fun h _ => readOrder h.vl [a, b] fun _ e => e < n * p) s.h.layout none rs (fun ents s =>
        let lo := t.val * n * n
        match s.h.cellPoison lo (n * n) with
        | some j => consumeAt s (.cell (lo + j)) j
        | none =>
          let v := s.h.env s.h.layout none rs
          mreads s ((List.range (n * p)).map (fun e => (e, mread v ents (.reg a o1) e))
            ++ (List.range (n * p)).map (fun e => (e, mread v ents (.reg b o2) e))) (fun xs =>
            residueChecked (fun s =>
              let h := s.h
              let out := ((List.range (n * n)).map fun c =>
                accumulate (h.cell (lo + c)) ((List.range p).map fun u =>
                  (xs.getD (c / n * p + u) (.fin false 0 0), xs.getD (n * p + c % n * p + u) (.fin false 0 0)))).toArray
              let flags := out.foldl (fun f r => f ||| r.2) 0
              .done (s.modH fun h =>
                { (h.putTile lo (n * n) fun j => (out.getD j (0, 0)).1).raise flags with
                  purse := h.purse + wd (2 * ents.length) })) s))) s) s

/-- The element of B[k][j] and the offset of its register from vb (R91). -/
def tileElem (g n p k j : Nat) : Nat × Nat := (k / p / g, k / p % g * n * p + j * p + k % p)

/-- MROW (R91). Poison in a cell is consumed at its column: DESIGN CHOICE, log entry 47. -/
def mrowBody (x : Stack) (i : SReg) (v vb : VReg) (s : State) : Res :=
  let tp := tileAt x
  let t := tp.at_
  withTile t (fun n s =>
    let o1 := s.h.disp1 x
    let p := packing s.h.fmt
    let g := 2 ^ tp.lgr.val
    let kk := 8 * g * p
    let tile : List VReg := (List.range 8).map fun u => Fin.ofNat 64 (vb.val + u)
    let rs := s.h.regsOf (.reg v o1) ++ tile
    (legalReads x (matFmt s.h.fmt && vb.val + 7 < s.h.nreg) (v :: tile) rs [] [] <| withClean [i, tp.sb] fun s =>
      let row := s.readN i
      let e0 := s.readN tp.sb
      if n ≤ row then .trap s (wholeTrap cIllegal (wd row))
      else
        withPurse (fun h w =>
          let ends := (List.range kk).filterMap fun k =>
            if h.vl ≤ e0 + k then none
            else match w.read (.reg v o1) (e0 + k) with
              | .code _ (some (r, e)) _ => if r = v then some e else none
              | .code _ none _ => none
              | .shell => none
          readOrder h.vl (v :: tile) fun r e => r = v && ends.contains e || tile.contains r && e < g * n * p)
          s.h.layout none rs (fun ents s =>
            let lo := t.val * n * n + row * n
            match s.h.cellPoison lo n with
            | some j => consumeAt s (.cell (lo + j)) j
            | none =>
              let w := s.h.env s.h.layout none rs
              let bs := (List.range n).flatMap fun j => (List.range kk).map fun k =>
                let q := tileElem g n p k j
                (q.2, mread w ents (.reg (Fin.ofNat 64 (vb.val + q.1)) ⟨0, 0, 0⟩) q.2)
              mreads s ((List.range kk).map (fun k => (e0 + k, mread w ents (.reg v o1) (e0 + k))) ++ bs) (fun xs =>
                residueChecked (fun s =>
                  let h := s.h
                  let out := ((List.range n).map fun j =>
                    accumulate (h.cell (lo + j)) ((List.range kk).map fun k =>
                      (xs.getD k (.fin false 0 0), xs.getD (kk + j * kk + k) (.fin false 0 0)))).toArray
                  let flags := out.foldl (fun f r => f ||| r.2) 0
                  .done (s.modH fun h =>
                    { (h.putTile lo n fun j => (out.getD j (0, 0)).1).raise flags with
                      purse := h.purse + wd (2 * ents.length) })) s)) s) s) s

/-- The active elements e0 + j of a row move, or the first poisoned mask word (R95). -/
def rowElems (h : Hart) (x : Stack) (m : MReg) (n e0 : Nat) : Except (Nat × PLoc) (List (Nat × Nat)) :=
  match (List.range n).findSome? fun j =>
      if h.vl ≤ e0 + j then none
      else match h.active m (maskInv x) (e0 + j) with
        | .error l => some (e0 + j, l)
        | .ok _ => none with
  | some b => .error b
  | none =>
    .ok (((List.range n).filter fun j => e0 + j < h.vl && match h.active m (maskInv x) (e0 + j) with
      | .ok b => b
      | .error _ => false).map fun j => (j, e0 + j))

/-- Runs `k` with the row and the elements of MMOVV and MLDA (R95). -/
def rowMove (x : Stack) (r : VReg) (a b : SReg) (m : MReg) (t : Fin 4)
    (k : Nat → List (Nat × Nat) → State → Res) : State → Res :=
  withTile t fun n s =>
    (legalVec x (isFloat s.h.fmt) [r] [m] <| withClean [a, b] fun s =>
      let i := s.readN a
      if n ≤ i then .trap s (wholeTrap cIllegal (wd i))
      else match rowElems s.h x m n (s.readN b) with
        | .error (e, l) => consumeAt s l e
        | .ok js => k (t.val * n * n + i * n) js s) s

/-- MMOVV (R95). Poison in a cell is consumed at the element of vd that it goes to: DESIGN CHOICE, log entry 47. -/
def mmovvBody (x : Stack) (d : VReg) (a b : SReg) (m : MReg) (t : Fin 4) : State → Res :=
  rowMove x d a b m t fun lo js s =>
    match js.find? fun p => s.h.poison.contains (.cell (lo + p.1)) with
    | some (j, e) => consumeAt s (.cell (lo + j)) e
    | none =>
      let h := s.h
      let vs := js.map fun p => (p.2, convertF h.fmt h.rm h.ftz h.sat (decodeF .fp32 (h.cell (lo + p.1)).toNat))
      let flags := vs.foldl (fun f v => f ||| onlyNV v.2.2) 0
      .done (if vs.isEmpty then s else s.modH fun h =>
        (h.putElems d h.layout (vs.map fun v => (v.1, v.2.1, 0))).raise flags)

/-- MLDA (R95). -/
def mldaBody (x : Stack) (v : VReg) (a b : SReg) (m : MReg) (t : Fin 4) : State → Res :=
  rowMove x v a b m t fun lo js s =>
    let w := s.h.env s.h.layout none [v]
    let rs := js.map fun p => (p.1, p.2, w.elem v p.2)
    match rs.findSome? fun r => match r.2.2 with
        | .code _ _ (some l) => some (r.2.1, l.1)
        | .code _ _ none => none
        | .shell => none with
    | some (e, l) => consumeAt s l e
    | none =>
      let vs := rs.map fun r => match r.2.2 with
        | .code c _ _ => (r.1, convertF .fp32 .rne false false (decodeF s.h.fmt c))
        | .shell => (r.1, (0, 0))
      let flags := vs.foldl (fun f v => f ||| onlyNV v.2.2) 0
      .done (s.modH fun h => (vs.foldl (fun (h : Hart) v =>
        h.putTile (lo + v.1) 1 fun _ => BitVec.ofNat 32 v.2.1) h).raise flags)

/-- MSTA (R96): the cells are read when it issues, and its stores are an engine transfer. `idx` is vi of the indexed form;
`b` the stride of the strided one. DEDUCED, log entry 38. -/
def mstaBody (x : Stack) (a b : SReg) (idx : Option VReg) (m : MReg) (t : Fin 4) : State → Res :=
  withTile t fun n s =>
    let rs := match idx with | some i => [i] | none => []
    (legalVec x (idx.isNone || 16 ≤ width s.h.fmt) rs [m] <|
      withClean (if idx.isSome then [a] else [a, b]) <| withEntries 1 <| withNotify x fun nt s =>
        let h := s.h
        let env := h.env h.layout none rs
        let lo := t.val * n * n
        let key := fun c => if idx.isSome then c / n else c % n
        let act := fun c => if h.vl ≤ key c then .ok false else h.active m (maskInv x) (key c)
        let addr := fun c =>
          match idx with
          | none => .ok ((s.readN a : Int) + (c / n : Nat) * (s.readS b).toInt + (4 * (c % n) : Nat), 4)
          | some i => (indexAddr (s.readN a) env i (width h.fmt) 4 (c / n)).map fun p => (p.1 + (4 * (c % n) : Nat), 4)
        withElems needWrite 4 (List.range (n * n)) act addr (fun ps s =>
          match ps.find? fun p => s.h.poison.contains (.cell (lo + p.1.e)) with
          | some p => consumeAt s (.cell (lo + p.1.e)) p.1.e
          | none =>
            let byCell := ps.map fun p => (p.1.e, p.2)
            let es := (List.range (n * n)).map fun c => match byCell.find? fun p => p.1 == c with
              | some p => XElem.put p.2 (natToBytes 4 (s.h.cell (lo + c)).toNat) false
              | none => .skip
            .done (s.enqueue ⟨.msta, es, nt.map fun q => ⟨q.1, 0, q.2⟩, 1⟩)) s) s

/-! VARGMAX (R100). -/

/-- Whether code `c` ranks strictly above code `b`: a NaN above every number, and never above a NaN. -/
def ranksAbove (h : Hart) (c b : Nat) : Bool :=
  if isFloat h.fmt then
    let x := operandF h.fmt h.ftz c
    let y := operandF h.fmt h.ftz b
    if y.isNan then false else if x.isNan then true else belowF y x
  else decide (intOf h.fmt b < intOf h.fmt c)

/-- One line of VARGMAX: the codes of its active elements by x. -/
def argmaxLine (h : Hart) (cs : List (Nat × Nat)) : Nat × Nat :=
  let top := 2 ^ width h.fmt - 1
  let nv := if isFloat h.fmt then cs.foldl (fun f c => f ||| sigNV (decodeF h.fmt c.2)) 0 else 0
  match cs.foldl (fun (b : Option (Nat × Nat)) c => match b with
      | none => some c
      | some q => if ranksAbove h c.2 q.2 then some c else b) none with
  | none => (top, 0)
  | some (x, _) => if top < x then (top, nv ||| fSAT) else (x, nv)

/-- VARGMAX (R100). -/
def vargmaxBody (i : Instr) (x : Stack) (d a : VReg) (m : MReg) (s : State) : Res :=
  (legalVec x (isArith s.h.fmt) [d, a] [m] <| checked i fun sp s =>
    let h := s.h
    let y := h.layout
    let g := h.geo
    let v := h.env y (some d) [a]
    let line := fun e0 : Nat =>
      let p := g.coord e0
      (List.range g.extents.x.toNat).filterMap fun (xx : Nat) =>
        let e := g.index { p with x := xx }
        if h.vl ≤ e then none
        else match h.active m (maskInv x) e with
          | .error l => some (xx, Except.error l)
          | .ok false => none
          | .ok true => match v.elem a e with
            | .code _ _ (some l) => some (xx, .error l.1)
            | .code c _ none => some (xx, .ok c)
            | .shell => none
    let plan : Plan :=
      { i := i, act := fun e => .ok ((g.coord e).x == 0)
        f := fun e =>
          let l := line e
          match l.findSome? fun p => match p.2 with
              | .error q => some q
              | .ok _ => none with
          | some q => .poison q
          | none => res (argmaxLine h (l.map fun p => match p.2 with
              | .ok c => (p.1, c)
              | .error _ => (p.1, 0)))
        stripe := y.stripe, put := putReg d y, dreg := some d, dmask := none }
    plan.run sp s) s

/-! The meanings. -/

/-- MZERO (R94). -/
def execMzero (x : Stack) (t : Fin 4) (s : State) : Out := issue (.mzero x t) (mzeroBody t) s

/-- MOP (R90). -/
def execMop (x : Stack) (a b : VReg) (s : State) : Out := issue (.mop x a b) (mopBody x a b) s

/-- MROW (R91). -/
def execMrow (x : Stack) (r : SReg) (v vb : VReg) (s : State) : Out := issue (.mrow x r v vb) (mrowBody x r v vb) s

/-- MMOVV (R95). -/
def execMmovv (x : Stack) (d : VReg) (a b : SReg) (m : MReg) (t : Fin 4) (s : State) : Out :=
  issue (.mmovv x d a b m t) (mmovvBody x d a b m t) s

/-- MLDA (R95). -/
def execMlda (x : Stack) (v : VReg) (a b : SReg) (m : MReg) (t : Fin 4) (s : State) : Out :=
  issue (.mlda x v a b m t) (mldaBody x v a b m t) s

/-- MSTA, strided (R96). -/
def execMstaStrided (x : Stack) (a b : SReg) (m : MReg) (t : Fin 4) (s : State) : Out :=
  issue (.mstaStrided x a b m t) (mstaBody x a b none m t) s

/-- MSTA, indexed (R96). -/
def execMstaIndexed (x : Stack) (a : SReg) (j : VReg) (m : MReg) (t : Fin 4) (s : State) : Out :=
  issue (.mstaIndexed x a j m t) (mstaBody x a 0 (some j) m t) s

/-- VARGMAX (R100). -/
def execVargmax (x : Stack) (d a : VReg) (m : MReg) (s : State) : Out :=
  issue (.vargmax x d a m) (vargmaxBody (.vargmax x d a m) x d a m) s

end Sys2Proof.Machine
end

