-- ==== Sys2Proof/Machine/Gangs.lean ====
section
/-! DEFINITION. Gangs: LAUNCH (R10 to R13, R295), WAITC and DONE (R15, R19), admission and placement (R16 to R18), the
resumption of stopped harts (R202), staging (R22, R23), budgets and forced stops (R20, R200), ageing (R26) and the rerun of
a gang (R24). -/

namespace Sys2Proof.Machine

/-! The launch descriptor. -/

/-- The cores of a gang's core set (R10), by their number in the package. -/
def Desc.coreSet (d : Desc) : List CoreId :=
  (List.finRange 512).filter fun c => d.pods.getLsbD (c.val / 16) && d.cores.getLsbD (c.val % 16)

/-- The dies that a core set touches, lowest first. -/
def Desc.dies (d : Desc) : List (Fin 4) := (List.finRange 4).filter fun k => d.coreSet.any fun c => dieOf c == k

/-- A descriptor from its 80 bytes (Table 2-1). -/
def Desc.ofBytes (b : List Byte) : Desc :=
  let n := fun off k : Nat => imageAt b off k
  { entry := wd (n 0 8), args := wd (n 8 8), done := wd (n 0x10 8), waitc := wd (n 0x18 8), waitn := wd (n 0x20 8)
    vbas := wd (n 0x28 8), spsrc := wd (n 0x30 8), pods := BitVec.ofNat 32 (n 0x38 4)
    cores := BitVec.ofNat 16 (n 0x3C 2), harts := BitVec.ofNat 16 (n 0x3E 2), budget := BitVec.ofNat 32 (n 0x40 4)
    prio := BitVec.ofNat 8 (n 0x44 1), spq := BitVec.ofNat 8 (n 0x45 1), cid := BitVec.ofNat 16 (n 0x46 2)
    resv := wd (n 0x48 8) }

/-- The conditions of the answer -2 (Table 2-2). -/
def Desc.bad (d : Desc) (fromHart : Bool) : Bool :=
  d.entry.toNat % 4 != 0 || !canonical d.entry.toNat || d.harts == 0 || 8 * d.coreSet.length < d.harts.toNat
    || d.pods == 0 || d.cores == 0 || 4 ≤ d.prio.toNat || 16 ≤ d.spq.toNat || d.resv != 0
    || d.vbas.toNat % 4096 != 0 || d.spsrc.toNat % 64 != 0 || d.done.toNat % 8 != 0 || d.waitc.toNat % 8 != 0
    || (if fromHart then d.cid != 0 else 4096 ≤ d.cid.toNat)

/-- The lowest free launch slot of a die (R13). DESIGN CHOICE, log entry 11. A failed die has none. -/
def Sys.freeSlot (y : Sys) (d : Fin 4) : Option Nat :=
  if y.dieLost d.val then none
  else (List.range 64).find? fun n => !y.gangs.any fun g => g.slots.contains (d, n)

/-- LAUNCH of a descriptor (R11 to R13): the answer, and the state with the gang waiting in its slots. -/
def State.launch (s : State) (d : Desc) (fromHart privileged : Bool) (cid : BitVec 12) : State × Word :=
  if d.bad fromHart then (s, wd (codeOf 64 (-2)))
  else if d.prio == 3 && fromHart && !privileged then (s, wd (codeOf 64 (-3)))
  else
    let slots := d.dies.map fun k => (k, s.sys.freeSlot k)
    if slots.any fun p => p.2.isNone then (s, wd (codeOf 64 (-1)))
    else
      let slots := slots.map fun p => (p.1, p.2.getD 0)
      let num := match slots with
        | p :: _ => 64 * p.1.val + p.2
        | [] => 0
      let g : Gang :=
        { num := BitVec.ofNat 8 num, desc := d, cid := cid, inc := s.sys.curInc cid, priv := !fromHart || privileged
          slots := slots, st := .waiting, ready := d.waitc == 0, age := s.sys.ageCount, passed := 0
          live := d.harts.toNat, stopped := [], staged := [], places := [], head := false }
      let s := s.modSys fun y => { y with gangs := y.gangs ++ [g], ageCount := y.ageCount + 1 }
      (if g.ready then s.askAdmission else s.post (.waitcRead g.num), wd num)

/-- LAUNCH (R295): the descriptor is read as one load, and the launch acts as a release at .sys (R12). -/
def launchBody (d a : SReg) : State → Res :=
  withClean [a] fun s =>
    let va := s.readN a
    scalarAt needRead va 80 16 (fun p s =>
      let k := 4096 - va % 4096
      let s := if k < 80 then s.interlock false (s.nextPage (va + k) p) (80 - k) else s
      let b := s.loadBytes va p 80
      match b.2 with
      | some l => consume s l 0 0 none
      | none =>
        let s := s.release .sys
        let r := s.launch (.ofBytes b.1) true s.h.privileged s.h.cid
        .done (r.1.writeS d r.2)) s

/-! A Launch Unit's own accesses (R15, R19, R177). -/

/-- Probes an access that a Launch Unit makes in a gang's context. -/
def unitProbe (s : State) (need : Need) (g : Gang) (size va : Nat) : Probe :=
  if !addressOk va size then .bad cAddress
  else match walk s g.cid va with
    | .fault => .bad cTranslation
    | .poisoned pa => .poisoned pa
    | .wait => .wait
    | .leaf pa e _ _ => checkLeaf s need (if g.priv then 0 else g.cid) 0 size pa e

/-- The report of an access of a Launch Unit that faulted (Table 11-10, KIND 8). -/
def unitReport (g : Gang) (detail code : Nat) (va : Word) : Report :=
  { kind := 8, detail := detail, cid := g.cid, inc := g.inc, tcause := wd code, addr := va
    gang := BitVec.ofNat 32 (g.num.toNat * 2 ^ 16 + 0xFFFF) }

/-- The home Launch Unit reads WAITC (R15): the gang becomes ready, or goes on waiting, or is discarded and reported. -/
def State.readWaitc (s : State) (g : Gang) : State :=
  let va := g.desc.waitc
  let fail := fun code : Nat => (s.report (unitReport g 0 code va)).discardGang g
  match unitProbe s needNormalRead g 8 va.toNat with
  | .bad c => fail c
  | .poisoned _ => fail cData
  | .wait => s
  | .ok p =>
    let r := s.curPhys 0 p 8
    if r.2.isSome then fail cData
    else if g.desc.waitn.toNat ≤ bytesNat r.1 then
      (s.modGang g.num fun x => { x with ready := true }).askAdmission
    else s

/-- WAITC_READ (R15). A gang that waits for nothing any more is left alone. -/
def execWaitcRead (g : BitVec 8) (s : State) : Out :=
  match s.gangOf g with
  | none => .next s
  | some x => .next (if x.st == .waiting && !x.ready && !s.sys.dieLost x.home.val then s.readWaitc x else s)

/-- The home Launch Unit adds 1 to DONE and frees the gang's slots (R19). -/
def State.addDone (s : State) (g : Gang) : State :=
  let free := fun s : State => s.modSys fun y => { y with gangs := y.gangs.filter fun x => x.num != g.num }
  let va := g.desc.done
  let fail := fun code : Nat => free (s.report (unitReport g 1 code va))
  if va = 0 then free s
  else match unitProbe s needNormalAtomic g 8 va.toNat with
    | .bad c => fail c
    | .poisoned _ => fail cData
    | .wait => s
    | .ok p =>
      if s.sys.homeLost p.pa then free s
      else
        let r := s.curPhys 0 p 8
        free (s.intoBacking p.pa (natToBytes 8 ((bytesNat r.1 + 1) % 2 ^ 64)) fun s bytes =>
          (s.modMem fun m => m.agentWrite false p.pa bytes r.2.isSome).noteWrite p.pa 8)

/-- DONE_ADD (R19). A gang that has been discarded owes nothing. -/
def execDoneAdd (g : BitVec 8) (s : State) : Out :=
  match s.gangOf g with
  | none => .next s
  | some x => .next (if x.st == .ended && !s.sys.dieLost x.home.val then s.addDone x else s)

/-! Scratchpad quarters (R18, R22, R110). -/

/-- A range of a store replaced. -/
def Store.splice (lo : Nat) (bytes : List Byte) (st : Store) : Store :=
  st.filter (fun p => p.1 < lo)
    ++ ((List.range bytes.length).zip bytes).filterMap (fun p => if p.2 = unlisted then none else some (lo + p.1, p.2))
    ++ st.filter fun p => lo + bytes.length ≤ p.1

/-- The bytes of one page of a gang's scratchpad image, and the offsets of its poisoned words; a page that faults leaves
unspecified bytes, and no report names it (DESIGN CHOICE, log entry 17). -/
def imagePage (s : State) (g : Gang) (va : Nat) : List Byte × List Nat :=
  match unitProbe s needNormalRead g 1 va with
  | .ok p =>
    if s.sys.homeLost p.pa then (s.freeBytes va 4096, (List.range 1024).map (4 * ·))
    else if s.backed p.pa 4096 then (s.freeBytes va 4096, [])
    else (s.mem.curBytes p.pa 4096, ((List.range 1024).filter fun i => s.mem.curPoison (p.pa + 4 * i)).map (4 * ·))
  | .bad _ => (s.freeBytes va 4096, [])
  | .poisoned _ => (s.freeBytes va 4096, (List.range 1024).map (4 * ·))
  | .wait => (s.freeBytes va 4096, [])

/-- Bytes of an image from a virtual address, page by page or part of a page; `n` pages are touched. -/
def imageBytes (s : State) (g : Gang) : Nat → Nat → List Byte × List Nat
  | _, 0 => ([], [])
  | va, n + 1 =>
    let page := imagePage s g (va / 4096 * 4096)
    let rest := imageBytes s g ((va / 4096 + 1) * 4096) n
    let k := 4096 - va % 4096
    (page.1.drop (va % 4096) ++ rest.1,
      ((page.2.filter fun o => va % 4096 ≤ o).map fun o => o - va % 4096) ++ rest.2.map (· + k))

/-- The declared quarters of a gang on a core, filled from its image, or with zeros (R18). -/
def State.fillQuarters (s : State) (g : Gang) (c : CoreId) : State :=
  let qs := (List.range 4).filter fun q => g.desc.spq.getLsbD q
  ((List.range qs.length).zip qs).foldl (fun (s : State) p =>
    let lo := spadAt c (p.2 * 0x40000)
    let im : List Byte × List Nat :=
      if g.desc.spsrc = 0 then (List.replicate 0x40000 0, [])
      else
        let b := imageBytes s g (g.desc.spsrc.toNat + p.1 * 0x40000) 65
        (b.1.take 0x40000, b.2.filter (· < 0x40000))
    s.modMem fun m =>
      { m with
        spad := Store.splice lo im.1 m.spad
        spadPoison := m.spadPoison.filter (fun a => a < lo || lo + 0x40000 ≤ a) ++ im.2.map (lo + ·) }) s

/-- The pages of a gang's scratchpad image: those of the quarters that SPQ declares, from SPSRC on. -/
def Desc.imagePages (d : Desc) : List Nat :=
  let base := d.spsrc.toNat
  let n := 0x40000 * popCount 4 d.spq.toNat
  if n = 0 ∨ base = 0 then []
  else (List.range ((base % 4096 + n + 4095) / 4096)).map fun i => base / 4096 * 4096 + 4096 * i

/-- The image of a gang lies behind a link that retrains. -/
def State.imageWaits (s : State) (g : Gang) : Bool :=
  g.desc.imagePages.any fun va => unitProbe s needNormalRead g 1 va == .wait

/-! Placement (R17). -/

/-- Free hart contexts of a core, lowest first; a core of a failed die has none. -/
def State.freeCtxs (s : State) (c : CoreId) : List Ctx :=
  if s.sys.dieLost (dieOf c).val then [] else (List.finRange 8).filter fun k => !s.harts.any (·.at c k)

/-- Gangs with a hart on a core. -/
def State.residents (s : State) (c : CoreId) : List Gang :=
  s.sys.gangs.filter fun g => (s.onCore c).any fun h => h.gang == g.num

/-- A core as placement sees it: its free contexts, and the count of its free lane clusters. -/
structure Slot where
  core : CoreId
  ctxs : List Ctx
  lcs : Nat
  deriving DecidableEq, Repr

/-- The cores that take harts of a gang (R17). -/
def State.slotsFor (s : State) (g : Gang) : List Slot :=
  g.desc.coreSet.filterMap fun c =>
    if (s.residents c).any fun x => x.num != g.num && x.desc.spq &&& g.desc.spq != 0 then none
    else some ⟨c, s.freeCtxs c, popCount 8 (s.freeLcs c).toNat⟩

/-- The slot with the most free contexts, the lowest core first, among those with `need` free lane clusters (R17, R21). -/
def bestSlot (need : Nat) (l : List Slot) : Option Slot :=
  l.foldl (fun (b : Option Slot) x =>
    if x.ctxs.isEmpty || x.lcs < need then b
    else match b with
      | none => some x
      | some y => if y.ctxs.length < x.ctxs.length then some x else b) none

/-- Places harts one at a time; each is given by its index and the lane clusters it must be granted. None when some hart
finds no place. -/
def placeAll : List (Nat × Nat) → List Slot → Option (List (Nat × CoreId × Ctx))
  | [], _ => some []
  | (i, need) :: hs, l =>
    match bestSlot need l with
    | none => none
    | some b =>
      match b.ctxs with
      | [] => none
      | k :: ks =>
        (placeAll hs (updateWhere (fun x => x.core == b.core) (fun x => { x with ctxs := ks, lcs := x.lcs - need }) l)).map
          fun r => (i, b.core, k) :: r

/-- The harts of a gang that are to be placed: all of them, or those that have stopped, with the lane clusters that each
must be granted (R21). -/
def Gang.toPlace (g : Gang) : List (Nat × Nat) :=
  if g.stopped.isEmpty then (List.range g.desc.harts.toNat).map (·, 0)
  else (List.range g.desc.harts.toNat).filterMap fun i =>
    (g.stopped.find? fun t => t.index == i).map fun t => (i, if t.how = 2 then t.lcn else 0)

/-! Fresh harts (Table 2-3). -/

/-- The generation of dead contents of a hart placed now, unlike that of every other. -/
def State.newGen (s : State) (c : CoreId) (k : Ctx) : Nat := (4096 * s.tick + 8 * c.val + k.val) * 2 ^ 20

/-- Hart `i` of a gang before its first instruction (R18). The masks hold free values (DESIGN CHOICE, log entry 6). -/
def freshHart (s : State) (g : Gang) (i : Nat) (c : CoreId) (k : Ctx) : Hart :=
  let gen := s.newGen c k
  { Hart.reset with
    status := .running, core := c, ctx := k, gang := g.num, index := i, cid := g.cid, inc := g.inc, pc := g.desc.entry
    sregs := ((((Vector.replicate 64 0).set 1 (wd i)).set 2 g.desc.args).set 3 (g.desc.harts.setWidth 64)).set 4
      (g.num.setWidth 64)
    vbase := g.desc.vbas + wd (i * 0x20000)
    vgen := gen
    backing := backingPages s g.cid (g.desc.vbas + wd (i * 0x20000)).toNat []
    masks := Vector.ofFn fun m : Fin 8 => if m = 0 then 0 else (Config.placedMask gen m.val).toNat }

/-! Resumption (R202). -/

/-- Reads of a record through its frames. -/
structure RecordView where
  frames : Array Nat
  mem : Mem

/-- A physical address of a record. -/
def RecordView.at (r : RecordView) (off : Nat) : Nat := r.frames.getD (off / 4096) 0 + off % 4096

/-- Bytes of a record. -/
def RecordView.bytes (r : RecordView) (off n : Nat) : List Byte := (List.range n).map fun i => r.mem.curByte (r.at (off + i))

/-- A number of a record. -/
def RecordView.num (r : RecordView) (off n : Nat) : Nat := bytesNat (r.bytes off n)

/-- Some word of a record is poisoned. -/
def RecordView.bad (r : RecordView) (off n : Nat) : Bool :=
  (List.range ((off % 4 + n + 3) / 4)).any fun i => r.mem.curPoison (r.at (off / 4 * 4 + 4 * i))

/-- The poisoned words of element `e`, in elements of width `w` from an offset on. -/
def RecordView.elemBad (r : RecordView) (off w e : Nat) : Bad :=
  if w = 64 then (if r.bad (off + 8 * e) 4 then 1 else 0) + (if r.bad (off + 8 * e + 4) 4 then 2 else 0)
  else if r.bad (off + w * e / 8) ((w * e % 8 + w + 7) / 8) then 1 else 0

/-- The words of lane blocks as R102 places them, for the register of a key. -/
def RecordView.cells (r : RecordView) (h : Hart) (off base : Nat) : List VCell :=
  (List.range (8 * h.lcn)).flatMap fun l => (List.range h.blockWords).map fun w =>
    let at_ := off + l * (2048 / h.nreg) + 4 * w
    ⟨base + 128 * l + w, BitVec.ofNat 32 (r.num at_ 4), r.bad at_ 4⟩

/-- An open instruction, of a trap or of a forced stop, with the value kept at an offset of the record: its register, or the
mask of an instruction that writes a mask alone. -/
def RecordView.kept (r : RecordView) (h : Hart) (off : Nat) (o : OpenInstr) : OpenInstr :=
  match destReg o.instr with
  | some d => { o with kept := r.cells h off (8192 * d.val) }
  | none => { o with keptMask := r.num off 8192, keptBad := (List.range 2048).filter fun w => r.bad (off + 4 * w) 4 }

/-- What both kinds of record restore (Table 10-9). A reserved KIND code of a shell restores the free value `free` (DESIGN
CHOICE, log entry 16). -/
def RecordView.common (r : RecordView) (f : Fmt) (n : NregC) (free : Word) (h : Hart) : Hart :=
  let vt := r.num 0x248 8
  let csr := fun i : Nat => wd (r.num (0x240 + 8 * i) 8)
  let ipend := r.num 0x17 1
  let cells := List.range 4096
  { h with
    pc := wd (r.num 8 8)
    irq := if ipend % 2 = 1 then some (wd (r.num 0x18 8), ipend / 2 % 2 = 1) else none
    tokens := Vector.ofFn fun i : Fin 25 => Nat.min 16 (r.num (0x20 + i.val) 1)
    sregs := Vector.ofFn fun i : Fin 64 => wd (r.num (0x40 + 8 * i.val) 8)
    vl := r.num 0x240 8 % 2 ^ 19
    fmt := f, nregc := n, bs := vt.testBit 7, sat := vt.testBit 6
    bgeo := csr 2 &&& 0xC000000FFFFFF1FF
    dil := csr 3 &&& csrRw .dil
    cbypass := csr 4 &&& csrRw .cbypass
    purse := csr 5 &&& csrRw .purse
    frm := csr 6 &&& csrRw .frm
    fflags := csr 7 &&& csrRw .fflags
    chkEn := (csr 8).getLsbD 0
    mcnt := (csr 8).extractLsb' 16 16
    fst := csr 9 &&& 0xC00000000FFFFFFF
    tvec := csr 10
    tcause := csr 11 &&& csrRw .tcause
    tpc := csr 12 &&& csrRw .tpc
    tstripe := csr 13 &&& csrRw .tstripe
    tval := csr 14
    masks := Vector.ofFn fun m : Fin 8 => if m = 0 then 0 else r.num (0x1000 + 8192 * m.val) 8192
    cells := cells.filterMap fun k =>
      let v := BitVec.ofNat 32 (r.num (0x15000 + 4 * k) 4)
      if v = 0 then none else some (k, v)
    shells := shellsAt free (List.replicate 0x100 0 ++ r.bytes 0x19000 6144) 0x100
    poison := ((List.finRange 64).filter fun n => r.bad (0x40 + 8 * n.val) 8).map PLoc.sreg
      ++ ((List.finRange 8).flatMap fun m => if m = 0 then [] else
          ((List.range 2048).filter fun w => r.bad (0x1000 + 8192 * m.val + 4 * w) 4).map (PLoc.mask m ·))
      ++ (cells.filter fun k => r.bad (0x15000 + 4 * k) 4).map PLoc.cell }

/-- What a record of a forced stop restores besides. The words of the vector registers stand in the backing area. -/
def RecordView.forced (r : RecordView) (s : State) (t : Stopped) (h : Hart) : Hart :=
  let w := width h.fmt
  let qcnt := r.num 0x14 2
  let h : Hart :=
    { h with
      vregs := (List.range (64 * h.nreg * h.blockWords * h.lcn / 8)).map fun i =>
        let words := h.blockWords
        let lanes := 8 * h.lcn
        ⟨8192 * (i / (lanes * words)) + 128 * (i / words % lanes) + i % words, 0, false⟩
      offChip := (List.range h.nreg).flatMap fun n =>
        ((List.finRange 8).filter fun l => h.lcs.getLsbD l.val).map fun l => (Fin.ofNat 64 n, l)
      scales := ((List.range 16384).zip (r.bytes 0x11000 16384))
      queues := Vector.ofFn fun q : Fin 4 => (List.range (Nat.min 4 (qcnt / 16 ^ q.val % 16))).map fun j =>
        let at_ := 0x20000 + (4 * q.val + j) * 0x8000
        let v := r.num at_ 0x8000
        ⟨(List.range h.vl).map fun e => (v / 2 ^ (w * e) % 2 ^ w, r.elemBad at_ w e)⟩
      poison := h.poison ++ ((List.range 4096).filter fun k => r.bad (0x11000 + 4 * k) 4).map PLoc.scale }
  let stripe := r.num 0x10 2
  let h : Hart := { h with
    opened := t.opened.map fun o => r.kept h 0xA0000 { o with stripe := h.tstripe.toNat }
    vpClosed := t.vpClosed }
  if stripe = 0xFFFF then h
  else match State.formAt { s with h := h } h.pc.toNat with
    | .ok (i, _) =>
      let o : OpenInstr :=
        { pc := h.pc, instr := i, stripe := stripe, kept := [], keptMask := t.resumeMask, keptBad := [], frees := [], purse := 0 }
      { h with resume := some (r.kept h 0xA8000 o) }
    | .error _ => h

/-- The messages that a record holds for a hart. -/
def RecordView.messages (r : RecordView) (h : Hart) : List Message :=
  (List.range (Nat.min 8 (r.num 0x16 1))).map fun x =>
    let lanes := (List.range 64).filter fun l => (r.num (0x388 + 16 * x) 8).testBit l
    let words := Nat.min 128 (r.num (0x384 + 16 * x) 4)
    { gang := h.gang, sender := r.num (0x380 + 16 * x) 4, receiver := h.index, words := words, lanes := lanes
      data := ((List.range lanes.length).zip lanes).flatMap fun p => (List.range words).map fun w =>
        let at_ := 0xC0000 + x * 0x8000 + 4 * (p.1 * words + w)
        ⟨128 * p.2 + w, BitVec.ofNat 32 (r.num at_ 4), r.bad at_ 4⟩ }

/-- The record of a stopped hart: none behind a link that retrains; `.error` when it faults. DESIGN CHOICE, log entry 17. -/
def readRecord (s : State) (g : Gang) (h : Hart) : Except Bool RecordView :=
  (recordFrames s needNormalRead h (recordBase g.desc h.index) (List.range 256)).map fun fs => ⟨fs.toArray, s.mem⟩

/-- Places a stopped hart and restores it (R202). A record that faults holds it in fault (R201), with a free value for
its pc (DESIGN CHOICE, log entry 17). -/
def resumeHart (s : State) (g : Gang) (t : Stopped) (c : CoreId) (k : Ctx) : State :=
  let h0 := freshHart s g t.index c k
  let hold := fun s : State =>
    let h : Hart := { h0 with pc := s.freeWord t.index &&& ~~~1 }
    let s1 : State := { s with rest := s.rest ++ [h] }
    (s1.onHart c k holdBacking).getD s1
  match readRecord s g h0 with
  | .error _ => hold s
  | .ok r =>
    match vtypeFields (r.num 0x248 8) with
    | none => hold s
    | some (f, n) =>
      let h := r.common f n (s.freeWord (2 ^ 20 + t.index)) { h0 with sregs := Vector.replicate 64 0 }
      let lcs := if t.how = 2 then takeLow (s.freeLcs c) t.lcn else 0
      let h := if t.how = 2 then r.forced s t { h with lcs := lcs, requester := lcs != 0, demand := t.lcn } else h.dead
      let ms := r.messages h
      let s := (s.powerOn c lcs).modSys fun y => { y with msgs := ms ++ y.msgs }
      let h : Hart := match MvlC.ofCode (r.num 0x13 1) with
        | none => { h with cells := [] }
        | some l =>
          if s.unitHeld c || (s.onCore c).any Hart.waitsUnit then
            { h with status := .stalled (.reclaim l), unitAge := s.nextAge }
          else { h with mvl := some l }
      { s with rest := s.rest ++ [h] }

/-! Admission (R16). -/

/-- The core sets of two gangs share a core. -/
def sharesCore (a b : Gang) : Bool := a.desc.pods &&& b.desc.pods != 0 && a.desc.cores &&& b.desc.cores != 0

/-- A gang is ready and has been passed over by 64 admissions (R16). -/
def Gang.blocking (g : Gang) : Bool := g.st == .waiting && g.ready && 64 ≤ g.passed

/-- Gang `a` is admitted before gang `b`: priority, then the head of a priority (R23), then age. -/
def Gang.admittedBefore (a b : Gang) : Bool :=
  let p := fun g : Gang => bitsOf g.desc.prio.toNat 1 0
  p b < p a || p a == p b && (a.head && !b.head || a.head == b.head && a.age < b.age)

/-- A blocking gang keeps another from being admitted where they share a core (R16). Of two blocking gangs that share a core,
the first in the order of admission is admitted first: DEDUCED, log entry 34. -/
def Gang.keepsOut (x g : Gang) : Bool :=
  x.num != g.num && x.blocking && sharesCore x g && !(g.blocking && g.admittedBefore x)

/-- A staged gang may start on its cores (Table 2-4). As a gang is never admitted in part (R16), one staged core on which it may
not start keeps it from all of them: DESIGN CHOICE, log entry 34. -/
def State.stagedMayStart (s : State) (g : Gang) : Bool :=
  g.staged.all fun c => !(s.onCore c).any fun h => h.status == .heldInFault || h.preempt

/-- The records of a gang's stopped harts can be read, or fault: no link makes them wait. -/
def State.recordsUp (s : State) (g : Gang) : Bool :=
  g.stopped.all fun t => match readRecord s g (freshHart s g t.index 0 0) with
    | .error b => !b
    | .ok _ => true

/-- Where the harts of a gang would be placed; none while it cannot be admitted. DEDUCED, log entry 34. A ready gang that Table 2-4
keeps from starting, or whose image or stop records lie behind a link that retrains, is not placeable, so a younger or lower
gang may be admitted before it, on its cores too: DESIGN CHOICE, log entry 34. -/
def State.placeable (s : State) (g : Gang) : Option (List (Nat × CoreId × Ctx)) :=
  if s.sys.gangs.any (fun x => x.keepsOut g) || !s.stagedMayStart g
      || !s.recordsUp g || s.imageWaits g then none
  else placeAll g.toPlace (s.slotsFor g)

/-- The gang that a Launch Unit admits next, with its places. -/
def State.nextAdmission (s : State) (die : Fin 4) : Option (Gang × List (Nat × CoreId × Ctx)) :=
  s.sys.gangs.foldl (fun (best : Option (Gang × List (Nat × CoreId × Ctx))) (g : Gang) =>
    if g.st != .waiting || !g.ready || g.home != die || s.sys.dieLost die.val then best
    else if best.any fun b => b.1.admittedBefore g then best
    else match s.placeable g with
      | none => best
      | some p => some (g, p)) none

/-- Staging on cores that a gang now holds quarters of is cancelled where the quarters overlap (R22). -/
def State.unstage (s : State) (g : Gang) (cs : List CoreId) (head : Bool) : State :=
  s.modSys fun y =>
    { y with gangs := y.gangs.map fun x =>
        if x.num != g.num && x.desc.spq &&& g.desc.spq != 0 && x.staged.any cs.contains then
          { x with staged := x.staged.filter fun c => !cs.contains c, head := x.head || head }
        else x }

/-- The cores that harts are placed on drop their unregistered copies: the Launch Unit's read of WAITC, and the launch, are
acquired for them at .sys (R12, R15, R128). -/
def State.acquireOn (s : State) (cs : List CoreId) : State :=
  s.modMem fun m => cs.foldl (fun (m : Mem) c => m.selfInvalidate c) m

/-- Admits a gang (R16 to R18, R202): its harts are placed, fresh or restored, behind the acquire of R15; the quarters of its
cores hold the image as it stands, whether or not they were staged (R22). -/
def State.admitGang (s : State) (g : Gang) (places : List (Nat × CoreId × Ctx)) : State :=
  let cs := (places.map fun p => p.2.1).eraseDups
  let s := cs.foldl (fun (s : State) c => s.fillQuarters g c) (s.acquireOn cs)
  let s := s.unstage g cs false
  let s := s.modSys fun y =>
    { y with gangs := y.gangs.map fun x =>
        if x.num == g.num then
          { x with
            st := .resident, passed := 0, stopped := [], staged := [], head := false
            places := x.places.filter (fun p => !places.any fun q => q.1 == p.1) ++ places }
        else if x.st == .waiting && x.ready && sharesCore x g then { x with passed := x.passed + 1 }
        else x }
  let s := places.foldl (fun (s : State) p =>
    match g.stopped.find? fun t => t.index == p.1 with
    | some t => resumeHart s g t p.2.1 p.2.2
    | none => { s with rest := s.rest ++ [freshHart s g p.1 p.2.1 p.2.2] }) s
  s.askAdmission.retryCmds [(0x0D, .cmdRerunGang)]

/-- GANG_ADMISSION (R16): the Launch Unit of a die admits the gang that is next, if some gang can be admitted. -/
def execGangAdmission (die : Fin 4) (s : State) : Out :=
  match s.nextAdmission die with
  | none => .next s
  | some (g, p) => .next (s.admitGang g p)

/-- The gang that a Launch Unit will next admit on a core: of its ready gangs whose core set holds the core, the blocking
ones first, the first in the order of admission (R16, R22). -/
def State.nextOn (s : State) (die : Fin 4) (c : CoreId) : Option Gang :=
  s.sys.gangs.foldl (fun (best : Option Gang) (g : Gang) =>
    if g.st != .waiting || !g.ready || g.home != die || !g.desc.coreSet.contains c then best
    else match best with
      | none => some g
      | some b =>
        if b.blocking && !g.blocking || b.blocking == g.blocking && b.admittedBefore g then best else some g) none

/-- GANG_STAGING (R22): the gang that is next admitted on a core is staged there, when the gangs resident on the core share
no quarter with it and its image can be read: its quarters are filled. -/
def execGangStaging (n : BitVec 8) (c : CoreId) (s : State) : Out :=
  match s.gangOf n with
  | none => notNow s
  | some g =>
    if !((s.nextOn g.home c).any fun x => x.num == n) || g.staged.contains c || s.sys.dieLost (dieOf c).val
        || (s.residents c).any (fun x => x.desc.spq &&& g.desc.spq != 0)
        || s.sys.gangs.any (fun x => x.staged.contains c) || s.imageWaits g then notNow s
    else .next ((s.fillQuarters g c).modGang n fun x => { x with staged := c :: x.staged })

/-! Budgets and forced stops. -/

/-- A pre-emption request is raised on every hart of a gang (R199); it ends a WAITM (R165). -/
def State.raisePreempt (s : State) (g : BitVec 8) : State :=
  s.finishWhere (fun h => h.gang == g && h.status != .absent) fun h => wakeHart { h with preempt := true }

/-- BUDGET_EXPIRY (R20): of a resident gang with a budget. -/
def execBudgetExpiry (n : BitVec 8) (s : State) : Out :=
  match s.gangOf n with
  | none => notNow s
  | some g => if g.st != .resident || g.desc.budget == 0 then notNow s else .next (s.raisePreempt n)

/-- FORCED_STOP (R200): a hart with a pending request that is not held in fault. While a link that carries its accesses, its
backing area or its record retrains, the stop has not come. -/
def execForcedStop (c : CoreId) (k : Ctx) (s : State) : Out :=
  match s.harts.find? (·.at c k) with
  | none => notNow s
  | some h =>
    if !h.preempt || h.status == .heldInFault || h.status == .frozen then notNow s
    else .next ((s.onHart c k fun s1 => (forceStop s1).getD s1).getD s)

/-- AGEING_PRIORITY_RAISE (R26): a hart that is ready gains one level for one grant. -/
def execAgeingPriorityRaise (c : CoreId) (k : Ctx) (s : State) : Out :=
  match s.harts.find? (·.at c k) with
  | none => notNow s
  | some h =>
    if !s.ready h then notNow s
    else
      let raise := fun h : Hart => if h.at c k then { h with aged := true } else h
      .next { s with h := raise s.h, rest := s.rest.map raise }

/-! The rerun (R24). -/

/-- A hart of an abandoned run stops: what has not retired is unwound, what has retired is performed, and what it holds
is freed, as for a discarded hart. -/
def abandonHart (s : State) : State :=
  let h := s.unwound
  let s := { s with h := h, held := s.held.filter fun d => !(d.snap.core == h.core && d.snap.ctx == h.ctx) }
  discardHart (s.release .sys)

/-- The places of a rerun: each hart's own, when it is free, else as R17 places a hart. -/
def rerunPlaces (s : State) (g : Gang) : List Nat → List Slot → Option (List (Nat × CoreId × Ctx))
  | [], _ => some []
  | i :: is, l =>
    let old := (g.places.find? fun p => p.1 == i).bind fun p =>
      (l.find? fun x => x.core == p.2.1 && x.ctxs.contains p.2.2).map fun _ => (p.2.1, p.2.2)
    let new := (bestSlot 0 l).bind fun b => b.ctxs.head?.map fun k => (b.core, k)
    match old <|> new with
    | none => none
    | some (c, k) =>
      (rerunPlaces s g is (updateWhere (fun x => x.core == c) (fun x => { x with ctxs := x.ctxs.filter (· != k) }) l)).map
        fun r => (i, c, k) :: r

/-- A rerun of a gang must wait: an access that it has retired cannot be performed, or its image cannot be read, before a link
has trained. -/
def State.rerunWaits (s : State) (g : Gang) : Bool :=
  s.imageWaits g || s.harts.any fun h => h.gang == g.num && s.stuckFor h

/-- Reruns a resident gang from ENTRY (R24). When contexts that its exited harts had freed are taken and no other is
free, the gang waits for admission at the head of its priority (DEDUCED, log entry 18). -/
def State.rerun (s : State) (g : Gang) : State :=
  let s := (s.harts.filter fun h => h.gang == g.num).foldl
    (fun (s : State) (h : Hart) => (s.onHart h.core h.ctx abandonHart).getD s) s
  let s := s.modSys fun y =>
    { y with bars := y.bars.filter (fun b => b.gang != g.num), msgs := y.msgs.filter fun m => m.gang != g.num }
  let n := g.desc.harts.toNat
  let slots := s.slotsFor g
  let own := g.places.filterMap fun p =>
    (slots.find? fun x => x.core == p.2.1 && x.ctxs.contains p.2.2).map fun _ => p.1
  let rest := (List.range n).filter fun i => !own.contains i
  match rerunPlaces s g ((own.filter (· < n)) ++ rest) slots with
  | none =>
    (s.modGang g.num fun x => { x with st := .waiting, ready := true, live := n, stopped := [], head := true }).askAdmission
  | some ps =>
    let cs := (ps.map fun p => p.2.1).eraseDups
    let s := cs.foldl (fun (s : State) c => s.fillQuarters g c) (s.acquireOn cs)
    let s := s.unstage g cs true
    let s := s.modGang g.num fun x => { x with live := n, stopped := [], places := ps }
    let s := ps.foldl (fun (s : State) p => { s with rest := s.rest ++ [freshHart s g p.1 p.2.1 p.2.2] }) s
    s.askAdmission

/-! The meaning of LAUNCH. -/

/-- LAUNCH (R295). -/
def execLaunch (x : Stack) (d a : SReg) (s : State) : Out := issue (.launch x d a) (launchBody d a) s

end Sys2Proof.Machine
end

