-- ==== Sys2Proof/Machine/Tellers.lean ====
section
/-! DEFINITION. Tellers and active messages (R138, R139, R280): the RV32IM core of a Teller, its handler memory, the
queues, AMSG, and the loading of handlers (R223). The meaning of the RV32IM instructions is that of the RISC-V manual (PRESUMED, log entry 15). -/

namespace Sys2Proof.Machine

/-! Handler memory. -/

/-- An offset of the payload area, which no image loads (R223). -/
def payloadArea (off : Nat) : Bool := 0x1F00 ≤ off && off < 0x1F40

/-- A byte of the image that a die's Tellers hold; 0 before any was loaded (DESIGN CHOICE, log entry 5). -/
def Sys.tellerImageByte (y : Sys) (d : Fin 4) (off : Nat) : Byte :=
  if payloadArea off then 0
  else match y.tellerImage.find? fun p => p.1 == d with
    | some p => p.2.getD off 0
    | none => 0

/-- The die of a slice. -/
def sliceDie (t : Fin 512) : Fin 4 := Fin.ofNat 4 (t.val / 128)

/-- A byte of handler memory: what was written, else the image. `mem` holds written bytes by 8192 * Teller + offset. -/
def Sys.tellerByte (y : Sys) (mem : Store) (t : Fin 512) (off : Nat) : Byte :=
  match mem.find? fun p => p.1 == 8192 * t.val + off with
  | some p => p.2
  | none => y.tellerImageByte (sliceDie t) off

/-- Bytes written to handler memory. -/
def tellerPut (t : Fin 512) : Nat → List Byte → Store → Store
  | _, [], m => m
  | off, b :: bs, m => tellerPut t (off + 1) bs (insertKey (8192 * t.val + off) b m)

/-- A word of handler memory becomes poisoned, or clean (R206); words stand by 8192 * Teller + offset. -/
def poisonWords (b : Bool) (k : Nat) (l : List Nat) : List Nat :=
  if b then (if l.contains k then l else k :: l) else l.filter (· != k)

/-- An image loaded into every Teller of a die (R223): written bytes are replaced, but in the payload area, and with them
their poison; poisoned words of the image, by their offsets, stay poisoned (R206). -/
def Sys.loadTellers (y : Sys) (d : Fin 4) (image : List Byte) (poison : List Nat := []) : Sys :=
  let keep := fun k : Nat => k / 8192 / 128 != d.val || payloadArea (k % 8192)
  let bad := (List.range 128).flatMap fun t => (poison.filter fun o => !payloadArea o).map (8192 * (128 * d.val + t) + ·)
  { y with
    tellerImage := (d, image) :: y.tellerImage.filter fun p => p.1 != d
    tellerMem := y.tellerMem.filter fun p => keep p.1
    tellerPoison := bad ++ y.tellerPoison.filter keep }

/-! The RV32IM core. -/

/-- A running handler: its registers, its pc, handler memory and its poisoned words, the bytes of the granule it has
written, which are held back until it ends, and whether it has read poison. -/
structure Rv where
  regs : Vector (BitVec 32) 32
  pc : BitVec 32
  mem : Store
  poison : List Nat
  writes : List (Nat × Byte)
  bad : Bool
  deriving DecidableEq, Repr

/-- How a handler comes to its end: ECALL with x10; a form that is no RV32IM instruction, at which it makes no further
progress; an access that it may not make; a violation of R214 at an address. -/
inductive RvEnd where
  | ended (r : Rv) | stuck (r : Rv) | denied (r : Rv) | violation (r : Rv) (addr : BitVec 32)
  deriving DecidableEq, Repr

/-- x[i]; x0 reads as 0. -/
def Rv.x (r : Rv) (i : Nat) : BitVec 32 := if i % 32 = 0 then 0 else r.regs[Fin.ofNat 32 i]

/-- x[i] := v. -/
def Rv.setX (r : Rv) (i : Nat) (v : BitVec 32) : Rv :=
  if i % 32 = 0 then r else { r with regs := r.regs.set (Fin.ofNat 32 i) v }

/-- The handler memory, or the granule, that a Teller address names (R139). -/
inductive RvPlace where | handler (off : Nat) | granule (off : Nat) | none
  deriving DecidableEq, Repr

/-- R139. -/
def rvPlace (a : BitVec 32) : RvPlace :=
  if a.toNat < 0x2000 then .handler a.toNat
  else if 0x80000000 ≤ a.toNat && a.toNat < 0x80000800 then .granule (a.toNat - 0x80000000)
  else .none

/-- One byte of a load: the byte and whether its word is poisoned; none for an address it may not access. `g` is the
granule's physical address. -/
def rvLoadByte (s : State) (t : Fin 512) (g : Nat) (r : Rv) (a : BitVec 32) : Option (Byte × Bool) :=
  match rvPlace a with
  | .handler off => some (s.sys.tellerByte r.mem t off, r.poison.contains (8192 * t.val + wordAt off))
  | .granule off =>
    match r.writes.find? fun p => p.1 == off with
    | some p => some (p.2, false)
    | none => some (s.mem.curByte (g + off), s.mem.curPoison (g + off))
  | .none => none

/-- `n` bytes of a load, little-endian. -/
def rvLoad (s : State) (t : Fin 512) (g : Nat) (r : Rv) : Nat → BitVec 32 → Option (Nat × Bool)
  | 0, _ => some (0, false)
  | n + 1, a =>
    match rvLoadByte s t g r a, rvLoad s t g r n (a + 1) with
    | some (b, p), some (v, q) => some (b.toNat + 256 * v, p || q)
    | some _, none => none
    | none, _ => none

/-- A store of `n` bytes. A write to the handler table is a violation (Table 10-13). Data that depends on poison poisons its
word of handler memory, and a whole clean word clears it (R206). -/
def rvStore (t : Fin 512) (r : Rv) : Nat → BitVec 32 → Nat → Except RvEnd Rv
  | 0, _, _ => .ok r
  | n + 1, a, v =>
    let b := BitVec.ofNat 8 v
    match rvPlace a with
    | .none => .error (.denied r)
    | .handler off =>
      if 0x1800 ≤ off && off < 0x1C00 then .error (.violation r a)
      else
        let p := if r.bad || off % 4 == 0 && 3 ≤ n then poisonWords r.bad (8192 * t.val + wordAt off) r.poison else r.poison
        rvStore t { r with mem := tellerPut t off [b] r.mem, poison := p } n (a + 1) (v / 256)
    | .granule off => rvStore t { r with writes := insertKey off b r.writes } n (a + 1) (v / 256)

/-- Immediates of RV32I. -/
def rvImmI (w : Nat) : BitVec 32 := (BitVec.ofNat 12 (w / 2 ^ 20)).signExtend 32
/-- S immediate. -/
def rvImmS (w : Nat) : BitVec 32 := (BitVec.ofNat 12 (bitsOf w 31 25 * 32 + bitsOf w 11 7)).signExtend 32
/-- B immediate. -/
def rvImmB (w : Nat) : BitVec 32 :=
  (BitVec.ofNat 13 (bitsOf w 31 31 * 4096 + bitsOf w 7 7 * 2048 + bitsOf w 30 25 * 32 + bitsOf w 11 8 * 2)).signExtend 32
/-- U immediate. -/
def rvImmU (w : Nat) : BitVec 32 := BitVec.ofNat 32 (w / 4096 * 4096)
/-- J immediate. -/
def rvImmJ (w : Nat) : BitVec 32 :=
  (BitVec.ofNat 21 (bitsOf w 31 31 * 2 ^ 20 + bitsOf w 19 12 * 4096 + bitsOf w 20 20 * 2048 + bitsOf w 30 21 * 2)).signExtend 32

/-- Register and immediate operations of RV32I; `alt` selects SUB and SRA. -/
def rvAlu (f3 : Nat) (alt : Bool) (a b : BitVec 32) : BitVec 32 :=
  match f3 with
  | 0 => if alt then a - b else a + b
  | 1 => a <<< (b.toNat % 32)
  | 2 => if a.slt b then 1 else 0
  | 3 => if a.ult b then 1 else 0
  | 4 => a ^^^ b
  | 5 => if alt then a.sshiftRight (b.toNat % 32) else a >>> (b.toNat % 32)
  | 6 => a ||| b
  | _ => a &&& b

/-- The operations of the M extension. -/
def rvMul (f3 : Nat) (a b : BitVec 32) : BitVec 32 :=
  let hi := fun z : Int => BitVec.ofInt 32 (z / 2 ^ 32)
  match f3 with
  | 0 => a * b
  | 1 => hi (a.toInt * b.toInt)
  | 2 => hi (a.toInt * b.toNat)
  | 3 => hi (a.toNat * b.toNat : Nat)
  | 4 => if b = 0 then BitVec.allOnes 32 else BitVec.ofInt 32 (a.toInt.tdiv b.toInt)
  | 5 => if b = 0 then BitVec.allOnes 32 else BitVec.ofNat 32 (a.toNat / b.toNat)
  | 6 => if b = 0 then a else BitVec.ofInt 32 (a.toInt.tmod b.toInt)
  | _ => if b = 0 then a else BitVec.ofNat 32 (a.toNat % b.toNat)

/-- A branch of RV32I is taken; none for an unassigned condition. -/
def rvTaken (f3 : Nat) (a b : BitVec 32) : Option Bool :=
  match f3 with
  | 0 => some (a == b)
  | 1 => some (a != b)
  | 4 => some (a.slt b)
  | 5 => some (!a.slt b)
  | 6 => some (a.ult b)
  | 7 => some (!a.ult b)
  | _ => none

/-- Executes one RV32IM instruction. PRESUMED, log entry 15. -/
def rvExec (s : State) (t : Fin 512) (g : Nat) (w : Nat) (r : Rv) : Except RvEnd Rv :=
  let rd := bitsOf w 11 7
  let f3 := bitsOf w 14 12
  let f7 := bitsOf w 31 25
  let a := r.x (bitsOf w 19 15)
  let b := r.x (bitsOf w 24 20)
  let next := fun r : Rv => Except.ok (ε := RvEnd) { r with pc := r.pc + 4 }
  let jump := fun (r : Rv) (p : BitVec 32) =>
    if p.toNat % 4 ≠ 0 then Except.error (RvEnd.stuck r) else .ok { r with pc := p }
  match w % 128 with
  | 0x37 => next (r.setX rd (rvImmU w))
  | 0x17 => next (r.setX rd (r.pc + rvImmU w))
  | 0x6F => jump (r.setX rd (r.pc + 4)) (r.pc + rvImmJ w)
  | 0x67 => if f3 = 0 then jump (r.setX rd (r.pc + 4)) ((a + rvImmI w) &&& ~~~1) else .error (.stuck r)
  | 0x63 =>
    match rvTaken f3 a b with
    | none => .error (.stuck r)
    | some true => jump r (r.pc + rvImmB w)
    | some false => next r
  | 0x03 =>
    if f3 = 3 ∨ f3 = 6 ∨ f3 = 7 then .error (.stuck r)
    else
      let n := 2 ^ (f3 % 4)
      match rvLoad s t g r n (a + rvImmI w) with
      | none => .error (.denied r)
      | some (v, p) =>
        let v := if f3 < 4 then BitVec.ofInt 32 (signedOf (8 * n) v) else BitVec.ofNat 32 v
        next { r.setX rd v with bad := r.bad || p }
  | 0x23 =>
    if 2 < f3 then .error (.stuck r)
    else (rvStore t r (2 ^ f3) (a + rvImmS w) b.toNat).bind next
  | 0x13 =>
    if f3 = 1 ∧ f7 ≠ 0 ∨ f3 = 5 ∧ f7 ≠ 0 ∧ f7 ≠ 0x20 then .error (.stuck r)
    else next (r.setX rd (rvAlu f3 (f3 == 5 && f7 == 0x20) a (rvImmI w)))
  | 0x33 =>
    if f7 = 1 then next (r.setX rd (rvMul f3 a b))
    else if f7 = 0 ∨ f7 = 0x20 ∧ (f3 = 0 ∨ f3 = 5) then next (r.setX rd (rvAlu f3 (f7 == 0x20) a b))
    else .error (.stuck r)
  | 0x0F => if f3 = 0 then next r else .error (.stuck r)
  | 0x73 => if w = 0x73 then .error (.ended r) else .error (.stuck r)
  | _ => .error (.stuck r)

/-- Fetches and executes one instruction. A fetch outside handler memory is a violation (Table 10-13). -/
def rvStep (s : State) (t : Fin 512) (g : Nat) (r : Rv) : Except RvEnd Rv :=
  if 0x1FFC < r.pc.toNat then .error (.violation r r.pc)
  else
    let w := bytesNat ((List.range 4).map fun i => s.sys.tellerByte r.mem t (r.pc.toNat + i))
    rvExec s t g w { r with bad := r.bad || r.poison.contains (8192 * t.val + wordAt r.pc.toNat) }

/-- Runs a handler for at most `n` instructions (R139). -/
def rvRun (s : State) (t : Fin 512) (g : Nat) : Nat → Rv → RvEnd
  | 0, r => .stuck r
  | n + 1, r =>
    match rvStep s t g r with
    | .ok r => rvRun s t g n r
    | .error e => e

/-! Messages. -/

/-- The master identifier of a Teller (R230). -/
def tellerMaster (t : Fin 512) : Word :=
  wd (3 * 2 ^ 56 + t.val / 128 * 2 ^ 48 + t.val % 128 / 2 * 2 ^ 40 + t.val % 2 * 2 ^ 32)

/-- The bytes that a handler wrote to its granule are applied (R139), word by word; those of a handler that has read
poison are poisoned (R206). -/
def State.applyWrites (s : State) (g : Nat) (poison : Bool) (ws : List (Nat × Byte)) : State :=
  let words := (ws.map fun p => wordAt p.1).eraseDups
  words.foldl (fun (s : State) w =>
    let bs := ws.filter fun p => wordAt p.1 == w
    let s1 := s.modMem fun m =>
      if bs.length = 4 then m.agentWrite false (g + w) (bs.map (·.2)) poison
      else bs.foldl (fun (m : Mem) p => m.agentWrite false (g + p.1) [p.2] poison) m
    s1.noteWrite (g + w) 4) s

/-- A Teller that violates its rights is frozen and reported (R214). -/
def State.freezeTeller (s : State) (m : TMsg) (addr : BitVec 32) : State :=
  (s.modSys fun y => { y with frozen := tellerMaster m.teller :: y.frozen }).report
    { kind := 4, detail := 3, cid := m.cid, inc := m.inc, addr := addr.setWidth 64, master := tellerMaster m.teller }

/-- The current incarnation of a far device's context, as a port holds it (R219); 0 at reset. -/
def Sys.portInc (y : Sys) (p : Fin 32) (c : BitVec 12) : BitVec 8 :=
  ((y.portCur.find? fun x => x.1 == p && x.2.1 == c).map fun x => x.2.2).getD 0

/-- A request of an agent is stale (R143, R151): its sender has joined again since, or its incarnation is no longer current,
where it belongs to a context. -/
def Sys.staleFrom (y : Sys) (a : Agent) (t : Tag) : Bool :=
  t.join != y.joinOf a || match a with
    | .cdie _ => t.inc != y.curInc t.cid
    | .hdie _ => t.inc != y.curInc t.cid
    | .peer p _ => t.inc != y.portInc p t.cid
    | .host => false

/-- A message whose incarnation is no longer current, or whose sender has joined again since (R143, R151): of a hart of this
module, or of the peer of a port. -/
def Sys.msgStale (y : Sys) (m : TMsg) : Bool :=
  match m.port with
  | none => m.inc != y.curInc m.cid
  | some (p, dev, join) => y.failed.contains (.peer p dev) || y.staleFrom (.peer p dev) ⟨m.cid, m.inc, join⟩

/-- The handler of a message before its first instruction (R139): x11 holds the offset of the target in its granule, and
every other register an unspecified value (DESIGN CHOICE, log entry 15). `bad` tells that the handler table's word is
poisoned. -/
def startHandler (s : State) (m : TMsg) (entry : Nat) (bad : Bool) : Rv :=
  { regs := (Vector.ofFn fun i : Fin 32 => BitVec.ofNat 32 (bytesNat (s.freeBytes (4 * i.val) 4))).set 11
      (BitVec.ofNat 32 (m.pa % 2048))
    pc := BitVec.ofNat 32 entry, mem := s.sys.tellerMem, poison := s.sys.tellerPoison, writes := [], bad := bad }

/-- The payload of a message stands in handler memory, whole and clean (R139). -/
def Sys.putPayload (y : Sys) (m : TMsg) : Sys :=
  let k := 8192 * m.teller.val
  { y with
    tellerMem := tellerPut m.teller 0x1F00 m.payload y.tellerMem
    tellerPoison := y.tellerPoison.filter fun w => w < k + 0x1F00 || k + 0x1F40 ≤ w }

/-- A Teller runs the handler of a message (R138, R139): the answer, and whether it is poisoned; none while what it writes
is held by an open multicast entry (R135). Table 7-5 gives the negative answers. -/
def runHandler (s : State) (m : TMsg) : Option (State × Int × Bool) :=
  let t := m.teller
  let g := m.pa / 2048 * 2048
  if s.sys.homeLost m.pa then some (s, -4, false)
  else if s.sys.frozen.contains (tellerMaster t) then some (s, -3, false)
  else
    let at_ := 0x1800 + 4 * m.h.toNat
    let entry := bytesNat ((List.range 4).map fun i => s.sys.tellerByte s.sys.tellerMem t (at_ + i))
    if entry = 0xFFFFFFFF then some (s, -2, false)
    else
      let s := (s.modMem fun x => (List.range 512).foldl (fun (x : Mem) i => x.takeBack (g + 4 * i)) x).modSys fun y =>
        y.putPayload m
      let keep := fun r : Rv => s.modSys fun y => { y with tellerMem := r.mem, tellerPoison := r.poison }
      match rvRun s t g 256 (startHandler s m entry (s.sys.tellerPoison.contains (8192 * t.val + at_))) with
      | .ended r =>
        if r.writes.any fun w => s.sys.mcHolds (g + w.1) then none
        else some ((keep r).applyWrites g r.bad r.writes, (r.x 10).toNat, r.bad)
      | .stuck r => some (keep r, -1, false)
      | .denied r => some (keep r, -3, false)
      | .violation r a => some ((keep r).freezeTeller m a, -3, false)

/-- The oldest message of a Teller. -/
def Sys.nextMsg (y : Sys) (t : Fin 512) : Option TMsg := y.tellerQ.find? fun m => m.teller == t

/-- A message leaves its queue. -/
def State.takeMsg (s : State) (m : TMsg) : State := (s.modSys fun y => { y with tellerQ := y.tellerQ.erase m }).goOn

/-- A message leaves its queue and runs; a stale one is dropped. -/
def State.runQueued (s : State) (m : TMsg) : Option State :=
  let s := s.takeMsg m
  if s.sys.msgStale m then some s else (runHandler s m).map (·.1)

/-- Runs messages one behind another. -/
def State.runMsgs (s : State) : List TMsg → Option State
  | [] => some s
  | m :: ms => (s.runQueued m).bind fun s => s.runMsgs ms

/-- Runs the messages that wait at a Teller, in arrival order. -/
def State.runQueue (s : State) (t : Fin 512) : Option State := s.runMsgs (s.sys.tellerQ.filter fun m => m.teller == t)

/-- The slice that homes a place (R125): none of a place that is not homed on this device. -/
def State.targetSlice (s : State) (p : Phys) : Option (Fin 512) :=
  (homeDie p.pa).map fun d => sliceFor s.sys.hmask[d] d p.skew.val p.pa

/-- AMSG (R138, R280): the target is translated as element 0 and the payload as element 1; then the message is sent, behind
those that wait at its Teller, and its answer is written. DEDUCED, log entry 37. -/
def amsgBody (h : Byte) (d a b : SReg) : State → Res :=
  withClean [a, b] fun s =>
    let ta := s.readN a
    let pl := s.readN b
    match probe s needNormalAtomic ta 1 1 with
    | .bad c => .trap s (wholeTrap c)
    | .wait => .wait s .retry
    | .poisoned w => consume s (.mem w) 0 0 none
    | .ok p =>
      match probe s needRead pl 64 64 with
      | .bad c => .trap s (wholeTrap c 1)
      | .wait => .wait s .retry
      | .poisoned w => consume s (.mem w) 0 1 none
      | .ok q =>
        let s1 := (s.interlock true p 1).interlock false q 64
        let bytes := s1.loadBytes pl q 64
        let s1 := s1.release .dev
        match s1.targetSlice p with
        | none => .done ((s1.acquire .dev).writeS d (wd (codeOf 64 (-4))))
        | some t =>
          match (s1.runQueue t).bind fun s => runHandler s ⟨t, none, h, bytes.1, p.pa, s.h.cid, s.h.inc⟩ with
          | none => .wait s .retry
          | some r => .done ((r.1.acquire .dev).writeSP d (wd (codeOf 64 r.2.1)) (r.2.2 || bytes.2.isSome))

/-- The handler number of an AMSG, in its extension half-word (R280). -/
def amsgHandler (x : Stack) : Byte := (x.ext.getD 0).setWidth 8

/-- AMSG (R280). -/
def execAmsg (x : Stack) (d a b : SReg) (s : State) : Out := issue (.amsg x d a b) (amsgBody (amsgHandler x) d a b) s

/-- TELLER_HANDLER_RUN (R139): the oldest message of a Teller runs. -/
def execTellerHandlerRun (t : Fin 512) (s : State) : Out :=
  match (s.sys.nextMsg t).bind s.runQueued with
  | none => notNow s
  | some s1 => .next s1

/-- HANDLER_ABORT (R139): the oldest message of a Teller runs, and its handler reaches its bound. -/
def execHandlerAbort (t : Fin 512) (s : State) : Out :=
  match s.sys.nextMsg t with
  | none => notNow s
  | some m =>
    match runHandler (s.takeMsg m) m with
    | none => notNow s
    | some r => if r.2.1 = -1 && !s.sys.msgStale m then .next r.1 else notNow s

end Sys2Proof.Machine
end

