-- ==== Sys2Proof/Machine/CoreSteps.lean ====
section
/-! DEFINITION. The module's own steps inside a core: lane-cluster power (R105), refills (R103), stripes (R57), retirement
(R194, R109), interrupts (R193) and protection violations (R214). -/

namespace Sys2Proof.Machine

/-! Lane-cluster power (R105). -/

/-- The power state of a lane cluster set. -/
def State.setPower (s : State) (c : CoreId) (l : Fin 8) (p : Power) : State :=
  s.modCore c fun k => { k with power := k.power.set l p }

/-- The hart that holds a lane cluster. -/
def State.holder (s : State) (c : CoreId) (l : Fin 8) : Option Hart := (s.onCore c).find? fun h => h.lcs.getLsbD l.val

/-- LC_ON_TO_RETENTION (R105). -/
def execLcOnToRetention (c : CoreId) (l : Fin 8) (s : State) : Out :=
  if (s.coreOf c).power[l] = .on then .next (s.setPower c l .retention) else notNow s

/-- A hart whose lane clusters may go Off: stalled in WAITM or BAR, or held in fault (Table 6-2). -/
def Hart.idles (h : Hart) : Bool := match h.status with
  | .stalled (.monitor _) | .stalled (.barrier _ _) | .heldInFault => true
  | .stalled (.token _) | .stalled (.lanes _) | .stalled (.matrix _ _) | .stalled (.reclaim _) | .stalled (.rcf _ _ _ _)
  | .stalled (.beats _) | .stalled .retry | .absent | .running | .frozen => false

/-- LC_RETENTION_TO_OFF (R105): the registers are written back first; a write-back that faults, or waits for a link, is not
made, and the lane cluster stays in Retention (R103). -/
def execLcRetentionToOff (c : CoreId) (l : Fin 8) (s : State) : Out :=
  if (s.coreOf c).power[l] != .retention then notNow s
  else match s.holder c l with
    | none => .next (s.setPower c l .off)
    | some h =>
      if !h.idles then notNow s
      else match writeBackLc s h l with
        | .error _ => notNow s
        | .ok (m, off) =>
          let s1 : State := { s with mem := m }
          .next ((s1.updHart h fun x => ({ x with offChip := x.offChip ++ off }, [])).setPower c l .off)

/-- The next instruction of a hart: that of its block, the one that it resumes, or the form at its pc; whether it is vector
or matrix work, which uses the lane clusters held (R105). -/
def State.usesLanes (s : State) (h : Hart) : Bool :=
  let work := fun i : Instr => i.adm.queue == 1 || i.adm.queue == 2 || i.adm.queue == 3
  h.vp.isSome || match h.resume with
    | some o => work o.instr
    | none => match State.formAt { s with h := h } h.pc.toNat with
      | .ok (i, _) => work i
      | .error _ => false

/-- LANE_CLUSTER_WAKE (R105): an instruction of its holder is about to use a lane cluster that is not On. -/
def execLaneClusterWake (c : CoreId) (l : Fin 8) (s : State) : Out :=
  if (s.coreOf c).power[l] = .on then notNow s
  else if (s.holder c l).any fun h => (h.status == .running || h.retries) && s.usesLanes h then .next (s.setPower c l .on)
  else notNow s

/-- REGISTER_REFILL (R103). A refill that faults is not made: the instruction that names the register meets the fault. -/
def execRegisterRefill (c : CoreId) (k : Ctx) (v : VReg) (s : State) : Out :=
  match s.harts.find? (·.at c k) with
  | none => notNow s
  | some h =>
    if !h.offChip.any (fun p => p.1 == v) then notNow s
    else .next ((s.onHart c k fun s1 => match refill s1 v with
      | .ok s2 => s2
      | .error _ => s1).getD s)

/-! Stripes. -/

/-- The meaning of an instruction that works stripe by stripe; none for every other. -/
def stripeExec : Instr → Option (State → Out)
  | .vadd x d a b m sc => some (execVadd x d a b m sc)
  | .vsub x d a b m sc => some (execVsub x d a b m sc)
  | .vmul x d a b m sc => some (execVmul x d a b m sc)
  | .vmulh x d a b m sc => some (execVmulh x d a b m sc)
  | .vdiv x d a b m sc => some (execVdiv x d a b m sc)
  | .vmin x d a b m sc => some (execVmin x d a b m sc)
  | .vmax x d a b m sc => some (execVmax x d a b m sc)
  | .vand x d a b m sc => some (execVand x d a b m sc)
  | .vor x d a b m sc => some (execVor x d a b m sc)
  | .vxor x d a b m sc => some (execVxor x d a b m sc)
  | .vshl x d a b m sc => some (execVshl x d a b m sc)
  | .vshr x d a b m sc => some (execVshr x d a b m sc)
  | .vsra x d a b m sc => some (execVsra x d a b m sc)
  | .vadc x d a b c sc => some (execVadc x d a b c sc)
  | .vsbc x d a b c sc => some (execVsbc x d a b c sc)
  | .vfma x d a b m sc => some (execVfma x d a b m sc)
  | .vfms x d a b m sc => some (execVfms x d a b m sc)
  | .vfnma x d a b m sc => some (execVfnma x d a b m sc)
  | .vfnms x d a b m sc => some (execVfnms x d a b m sc)
  | .vsel x d a b c sc => some (execVsel x d a b c sc)
  | .vcmp x c d a b m sc => some (execVcmp x c d a b m sc)
  | .vbsadd x d a b m => some (execVbsadd x d a b m)
  | .vbsmul x d a b m => some (execVbsmul x d a b m)
  | .vabs x d a m => some (execVabs x d a m)
  | .vneg x d a m => some (execVneg x d a m)
  | .vsqrt x d a m => some (execVsqrt x d a m)
  | .vrcp x d a m => some (execVrcp x d a m)
  | .vrsq x d a m => some (execVrsq x d a m)
  | .vexp2 x d a m => some (execVexp2 x d a m)
  | .vlog2 x d a m => some (execVlog2 x d a m)
  | .vclass x d a m => some (execVclass x d a m)
  | .vnot x d a m => some (execVnot x d a m)
  | .vclz x d a m => some (execVclz x d a m)
  | .vpopc x d a m => some (execVpopc x d a m)
  | .vmov x d a m => some (execVmov x d a m)
  | .vmovScalar x d a m => some (execVmovScalar x d a m)
  | .vscl x k a f m r => some (execVscl x k a f m r)
  | .vcvt x d a f m r => some (execVcvt x d a f m r)
  | .vperm x d a im m => some (execVperm x d a im m)
  | .vresh x d a f => some (execVresh x d a f)
  | .vcomp x d a m => some (execVcomp x d a m)
  | .vargmax x d a m => some (execVargmax x d a m)
  | .vdecb x d a z y w => some (execVdecb x d a z y w)
  | .vidx x d sc t => some (execVidx x d sc t)
  | .add .. | .sub .. | .and .. | .or .. | .xor .. | .shl .. | .shr .. | .sra .. | .mul .. | .mulh .. | .mulhn ..
  | .div .. | .divn .. | .rem .. | .remn .. | .min .. | .max .. | .minn .. | .maxn .. | .slt .. | .sltn ..
  | .clz .. | .popc .. | .shli .. | .shri .. | .srai .. | .addi .. | .andi .. | .ori .. | .xori .. | .slti ..
  | .lih .. | .adpc .. | .hint .. | .nop .. | .ld .. | .st .. | .jalr .. | .jal .. | .beq .. | .bne .. | .blt ..
  | .bge .. | .bltn .. | .bgen .. | .caddi .. | .cli .. | .cmov .. | .cadd .. | .csub .. | .cbeqz .. | .cbnez ..
  | .cj .. | .cldw .. | .cldd .. | .cstw .. | .cstd .. | .vfetch .. | .vstop .. | .vnext .. | .vpbr .. | .vrsum ..
  | .vrmax .. | .vrmin .. | .vrand .. | .vror .. | .mand .. | .mor .. | .mxor .. | .mandn .. | .mnot .. | .mshl ..
  | .mpopc .. | .mfirst .. | .mset .. | .vbsj .. | .vext .. | .vins .. | .vbsl .. | .vld .. | .vldStrided ..
  | .vldx .. | .vldm .. | .vldb .. | .vldbS2c .. | .vpref .. | .vprefStrided .. | .vprefIndexed .. | .vkld ..
  | .vst .. | .vstStrided .. | .vstx .. | .vstb .. | .vstbC2s .. | .vred .. | .vredIndexed .. | .vkst .. | .vamo ..
  | .vamoSwap .. | .qdrop .. | .tkclr .. | .msetm .. | .mzero .. | .mrel .. | .mop .. | .mrow .. | .mmovv ..
  | .mlda .. | .mstaStrided .. | .mstaIndexed .. | .cecopy .. | .cefill .. | .cestat .. | .launch .. | .farm ..
  | .bar .. | .xsend .. | .xrecv .. | .amsg .. | .setvl .. | .setvlb .. | .setsh .. | .csrr .. | .csrw ..
  | .csrs .. | .csrc .. | .amo .. | .cas .. | .ldaq .. | .strl .. | .claim .. | .waitm .. | .sysc .. | .tret ..
  | .exit .. | .fence .. | .vsave .. | .vrest .. | .incb .. | .rcf .. | .slwb .. | .hmsw .. | .gangAdmission ..
  | .waitcRead .. | .doneAdd .. | .gangStaging .. | .budgetExpiry .. | .forcedStop .. | .ageingPriorityRaise ..
  | .lcOnToRetention .. | .lcRetentionToOff .. | .laneClusterWake .. | .registerRefill .. | .stripeIssue ..
  | .instructionRetirement .. | .interruptTaken .. | .protectionViolation .. | .pageSortingRound ..
  | .translationWalk .. | .tlbInvalidationAck .. | .ptStoreCompletion .. | .wordRegistration .. | .sliceRead ..
  | .readForward .. | .missTableAdmission .. | .responseArrival .. | .writeBack .. | .homeWriteApply ..
  | .sharerInvalidation .. | .homeAtomic .. | .claimService .. | .farmWrite .. | .vredElementAdd ..
  | .progressWordAdd .. | .multicastHeader .. | .multicastBeatSend .. | .tellerHandlerRun .. | .handlerAbort ..
  | .copyEngineTransfer .. | .monitorWake .. | .xrecvMessageArrival .. | .incarnationChange .. | .sweepReport ..
  | .dieLossReport .. | .linkRetrain .. | .linkRetrainTimeout .. | .linkTrained .. | .agentRejoin ..
  | .weakarRequestAdmission .. | .hostSnoop .. | .arrayErrorDetected .. | .junctionOverTemperature ..
  | .powerCapExceeded .. | .powcapWrite .. | .selfidWrite .. | .portEnableWrite .. | .deviceRegisterWrite ..
  | .hostLinkRequest .. | .missFillAnswer .. | .powerDrawBelowCap .. | .cmdLaunch | .cmdIncb | .cmdRcf | .cmdSlwb
  | .cmdHmsw | .cmdDeclareFailed | .cmdResumeHart | .cmdRetireHart | .cmdPreEmptGang | .cmdReleaseMaster
  | .cmdContextTable | .cmdInterruptHart | .cmdRerunGang | .cmdFarm | .cmdLoadTellers | .cmdAttest | .cmdUnknown
  | .commandCompletion | .boot | .mextWrite | .measurementDone | .hostLinkTrained => none

/-- STRIPE_ISSUE (R33, R57): the vector instruction at a hart's pc, or the one that it resumes, issues its next stripe and
commits it; after its last stripe it completes. A poisoned word issues no stripe: the hart consumes it when it fetches it
(R206). -/
def execStripeIssue (c : CoreId) (k : Ctx) (s : State) : Out :=
  match s.focus c k with
  | none => notNow s
  | some s1 =>
    let i : Option Instr := match s1.h.resume with
      | some o => some o.instr
      | none => match s1.formAt s1.h.pc.toNat with
        | .ok (i, len) => if (fetchPoison s1 ((len + 1) / 2) s1.h.pc.toNat).isSome then none else some i
        | .error _ => none
    match i.bind stripeExec with
    | none => notNow s
    | some ex =>
      if s1.h.status != .running || s1.h.vp.isSome then notNow s
      else match ex (s1.modH fun h => { h with single := true }) with
        | .next t => .next (t.modH fun h => { h with single := false })
        | .fault f => .fault f
        | .refused r => .refused r

/-! Retirement and interrupts. -/

/-- INSTRUCTION_RETIREMENT (R194, R109): the oldest form of a hart that waits for a place in its FIFO retires once there is
one. A form without an effect outside the hart pushes at once; another makes its effect in the next step. -/
def execInstructionRetirement (c : CoreId) (k : Ctx) (s : State) : Out :=
  match s.harts.find? (·.at c k) with
  | none => .next s
  | some h =>
    match (s.heldOf h).head? with
    | none => .next s
    | some d =>
      if d.due || !d.fifo.all h.hasPlace then .next s
      else if d.external then
        .next { s with held := updateWhere (fun x => x == d) (fun x => { x with due := true }) s.held }
      else
        let s1 : State := { s with held := s.held.erase d }
        let s2 := match d.fifo with
          | none => s1
          | some f => s1.updHart h fun x => (x.pushTok f, [])
        .next (if (s2.heldOf h).isEmpty then s2 else s2.post (.instructionRetirement c k))

/-- A hart that is at work, or waits, and so may take an interrupt. -/
def Hart.interruptible (h : Hart) : Bool := match h.status with
  | .running | .stalled (.token _) | .stalled (.lanes _) | .stalled (.matrix _ _) | .stalled (.rcf _ _ _ _)
  | .stalled (.barrier _ _) | .stalled (.monitor _) | .stalled .retry => true
  | .stalled (.reclaim _) | .stalled (.beats _) | .absent | .heldInFault | .frozen => false

/-- INTERRUPT_TAKEN (R193). DEDUCED, log entry 25. -/
def execInterruptTaken (c : CoreId) (k : Ctx) (s : State) : Out :=
  match s.harts.find? (·.at c k) with
  | none => notNow s
  | some h =>
    if h.interruptible && s.takable h then .next ((s.onHart c k takeInterrupt).getD s) else notNow s

/-! Protection violations (R214, R230). -/

/-- The fields of a master identifier (R230): kind, die, tile or port, core or slice, hart context. -/
structure Master where
  kind : Nat
  die : Nat
  tile : Nat
  unit : Nat
  ctx : Nat
  deriving DecidableEq, Repr

/-- R230. -/
def Master.ofWord (w : Word) : Master :=
  let n := w.toNat
  ⟨bitsOf n 63 56, bitsOf n 55 48, bitsOf n 47 40, bitsOf n 39 32, bitsOf n 31 24⟩

/-- The core of a hart's or an engine's identifier; the Teller of a Teller's. -/
def Master.number (m : Master) : Fin 512 := Fin.ofNat 512 (128 * m.die + 2 * m.tile + m.unit)

/-- The identifier names a master of Table 10-13, and its other fields are 0. -/
def Master.valid (m : Master) (w : Word) : Bool :=
  w.toNat % 2 ^ 24 == 0 &&
    match m.kind with
    | 1 => m.die < 4 && m.tile < 64 && m.unit < 2 && m.ctx < 8
    | 2 => m.die < 4 && m.tile < 64 && m.unit < 2 && m.ctx < 8
    | 3 => m.die < 4 && m.tile < 64 && m.unit < 2 && m.ctx == 0
    | 4 => m.die == 0 && m.tile < 32 && m.unit == 0 && m.ctx == 0
    | 5 => m.die == 0 && m.tile == 0 && m.unit == 0 && m.ctx == 0
    | _ => false

/-- A master is frozen (R214). -/
def State.freeze (s : State) (w : Word) : State :=
  s.modSys fun y => { y with frozen := if y.frozen.contains w then y.frozen else w :: y.frozen }

/-- A hart, or the engine queue of a hart, is frozen, and the hart is held in fault (Table 10-13). The element of an
engine that the checkpoint found is dropped. DEDUCED, log entry 36. -/
def freezeHart (w : Word) (detail : Nat) (addr : Word) (s : State) : State :=
  let hit := fun e : XElem => (e.writes ++ e.reads).any fun p => p.1.pa ≤ addr.toNat && addr.toNat < p.1.pa + p.2
  let s := s.freeze w
  let s := if detail = 2 then
      s.modH fun h => { h with xfers := h.xfers.map fun x =>
        { x with elems := x.elems.map fun e => if hit e then .skip else e } }
    else s
  let s := s.modH fun h =>
    { h.trapRegs { code := cProtection, detail := detail, val := addr } h.pc false with status := .heldInFault }
  s.report { kind := 4, detail := detail, cid := s.h.cid, inc := s.h.inc, addr := addr, master := w
             gang := gangWord s.h.gang s.h.index }

/-- PROTECTION_VIOLATION (R214): a checkpoint has found an access beyond its master's rights, at an address; it drops the
access, freezes the master and reports. -/
def execProtectionViolation (master addr : Word) (s : State) : Out :=
  let m := Master.ofWord master
  if !m.valid master then notNow s
  else if m.kind ≤ 2 then
    match s.onHart m.number (Fin.ofNat 8 m.ctx) (freezeHart master m.kind addr) with
    | none => notNow s
    | some s1 => .next s1
  else if m.kind = 3 then
    match s.sys.nextMsg m.number with
    | some t => .next ((s.freeze master).report
        { kind := 4, detail := 3, cid := t.cid, inc := t.inc, addr := addr, master := master })
    | none => .next ((s.freeze master).report { kind := 4, detail := 3, addr := addr, master := master })
  else .next ((s.freeze master).report { kind := 4, detail := m.kind, addr := addr, master := master })

end Sys2Proof.Machine
end

