-- ==== Sys2Proof/Machine/MemSteps.lean ====
section
/-! DEFINITION. The module's own steps in the memory system: translation (R175, R180, R185, R186), registrations and reads
at the slices (R126, R127, R121), homes (R130, R161, R38, R37, R82, R115), multicast entries (R135), engines (R117), monitors
(R165) and the lane exchange (R355). An instruction's own accesses are performed within its step; these steps are the moves
that the memory system makes besides. A step that cannot occur in a state leaves it as it stands (DESIGN CHOICE, log entry 40). -/

namespace Sys2Proof.Machine

/-! Translation. -/

/-- The translation that an agent takes from a walk. -/
def walkEntry (a : TAgent) (cid : BitVec 12) (va : Nat) : Walk → List Transl
  | .leaf _ e size ps => [⟨a, cid, va / size, e, size, ps⟩]
  | .fault => []
  | .poisoned _ => []
  | .wait => []

/-- An agent holds a translation, in place of an older one of the same page. -/
def Mem.holdTransl (m : Mem) (t : Transl) : Mem :=
  { m with transl := t :: m.transl.filter fun x => !(x.agent == t.agent && x.cid == t.cid && x.vpn == t.vpn && x.size == t.size) }

/-- A page-walk cache holds a pointer, in place of an older one of the same table. -/
def Mem.holdPtr (m : Mem) (p : WalkPtr) : Mem :=
  { m with ptrs := p :: m.ptrs.filter fun x =>
      !(x.core == p.core && x.cid == p.cid && x.level == p.level && x.upper == p.upper) }

/-- TRANSLATION_WALK (R175, R185): the TLB of a core and the translation cache of its tile's copy engine take the leaf that a
walk ends in, if it ends in one, and the core's page-walk cache the pointers on the way. -/
def execTranslationWalk (c : CoreId) (cid : BitVec 12) (va : Word) (s : State) : Out :=
  let a := va.toNat
  if !canonical a then notNow s
  else
    let leaves := walkEntry (.tlb c) cid a (walkBy s c cid a) ++ walkEntry (.engine (tileOf c)) cid a (walk s cid a)
    let tables := if (s.mem.pointer c cid a).isSome then [] else walkTables s cid a
    .next (s.modMem fun m =>
      tables.foldl (fun (m : Mem) t => m.holdPtr ⟨c, cid, t.1, upperBits a t.1, t.2.1, t.2.2⟩) (leaves.foldl Mem.holdTransl m))

/-- PAGE_SORTING_ROUND (R180): the page-sorting unit of a core translates up to 64 distinct pages for a hart, each once,
from the core's TLB or by a walk. -/
def execPageSortingRound (c : CoreId) (k : Ctx) (pages : List Nat) (s : State) : Out :=
  match s.harts.find? (·.at c k) with
  | none => notNow s
  | some h =>
    if 64 < pages.length || pages.eraseDups.length != pages.length || pages.any (fun p => !canonical (4096 * p)) then notNow s
    else
      let round := pages.flatMap fun p => walkEntry (.sorter c) h.cid (4096 * p) (translate s c h.cid (4096 * p))
      .next (s.modMem fun m => { m with transl := round ++ m.transl.filter fun t => t.agent != .sorter c })

/-- The agents of a core that hold translations: its TLB, its page-sorting unit, and the engine of its tile. -/
def agentsOf (c : CoreId) : List TAgent := [.tlb c, .sorter c, .engine (tileOf c)]

/-- TLB_INVALIDATION_ACK (R185, R167): the agents of a core drop what they derived from a piece, once the accesses that they
translated are performed at .sys. While one of these cannot be performed, no acknowledgement is made. -/
def execTlbInvalidationAck (c : CoreId) (piece : Nat) (s : State) : Out :=
  let near := fun h : Hart => tileOf h.core == tileOf c
  if piece % 64 ≠ 0 || s.harts.any (fun h => near h && s.stuckFor h) then notNow s
  else
    let cs := (List.finRange 512).filter fun x => tileOf x == tileOf c
    .next (((s.drainWhere near).modMem fun m => cs.foldl (fun (m : Mem) c => m.flush c) m).modMem fun m =>
      { m with
        transl := m.transl.filter fun t => !((agentsOf c).contains t.agent && t.pieces.contains piece)
        ptrs := m.ptrs.filter fun p => !(p.core == c && p.pieces.contains piece) })

/-- PT_STORE_COMPLETION (R186, R167, R185): the writes of a hart to tables complete, once every access translated with what they
replaced is performed at .sys. -/
def execPtStoreCompletion (c : CoreId) (k : Ctx) (s : State) : Out :=
  if (s.harts.any fun h => h.at c k && s.owesAcks h) && !s.harts.any s.stuckOf then .next s.completeAll else notNow s

/-! Registrations and reads at the slices. -/

/-- The enabled bytes of a word, with their offsets. -/
def enabledBytes (val : BitVec 32) (be : BitVec 4) : List (Nat × Byte) :=
  (List.range 4).filterMap fun i => if be.getLsbD i then some (i, byteOf val i) else none

/-- WORD_REGISTRATION (R126): a store of a hart registers the enabled bytes of a word of normal memory, at the slice that its
leaf's SKEW chooses (R125, R183). -/
def execWordRegistration (c : CoreId) (k : Ctx) (at_ : SkewAddr) (val : BitVec 32) (be : BitVec 4) (s : State) : Out :=
  let pa := at_.pa
  match s.harts.find? (·.at c k) with
  | none => notNow s
  | some h =>
    let at_ := fun i : Nat => Phys.mk (pa + i) false false false at_.skew
    if pa % 4 ≠ 0 || be == 0 || h.status == .frozen || !s.sys.holds pa || homeAgent pa == some .device || s.sys.linkWaits pa
        || s.sys.mcHolds pa then notNow s
    else if be = 15 then .next (s.writePhys h (at_ 0) (natToBytes 4 val.toNat) false)
    else .next ((enabledBytes val be).foldl (fun (s : State) p => s.writePhys h (at_ p.1) [p.2] false) s)

/-- The tag of a hart's requests (R133): its context and incarnation, and the join number of its die. -/
def State.tagOf (s : State) (h : Hart) : Tag := ⟨h.cid, h.inc, s.sys.joinOf (.cdie (dieOf h.core))⟩

/-- A miss entry for a piece at a slice, with the read that waits for it. -/
def Mem.miss (m : Mem) (sl : Fin 512) (r : ReadReq) : Mem :=
  let k := (sl, pieceOf r.pa)
  { m with
    misses := if m.misses.contains k then m.misses else m.misses ++ [k]
    missReads := m.missReads ++ [(sl, r)] }

/-- A write-back of a word of an address's granule stands in the buffer of a slice (R121). -/
def State.leavingAt (s : State) (sl : Fin 512) (pa : Nat) : Bool :=
  s.mem.regd.any fun r => r.leaving && r.pa / 2048 == pa / 2048 && s.sliceOf r.core r.skew r.pa == sl

/-- A read can take its place in the miss table of a slice (R121): its piece has an entry, or one of 64 is free; and no
write-back of its granule stands in the buffer. -/
def State.missRoom (s : State) (sl : Fin 512) (pa : Nat) : Bool :=
  !s.leavingAt sl pa
    && (s.mem.misses.contains (sl, pieceOf pa) || s.mem.misses.countP (fun x => x.1 == sl) < 64)

/-- SLICE_READ (R127, R121): a read of a hart that missed in its core's L1 is forwarded to the registrant, answered from the
slice's copy, given a miss entry, or made to wait: for an entry, behind the reads that wait for one already, or for the
write-back of its granule. -/
def execSliceRead (r : Requester) (at_ : SkewAddr) (s : State) : Out :=
  match s.harts.find? (·.at r.core r.ctx) with
  | none => notNow s
  | some h =>
    let c := r.core
    let pa := at_.pa
    let r : ReadReq := ⟨c, wordAt pa, s.tagOf h⟩
    if h.status == .frozen || !s.sys.holds pa || homeAgent pa == some .device || (s.mem.reg pa).any (·.core == c)
        || (s.mem.copy c pa).isSome then notNow s
    else if (s.mem.reg pa).isSome then .next (s.modMem fun m => { m with forwards := m.forwards ++ [r] })
    else if s.sys.homeLost pa || s.mem.sliceHas c pa then .next (s.answerRead r)
    else
      let sl := s.sliceOf c at_.skew pa
      let older := s.mem.waiting.any fun w => w.1 == sl && !s.leavingAt sl w.2.pa
      if s.missRoom sl pa && (!older || s.mem.misses.contains (sl, pieceOf pa)) then .next (s.modMem fun m => m.miss sl r)
      else .next (s.modMem fun m => { m with waiting := m.waiting ++ [(sl, r)] })

/-- READ_FORWARD (R127): the registrant `c` of a word answers the oldest read forwarded to it; when the registration has
ended since, the slice answers. -/
def execReadForward (c : CoreId) (pa : Nat) (s : State) : Out :=
  match s.mem.forwards.find? fun f => f.pa == wordAt pa with
  | none => notNow s
  | some f =>
    if (s.mem.reg pa).all (·.core == c) then
      .next ((s.modMem fun m => { m with forwards := m.forwards.erase f }).answerRead f)
    else notNow s

/-- MISS_TABLE_ADMISSION (R121): the oldest read that waits at a slice for an entry takes a freed one; a stale read is
dropped. One that waits for the write-back of its granule holds no other back. -/
def execMissTableAdmission (sl : Fin 512) (s : State) : Out :=
  match s.mem.waiting.find? fun w => w.1 == sl && !s.leavingAt sl w.2.pa with
  | none => notNow s
  | some w =>
    if !s.missRoom sl w.2.pa then notNow s
    else
      .next (s.modMem fun m =>
        let m : Mem := { m with waiting := m.waiting.erase w }
        if s.sys.staleAt w.2.core w.2.tag then m else m.miss sl w.2)

/-- MISS_FILL_ANSWER (R127): the answer to a miss arrives; the slice fills its copy, and the reads that wait for it are
answered. -/
def execMissFillAnswer (sl : Fin 512) (piece : Nat) (s : State) : Out :=
  if !s.mem.misses.contains (sl, piece) || s.sys.linkWaits piece then notNow s else .next (s.fillMiss sl piece)

/-- RESPONSE_ARRIVAL (R127, R320): read data arrives at a core and stands in its L1 unregistered, unless it is stale (R143),
the core has registered the word since, or the word has changed since it was answered, in which case a hart of the core may
have read the newer value (R159, DESIGN CHOICE, log entry 13); or an answer of a home arrives. -/
def execResponseArrival (c : CoreId) (pa : Nat) (s : State) : Out :=
  match s.mem.answers.find? fun x => x.copy.core == c && x.copy.pa == wordAt pa with
  | some x =>
    let keep := !s.sys.staleAt c x.tag && !(s.mem.reg pa).any (·.core == c)
      && x.copy.val == s.mem.curWord pa && x.copy.poison == s.mem.curPoison pa
    .next (s.modMem fun m =>
      { m with
        answers := m.answers.erase x
        l1 := if keep then x.copy :: m.l1.filter fun y => !(y.core == c && y.pa == x.copy.pa) else m.l1 })
  | none =>
    match s.mem.homeAnswers.find? fun a => a.1 == c with
    | some a => .next (s.modMem fun m => { m with homeAnswers := m.homeAnswers.erase a })
    | none => notNow s

/-- WRITE_BACK (R127, R121): a core evicts a word that it has registered, and the monitors of its harts on the piece are lost
(R165): the write-back enters the 16-entry buffer of its slice, when there is room; and from there it is performed at the
home, and the registration ends. -/
def execWriteBack (c : CoreId) (pa : Nat) (s : State) : Out :=
  match s.mem.reg pa with
  | none => notNow s
  | some r =>
    if r.core != c then notNow s
    else if !r.leaving then
      let sl := s.sliceOf c r.skew r.pa
      if 16 ≤ s.mem.regd.countP fun x => x.leaving && s.sliceOf x.core x.skew x.pa == sl then notNow s
      else .next ((s.modMem fun m =>
        { m with regd := updateWhere (fun x => x.pa == r.pa) (fun x => { x with leaving := true }) m.regd }).finishWhere
          (fun h => h.core == c && h.monitors r.pa 4) wakeHart)
    else if s.sys.linkWaits pa || s.sys.mcHolds pa then notNow s
    else if s.sys.homeLost pa then .next (s.modMem fun m => m.unregister pa)
    else .next (s.modMem fun m => m.takeBack pa)

/-! Homes. -/

/-- A write of an agent applies at its home; of a control core, whose stores to page tables complete as PT stores do, once
every access translated before is performed (R186). None while it waits. -/
def State.applyAt (s : State) (writer : Agent) (pa : Nat) (bytes : List Byte) : Option State :=
  if s.sys.mcHoldsN pa bytes.length then none
  else match writer with
    | .hdie _ => if s.harts.any s.stuckOf then none else some (s.completeAll.agentWrite pa bytes (some writer))
    | .cdie _ => some (s.agentWrite pa bytes (some writer))
    | .peer _ _ => some (s.agentWrite pa bytes (some writer))
    | .host => some (s.agentWrite pa bytes (some writer))

/-- HOME_WRITE_APPLY (R130, R131): a write packet of one piece applies at its home whole. The writer's own copy stays
valid. A packet that is stale (R143, R151), or of an agent declared failed, is discarded whole (R149). -/
def execHomeWriteApply (w : Sender) (pa : Nat) (bytes : List Byte) (s : State) : Out :=
  if bytes.isEmpty || pieceOf (pa + bytes.length - 1) != pieceOf pa || mainEnd ≤ pa then notNow s
  else if s.sys.failed.contains w.agent || s.sys.homeLost pa || s.sys.staleFrom w.agent w.tag then .next s
  else match s.applyAt w.agent pa bytes with
    | none => notNow s
    | some t => .next t

/-- SHARER_INVALIDATION (R130): a sharer drops its copy of a piece, and the monitors of a die on it are lost (R165). -/
def execSharerInvalidation (a : Agent) (piece : Nat) (s : State) : Out :=
  .next ((s.modMem fun m => { m with sharers := m.sharers.filter fun x => x != (a, piece) }).finishWhere
    (fun h => a == .cdie (dieOf h.core) && h.monitors (pieceOf piece) 64) wakeHart)

/-- `n` bytes at a home as a number, and whether a word of them is poisoned: unspecified in a backing area (R104). -/
def State.homeNat (s : State) (pa n : Nat) : Nat × Bool :=
  if s.backed pa n then (bytesNat (s.freeBytes pa n), false) else (s.mem.curNat pa n, anyWord s.mem.curPoison pa n)

/-- A home serves a read-modify-write of `n` bytes for an agent (R161): registrations are taken back, and the new value is
written. -/
def State.serveHome (s : State) (writer : Agent) (pa n : Nat) (f : Nat → Option Nat) : State :=
  let s := s.modMem fun m => m.takeBackN pa n
  let old := s.homeNat pa n
  match f old.1 with
  | none => s
  | some v =>
    s.intoBacking pa (natToBytes n v) fun s bytes =>
      (s.modMem fun m => m.homeApply (some writer) false pa bytes old.2).noteWrite pa n

/-- The same for a hart: its core drops its copies of the piece, and the old value is on its way to it. -/
def State.serveHart (s : State) (h : Hart) (pa n : Nat) (f : Nat → Option Nat) : State :=
  let old := s.homeNat pa n
  let t := (s.modMem fun m => m.dropPiece h.core pa).serveHome (.cdie (dieOf h.core)) pa n f
  t.modMem fun m => { m with homeAnswers := m.homeAnswers ++ [(h.core, wd old.1, s.tagOf h)] }

/-- A hart whose request a home of this device can serve at an address that is a multiple of `n`. -/
def State.homeFor (s : State) (c : CoreId) (k : Ctx) (pa n : Nat) : Option Hart :=
  if pa % n ≠ 0 || mainEnd ≤ pa || s.sys.mcHolds pa || s.sys.homeLost pa then none
  else (s.harts.find? (·.at c k)).bind fun h => if h.status == .frozen then none else some h

/-- HOME_ATOMIC (R161): an AMO or VAMO element, or a CAS, is applied at its home. -/
def execHomeAtomic (r : Requester) (op : HomeOp) (z : Sz) (pa : Nat) (b : Word) (s : State) : Out :=
  let n := szBytes z
  match s.homeFor r.core r.ctx pa n with
  | none => notNow s
  | some h => .next (s.serveHart h pa n fun old => match op with
    | .amo o => some (amoNew o (8 * n) old (b.toNat % 2 ^ (8 * n)))
    | .cas e => if old = e.toNat % 2 ^ (8 * n) then some (b.toNat % 2 ^ (8 * n)) else none)

/-- CLAIM_SERVICE (R38): the home of a counter block serves the claim of a hart, for at most its VLMAX. -/
def execClaimService (c : CoreId) (k : Ctx) (pa : Nat) (req : Word) (s : State) : Out :=
  match s.homeFor c k pa 16 with
  | none => notNow s
  | some h =>
    if req == 0 || h.lcs == 0 then notNow s
    else .next (s.serveHart h pa 8 fun n =>
      some (n + claimGrant (vlMax h.lcn h.nreg (width h.fmt)) req.toNat n (s.homeNat (pa + 8) 8).1))

/-- The 16 bytes of a farm's counter block (R37): NEXT = 0 and TOTAL. -/
def farmBytes (total : Word) : List Byte := natToBytes 8 0 ++ natToBytes 8 total.toNat

/-- FARM_WRITE (R37, R161): the home applies the 16 bytes of a hart's FARM, behind its release at .dev, and the core of the hart
drops its copies of the piece. -/
def execFarmWrite (at_ : HartAddr) (total : Word) (s : State) : Out :=
  let c := at_.hart.core
  match s.homeFor c at_.hart.ctx at_.pa 16 with
  | none => notNow s
  | some h =>
    if s.stuckFor h then notNow s
    else
      let s1 := (s.onHart c at_.hart.ctx fun s1 => s1.release .dev).getD s
      .next ((s1.agentWrite at_.pa (farmBytes total) (some (.cdie (dieOf c)))).modMem fun m => m.dropPiece c at_.pa)

/-! Engine transfers. -/

/-- The first transfer of a hart of some kind, with what comes before and behind it. -/
def firstXfer (p : XKind → Bool) : List Xfer → Option (List Xfer × Xfer × List Xfer)
  | [] => none
  | x :: xs =>
    if p x.kind then some ([], x, xs) else (firstXfer p xs).map fun r => (x :: r.1, r.2.1, r.2.2)

/-- A progress add can be made: what is older has been performed, and, for a release at .dev or wider, so have the writes of
the hart to tables (R115, R158, R167, R185); and nothing holds up the write. -/
def State.mayAdd (s : State) (before : List Xfer) (h : Hart) (n : Notify) : Bool :=
  before.isEmpty && !s.sys.noteWaits n && (scopeRank n.scope < 4 || !s.owesAcks { h with xfers := [] })

/-- COPY_ENGINE_TRANSFER (R117, R119): the oldest copy, fill or drain of a hart is performed. Its progress adds follow when
they may; until then the transfer owes them. -/
def execCopyEngineTransfer (c : CoreId) (k : Ctx) (s : State) : Out :=
  match s.harts.find? (·.at c k) with
  | none => notNow s
  | some h =>
    match firstXfer (· != .vred) h.xfers with
    | none => notNow s
    | some (before, x, behind) =>
      if x.elems.isEmpty || x.kind.engine && s.engineFrozen h || x.elems.any s.sys.elemWaits then notNow s
      else .next ((s.onHart c k fun s1 =>
        let s2 := x.elems.foldl (performElem s1.h) s1
        let note := x.notify.map fun n => { n with pending := n.pending + x.elems.length }
        let owed := match note with
          | none => []
          | some n => if s2.mayAdd before s2.h n then [] else [{ x with elems := [], notify := note }]
        let s3 := match note with
          | none => s2
          | some n => if s2.mayAdd before s2.h n then notifyXfer s2.h s2 n n.pending else s2
        s3.modH fun h => { h with xfers := before ++ owed ++ behind }).getD s)

/-- VRED_ELEMENT_ADD (R82): the next element of the oldest VRED of a hart is added at its home. -/
def execVredElementAdd (c : CoreId) (k : Ctx) (s : State) : Out :=
  match (s.harts.find? (·.at c k)).bind fun h => firstXfer (· == .vred) h.xfers with
  | none => notNow s
  | some (before, x, behind) =>
    match x.elems with
    | [] => .next ((s.onHart c k fun s1 => s1.modH fun h => { h with xfers := before ++ behind }).getD s)
    | e :: es =>
      if s.sys.elemWaits e then notNow s
      else .next ((s.onHart c k fun s1 =>
        (performElem s1.h s1 e).modH fun h =>
          { h with xfers := before ++ (if es.isEmpty then [] else [{ x with elems := es }]) ++ behind }).getD s)

/-- PROGRESS_WORD_ADD (R115): the count that the oldest transfer of a hart owes is added to its progress word. -/
def execProgressWordAdd (c : CoreId) (k : Ctx) (s : State) : Out :=
  match s.harts.find? (·.at c k) with
  | none => notNow s
  | some h =>
    match h.xfers with
    | [] => notNow s
    | x :: xs =>
      match x.notify with
      | none => notNow s
      | some n =>
        if n.pending = 0 || !s.mayAdd [] h n then notNow s
        else .next ((s.onHart c k fun s1 =>
          (notifyXfer s1.h s1 n n.pending).modH fun h =>
            { h with xfers := (if x.elems.isEmpty then [] else [{ x with notify := some { n with pending := 0 } }]) ++ xs }).getD s)

/-! Multicast entries (R135). -/

/-- The beats of an entry: 128 bytes each. -/
def McEntry.beats (e : McEntry) : Nat := (e.bytes.length + 127) / 128

/-- Changes an open entry. -/
def State.modMc (s : State) (p : McPart) (f : McEntry → McEntry) : State :=
  s.modSys fun y => { y with mc := updateWhere (fun e => e.part == p) f y.mc }

/-- A hart that waits for beats, and what it waits for. -/
def Hart.awaitsBeats (h : Hart) : Option Mcast := match h.status with
  | .stalled (.beats v) => some v
  | .stalled (.token _) | .stalled (.lanes _) | .stalled (.matrix _ _) | .stalled (.reclaim _) | .stalled (.rcf _ _ _ _)
  | .stalled (.barrier _ _) | .stalled (.monitor _) | .stalled .retry | .absent | .running | .heldInFault | .frozen => none

/-- A header reaches its slice: it opens an entry, or joins the open entry of an equal key at its next beat. Behind the last
beat, all that it missed is replayed. -/
def State.openPart (c : CoreId) (k : Ctx) (s : State) (p : McPart) : State :=
  match s.sys.mc.find? fun e => e.part == p with
  | none => s.modSys fun y =>
    { y with mc := y.mc ++ [{ part := p, bytes := s.gather p.key, next := 0, attached := [(c, k, 0)], replay := [] }] }
  | some e =>
    let late := if e.next = e.beats then (List.range e.beats).map fun b => (c, k, b) else []
    s.modMc p fun e => { e with attached := e.attached ++ [(c, k, e.next)], replay := e.replay ++ late }

/-- MULTICAST_HEADER (R135): the headers of the VLDM that a hart executes next go to their slices, and the hart waits for
the beats. -/
def execMulticastHeader (c : CoreId) (k : Ctx) (s : State) : Out :=
  match s.focus c k with
  | none => notNow s
  | some s1 =>
    if !(s1.h.status == .running || s1.h.retries) || s1.h.vp.isSome || s1.h.resume.isSome then notNow s
    else match s1.formAt s1.h.pc.toNat with
      | .ok (.vldm x d a b m, _) =>
        issue (.vldm x d a b m) (vldmBody x d a b m fun v s =>
          if v.parts.isEmpty then .done (deliverMcast v s) else .wait (v.parts.foldl (State.openPart c k) s) (.beats v))
          (s1.modH fun h => { h with status := .running })
      | .ok _ => notNow s
      | .error _ => notNow s

/-- A beat of an entry arrives at a hart. -/
def beatAt (e : McEntry) (b : Nat) (h : Hart) : Hart :=
  match h.awaitsBeats with
  | none => h
  | some v => { h with status := .stalled (.beats { v with got := v.got ++ (e.bytes.drop (128 * b)).take 128 }) }

/-- A hart owes nothing more to a part: its VLDM completes once no part is left (R135). -/
def partDone (p : McPart) (s : State) : State :=
  match s.h.awaitsBeats with
  | none => s
  | some v =>
    let v := { v with parts := v.parts.erase p }
    if v.parts.isEmpty then
      let s := deliverMcast v s
      let r := finishHart s.h v.x 2
      { s with h := r.1, held := s.held ++ r.2 }
    else s.stall (.beats v)

/-- The harts attached to an entry that have received all of it are done with it; and an entry that has sent and replayed
every beat closes, so that what it held back goes on. -/
def State.closeMc (s : State) (p : McPart) : State :=
  match s.sys.mc.find? fun e => e.part == p with
  | none => s
  | some e =>
    if e.next < e.beats then s
    else
      let full := e.attached.filter fun a => !e.replay.any fun r => r.1 == a.1 && r.2.1 == a.2.1
      let s := full.foldl (fun (s : State) a => (s.onHart a.1 a.2.1 (partDone p)).getD s) s
      if !e.replay.isEmpty then s.modMc p fun e => { e with attached := e.attached.filter fun a => !full.contains a }
      else (s.modSys fun y => { y with mc := y.mc.filter fun x => x.part != p }).goOn

/-- MULTICAST_BEAT_SEND (R135): an entry sends its next beat to every attached hart; after its last beat, it replays the
beats that late joiners missed, and closes behind them. -/
def execMulticastBeatSend (part : McPart) (s : State) : Out :=
  match s.sys.mc.find? fun e => e.part == part with
  | none => notNow s
  | some e =>
    let send := fun (s : State) (c : CoreId) (k : Ctx) (b : Nat) => (s.onHart c k fun s => s.modH (beatAt e b)).getD s
    if e.next < e.beats then
      let missed := if e.next + 1 = e.beats then
          e.attached.flatMap fun a => (List.range a.2.2).map fun b => (a.1, a.2.1, b)
        else []
      let s := e.attached.foldl (fun (s : State) a => send s a.1 a.2.1 e.next) s
      .next ((s.modMc part fun e => { e with next := e.next + 1, replay := e.replay ++ missed }).closeMc part)
    else
      match e.replay with
      | [] => .next (s.closeMc part)
      | r :: rs => .next (((send s r.1 r.2.1 r.2.2).modMc part fun e => { e with replay := rs }).closeMc part)

/-! Monitors and the lane exchange. -/

/-- MONITOR_WAKE (R165): a hart that sleeps in WAITM wakes. -/
def execMonitorWake (c : CoreId) (k : Ctx) (s : State) : Out :=
  match s.harts.find? (·.at c k) with
  | none => notNow s
  | some h => match h.status with
    | .stalled (.monitor _) => .next (s.updHart h wakeHart)
    | .stalled (.token _) | .stalled (.lanes _) | .stalled (.matrix _ _) | .stalled (.reclaim _) | .stalled (.beats _)
    | .stalled (.rcf _ _ _ _) | .stalled (.barrier _ _) | .stalled .retry | .absent | .running | .heldInFault | .frozen =>
      notNow s

/-- XRECV_MESSAGE_ARRIVAL (R355): a hart that waits in XRECV receives the message that has arrived. -/
def execXrecvMessageArrival (c : CoreId) (k : Ctx) (s : State) : Out :=
  match s.focus c k with
  | none => notNow s
  | some s1 =>
    if !s1.h.retries then notNow s
    else match s1.formAt s1.h.pc.toNat with
      | .ok (.xrecv x d a, _) =>
        if s1.sys.msgs.any fun m => m.gang == s1.h.gang && m.receiver == s1.h.index && m.sender == s1.readN a then
          execXrecv x d a { s1 with h := { s1.h with status := .running } }
        else notNow s
      | .ok _ => notNow s
      | .error _ => notNow s

end Sys2Proof.Machine
end

