-- ==== Sys2Proof/Machine/Links.lean ====
section
/-! DEFINITION. The module's own steps at its edge: incarnation changes and sweeps (R142, R145), failures and rejoins (R149
to R151), links (R215, R220), the requests of peers and of the host (R216, R219), array errors (R205, R152), power and
temperature (R229). -/

namespace Sys2Proof.Machine

/-! Device registers that the module itself sets. -/

/-- A device register set; one that holds 0 is not listed. -/
def Sys.setDev (y : Sys) (off : Nat) (v : Word) : Sys :=
  { y with devr := if v = 0 ∧ off ≠ 0x11000 then removeKey off y.devr else insertKey off v y.devr }

/-- The control register of a Weakar Link port (Table 11-13). -/
def portReg (p : Fin 32) : Nat := 0x20300 + 0x1000 * p.val

/-- UP and DOWN of a port (Table 11-13). -/
def Sys.setPort (y : Sys) (p : Fin 32) (up down : Bool) : Sys :=
  y.setDev (portReg p) (wd ((y.dev (portReg p)).toNat % 2 + (if up then 2 else 0) + (if down then 4 else 0)))

/-- A port is trained and carries traffic: not while it retrains (R231). -/
def Sys.portUp (y : Sys) (p : Fin 32) : Bool := (y.dev (portReg p)).getLsbD 1

/-- The device number of the peer of a port. -/
def Sys.peerOf (y : Sys) (p : Fin 32) : Option (BitVec 16) := (y.peers.find? fun x => x.1 == p).map (·.2)

/-! Incarnations. -/

/-- INCARNATION_CHANGE (R142, R143): a port receives the new cur(c) of its peer, which is the old one plus 1; messages of
the stale incarnation are dropped. DEDUCED, log entry 36. -/
def execIncarnationChange (p : Fin 32) (cid : BitVec 12) (s : State) : Out :=
  if !s.sys.portUp p then notNow s
  else
    let old := s.sys.portInc p cid
    .next (s.modSys fun y =>
      { y with
        portCur := (p, cid, old + 1) :: y.portCur.filter fun x => !(x.1 == p && x.2.1 == cid)
        tellerQ := y.tellerQ.filter fun t => !(t.port.any (·.1 == p) && t.cid == cid && t.inc == old) })

/-- SWEEP_REPORT (R145, R143): a checkpoint drops what it holds of a swept incarnation, and reports when it holds nothing of
it any more, unless it stands behind a link that retrains. -/
def execSweepReport (ck : Checkpoint) (cid : BitVec 12) (inc : BitVec 8) (s : State) : Out :=
  if !s.sys.sweeps.any fun w => w.cid == cid && w.inc == inc && w.pending.contains ck then notNow s
  else
    let s := s.absorb ck cid inc
    .next (if s.sys.canReport ck && !s.holdsInc ck cid inc then s.reportSwept ck cid inc false else s)

/-! Failures. -/

/-- An agent as command 0x06 names it (R223, Table 8-6). -/
def agentCode : Agent → Nat
  | .cdie d => 0x10000 * d.val
  | .hdie d => 0x1000000 + 0x10000 * d.val
  | .peer p dev => 0x2000000 + 0x10000 * p.val + dev.toNat
  | .host => 0x3000000

/-- The home of an address is an agent. -/
def homedAt (a : Agent) (pa : Nat) : Bool :=
  match a, homeAgent pa with
  | .cdie d, some (.die k) => d == k
  | .host, some .host => true
  | .peer _ dev, some (.peer n) => dev.toNat == n
  | .cdie _, _ => false
  | .hdie _, _ => false
  | .peer _ _, _ => false
  | .host, _ => false

/-- The checkpoints that a failure takes away, and whether they count as swept because a link was declared down. -/
def lostCheckpoints (a : Agent) : List Checkpoint → List Checkpoint :=
  List.filter fun k => match a, k with
    | .cdie d, .core c => dieOf c == d
    | .cdie d, .router t => t.val / 64 == d.val
    | .cdie d, .slice t => t.val / 128 == d.val
    | .cdie d, .teller t => t.val / 128 == d.val
    | .cdie d, .copyEngine t => t.val / 64 == d.val
    | .cdie d, .memCtrl k => k == d
    | .cdie d, .launchUnit k => k == d
    | .peer p _, .peerPort q => p == q
    | .host, .hostPort => true
    | .cdie _, .port _ => false
    | .cdie _, .peerPort _ => false
    | .cdie _, .hostPort => false
    | .peer _ _, _ => false
    | .host, _ => false
    | .hdie _, _ => false

/-- What waited on a link, or on a failure, is tried again: reads of WAITC, adds to DONE, sweep reports, reports, commands,
admissions. -/
def State.relink (s : State) : State :=
  let gs := s.sys.gangs.filterMap fun g =>
    if g.st == .ended then some (.doneAdd g.num)
    else if g.st == .waiting && !g.ready then some (.waitcRead g.num)
    else none
  let rs := s.sys.sweeps.flatMap fun w => (w.pending.filter s.sys.canReport).map fun k => .sweepReport k w.cid w.inc
  { s with inbox := s.inbox ++ (gs ++ rs).filter fun i => !s.inbox.contains i }.goOn.askAdmission

/-- The link to an agent is no longer up: its port shows it, and it retrains no more. -/
def State.linkDown (s : State) (a : Agent) : State :=
  match a with
  | .peer p dev =>
    if s.sys.peerOf p != some dev then s
    else s.modSys fun y =>
      { (y.setPort p false true) with
        retraining := y.retraining.filter (· != .port p), down := .port p :: y.down.filter (· != .port p) }
  | .host => s.modSys fun y =>
      { y with retraining := y.retraining.filter (· != .host), down := .host :: y.down.filter (· != .host) }
  | .cdie _ => s
  | .hdie _ => s

/-- Multicast entries close before their time (R150): the harts attached to them have what was delivered, and no more. -/
def State.abortMc (s : State) (p : McEntry → Bool) : State :=
  let gone := s.sys.mc.filter p
  let s := s.modSys fun y => { y with mc := y.mc.filter fun e => !p e }
  gone.foldl (fun (s : State) e =>
    e.attached.foldl (fun (s : State) a => (s.onHart a.1 a.2.1 (partDone e.part)).getD s) s) s

/-- The harts of a failed die are gone, and with them the words registered in its cores (R150; DEDUCED, log entry 19). -/
def State.loseDie (s : State) (d : Fin 4) : State :=
  let on := fun h : Hart => dieOf h.core == d
  let s := (s.harts.filter on).foldl
    (fun (s : State) (h : Hart) => (s.onHart h.core h.ctx discardHart).getD s) s
  (s.modMem fun m =>
    { m with
      regd := m.regd.filter fun r => dieOf r.core != d
      l1 := m.l1.filter fun x => dieOf x.core != d
      answers := m.answers.filter fun x => dieOf x.copy.core != d
      homeAnswers := m.homeAnswers.filter fun x => dieOf x.1 != d
      forwards := m.forwards.filter fun x => dieOf x.core != d
      misses := m.misses.filter fun x => sliceDie x.1 != d
      missReads := m.missReads.filter fun x => sliceDie x.1 != d
      waiting := m.waiting.filter fun x => sliceDie x.1 != d
      transl := m.transl.filter fun t => match t.agent with
        | .tlb c => dieOf c != d
        | .sorter c => dieOf c != d
        | .engine k => k / 64 != d.val
      ptrs := m.ptrs.filter fun p => dieOf p.core != d }).modSys fun y =>
    { y with
      tellerQ := y.tellerQ.filter fun t => sliceDie t.teller != d
      mc := y.mc.filter fun e => sliceDie e.part.slice != d }

/-- An agent is declared failed (R149, R150): every home drops it, proxies drop their copies of what it homes, multicast
entries of what it homes close, sweeps no longer wait for it, and a report of KIND 6 is sent. A second declaration changes
nothing. -/
def State.declareFailed (s : State) (a : Agent) : State :=
  if s.sys.failed.contains a then s
  else
    let s := s.modSys fun y => { y with failed := a :: y.failed }
    let s := s.abortMc fun e => homedAt a e.part.key.base
    let s := s.modMem fun m =>
      { m with sharers := m.sharers.filter fun x => x.1 != a && !homedAt a x.2
               sliceCopies := m.sliceCopies.filter fun x => !homedAt a x }
    let s := match a with
      | .cdie d => s.loseDie d
      | .hdie _ => s
      | .peer _ _ => s.linkDown a
      | .host => s.linkDown a
    let viaDown := match a with
      | .peer _ _ => true
      | .host => true
      | .cdie _ => false
      | .hdie _ => false
    let s := s.sys.sweeps.foldl (fun (s : State) w =>
      (lostCheckpoints a w.pending).foldl (fun (s : State) k => s.reportSwept k w.cid w.inc viaDown) s) s
    (s.report { kind := 6, master := wd (agentCode a) }).relink

/-- The agent is part of this module: a die, or a link that has trained. -/
def Sys.hasAgent (y : Sys) (a : Agent) : Bool :=
  match a with
  | .cdie _ => true
  | .hdie _ => true
  | .peer p dev => y.windows.contains (p, dev)
  | .host => y.hostUp

/-- DIE_LOSS_REPORT (R221): a die-to-die interface reports a die lost. -/
def execDieLossReport (a : Agent) (s : State) : Out :=
  match a with
  | .cdie _ => .next (s.declareFailed a)
  | .hdie _ => .next (s.declareFailed a)
  | .peer _ _ => notNow s
  | .host => notNow s

/-- JUNCTION_OVER_TEMPERATURE (R229): a die reaches 105 degrees and is declared failed. -/
def execJunctionOverTemperature (a : Agent) (s : State) : Out :=
  match a with
  | .cdie _ => .next (s.declareFailed a)
  | .hdie _ => .next (s.declareFailed a)
  | .peer _ _ => notNow s
  | .host => notNow s

/-- A link is up and carries traffic. -/
def Sys.linkUp (y : Sys) (l : Link) : Bool :=
  match l with
  | .port p => y.portUp p
  | .host => y.hostUp && !y.retraining.contains l && !y.down.contains l

/-- What is left of an agent's time before its failure (R151): copies that its caches hold, words registered in its cores,
and traffic that carries its join number. -/
def State.leftOf (s : State) (a : Agent) : Bool :=
  (s.mem.sharers.any fun x => x.1 == a) ||
    match a with
    | .cdie d =>
      (s.mem.regd.any fun r => dieOf r.core == d) || (s.mem.l1.any fun x => dieOf x.core == d)
      || (s.mem.answers.any fun x => dieOf x.copy.core == d) || (s.mem.homeAnswers.any fun x => dieOf x.1 == d)
      || (s.mem.forwards.any fun r => dieOf r.core == d) || (s.mem.missReads.any fun r => dieOf r.2.core == d)
      || (s.mem.waiting.any fun r => dieOf r.2.core == d) || s.harts.any fun h => dieOf h.core == d
    | .hdie _ => false
    | .peer p dev => s.sys.tellerQ.any fun m => m.port.any fun q => q.1 == p && q.2.1 == dev
    | .host => false

/-- AGENT_REJOIN (R151): a recovered agent that has dropped what it held rejoins, under its join number plus 1, once no
traffic of its old one remains. -/
def execAgentRejoin (a : Agent) (s : State) : Out :=
  let up := match a with
    | .cdie _ => true
    | .hdie _ => true
    | .peer p dev => s.sys.linkUp (.port p) && s.sys.peers.contains (p, dev)
    | .host => s.sys.linkUp .host
  if !s.sys.failed.contains a || !up || s.leftOf a then notNow s
  else .next ((s.modSys fun y =>
    { y with failed := y.failed.filter (· != a)
             joins := (a, y.joinOf a + 1) :: y.joins.filter fun x => x.1 != a }).relink)

/-! Links. -/

/-- LINK_RETRAIN (R220): a link that is up retrains; its traffic waits, and its port shows UP = 0 (R231). -/
def execLinkRetrain (l : Link) (s : State) : Out :=
  if !s.sys.linkUp l then notNow s
  else .next (s.modSys fun y =>
    let y := match l with
      | .port p => y.setPort p false false
      | .host => y
    { y with retraining := l :: y.retraining })

/-- The agent that a link leads to. -/
def Sys.farAgent (y : Sys) (l : Link) : Option Agent :=
  match l with
  | .port p => (y.peerOf p).map fun dev => .peer p dev
  | .host => some .host

/-- LINK_RETRAIN_TIMEOUT (R220): retraining has not completed in time; the link is declared down. -/
def execLinkRetrainTimeout (l : Link) (s : State) : Out :=
  match s.sys.farAgent l with
  | none => notNow s
  | some a => if s.sys.retraining.contains l then .next (s.declareFailed a) else notNow s

/-- LINK_TRAINED (R215, R220, R231): an enabled port trains, or retrains, with a peer, whose window is held from then on. That
DOWN returns to 0 when a link that was declared down trains again is the model's choice: DESIGN CHOICE, log entry 20. -/
def execLinkTrained (p : Fin 32) (dev : BitVec 16) (s : State) : Out :=
  let y := s.sys
  let again := y.retraining.contains (.port p)
  let other := again && y.peerOf p != some dev
  if !y.selfSet || !(y.dev (portReg p)).getLsbD 0 || 2040 ≤ dev.toNat || y.portUp p || other then notNow s
  else .next ((s.modSys fun y =>
    { (y.setPort p true false) with
      peers := (p, dev) :: y.peers.filter (fun x => x.1 != p)
      windows := if y.windows.contains (p, dev) then y.windows else (p, dev) :: y.windows
      retraining := y.retraining.filter (· != .port p), down := y.down.filter (· != .port p) }).relink)

/-- HOST_LINK_TRAINED (R215): the host link trains, or retrains, and host memory is held. -/
def execHostLinkTrained (s : State) : Out :=
  if s.sys.linkUp .host then notNow s
  else .next ((s.modSys fun y =>
    { y with hostUp := true, retraining := y.retraining.filter (· != .host), down := y.down.filter (· != .host) }).relink)

/-! Requests from outside. -/

/-- The 64-byte pieces that `n` bytes touch. -/
def piecesOf (pa n : Nat) : List Nat := (List.range ((pa % 64 + n + 63) / 64)).map fun i => pieceOf pa + 64 * i

/-- An agent becomes a sharer of the pieces that it reads (R130). -/
def Mem.share (m : Mem) (a : Agent) (pa n : Nat) : Mem :=
  (piecesOf pa n).foldl (fun (m : Mem) p =>
    if m.sharers.contains (a, p) then m else { m with sharers := (a, p) :: m.sharers }) m

/-- The master identifier of a peer's port (R230). -/
def peerMaster (p : Fin 32) : Word := wd (4 * 2 ^ 56 + p.val * 2 ^ 40)

/-- Bytes that a request of a peer touches. -/
def peerLength : PeerKind → Nat
  | .read n => n
  | .write bs => bs.length
  | .atomic _ z _ => szBytes z
  | .cas z _ _ => szBytes z
  | .reduce f _ _ _ => fmtBytes f
  | .amsg _ _ => 1

/-- The address range and the context of a request are admitted by a port (R219, Table 11-13). -/
def Sys.admits (y : Sys) (p : Fin 32) (r : PeerReq) : Bool :=
  let base := 0x20000 + 0x1000 * p.val
  let page := r.addr / 4096
  let last := (r.addr + peerLength r.kind - 1) / 4096
  (List.range 16).any (fun i =>
    let lo := (y.dev (base + 16 * i)).toNat
    let hi := (y.dev (base + 16 * i + 8)).toNat
    lo % 2 == 1 && bitsOf lo 51 12 ≤ page && last ≤ bitsOf hi 51 12)
  && (y.dev (base + 0x100 + 8 * (r.cid.toNat / 64))).getLsbD (r.cid.toNat % 64)

/-- What an admitted request does at its home; none while it waits. A message goes to the slice that the linear function
chooses, as a request carries no leaf (DESIGN CHOICE, log entry 49). -/
def State.servePeer (s : State) (p : Fin 32) (r : PeerReq) : Option State :=
  let a := Agent.peer p r.dev
  let held := s.sys.mcHoldsN r.addr (peerLength r.kind)
  let rmw := fun (n : Nat) (f : Nat → Option Nat) => if held then none else some (s.serveHome a r.addr n f)
  if s.sys.homeLost r.addr then some s
  else match r.kind with
    | .read n => some (s.modMem fun m => m.share a r.addr n)
    | .write bs => s.applyAt a r.addr bs
    | .atomic op z b =>
      let n := szBytes z
      rmw n fun old => some (amoNew op (8 * n) old (b.toNat % 2 ^ (8 * n)))
    | .cas z e b =>
      let n := szBytes z
      rmw n fun old => if old = e.toNat % 2 ^ (8 * n) then some (b.toNat % 2 ^ (8 * n)) else none
    | .reduce f src k code => rmw (fmtBytes f) fun old => some (addAtHome f src k old code)
    | .amsg h payload =>
      match homeDie r.addr with
      | none => some s
      | some d =>
        let t := sliceFor s.sys.hmask[d] d 0 r.addr
        if 16 ≤ s.sys.tellerQ.countP fun m => m.teller == t then none
        else some (s.modSys fun y =>
          { y with tellerQ := y.tellerQ ++ [⟨t, some (p, r.dev, r.join), h, payload, r.addr, r.cid, r.inc⟩] })

/-- The formats of a VRED add (R344, R82): those of a word and of what is added to it. -/
def reduceFmts (f src : Fmt) : Bool := if f == .fp32 then true else f == src && (vamoFmt f || isFloat f)

/-- The shape of a request that a peer can form: within its window, in one piece where it writes, naturally aligned where it
is atomic, with a payload of 64 bytes. -/
def peerReqOk (r : PeerReq) : Bool :=
  r.addr + peerLength r.kind ≤ mainEnd &&
    match r.kind with
    | .read n => 0 < n && n ≤ 4096
    | .write bs => !bs.isEmpty && pieceOf (r.addr + bs.length - 1) == pieceOf r.addr
    | .atomic _ z _ => r.addr % szBytes z == 0
    | .cas z _ _ => r.addr % szBytes z == 0
    | .reduce f src k code => reduceFmts f src && r.addr % fmtBytes f == 0 && k < 256 && code < 2 ^ width src
    | .amsg _ payload => payload.length == 64

/-- WEAKAR_REQUEST_ADMISSION (R219): a port admits or refuses a request of its peer. A stale one is dropped (R143, R151);
any other refusal is a violation of DETAIL 4, after which the port takes nothing from that peer (R214). -/
def execWeakarRequestAdmission (p : Fin 32) (r : PeerReq) (s : State) : Out :=
  let a := Agent.peer p r.dev
  if !s.sys.linkUp (.port p) || s.sys.peerOf p != some r.dev || !peerReqOk r then notNow s
  else if s.sys.failed.contains a || s.sys.frozen.contains (peerMaster p) || s.sys.staleFrom a ⟨r.cid, r.inc, r.join⟩ then
    .next s
  else if s.sys.admits p r then
    match s.servePeer p r with
    | none => notNow s
    | some t => .next t
  else .next ((s.freeze (peerMaster p)).report
    { kind := 4, detail := 4, cid := r.cid, inc := r.inc, addr := wd r.addr, master := peerMaster p })

/-- HOST_SNOOP (R216): a snoop of the host invalidates the proxies' copies of a piece of host memory, and the monitors on it
are lost (R165). -/
def execHostSnoop (piece : Nat) (s : State) : Out :=
  if piece % 64 ≠ 0 || homeAgent piece != some .host || !s.sys.linkUp .host then notNow s
  else .next ((s.modMem fun m => m.invalidate (some .host) false piece 64).finishWhere (·.monitors piece 64) wakeHart)

/-- The master identifier of the host (R230). -/
def hostMaster : Word := wd (5 * 2 ^ 56)

/-- HOST_LINK_REQUEST (R216): a request of the host reaches main memory or a device register, or is refused as a violation
of DETAIL 5, after which the host's requests are answered as unsupported (R214). One with an earlier join number is dropped
(R151), and while the module stays in reset only device registers answer, and no report is sent (R225). -/
def execHostLinkRequest (r : HostReq) (s : State) : Out :=
  let n := match r.write with
    | some bs => bs.length
    | none => r.len
  if !s.sys.linkUp .host || n = 0 || s.sys.failed.contains .host then notNow s
  else if s.sys.frozen.contains hostMaster || r.join != s.sys.joinOf .host then .next s
  else if r.addr + n ≤ mainEnd then
    if s.sys.homeLost r.addr || !s.sys.booted then .next s
    else match r.write with
      | none => .next (s.modMem fun m => m.share .host r.addr n)
      | some bs => match s.applyAt .host r.addr bs with
        | none => notNow s
        | some t => .next t
  else if devBase ≤ r.addr && r.addr + n ≤ 0x20000000000 then
    match r.write with
    | none => .next s
    | some bs =>
      if n = 8 && devAssigned (r.addr - devBase) then
        .next (s.post (.deviceRegisterWrite (r.addr - devBase) (wd (bytesNat bs))))
      else .next s
  else
    let t := s.freeze hostMaster
    .next (if s.sys.booted then t.report { kind := 4, detail := 5, addr := wd r.addr, master := hostMaster } else t)

/-! Array errors. -/

/-- Poison marked at a location of a hart. -/
def Hart.mark (h : Hart) (l : PLoc) : Hart := { h with poison := if h.poison.contains l then h.poison else l :: h.poison }

/-- A word of the vector register file poisoned; a dead word keeps its free value. -/
def Hart.poisonWord (h : Hart) (key : Nat) : Hart :=
  if h.vregs.any fun c => c.key == key then
    { h with vregs := updateWhere (fun c => c.key == key) (fun c => { c with poison := true }) h.vregs }
  else
    let dead : VCell := { key := key, val := Config.deadWord h.vgen key, poison := true }
    let below := h.vregs.filter fun c => c.key < key
    let above := h.vregs.filter fun c => key < c.key
    { h with vregs := below ++ dead :: above }

/-- A 32-bit word of a queue entry poisoned: every element that it holds bits of. -/
def Hart.poisonQueue (h : Hart) (q : Fin 4) (entry word : Nat) : Hart :=
  let w := width h.fmt
  let hit := fun x : QEntry => QEntry.mk (((List.range x.elems.length).zip x.elems).map fun y =>
    let bad := if w = 64 then (if y.1 = word / 2 then 2 ^ (word % 2) else 0)
      else if y.1 * w < 32 * word + 32 && 32 * word < y.1 * w + w then 1 else 0
    (y.2.1, y.2.2 ||| bad))
  let l := ((List.range h.queues[q].length).zip h.queues[q]).map fun p => if p.1 = entry then hit p.2 else p.2
  { h with queues := h.queues.set q l }

/-- A word of a core's L1 poisoned. A registered word is written back to its home poisoned, and charged to its writer in a
report of KIND 3; one of an incarnation that is no longer current is discarded, and the report names that incarnation
(R152). While a multicast entry holds its piece, or the link to its home retrains, the write-back waits in its buffer (R135,
R220). -/
def State.poisonL1 (s : State) (c : CoreId) (pa : Nat) : State :=
  let copy := fun s : State => s.modMem fun m =>
    { m with l1 := updateWhere (fun x => x.core == c && x.pa == wordAt pa) (fun x => { x with poison := true }) m.l1 }
  match s.mem.reg pa with
  | some r =>
    if r.core != c then copy s
    else
      let held := s.sys.mcHolds pa || s.sys.linkWaits pa
      let s := s.modMem fun m =>
        if r.inc != s.sys.curInc r.cid then m.unregister pa
        else
          let hit := fun x : RegWord => { x with poison := true, leaving := x.leaving || held }
          let m : Mem := { m with regd := updateWhere (fun x => x.pa == r.pa) hit m.regd }
          if held then m else m.takeBack pa
      s.report { kind := 3, cid := r.cid, inc := r.inc, addr := wd (pa / 2048 * 2048) }
  | none => copy s

/-- A core's L1 holds some word of a granule. -/
def Mem.l1Words (m : Mem) (c : CoreId) (g : Nat) : List Nat :=
  let ofReg := (m.regd.filter fun r => r.core == c && r.pa / 2048 == g).map (·.pa)
  ofReg ++ (m.l1.filter fun x => x.core == c && x.pa / 2048 == g).map (·.pa)

/-- A doubleword that the history buffer keeps for an open instruction, or for one that resumes, is poisoned (R195): two words
of the register kept, of which a dead one keeps its free value, or of the mask. -/
def OpenInstr.poisonKept (gen n : Nat) (o : OpenInstr) : OpenInstr :=
  match destReg o.instr with
  | some d =>
    let hit := [2 * n, 2 * n + 1].map fun i =>
      let key := 8192 * d.val + i
      let old := (o.kept.find? fun c => c.key == key).getD ⟨key, Config.deadWord gen key, true⟩
      { old with poison := true }
    if n < 4096 then { o with kept := mergeCells (o.kept.length + 3) o.kept hit } else o
  | none => if n < 1024 then { o with keptBad := [2 * n, 2 * n + 1] ++ o.keptBad.filter fun w => w / 2 != n } else o

/-- Words poisoned at their home. -/
def Mem.poisonRange (m : Mem) (pa n : Nat) : Mem :=
  (List.range ((pa % 4 + n + 3) / 4)).foldl (fun (m : Mem) i => m.setPoison (wordAt pa + 4 * i) true) m

/-- ARRAY_ERROR_DETECTED (R205): a correctable error is corrected in place and counted; an uncorrectable one poisons the
word, or the 64 bytes of main memory, or the packet, or the granule of a tag (Table 10-11). Between two steps no form is in
flight: the Till holds nothing, and the history buffer what is kept for an open instruction (DEDUCED, log entry 53). -/
def execArrayErrorDetected (loc : ErrLoc) (correctable : Bool) (s : State) : Out :=
  let onHart := fun (c : CoreId) (k : Ctx) (ok : Bool) (f : Hart → Hart) =>
    Host.Outcome.next (if ok then (s.onHart c k fun s1 => s1.modH f).getD s else s)
  if correctable then .next (s.modSys fun y => { y with corrected := y.corrected + 1 })
  else match loc with
    | .sreg c k r => onHart c k true fun h => if r = 0 then h else h.mark (.sreg r)
    | .vword c k v lane word => onHart c k (lane < 64 && word < 128) fun h =>
        h.poisonWord (8192 * v.val + 128 * lane + word)
    | .mask c k m word => onHart c k (m != 0 && word < 2048) fun h => h.mark (.mask m word)
    | .scale c k r word => onHart c k (word < 512) fun h => h.mark (.scale (512 * r.val + word))
    | .cell c k i => onHart c k (i < 4096) fun h => h.mark (.cell i)
    | .queue c k q entry word => onHart c k true fun h => h.poisonQueue q entry word
    | .till _ _ => .next s
    | .history c k n => onHart c k true fun h =>
        { h with opened := h.opened.map (·.poisonKept h.vgen n), resume := h.resume.map (·.poisonKept h.vgen n) }
    | .l1 c pa => .next (s.poisonL1 c pa)
    | .l1Tag c pa => .next ((s.mem.l1Words c (pa / 2048)).foldl (fun (s : State) w => s.poisonL1 c w) s)
    | .spad c off => if off < 0x100000 then .next (s.modMem fun m => m.setSpadPoison (spadAt c off) true) else notNow s
    | .mem pa => if pa < mainEnd then .next (s.modMem fun m => m.poisonRange (pieceOf pa) 64) else notNow s
    | .slice pa => .next (s.modMem fun m => m.poisonRange (wordAt pa) 4)
    | .sliceTag pa => .next (s.modMem fun m => m.poisonRange (pa / 2048 * 2048) 2048)
    | .teller t off =>
      if off < 0x2000 then .next (s.modSys fun y =>
        { y with tellerPoison := poisonWords true (8192 * t.val + wordAt off) y.tellerPoison })
      else notNow s
    | .packet pa n => if n ≤ 4096 then .next (s.modMem fun m => m.poisonRange pa n) else notNow s

/-! Power. -/

/-- The draw of the module is measured (R229, R231): POWNOW holds it, and while it exceeds POWCAP, issue slots are withheld. -/
def Sys.setDraw (y : Sys) (watts : Word) : Sys :=
  { (y.setDev 0x11008 watts) with withheld := (y.dev 0x11000).toNat < watts.toNat }

/-- POWER_CAP_EXCEEDED (R229): the measured draw rises; above the cap, issue slots are withheld. -/
def execPowerCapExceeded (watts : BitVec 16) (s : State) : Out := .next (s.modSys fun y => y.setDraw (watts.setWidth 64))

/-- POWER_DRAW_BELOW_CAP (R229): the measured draw falls; at or below the cap, issue goes on. -/
def execPowerDrawBelowCap (watts : BitVec 16) (s : State) : Out := .next (s.modSys fun y => y.setDraw (watts.setWidth 64))

end Sys2Proof.Machine
end

