-- ==== Sys2Proof/Machine/Sha.lean ====
section
/-! DEFINITION. SHA-384, the digest of the Vault and of images (R226 to R228), as FIPS 180-4 gives it (PRESUMED, log entry 12).
Its constants are computed from the roots of primes by which that standard defines them. -/

namespace Sys2Proof.Machine

/-- The largest number of `b` bits above `r` whose power `k` is at most `n`, bit by bit. -/
def rootBits (k n : Nat) : (b r : Nat) → Nat
  | 0, r => r
  | b + 1, r => rootBits k n b (if (r + 2 ^ b) ^ k ≤ n then r + 2 ^ b else r)

/-- The first 64 bits of the fraction of the root of order `k` of a number below 512. -/
def rootFraction (k n : Nat) : BitVec 64 := BitVec.ofNat 64 (rootBits k (n * 2 ^ (64 * k)) 69 0)

/-- The first 80 primes. -/
def primes80 : List Nat :=
  (List.range 410).filter fun n => 2 ≤ n && (List.range 21).all fun d => d < 2 || n ≤ d || n % d != 0

/-- The round constants: the fractions of the cube roots. -/
def shaK : List (BitVec 64) := primes80.map (rootFraction 3)

/-- The eight working words at the start: the fractions of the square roots of the ninth to the sixteenth prime. -/
def shaInit : List (BitVec 64) := ((primes80.drop 8).take 8).map (rootFraction 2)

/-- Three rotations of a word to the right, combined. -/
def turned (i j k : Nat) (x : BitVec 64) : BitVec 64 := x.rotateRight i ^^^ x.rotateRight j ^^^ x.rotateRight k

/-- Each bit is taken from `y` where `x` has a 1, else from `z`. -/
def chosen (x y z : BitVec 64) : BitVec 64 := z ^^^ (x &&& (y ^^^ z))

/-- Each bit is the majority of three. -/
def majority (x y z : BitVec 64) : BitVec 64 := (x &&& y) ||| (z &&& (x ||| y))

/-- One round over the working words, oldest place first, with the sum of its constant and its schedule word. -/
def shaRound (v : List (BitVec 64)) (kw : BitVec 64) : List (BitVec 64) :=
  match v with
  | [a, b, c, d, e, f, g, h] =>
    let t := kw + h + chosen e f g + turned 14 18 41 e
    [t + turned 28 34 39 a + majority a b c, a, b, c, d + t, e, f, g]
  | _ => v

/-- The schedule word that follows sixteen others. -/
def shaNext (w : List (BitVec 64)) : BitVec 64 :=
  let at_ := fun i => w.getD i 0
  let small := fun (i j k : Nat) (x : BitVec 64) => x.rotateRight i ^^^ x.rotateRight j ^^^ x >>> k
  at_ 0 + at_ 9 + small 1 8 7 (at_ 1) + small 19 61 6 (at_ 14)

/-- The rounds of one block. -/
def shaRounds : List (BitVec 64) → List (BitVec 64) → List (BitVec 64) → List (BitVec 64)
  | [], _, v => v
  | k :: ks, w, v => shaRounds ks (w.drop 1 ++ [shaNext w]) (shaRound v (k + w.getD 0 0))

/-- A number from its bytes, the most significant first. -/
def bigNat (bs : List (BitVec 8)) : Nat := bs.foldl (fun n b => n * 256 + b.toNat) 0

/-- A number in `n` bytes, big-endian. -/
def bigBytes (n v : Nat) : List (BitVec 8) := (natToBytes n v).reverse

/-- One block of 128 bytes. -/
def shaBlock (v : List (BitVec 64)) (bs : List (BitVec 8)) : List (BitVec 64) :=
  let w := (List.range 16).map fun i => BitVec.ofNat 64 (bigNat ((bs.drop (8 * i)).take 8))
  List.zipWith (· + ·) v (shaRounds shaK w v)

/-- `n` blocks. -/
def shaBlocks : Nat → List (BitVec 8) → List (BitVec 64) → List (BitVec 64)
  | 0, _, v => v
  | n + 1, bs, v => shaBlocks n (bs.drop 128) (shaBlock v (bs.take 128))

/-- SHA-384: 48 bytes. -/
def sha384 (m : List (BitVec 8)) : List (BitVec 8) :=
  let pad := (128 - (m.length + 17) % 128) % 128
  let bs := m ++ [0x80] ++ List.replicate pad 0 ++ bigBytes 16 (8 * m.length)
  ((shaBlocks (bs.length / 128) bs shaInit).take 6).flatMap fun x => bigBytes 8 x.toNat

end Sys2Proof.Machine
end

