-- ==== Sys2Proof/Machine/Control.lean ====
section
/-! DEFINITION. The control of the module: device registers (R231), the commands of the control cores (R222, R223), the
Vault (R227, R228) and boot (R225, R226). -/

namespace Sys2Proof.Machine

/-- Puts a module step in front of the inbox. -/
def State.postFirst (s : State) (i : Instr) : State := { s with inbox := i :: s.inbox }

/-! Device registers (Tables 11-4, 11-12, 11-13). -/

/-- The row that carries out a command code (Table 11-5). -/
def commandRow (op : BitVec 8) : Instr :=
  match op.toNat with
  | 0x01 => .cmdLaunch
  | 0x02 => .cmdIncb
  | 0x03 => .cmdRcf
  | 0x04 => .cmdSlwb
  | 0x05 => .cmdHmsw
  | 0x06 => .cmdDeclareFailed
  | 0x07 => .cmdResumeHart
  | 0x08 => .cmdRetireHart
  | 0x09 => .cmdPreEmptGang
  | 0x0A => .cmdReleaseMaster
  | 0x0B => .cmdContextTable
  | 0x0C => .cmdInterruptHart
  | 0x0D => .cmdRerunGang
  | 0x0E => .cmdFarm
  | 0x0F => .cmdLoadTellers
  | 0x10 => .cmdAttest
  | _ => .cmdUnknown

/-- A store to the OP word of command block `n` (R222): it starts a command with the operands as they stand, or sets
LOSTCMD. -/
def State.storeOp (s : State) (n : Fin 16) (v : Word) : State :=
  let b := 0x1000 * n.val
  let st := s.sys.dev (b + 0x20)
  if st.getLsbD 0 then s.modSys fun y => y.setDev (b + 0x20) (st ||| 2)
  else
    let op : BitVec 8 := v.setWidth 8
    (s.modSys fun y =>
      { (y.setDev (b + 0x20) (st ||| 1)) with
        cmds := y.cmds ++ [⟨n, op, y.dev (b + 8), y.dev (b + 0x10), false, none⟩] }).postFirst (commandRow op)

/-- DEVICE_REGISTER_WRITE (R231, R222): a register without behaviour of its own takes its RW fields and clears its W1C bits;
a store to OP, MEXT, POWCAP, SELFID or a port's control sets its own step off. While the module stays in reset, the
registers of the Vault alone take a write (R225). -/
def execDeviceRegisterWrite (off : Nat) (v : Word) (s : State) : Out :=
  if !devAssigned off || !s.sys.booted && (off < 0x10000 || 0x101C0 ≤ off) then notNow s
  else if off < 0x10000 then
    let n : Fin 16 := Fin.ofNat 16 (off / 0x1000)
    match off % 0x1000 with
    | 0 => .next (s.storeOp n v)
    | 0x20 => .next (s.modSys fun y => y.setDev off (y.dev off &&& ~~~(v &&& 2)))
    | 0x18 => .next s
    | _ => .next (s.modSys fun y => y.setDev off v)
  else if off < 0x10030 then .next (s.modSys fun y => y.setDev off v)
  else if off = 0x10030 then .next ((s.modSys fun y => y.setDev off (v &&& 7)).postFirst .mextWrite)
  else if off = 0x10038 then .next (s.modSys fun y => y.setDev off (y.dev off &&& ~~~(v &&& 2)))
  else if off = 0x11000 then .next (s.postFirst (.powcapWrite v))
  else if off = 0x13000 then .next (s.postFirst (.selfidWrite v))
  else if off < 0x20000 then .next s
  else
    let o := off % 0x1000
    if o = 0x300 then .next (s.postFirst (.portEnableWrite (Fin.ofNat 32 ((off - 0x20000) / 0x1000)) v))
    else if o < 0x100 then
      .next (s.modSys fun y => y.setDev off (v &&& (if o % 16 = 0 then 0x000FFFFFFFFFF001 else 0x000FFFFFFFFFF000)))
    else .next (s.modSys fun y => y.setDev off v)

/-- POWCAP_WRITE (R231, R229): issue is withheld while the draw measured last exceeds the new cap. -/
def execPowcapWrite (v : Word) (s : State) : Out :=
  let w := v.toNat % 65536
  .next (if 900 ≤ w ∧ w ≤ 1800 then s.modSys fun y => (y.setDev 0x11000 (wd w)).setDraw (y.dev 0x11008) else s)

/-- SELFID_WRITE (R231): the first write of an ID from 0 to 2039 sets ID and SET. -/
def execSelfidWrite (v : Word) (s : State) : Out :=
  let id := v.toNat % 2048
  .next (if s.sys.selfSet || 2040 ≤ id then s else s.modSys fun y => y.setDev 0x13000 (wd (2048 + id)))

/-- PORT_ENABLE_WRITE (R231): ENABLE is set or cleared. A trained port that is stopped carries no traffic until it trains
again: its traffic waits as on a link that retrains (DEDUCED, log entry 20). -/
def execPortEnableWrite (p : Fin 32) (v : Word) (s : State) : Out :=
  let old := s.sys.dev (portReg p)
  let stop := !v.getLsbD 0 && s.sys.portUp p
  let keep : Word := if stop then 4 else 6
  .next (s.modSys fun y =>
    let y1 := y.setDev (portReg p) ((old &&& keep) ||| (v &&& 1))
    if stop && !y1.retraining.contains (.port p) then { y1 with retraining := .port p :: y1.retraining } else y1)

/-! The Vault. -/

/-- A measurement register: 48 bytes, 0 at reset (R227). -/
def Sys.mreg (y : Sys) (i : Nat) : List Byte := natToBytes 48 (lookupD 0 i y.mregs).toNat

/-- Bytes measured into a register (R227). -/
def Sys.measure (y : Sys) (i : Nat) (m : List Byte) : Sys :=
  { y with mregs := insertKey i (BitVec.ofNat 384 (bytesNat (sha384 (y.mreg i ++ m)))) y.mregs }

/-- MEXT_WRITE (R227, R231): a write of 4 to 7 starts the measurement of MDATA; any other write, or one while BUSY is 1, sets
ERR. -/
def execMextWrite (s : State) : Out :=
  let i := (s.sys.dev 0x10030).toNat
  let st := s.sys.dev 0x10038
  if i < 4 || st.getLsbD 0 then .next (s.modSys fun y => y.setDev 0x10038 (st ||| 2))
  else
    let m := (List.range 6).flatMap fun j => natToBytes 8 (s.sys.dev (0x10000 + 8 * j)).toNat
    .next (s.modSys fun y => { (y.setDev 0x10038 (st ||| 1)) with measuring := some (i, m) })

/-- MEASUREMENT_DONE (R227). -/
def execMeasurementDone (s : State) : Out :=
  match s.sys.measuring with
  | none => notNow s
  | some (i, m) =>
    .next (s.modSys fun y =>
      { ((y.measure i m).setDev 0x10038 (y.dev 0x10038 &&& ~~~1)) with measuring := none })

/-! Boot. -/

/-- An image as it stands: the bytes of its header, and how to read its body. -/
structure Image where
  header : List Byte
  body : Nat → List Byte

/-- The bytes that an image's signature covers (R226). -/
def Image.signed (i : Image) (len : Nat) : List Byte := i.header.take 0x80 ++ i.body len

/-- The verification of an image (R226): its REASON, 0 when it verifies. When several causes hold, the order is that of this
definition (DESIGN CHOICE, log entry 12). `room` is the most its body may hold. -/
def Image.verify (i : Image) (room : Nat) : Nat :=
  let n := fun off k : Nat => imageAt i.header off k
  let len := n 8 8
  if n 0 4 ≠ 0x37424C55 ∨ room < len then 5
  else if n 0x20 96 ≠ 0 ∨ n 0xE1 31 ≠ 0 then 4
  else if Config.keyRevoked (n 0xE0 1) then 2
  else if n 4 4 < Config.fusedSvn.toNat then 3
  else if 3 < n 0xE0 1 || !signatureOk (Config.publicKey (n 0xE0 1)) (sha384 (i.signed len)) ((i.header.drop 0x80).take 48)
      ((i.header.drop 0xB0).take 48) then 1
  else 0

/-- An image of the flash. -/
def flashImage (f : Store) (off : Nat) : Image :=
  ⟨f.getN unlistedFlash off 0x100, fun n => f.getN unlistedFlash (off + 0x100) n⟩

/-- An image given by its bytes. -/
def bytesImage (b : List Byte) : Image := ⟨b.take 0x100, fun n => (b.drop 0x100).take n⟩

/-- BOOTST (Table 11-12). -/
def bootst (stage : Nat) (pri sec : Bool) (reason : Nat) : Word :=
  wd (stage + (if pri then 0x100 else 0) + (if sec then 0x200 else 0) + reason * 0x10000)

/-- What the firmware does once it runs (R225, R227): the measurements of the firmware and of the Teller handlers, the
handlers, the context table with its report ring, and the release of the control cores; they verify the operating system
loader in the same way, and measure it and its configuration. -/
def State.bringUp (s : State) (firmware : Image) (pri : Bool) (reason : Nat) : State :=
  let digest := fun (i : Image) => sha384 (i.signed (imageAt i.header 8 8))
  let handlers := Config.bootImage 0
  let loader := bytesImage (Config.bootImage 1)
  let base := Config.bootContextTable.toNat * 0x10000
  let why := loader.verify (Config.bootImage 1).length
  let s := s.modSys fun y =>
    let y := (y.measure 0 (digest firmware)).measure 1 (sha384 handlers)
    let y := (List.finRange 4).foldl (fun (y : Sys) d => y.loadTellers d (handlers.take 0x2000)) y
    { y with ctxBase := base, booted := true }
  let s := s.agentWrite (base + 0x100000) (List.replicate 64 0)
  s.modSys fun y =>
    if why = 0 then
      ((y.measure 2 (digest loader)).measure 3 (sha384 (Config.bootImage 2))).setDev 0x12000 (bootst 3 pri false reason)
    else y.setDev 0x12000 (bootst 2 pri false why)

/-- BOOT (R225): the ROM verifies the firmware at flash offset 0, then the copy at 0x8000000; when both fail, the module
stays in reset. -/
def execBoot (s : State) : Out :=
  if s.sys.booted then notNow s
  else
    let room := 0x8000000 - 0x100
    let a := flashImage s.sys.flash 0
    let ra := a.verify room
    if ra = 0 then .next (s.bringUp a false 0)
    else
      let b := flashImage s.sys.flash 0x8000000
      let rb := b.verify room
      if rb = 0 then .next (s.bringUp b true ra)
      else .next (s.modSys fun y => y.setDev 0x12000 (bootst 0 true true rb))

/-! Commands (R222, R223). -/

/-- The commands of a code that have not been answered. -/
def Sys.pendingCmds (y : Sys) (p : Nat → Bool) : List CmdRun := y.cmds.filter fun k => k.ans.isNone && p k.op.toNat

/-- The answer of a command is ready; its completion follows. -/
def State.answerCmd (s : State) (k : CmdRun) (v : Word) : State :=
  (s.modSys fun y =>
    { y with cmds := updateWhere (fun x => x.n == k.n) (fun x => { x with ans := some v }) y.cmds }).postFirst
      .commandCompletion

/-- The answer -2 (R223). -/
def minus2 : Word := wd (codeOf 64 (-2))

/-- Runs the oldest command of a code: `f` answers the state and the answer, or none while the command must wait. -/
def command (op : Nat) (f : CmdRun → State → Option (State × Word)) (s : State) : Out :=
  match s.sys.pendingCmds (· == op) with
  | [] => notNow s
  | ks =>
    match ks.findSome? fun k => (f k s).map fun r => (k, r) with
    | none => .next s
    | some (k, r) => .next (r.1.answerCmd k r.2)

/-- COMMAND_COMPLETION (R222): RES holds the answer, and BUSY is 0. -/
def execCommandCompletion (s : State) : Out :=
  match s.sys.cmds.find? fun k => k.ans.isSome with
  | none => notNow s
  | some k =>
    let b := 0x1000 * k.n.val
    .next (s.modSys fun y =>
      { ((y.setDev (b + 0x18) (k.ans.getD 0)).setDev (b + 0x20) (y.dev (b + 0x20) &&& ~~~1)) with
        cmds := y.cmds.filter fun x => x.n != k.n })

/-- Bytes of one page as a command reads them at their home, with the offsets of their poisoned words. -/
def State.readPart (s : State) (a n : Nat) : List Byte × List Nat :=
  if s.sys.homeLost a then (s.freeBytes a n, (List.range ((n + 3) / 4)).map (4 * ·))
  else if s.backed a n then (s.freeBytes a n, [])
  else (s.mem.curBytes a n, ((List.range ((n + 3) / 4)).map (4 * ·)).filter fun o => s.mem.curPoison (a + o))

/-- The same of bytes that may lie in several pages. -/
def State.readFor (s : State) (a n : Nat) : List Byte × List Nat :=
  let rs := (pageParts a n).map fun p => (p.1, s.readPart (a + p.1) p.2)
  (rs.flatMap fun r => r.2.1, rs.flatMap fun r => r.2.2.map (r.1 + ·))

/-- A command writes bytes page by page; what stands on a failed agent is dropped (R150). -/
def State.writeFor (s : State) (a : Nat) (bytes : List Byte) (poison : Bool := false) : State :=
  (pageParts a bytes.length).foldl (fun (s : State) p =>
    if s.sys.homeLost (a + p.1) then s else s.agentWrite (a + p.1) ((bytes.drop p.1).take p.2) none poison) s

/-- `n` bytes of normal memory that agents hold (R125, R215), one agent or two neighbours. -/
def Sys.normal (y : Sys) (a n : Nat) : Bool :=
  y.holds a && y.holds (a + n - 1) && homeAgent a != some .device && homeAgent (a + n - 1) != some .device

/-- A link that carries accesses to either end of `n` bytes retrains. -/
def Sys.endsWait (y : Sys) (a n : Nat) : Bool := y.linkWaits a || y.linkWaits (a + n - 1)

/-- CMD_LAUNCH, 0x01. The manual does not say what poison in the descriptor comes to: the bytes are taken as they are read (DESIGN
CHOICE, log entry 52). -/
def execCmdLaunch (s : State) : Out :=
  command 1 (fun k s =>
    let a := k.a.toNat
    if a % 16 ≠ 0 ∨ mainEnd < a + 80 then some (s, minus2)
    else
      let d := Desc.ofBytes (s.readFor a 80).1
      some (s.launch d false true (d.cid.setWidth 12))) s

/-- CMD_INCB, 0x02. -/
def execCmdIncb (s : State) : Out :=
  command 2 (fun k s =>
    if 4096 ≤ k.a.toNat then some (s, minus2)
    else (s.incb (k.a.setWidth 12)).map fun r => (r.1, r.2.setWidth 64)) s

/-- CMD_RCF, 0x03. -/
def execCmdRcf (s : State) : Out :=
  command 3 (fun k s =>
    if 4096 ≤ k.a.toNat then some (s, minus2)
    else if s.sys.sweeping (k.a.setWidth 12) then none
    else some (s, if k.down then 1 else 0)) s

/-- CMD_SLWB, 0x04: over the slices of every C-die. It waits for a link that retrains, and for open multicast entries. -/
def execCmdSlwb (s : State) : Out :=
  command 4 (fun k s =>
    let a := k.a.toNat
    let n := k.b.toNat
    if n = 0 then some (s, 0)
    else if 2 ^ 52 < a + n then some (s, minus2)
    else if (List.finRange 4).any fun d => s.slwbWaits d a n then none
    else some ((List.finRange 4).foldl (fun (s : State) d => s.slwb d a n) s, 0)) s

/-- CMD_HMSW, 0x05. It waits for the accesses in flight on the die. -/
def execCmdHmsw (s : State) : Out :=
  command 5 (fun k s =>
    if 4 ≤ k.a.toNat ∨ k.b = 0 then some (s, minus2)
    else if s.stuckOn (Fin.ofNat 4 k.a.toNat) then none
    else some (s.hmsw (Fin.ofNat 4 k.a.toNat) k.b, 0)) s

/-- The agent that an operand of command 0x06 names (Table 8-6); none outside its limits. -/
def agentOf (a : Word) : Option Agent :=
  let n := a.toNat
  let unit := bitsOf n 23 16
  let peer := n % 65536
  if n / 2 ^ 28 ≠ 0 then none
  else match n / 2 ^ 24 with
    | 0 => if unit < 4 ∧ peer = 0 then some (.cdie (Fin.ofNat 4 unit)) else none
    | 1 => if unit < 2 ∧ peer = 0 then some (.hdie (Fin.ofNat 2 unit)) else none
    | 2 => if unit < 32 ∧ peer < 2040 then some (.peer (Fin.ofNat 32 unit) (BitVec.ofNat 16 peer)) else none
    | 3 => if unit = 0 ∧ peer = 0 then some .host else none
    | _ => none

/-- CMD_DECLARE_FAILED, 0x06. Without a host, the host is never declared failed (R217). -/
def execCmdDeclareFailed (s : State) : Out :=
  command 6 (fun k s =>
    match agentOf k.a with
    | none => some (s, minus2)
    | some a => if a = .host ∧ !s.sys.hostUp then some (s, minus2) else some (s.declareFailed a, 0)) s

/-- The placed hart that an operand names: its gang number and its index (R223). -/
def State.namedHart (s : State) (a : Word) : Option Hart :=
  if a.toNat / 2 ^ 24 ≠ 0 then none
  else s.harts.find? fun h => h.gang.toNat == bitsOf a.toNat 23 16 && h.index == a.toNat % 65536

/-- The hart, or its engine queue, is frozen (R214). -/
def Sys.frozenHart (y : Sys) (h : Hart) : Bool :=
  y.frozen.contains (hartMaster h.core h.ctx) || y.frozen.contains (engineMaster h.core h.ctx)

/-- A hart held in fault continues at TPC as TRET continues (R223), unless it is frozen. -/
def resumeHeld (s : State) : State :=
  let s := returnFromTrap (openStripes s.h) s
  if s.sys.frozenHart s.h then s.modH fun h => { h with status := .frozen } else s

/-- CMD_RESUME_HART, 0x07. -/
def execCmdResumeHart (s : State) : Out :=
  command 7 (fun k s =>
    match s.namedHart k.a with
    | none => some (s, minus2)
    | some h =>
      if h.status != .heldInFault then some (s, minus2)
      else some (((s.onHart h.core h.ctx resumeHeld).getD s).askAdmission, 0)) s

/-- CMD_RETIRE_HART, 0x08. It waits, as EXIT does, for accesses of the hart that cannot be performed yet. -/
def execCmdRetireHart (s : State) : Out :=
  command 8 (fun k s =>
    match s.namedHart k.a with
    | none => some (s, minus2)
    | some h =>
      if s.stuckFor h then none
      else some ((s.onHart h.core h.ctx exitHart).getD s, 0)) s

/-- CMD_PRE_EMPT_GANG, 0x09. -/
def execCmdPreEmptGang (s : State) : Out :=
  command 9 (fun k s =>
    if 256 ≤ k.a.toNat then some (s, minus2) else some (s.raisePreempt (k.a.setWidth 8), 0)) s

/-- CMD_RELEASE_MASTER, 0x0A. -/
def execCmdReleaseMaster (s : State) : Out :=
  command 10 (fun k s =>
    if !(Master.ofWord k.a).valid k.a then some (s, minus2)
    else
      let s := s.modSys fun y => { y with frozen := y.frozen.filter (· != k.a) }
      let thaw := fun h : Hart => if h.status == .frozen && !s.sys.frozenHart h then { h with status := .running } else h
      some ({ s with h := thaw s.h, rest := s.rest.map thaw }.goOn, 0)) s

/-- CMD_CONTEXT_TABLE, 0x0B (R172, R224): every agent drops its translations, once the accesses that it translated are
performed at .sys; the header of the new ring is zeroed. It waits for a link that retrains. -/
def execCmdContextTable (s : State) : Out :=
  command 11 (fun k s =>
    let a := k.a.toNat
    let ring := a + 0x100000
    if a % 0x10000 ≠ 0 then some (s, minus2)
    else if s.harts.any s.stuckOf || s.sys.linkWaits ring || s.sys.mcHolds ring then none
    else
      let s := s.completeAll.modSys fun y => { y with ctxBase := a }
      some ((if s.sys.normal ring 64 && !s.sys.homeLost ring then s.agentWrite ring (List.replicate 64 0) else s).flushReports, 0)) s

/-- An interrupt posted to a hart (R193). -/
def postInterrupt (v : Word) (h : Hart) : Hart := { h with irq := some (v, h.irq.isSome) }

/-- CMD_INTERRUPT_HART, 0x0C. The post ends a WAITM (R165). -/
def execCmdInterruptHart (s : State) : Out :=
  command 12 (fun k s =>
    match s.namedHart k.a with
    | none => some (s, minus2)
    | some h => some (s.updHart h fun h => wakeHart (postInterrupt k.b h), 0)) s

/-- What command 0x0D comes to: none while it waits; the state, and the answer once the gang has restarted. `k.down` tells
that the run has been abandoned, and the gang waits for its places (DEDUCED, log entry 18). -/
def rerunCmd (k : CmdRun) (s : State) : Option (State × Option Word) :=
  match if k.a.toNat < 256 then s.gangOf (k.a.setWidth 8) else none with
  | none => some (s, some minus2)
  | some g =>
    if k.down then (if g.st == .waiting then none else some (s, some 0))
    else if g.st != .resident then some (s, some minus2)
    else if s.rerunWaits g then none
    else
      let t := s.rerun g
      some (t, if (t.gangOf g.num).any (·.st == .resident) then some 0 else none)

/-- CMD_RERUN_GANG, 0x0D (R24): the answer stands once the gang has restarted. -/
def execCmdRerunGang (s : State) : Out :=
  match s.sys.pendingCmds (· == 13) with
  | [] => notNow s
  | ks =>
    match ks.findSome? fun k => (rerunCmd k s).map fun r => (k, r) with
    | none => .next s
    | some (k, t, some v) => .next (t.answerCmd k v)
    | some (k, t, none) => .next (t.modSys fun y =>
        { y with cmds := updateWhere (fun x => x.n == k.n) (fun x => { x with down := true }) y.cmds })

/-- CMD_FARM, 0x0E (R37), with release semantics at .sys; the control core's own older accesses are performed already
(R222). A write to a piece that an open multicast entry holds waits (R135). An operand that names no block of normal memory
answers -2 (DEDUCED, log entry 52). -/
def execCmdFarm (s : State) : Out :=
  command 14 (fun k s =>
    let a := k.a.toNat
    if a % 16 ≠ 0 ∨ !s.sys.normal a 16 then some (s, minus2)
    else if s.sys.mcHolds a || s.sys.linkWaits a then none
    else some (if s.sys.homeLost a then s else s.agentWrite a (farmBytes k.b), 0)) s

/-- CMD_LOAD_TELLERS, 0x0F. An operand that names no image in normal memory answers -2 (DEDUCED, log entry 52). -/
def execCmdLoadTellers (s : State) : Out :=
  command 15 (fun k s =>
    let a := k.a.toNat
    if a % 64 ≠ 0 ∨ !s.sys.normal a 0x2000 ∨ k.b = 0 ∨ 16 ≤ k.b.toNat then some (s, minus2)
    else if s.sys.endsWait a 0x2000 then none
    else
      let image := s.readFor a 0x2000
      let ds := (List.finRange 4).filter fun d => k.b.getLsbD d.val
      some (s.modSys fun y => ds.foldl (fun (y : Sys) d => y.loadTellers d image.1 image.2) y, 0)) s

/-- What an attestation signs over a nonce (Table 11-7). -/
def Sys.attested (y : Sys) (nonce : List Byte) : List Byte :=
  nonce ++ (List.range 8).flatMap y.mreg ++ natToBytes 4 Config.fusedSvn.toNat ++ List.replicate 12 0

/-- Its signature by the device identity key, under a free random number. -/
def signed (m : List Byte) : List Byte :=
  let d := sha384 m
  signWith Config.deviceKey (Config.signNonce d) d

/-- CMD_ATTEST, 0x10 (R228). A nonce that is not in normal memory answers -2 (DEDUCED, log entry 52). What depends on a
poisoned nonce is poisoned (R206). -/
def execCmdAttest (s : State) : Out :=
  command 16 (fun k s =>
    let a := k.a.toNat
    let b := k.b.toNat
    if !s.sys.normal a 48 ∨ b % 64 ≠ 0 ∨ !s.sys.normal b 544 then some (s, minus2)
    else if s.sys.endsWait a 48 || s.sys.endsWait b 544 || s.sys.mcHoldsN b 544 then none
    else
      let nonce := s.readFor a 48
      let bad := !nonce.2.isEmpty
      let m := s.sys.attested nonce.1
      some (((s.writeFor b (m.take 48) bad).writeFor (b + 48) (m.drop 48)).writeFor (b + 448) (signed m) bad, 0)) s

/-- CMD_UNKNOWN (R223): a code that Table 11-5 does not assign. -/
def execCmdUnknown (s : State) : Out :=
  match s.sys.pendingCmds fun op => op = 0 ∨ 16 < op with
  | [] => notNow s
  | k :: _ => .next (s.answerCmd k minus2)

end Sys2Proof.Machine
end

