-- ==== Sys2Proof/Machine/Vps.lean ====
section
/-! DEFINITION. The virtual-processor group (R34 to R36, R327, R328, R339). -/

namespace Sys2Proof.Machine

/-- VFETCH (R327): one virtual processor for each active element, at the block address. The control thread continues
when all of them have ended. -/
def vfetchBody (x : Stack) (a : SReg) (m : MReg) : State → Res :=
  legalVec x true [] [m] <| withClean [a] <| checkedWhole (.vfetch x a m) none none fun s =>
    let b := s.readS a
    if b.toNat % 4 ≠ 0 then .trap s (wholeTrap cMisaligned)
    else
      let act := (List.range s.h.vl).map fun e => (e, s.h.active m (maskInv x) e)
      match act.findSome? (fun p => match p.2 with
          | .error l => some (p.1, l)
          | .ok _ => none) with
      | some (e, l) => consume s l 0 (wd e) none
      | none =>
        let vps := act.filterMap fun p => match p.2 with
          | .ok true => some (⟨p.1, b, b⟩ : Vp)
          | .ok false => none
          | .error _ => none
        if vps.isEmpty then .done s
        else
          .gone (s.modH fun h =>
            { h with
              vp := some ⟨vps, h.pc, h.pc + wd x.len, popFifo x 1, pushFifo x 1, none, h.vregs, h.masks, h.sregs,
                h.fflags, h.purse, h.poison⟩
              resume := none })

/-- The codes of a register's elements for the group that executes an instruction of the VP group; outside a block, the
illegal-instruction trap (R327, R339). -/
def vpElems (i : Instr) (a : VReg) (k : List (Nat × Nat) → State → Res) (s : State) : Res :=
  match s.h.group with
  | none => illegal s
  | some _ =>
    (legalVec i.stack (!isSliced s.h.fmt) [a] [] <| checkedWhole i none none fun s =>
      let v := s.h.env s.h.layout none [a]
      let rs := s.h.elems.map fun e => (e, v.elem a e)
      match rs.findSome? (fun p => match p.2 with
          | .code _ _ (some l) => some (p.1, l.1)
          | .code _ _ none => none
          | .shell => none) with
      | some (e, l) => consume s l 0 (wd e) none
      | none =>
        k (rs.map fun p => match p.2 with
          | .code c _ _ => (p.1, c)
          | .shell => (p.1, 0)) s) s

/-- The offset that VNEXT reads in a code of width `w` (R327). -/
def vnextOffset (w c : Nat) : Int := signedOf (Nat.min w 32) c

/-- VNEXT (R35, R327). -/
def vnextBody (i : Instr) (a : VReg) : State → Res :=
  vpElems i a fun cs s =>
    let w := width s.h.fmt
    match cs.find? (fun p => vnextOffset w p.2 % 4 != 0) with
    | some (e, _) => .trap s (wholeTrap cIllegal (wd e))
    | none =>
      .gone (s.modH fun h => h.modGroup fun v =>
        let pc := v.entry + BitVec.ofInt 64 (vnextOffset w (lookupD 0 v.e cs))
        some { v with pc := pc, entry := pc })

/-- VPBR (R35, R339). -/
def vpbrBody (i : Instr) (o : BitVec 6) (a : VReg) : State → Res :=
  vpElems i a fun cs s =>
    .gone (s.modH fun h => h.modGroup fun v =>
      some { v with pc := if lookupD 0 v.e cs = 0 then v.pc + 4 else v.pc + o.signExtend 64 * 4 })

/-- VSTOP (R35, R339). -/
def vstopBody (i : Instr) (s : State) : Res :=
  match s.h.group with
  | none => illegal s
  | some _ => checkedWhole i none none (fun s => .gone (s.modH fun h => h.modGroup fun _ => none)) s

/-! The meanings. -/

/-- VFETCH (R327). -/
def execVfetch (x : Stack) (a : SReg) (m : MReg) (s : State) : Out := issue (.vfetch x a m) (vfetchBody x a m) s

/-- VNEXT (R327). -/
def execVnext (x : Stack) (a : VReg) (s : State) : Out := issue (.vnext x a) (vnextBody (.vnext x a) a) s

/-- VPBR (R339). -/
def execVpbr (x : Stack) (o : BitVec 6) (a : VReg) (s : State) : Out :=
  issue (.vpbr x o a) (vpbrBody (.vpbr x o a) o a) s

/-- VSTOP (R339). -/
def execVstop (x : Stack) (s : State) : Out := issue (.vstop x) (vstopBody (.vstop x)) s

end Sys2Proof.Machine
end

