-- ==== Sys2Proof/Machine/Dispatch.lean ====
section
/-! DEFINITION. The dispatch of instructions and module steps to their meanings. -/

namespace Sys2Proof.Machine

open Sys2Proof

def exec (i : Instr) (s : State) : Host.Outcome State Fault Refusal :=
  match i with
  | .add x d a b => Sys2Proof.Machine.execAdd x d a b s
  | .sub x d a b => Sys2Proof.Machine.execSub x d a b s
  | .and x d a b => Sys2Proof.Machine.execAnd x d a b s
  | .or x d a b => Sys2Proof.Machine.execOr x d a b s
  | .xor x d a b => Sys2Proof.Machine.execXor x d a b s
  | .shl x d a b => Sys2Proof.Machine.execShl x d a b s
  | .shr x d a b => Sys2Proof.Machine.execShr x d a b s
  | .sra x d a b => Sys2Proof.Machine.execSra x d a b s
  | .mul x d a b => Sys2Proof.Machine.execMul x d a b s
  | .mulh x d a b => Sys2Proof.Machine.execMulh x d a b s
  | .mulhn x d a b => Sys2Proof.Machine.execMulhn x d a b s
  | .div x d a b => Sys2Proof.Machine.execDiv x d a b s
  | .divn x d a b => Sys2Proof.Machine.execDivn x d a b s
  | .rem x d a b => Sys2Proof.Machine.execRem x d a b s
  | .remn x d a b => Sys2Proof.Machine.execRemn x d a b s
  | .min x d a b => Sys2Proof.Machine.execMin x d a b s
  | .max x d a b => Sys2Proof.Machine.execMax x d a b s
  | .minn x d a b => Sys2Proof.Machine.execMinn x d a b s
  | .maxn x d a b => Sys2Proof.Machine.execMaxn x d a b s
  | .slt x d a b => Sys2Proof.Machine.execSlt x d a b s
  | .sltn x d a b => Sys2Proof.Machine.execSltn x d a b s
  | .clz x d a => Sys2Proof.Machine.execClz x d a s
  | .popc x d a => Sys2Proof.Machine.execPopc x d a s
  | .shli x d a n => Sys2Proof.Machine.execShli x d a n s
  | .shri x d a n => Sys2Proof.Machine.execShri x d a n s
  | .srai x d a n => Sys2Proof.Machine.execSrai x d a n s
  | .addi x d a im => Sys2Proof.Machine.execAddi x d a im s
  | .andi x d a im => Sys2Proof.Machine.execAndi x d a im s
  | .ori x d a im => Sys2Proof.Machine.execOri x d a im s
  | .xori x d a im => Sys2Proof.Machine.execXori x d a im s
  | .slti x d a im => Sys2Proof.Machine.execSlti x d a im s
  | .lih x d im => Sys2Proof.Machine.execLih x d im s
  | .adpc x d im => Sys2Proof.Machine.execAdpc x d im s
  | .hint x e => Sys2Proof.Machine.execHint x e s
  | .nop x => Sys2Proof.Machine.execNop x s
  | .ld x d a im z => Sys2Proof.Machine.execLd x d a im z s
  | .st x d a im z => Sys2Proof.Machine.execSt x d a im z s
  | .jalr x d a im => Sys2Proof.Machine.execJalr x d a im s
  | .jal x d im => Sys2Proof.Machine.execJal x d im s
  | .beq x a b im => Sys2Proof.Machine.execBeq x a b im s
  | .bne x a b im => Sys2Proof.Machine.execBne x a b im s
  | .blt x a b im => Sys2Proof.Machine.execBlt x a b im s
  | .bge x a b im => Sys2Proof.Machine.execBge x a b im s
  | .bltn x a b im => Sys2Proof.Machine.execBltn x a b im s
  | .bgen x a b im => Sys2Proof.Machine.execBgen x a b im s
  | .caddi d im => Sys2Proof.Machine.execCaddi d im s
  | .cli d im => Sys2Proof.Machine.execCli d im s
  | .cmov d a => Sys2Proof.Machine.execCmov d a s
  | .cadd d a => Sys2Proof.Machine.execCadd d a s
  | .csub d a => Sys2Proof.Machine.execCsub d a s
  | .cbeqz a im => Sys2Proof.Machine.execCbeqz a im s
  | .cbnez a im => Sys2Proof.Machine.execCbnez a im s
  | .cj im => Sys2Proof.Machine.execCj im s
  | .cldw d a u => Sys2Proof.Machine.execCldw d a u s
  | .cldd d a u => Sys2Proof.Machine.execCldd d a u s
  | .cstw d a u => Sys2Proof.Machine.execCstw d a u s
  | .cstd d a u => Sys2Proof.Machine.execCstd d a u s
  | .vadd x d a b m sc => Sys2Proof.Machine.execVadd x d a b m sc s
  | .vsub x d a b m sc => Sys2Proof.Machine.execVsub x d a b m sc s
  | .vmul x d a b m sc => Sys2Proof.Machine.execVmul x d a b m sc s
  | .vmulh x d a b m sc => Sys2Proof.Machine.execVmulh x d a b m sc s
  | .vdiv x d a b m sc => Sys2Proof.Machine.execVdiv x d a b m sc s
  | .vmin x d a b m sc => Sys2Proof.Machine.execVmin x d a b m sc s
  | .vmax x d a b m sc => Sys2Proof.Machine.execVmax x d a b m sc s
  | .vand x d a b m sc => Sys2Proof.Machine.execVand x d a b m sc s
  | .vor x d a b m sc => Sys2Proof.Machine.execVor x d a b m sc s
  | .vxor x d a b m sc => Sys2Proof.Machine.execVxor x d a b m sc s
  | .vshl x d a b m sc => Sys2Proof.Machine.execVshl x d a b m sc s
  | .vshr x d a b m sc => Sys2Proof.Machine.execVshr x d a b m sc s
  | .vsra x d a b m sc => Sys2Proof.Machine.execVsra x d a b m sc s
  | .vadc x d a b c sc => Sys2Proof.Machine.execVadc x d a b c sc s
  | .vsbc x d a b c sc => Sys2Proof.Machine.execVsbc x d a b c sc s
  | .vfma x d a b m sc => Sys2Proof.Machine.execVfma x d a b m sc s
  | .vfms x d a b m sc => Sys2Proof.Machine.execVfms x d a b m sc s
  | .vfnma x d a b m sc => Sys2Proof.Machine.execVfnma x d a b m sc s
  | .vfnms x d a b m sc => Sys2Proof.Machine.execVfnms x d a b m sc s
  | .vsel x d a b c sc => Sys2Proof.Machine.execVsel x d a b c sc s
  | .vcmp x c d a b m sc => Sys2Proof.Machine.execVcmp x c d a b m sc s
  | .vbsadd x d a b m => Sys2Proof.Machine.execVbsadd x d a b m s
  | .vbsmul x d a b m => Sys2Proof.Machine.execVbsmul x d a b m s
  | .vabs x d a m => Sys2Proof.Machine.execVabs x d a m s
  | .vneg x d a m => Sys2Proof.Machine.execVneg x d a m s
  | .vsqrt x d a m => Sys2Proof.Machine.execVsqrt x d a m s
  | .vrcp x d a m => Sys2Proof.Machine.execVrcp x d a m s
  | .vrsq x d a m => Sys2Proof.Machine.execVrsq x d a m s
  | .vexp2 x d a m => Sys2Proof.Machine.execVexp2 x d a m s
  | .vlog2 x d a m => Sys2Proof.Machine.execVlog2 x d a m s
  | .vclass x d a m => Sys2Proof.Machine.execVclass x d a m s
  | .vnot x d a m => Sys2Proof.Machine.execVnot x d a m s
  | .vclz x d a m => Sys2Proof.Machine.execVclz x d a m s
  | .vpopc x d a m => Sys2Proof.Machine.execVpopc x d a m s
  | .vfetch x a m => Sys2Proof.Machine.execVfetch x a m s
  | .vstop x => Sys2Proof.Machine.execVstop x s
  | .vnext x a => Sys2Proof.Machine.execVnext x a s
  | .vpbr x o a => Sys2Proof.Machine.execVpbr x o a s
  | .vmov x d a m => Sys2Proof.Machine.execVmov x d a m s
  | .vmovScalar x d a m => Sys2Proof.Machine.execVmovScalar x d a m s
  | .vrsum x d a m => Sys2Proof.Machine.execVrsum x d a m s
  | .vrmax x d a m => Sys2Proof.Machine.execVrmax x d a m s
  | .vrmin x d a m => Sys2Proof.Machine.execVrmin x d a m s
  | .vrand x d a m => Sys2Proof.Machine.execVrand x d a m s
  | .vror x d a m => Sys2Proof.Machine.execVror x d a m s
  | .mand x d a b => Sys2Proof.Machine.execMand x d a b s
  | .mor x d a b => Sys2Proof.Machine.execMor x d a b s
  | .mxor x d a b => Sys2Proof.Machine.execMxor x d a b s
  | .mandn x d a b => Sys2Proof.Machine.execMandn x d a b s
  | .mnot x d a => Sys2Proof.Machine.execMnot x d a s
  | .mshl x d a b => Sys2Proof.Machine.execMshl x d a b s
  | .mpopc x d a => Sys2Proof.Machine.execMpopc x d a s
  | .mfirst x d a => Sys2Proof.Machine.execMfirst x d a s
  | .mset x d a => Sys2Proof.Machine.execMset x d a s
  | .vscl x k a f m r => Sys2Proof.Machine.execVscl x k a f m r s
  | .vcvt x d a f m r => Sys2Proof.Machine.execVcvt x d a f m r s
  | .vperm x d a im m => Sys2Proof.Machine.execVperm x d a im m s
  | .vbsj x d a => Sys2Proof.Machine.execVbsj x d a s
  | .vresh x d a f => Sys2Proof.Machine.execVresh x d a f s
  | .vext x d a b => Sys2Proof.Machine.execVext x d a b s
  | .vins x d a b => Sys2Proof.Machine.execVins x d a b s
  | .vcomp x d a m => Sys2Proof.Machine.execVcomp x d a m s
  | .vargmax x d a m => Sys2Proof.Machine.execVargmax x d a m s
  | .vdecb x d a z y w => Sys2Proof.Machine.execVdecb x d a z y w s
  | .vbsl x d a => Sys2Proof.Machine.execVbsl x d a s
  | .vidx x d sc t => Sys2Proof.Machine.execVidx x d sc t s
  | .vld x d a m => Sys2Proof.Machine.execVld x d a m s
  | .vldStrided x d a b m => Sys2Proof.Machine.execVldStrided x d a b m s
  | .vldx x d a im m => Sys2Proof.Machine.execVldx x d a im m s
  | .vldm x d a b m => Sys2Proof.Machine.execVldm x d a b m s
  | .vldb x d a b m => Sys2Proof.Machine.execVldb x d a b m s
  | .vldbS2c x d a b m => Sys2Proof.Machine.execVldbS2c x d a b m s
  | .vpref x a m => Sys2Proof.Machine.execVpref x a m s
  | .vprefStrided x a b m => Sys2Proof.Machine.execVprefStrided x a b m s
  | .vprefIndexed x a im m => Sys2Proof.Machine.execVprefIndexed x a im m s
  | .vkld x k a => Sys2Proof.Machine.execVkld x k a s
  | .vst x v a m => Sys2Proof.Machine.execVst x v a m s
  | .vstStrided x v a b m => Sys2Proof.Machine.execVstStrided x v a b m s
  | .vstx x v a im m => Sys2Proof.Machine.execVstx x v a im m s
  | .vstb x v a b m => Sys2Proof.Machine.execVstb x v a b m s
  | .vstbC2s x v a b m => Sys2Proof.Machine.execVstbC2s x v a b m s
  | .vred x v a m => Sys2Proof.Machine.execVred x v a m s
  | .vredIndexed x v a im m => Sys2Proof.Machine.execVredIndexed x v a im m s
  | .vkst x k a => Sys2Proof.Machine.execVkst x k a s
  | .vamo x o d a im m => Sys2Proof.Machine.execVamo x o d a im m s
  | .vamoSwap x d a im m => Sys2Proof.Machine.execVamoSwap x d a im m s
  | .qdrop x n => Sys2Proof.Machine.execQdrop x n s
  | .tkclr x => Sys2Proof.Machine.execTkclr x s
  | .msetm x l => Sys2Proof.Machine.execMsetm x l s
  | .mzero x t => Sys2Proof.Machine.execMzero x t s
  | .mrel x => Sys2Proof.Machine.execMrel x s
  | .mop x a b => Sys2Proof.Machine.execMop x a b s
  | .mrow x im v vb => Sys2Proof.Machine.execMrow x im v vb s
  | .mmovv x d a b m t => Sys2Proof.Machine.execMmovv x d a b m t s
  | .mlda x v a b m t => Sys2Proof.Machine.execMlda x v a b m t s
  | .mstaStrided x a b m t => Sys2Proof.Machine.execMstaStrided x a b m t s
  | .mstaIndexed x a im m t => Sys2Proof.Machine.execMstaIndexed x a im m t s
  | .cecopy x a b => Sys2Proof.Machine.execCecopy x a b s
  | .cefill x a b => Sys2Proof.Machine.execCefill x a b s
  | .cestat x d => Sys2Proof.Machine.execCestat x d s
  | .launch x d a => Sys2Proof.Machine.execLaunch x d a s
  | .farm x a b => Sys2Proof.Machine.execFarm x a b s
  | .bar x a sc => Sys2Proof.Machine.execBar x a sc s
  | .xsend x a v => Sys2Proof.Machine.execXsend x a v s
  | .xrecv x d a => Sys2Proof.Machine.execXrecv x d a s
  | .amsg x d a b => Sys2Proof.Machine.execAmsg x d a b s
  | .setvl x d a f n => Sys2Proof.Machine.execSetvl x d a f n s
  | .setvlb x d f n z y w => Sys2Proof.Machine.execSetvlb x d f n z y w s
  | .setsh x d sc k f => Sys2Proof.Machine.execSetsh x d sc k f s
  | .csrr x d c => Sys2Proof.Machine.execCsrr x d c s
  | .csrw x a c => Sys2Proof.Machine.execCsrw x a c s
  | .csrs x a c => Sys2Proof.Machine.execCsrs x a c s
  | .csrc x a c => Sys2Proof.Machine.execCsrc x a c s
  | .amo x d a b o z => Sys2Proof.Machine.execAmo x d a b o z s
  | .cas x d a b z => Sys2Proof.Machine.execCas x d a b z s
  | .ldaq x d a sc z => Sys2Proof.Machine.execLdaq x d a sc z s
  | .strl x d a sc z => Sys2Proof.Machine.execStrl x d a sc z s
  | .claim x d a b => Sys2Proof.Machine.execClaim x d a b s
  | .waitm x a b => Sys2Proof.Machine.execWaitm x a b s
  | .sysc x => Sys2Proof.Machine.execSysc x s
  | .tret x => Sys2Proof.Machine.execTret x s
  | .exit x => Sys2Proof.Machine.execExit x s
  | .fence x sc c => Sys2Proof.Machine.execFence x sc c s
  | .vsave x a => Sys2Proof.Machine.execVsave x a s
  | .vrest x a => Sys2Proof.Machine.execVrest x a s
  | .incb x d a => Sys2Proof.Machine.execIncb x d a s
  | .rcf x d a => Sys2Proof.Machine.execRcf x d a s
  | .slwb x a b => Sys2Proof.Machine.execSlwb x a b s
  | .hmsw x a => Sys2Proof.Machine.execHmsw x a s
  | .gangAdmission die => Sys2Proof.Machine.execGangAdmission die s
  | .waitcRead g => Sys2Proof.Machine.execWaitcRead g s
  | .doneAdd g => Sys2Proof.Machine.execDoneAdd g s
  | .gangStaging g c => Sys2Proof.Machine.execGangStaging g c s
  | .budgetExpiry g => Sys2Proof.Machine.execBudgetExpiry g s
  | .forcedStop c k => Sys2Proof.Machine.execForcedStop c k s
  | .ageingPriorityRaise c k => Sys2Proof.Machine.execAgeingPriorityRaise c k s
  | .lcOnToRetention c l => Sys2Proof.Machine.execLcOnToRetention c l s
  | .lcRetentionToOff c l => Sys2Proof.Machine.execLcRetentionToOff c l s
  | .laneClusterWake c l => Sys2Proof.Machine.execLaneClusterWake c l s
  | .registerRefill c k v => Sys2Proof.Machine.execRegisterRefill c k v s
  | .stripeIssue c k => Sys2Proof.Machine.execStripeIssue c k s
  | .instructionRetirement c k => Sys2Proof.Machine.execInstructionRetirement c k s
  | .interruptTaken c k => Sys2Proof.Machine.execInterruptTaken c k s
  | .protectionViolation master addr => Sys2Proof.Machine.execProtectionViolation master addr s
  | .pageSortingRound c k pages => Sys2Proof.Machine.execPageSortingRound c k pages s
  | .translationWalk c cid va => Sys2Proof.Machine.execTranslationWalk c cid va s
  | .tlbInvalidationAck c piece => Sys2Proof.Machine.execTlbInvalidationAck c piece s
  | .ptStoreCompletion c k => Sys2Proof.Machine.execPtStoreCompletion c k s
  | .wordRegistration c k at_ val be => Sys2Proof.Machine.execWordRegistration c k at_ val be s
  | .sliceRead r at_ => Sys2Proof.Machine.execSliceRead r at_ s
  | .readForward c pa => Sys2Proof.Machine.execReadForward c pa s
  | .missTableAdmission sl => Sys2Proof.Machine.execMissTableAdmission sl s
  | .responseArrival c pa => Sys2Proof.Machine.execResponseArrival c pa s
  | .writeBack c pa => Sys2Proof.Machine.execWriteBack c pa s
  | .homeWriteApply w pa bytes => Sys2Proof.Machine.execHomeWriteApply w pa bytes s
  | .sharerInvalidation a piece => Sys2Proof.Machine.execSharerInvalidation a piece s
  | .homeAtomic r op z pa b => Sys2Proof.Machine.execHomeAtomic r op z pa b s
  | .claimService c k pa req => Sys2Proof.Machine.execClaimService c k pa req s
  | .farmWrite at_ total => Sys2Proof.Machine.execFarmWrite at_ total s
  | .vredElementAdd c k => Sys2Proof.Machine.execVredElementAdd c k s
  | .progressWordAdd c k => Sys2Proof.Machine.execProgressWordAdd c k s
  | .multicastHeader c k => Sys2Proof.Machine.execMulticastHeader c k s
  | .multicastBeatSend part => Sys2Proof.Machine.execMulticastBeatSend part s
  | .tellerHandlerRun t => Sys2Proof.Machine.execTellerHandlerRun t s
  | .handlerAbort t => Sys2Proof.Machine.execHandlerAbort t s
  | .copyEngineTransfer c k => Sys2Proof.Machine.execCopyEngineTransfer c k s
  | .monitorWake c k => Sys2Proof.Machine.execMonitorWake c k s
  | .xrecvMessageArrival c k => Sys2Proof.Machine.execXrecvMessageArrival c k s
  | .incarnationChange p cid => Sys2Proof.Machine.execIncarnationChange p cid s
  | .sweepReport ck cid inc => Sys2Proof.Machine.execSweepReport ck cid inc s
  | .dieLossReport a => Sys2Proof.Machine.execDieLossReport a s
  | .linkRetrain l => Sys2Proof.Machine.execLinkRetrain l s
  | .linkRetrainTimeout l => Sys2Proof.Machine.execLinkRetrainTimeout l s
  | .linkTrained p dev => Sys2Proof.Machine.execLinkTrained p dev s
  | .agentRejoin a => Sys2Proof.Machine.execAgentRejoin a s
  | .weakarRequestAdmission p r => Sys2Proof.Machine.execWeakarRequestAdmission p r s
  | .hostSnoop piece => Sys2Proof.Machine.execHostSnoop piece s
  | .arrayErrorDetected loc correctable => Sys2Proof.Machine.execArrayErrorDetected loc correctable s
  | .junctionOverTemperature a => Sys2Proof.Machine.execJunctionOverTemperature a s
  | .powerCapExceeded watts => Sys2Proof.Machine.execPowerCapExceeded watts s
  | .powcapWrite v => Sys2Proof.Machine.execPowcapWrite v s
  | .selfidWrite v => Sys2Proof.Machine.execSelfidWrite v s
  | .portEnableWrite p v => Sys2Proof.Machine.execPortEnableWrite p v s
  | .deviceRegisterWrite off v => Sys2Proof.Machine.execDeviceRegisterWrite off v s
  | .hostLinkRequest r => Sys2Proof.Machine.execHostLinkRequest r s
  | .missFillAnswer sl piece => Sys2Proof.Machine.execMissFillAnswer sl piece s
  | .powerDrawBelowCap watts => Sys2Proof.Machine.execPowerDrawBelowCap watts s
  | .cmdLaunch => Sys2Proof.Machine.execCmdLaunch s
  | .cmdIncb => Sys2Proof.Machine.execCmdIncb s
  | .cmdRcf => Sys2Proof.Machine.execCmdRcf s
  | .cmdSlwb => Sys2Proof.Machine.execCmdSlwb s
  | .cmdHmsw => Sys2Proof.Machine.execCmdHmsw s
  | .cmdDeclareFailed => Sys2Proof.Machine.execCmdDeclareFailed s
  | .cmdResumeHart => Sys2Proof.Machine.execCmdResumeHart s
  | .cmdRetireHart => Sys2Proof.Machine.execCmdRetireHart s
  | .cmdPreEmptGang => Sys2Proof.Machine.execCmdPreEmptGang s
  | .cmdReleaseMaster => Sys2Proof.Machine.execCmdReleaseMaster s
  | .cmdContextTable => Sys2Proof.Machine.execCmdContextTable s
  | .cmdInterruptHart => Sys2Proof.Machine.execCmdInterruptHart s
  | .cmdRerunGang => Sys2Proof.Machine.execCmdRerunGang s
  | .cmdFarm => Sys2Proof.Machine.execCmdFarm s
  | .cmdLoadTellers => Sys2Proof.Machine.execCmdLoadTellers s
  | .cmdAttest => Sys2Proof.Machine.execCmdAttest s
  | .cmdUnknown => Sys2Proof.Machine.execCmdUnknown s
  | .commandCompletion => Sys2Proof.Machine.execCommandCompletion s
  | .boot => Sys2Proof.Machine.execBoot s
  | .mextWrite => Sys2Proof.Machine.execMextWrite s
  | .measurementDone => Sys2Proof.Machine.execMeasurementDone s
  | .hostLinkTrained => Sys2Proof.Machine.execHostLinkTrained s

end Sys2Proof.Machine
end

