-- ==== Sys2Proof/Machine/Step.lean ====
section
/-! DEFINITION. The step of the machine, and how a test places one instruction where the next step fetches it. -/

namespace Sys2Proof.Machine

/-- One step. -/
def step (s : State) : Host.Outcome State Fault Refusal := runStep exec s

/-- The address at which `withFetchWord` places an instruction. -/
def probePc : Nat := 0x10000

/-- The hart that `withFetchWord` lets run: privileged, hart 0 of core 0, at `probePc`, its backing area out of the way. -/
def probeHart : Hart := { Hart.reset with status := .running, pc := wd probePc, vbase := 0x400000 }

/-- Memory with a context-table entry for CID 0 and a 1 GiB leaf that maps addresses below 1 GiB to themselves with every
permission, and the bytes given at `probePc`. -/
def probeMem (m : Mem) (bytes : List Byte) : Mem :=
  let put := fun (a v : Nat) (m : Mem) => m.agentWrite false a (natToBytes 8 v)
  let m := (put 0x100000 0x200001 (put 0x200000 0x201001 (put 0x201000 0x202001 (put 0x202000 0x7F
    { m with l1 := [], transl := [], ptrs := [] })))).agentWrite false 0x100008 (natToBytes 8 0)
  m.agentWrite false probePc bytes

/-- `s` with an instruction stored where the next step fetches one: a gang's hart is placed and its memory mapped, which
stands for boot, LAUNCH and the load of a program (DESIGN CHOICE, log entry 7). -/
def State.withFetchWord (s : State) (nbits w : Nat) : State :=
  { s with
    h := probeHart
    rest := []
    held := []
    inbox := []
    mem := probeMem s.mem (natBytes 28 (w % 2 ^ nbits))
    sys := { s.sys with ctxBase := 0x100000, booted := true, withheld := false } }

end Sys2Proof.Machine
end

