-- ==== Sys2Proof/Safety.lean ====
section
/-! DEFINITION. The terms that statements use: runs that go on; a form that can issue and retire at once, and the state
that it leaves; a hart on which no upset, poison or trap enable stands in the way; where a trap leads. -/

namespace Sys2Proof

/-- The next step of a state goes on. -/
def Goes (s : Machine.State) : Prop := ∃ t, Machine.step s = .next t

/-- A run of `n` steps goes on. -/
def SafeRun (n : Nat) (s : Machine.State) : Prop := ∃ t, core.run n s = .next t

namespace Machine

/-- The state in which the body of a form runs: the token that the form pops has been taken (R109). -/
def issued (i : Instr) (s : State) : State :=
  match popFifo i.stack i.adm.queue with
  | none => s
  | some f => s.modH fun h => { h with tokens := h.tokens.setIfInBounds f (h.tokens.getD f 0 - 1) }

/-- A form of the control thread can issue and retire at once: the hart runs, no block of virtual processors runs, no instruction
resumes, no older form waits for its retirement, none has issued ahead of its turn, the token that the form pops is there,
and the FIFO that it pushes to has a place (R25, R109); and where the form does more than write the hart's own registers, no
outstanding transfer that it may have to wait for is held up by a frozen queue, a link that retrains or an open multicast entry
(R214, R166, R135). -/
structure Issues (i : Instr) (s : State) : Prop where
  runs : s.h.status = .running
  thread : s.h.vp = none
  afresh : s.h.resume = none
  alone : s.heldOf s.h = []
  inTurn : s.h.ahead = []
  free : i.effect = .internal ∨ s.stuck = false
  token : ∀ f, popFifo i.stack i.adm.queue = some f → s.h.tokens.getD f 0 ≠ 0
  place : ∀ f, pushFifo i.stack i.adm.queue = some f → (issued i s).h.hasPlace f = true

/-- The state that a form leaves when its body leaves `t` and the hart goes on at `pc`: its token is pushed (R109). -/
def completed (i : Instr) (t : State) (pc : Word) : State :=
  let u := t.modH fun h => { h with pc := pc, status := .running, resume := none, ahead := h.ahead.tail }
  match pushFifo i.stack i.adm.queue with
  | none => u
  | some f => u.modH fun h => h.pushTok f

/-- The address behind a form. -/
def behind (i : Instr) (s : State) : Word := s.h.pc + wd (formLen i)

/-- The outcome of a form that completes, leaves `t` of the state in which it ran, and goes on behind itself. -/
def passes (i : Instr) (s : State) (f : State → State) : Out := .next (completed i (f (issued i s)) (behind i s))

/-- The same for a form that goes on at `pc`. -/
def jumpsTo (i : Instr) (s : State) (f : State → State) (pc : Word) : Out := .next (completed i (f (issued i s)) pc)

/-- The outcome of a form that traps as a whole (R190): its token is put back (R109), and the trap is taken. -/
def trapsWith (s : State) (t : TrapInfo) : Out := .next (takeTrap t (s.h.pc + wd t.unit) false s)

/-- No computation upset is to come (R209 to R213). -/
def NoUpset (s : State) : Prop := s.upsets = []

/-- None of these scalar registers is poisoned (R206). -/
def Clean (rs : List SReg) (s : State) : Prop := ∀ r ∈ rs, s.h.sPoison r = false

/-! Shapes of completion. -/

/-- `i` completes, and writes `v` to the scalar register `d` (R272); it reads the scalar registers `rs`. With d = s0 it
reads nothing and writes nothing (R267). -/
def WritesScalar (i : Instr) (d : SReg) (rs : List SReg) (v : State → Word) : Prop :=
  ∀ s, Issues i s → (d = 0 ∨ Clean rs s ∧ NoUpset s) → exec i s = passes i s fun t => t.writeS d (v s)

/-- `i` goes on at `target` when `taken`, and behind itself when not, and changes nothing else (R283). -/
def Branches (i : Instr) (rs : List SReg) (taken : State → Bool) (target : State → Word) : Prop :=
  ∀ s, Issues i s → Clean rs s → exec i s = jumpsTo i s id (if taken s then target s else behind i s)

/-- An access of `n` bytes at `va` reaches the place `p`: its probe finds no fault (R179), no engine transfer of the hart
is outstanding (R120), and it meets no backing area (R104). -/
structure Reaches (need : Need) (va : Int) (n : Nat) (p : Phys) (s : State) : Prop where
  place : probe s need va n n = .ok p
  idle : s.h.xfers = []
  plainly : s.inBacking va.toNat n = false

/-- `i` completes as a load (R296): `pre` stands before the read, and s[d] takes the `n` bytes at s[a] + off,
sign-extended, with their poison. -/
def Loads (i : Instr) (pre : State → State) (d a : SReg) (off : Int) (n : Nat) : Prop :=
  ∀ s p, Issues i s → Clean [a] s → Reaches needLd (s.readN a + off) n p s →
    exec i s = passes i s fun t =>
      let b := (pre t).readPhys (pre t).h.core p n
      (pre t).writeSP d (sextBytes b.1) b.2.isSome

/-- `i` completes as a store (R309): `pre` stands before the write, and the low `n` bytes of s[d] go to s[a] + off, with
the poison of s[d]. -/
def Stores (i : Instr) (pre : State → State) (d a : SReg) (off : Int) (n : Nat) : Prop :=
  ∀ s p, Issues i s → Clean [a] s → Reaches needSt (s.readN a + off) n p s →
    exec i s = passes i s fun t => (pre t).writePhys (pre t).h p (natToBytes n (s.readN d)) (s.h.sPoison d)

/-- `i` completes as a read-modify-write (R161): after the release and before the acquire of the form's memory modifier
(R262), the `n` bytes at the home of s[a] become what `f` makes of them, where it makes something, and s[d] takes the old
ones, sign-extended; the poison of the old bytes goes to both. -/
def Updates (i : Instr) (x : Stack) (d a : SReg) (rs : List SReg) (n : Nat)
    (f : State → BitVec (8 * n) → Option (BitVec (8 * n))) : Prop :=
  ∀ s p, Issues i s → Clean (a :: rs) s → Reaches needAtomic (s.readN a) n p s →
    exec i s = passes i s fun t =>
      let h := (relOf x t).atHome t.h p n
      let old := h.curPhys h.h.core p n
      let u := match f s (BitVec.ofNat (8 * n) (bytesNat old.1)) with
        | none => h
        | some v => h.writeHome h.h p (natToBytes n v.toNat) old.2.isSome
      acqOf x (u.writeSP d (sextBytes old.1) old.2.isSome)

/-- The form of memory: its stores are canonical, and every registration stands at a word (R126). -/
def Mem.Formed (m : Mem) : Prop := m.wf = true ∧ ∀ r ∈ m.regd, wordAt r.pa = r.pa

/-- Memory is in its form, and no word is registered twice (R126). -/
def Mem.Sound (m : Mem) : Prop := m.Formed ∧ (m.regd.map fun r => r.pa).Nodup

/-- A place in memory: not a scratchpad, not a device register, not on a part that is lost. -/
def State.holds (s : State) (p : Phys) : Prop :=
  p.spad = false ∧ homeAgent p.pa ≠ some .device ∧ s.sys.homeLost p.pa = false

/-- The hart in focus is the only one placed at its core and context. -/
def State.placedOnce (s : State) : Prop := ∀ h ∈ s.rest, h.core = s.h.core → h.ctx = s.h.ctx → h.status = .absent

/-- What a store of `n` bytes of s[d] at s[a] + off leaves. In memory: the latest value of every byte outside those stored to,
which is all of it where the place is in a scratchpad or a device register; and the bytes stored, the lowest first (R5). In
the scratchpads: the same. A device register is written by a step of its own (R231), which is posted. Of the hart: every register
but the pc, the tokens of the form and the count of outstanding PT stores, and, after a release, FST. Of the other harts:
everything but a count of outstanding PT stores, and that one which monitors the bytes stored wakes (R165). The module and its cores
stay. The store meets no backing area, and no transfer of another hart that a release behind a write to tables would complete. -/
def StoresOnly (i : Instr) (d a : SReg) (off : Int) (n : Nat) : Prop :=
  ∀ s t p, Issues i s → Clean [a] s → Reaches needSt (s.readN a + off) n p s → s.mem.Formed → s.placedOnce →
    (p.spad = false → s.backed p.pa n = false) → (s.owesAcks s.h = false ∨ ∀ k ∈ s.rest, k.xfers = []) → exec i s = .next t →
    let device := p.spad = false ∧ homeAgent p.pa = some .device
    let at_ := spadAt s.h.core p.pa
    (∀ y, (p.spad = true ∨ device ∨ y < p.pa ∨ p.pa + n ≤ y) → t.mem.curByte y = s.mem.curByte y) ∧
    (s.holds p → ∀ j < n, t.mem.curByte (p.pa + j) = BitVec.ofNat 8 (s.readN d / 256 ^ j)) ∧
    (∀ y, (p.spad = false ∨ y < at_ ∨ at_ + n ≤ y) → t.mem.spad.get unlisted y = s.mem.spad.get unlisted y) ∧
    (p.spad = true → ∀ j < n, t.mem.spad.get unlisted (at_ + j) = BitVec.ofNat 8 (s.readN d / 256 ^ j)) ∧
    (device → Instr.deviceRegisterWrite (p.pa - devBase) (wd (s.readN d % 2 ^ (8 * n))) ∈ t.inbox) ∧
    t.h = { s.h with pc := behind i s, tokens := t.h.tokens, ptStores := t.h.ptStores, fst := t.h.fst, lost := t.h.lost } ∧
    (∃ z : Hart → Nat, t.rest = s.rest.map fun k =>
      { (if k.monitors (p.key s.h.core) n then (wakeHart k).1 else k) with ptStores := z k }) ∧
    t.sys = s.sys ∧ t.cores = s.cores ∧ t.upsets = s.upsets

/-! Vector forms. -/

/-- A vector form is legal, and nothing but its own elements can make it trap or wait: its format is one it admits (R59),
no offset stands on a bit-sliced source (R47), its registers are declared (R29), a mask stands only up to 65 536 elements
(R301); no register of the hart is held off chip (R103), no upset is to come (R209), and the whole form runs (R57). -/
structure VecReady (x : Stack) (ok : Bool) (regs : List VReg) (masks : List MReg) (s : State) : Prop where
  format : ok = true
  offsets : isSliced s.h.fmt = true → x.ofs.any Ofs.nonZero = false
  declared : ∀ r ∈ regs, r.val < s.h.nreg
  short : s.h.vl ≤ 65536 ∨ ∀ m ∈ masks, m = 0
  onChip : s.h.offChip = []
  steady : NoUpset s
  whole : s.h.single = false

/-- The active elements, in ascending order: those below VL whose mask bit is true, or false under F (R300, R261). -/
def Hart.on (h : Hart) (m : MReg) (inv : Bool) : List Nat :=
  (List.range h.vl).filter fun e => h.maskBit m e != (m != 0 && inv)

/-- No word of a mask that decides an element below VL is poisoned. -/
def Hart.maskClean (h : Hart) (m : MReg) : Prop := ∀ e < h.vl, h.maskPoison m e = none

/-- Each queue holds an entry (R107). -/
def Hart.filled (h : Hart) (qs : List (Fin 4)) : Prop := ∀ q ∈ qs, h.queues[q] ≠ []

/-- A read gives the code `c`, clean. -/
def RRes.gives (r : RRes) (c : Nat) : Prop := ∃ o, r = .code c o none

/-- The operands of the registers `rs`, in layout `y`. -/
def Hart.operands (h : Hart) (y : Layout) (rs : List VReg) : Env := h.env y none rs

/-- The flags of elements together (R72, R75). -/
def orAll (fs : List Nat) : Nat := fs.foldl (· ||| ·) 0

/-- Each element of `es` of vd takes its code, and the flags of all join FFLAGS (R300, R72). -/
def written (d : VReg) (y : Layout) (es : List Nat) (v : Nat → Nat × Nat) (p : Nat → Bad := fun _ => 0) (h : Hart) : Hart :=
  (putReg d y (es.map fun e => (e, (v e).1, p e, false)) h).raise (orAll (es.map fun e => (v e).2))

/-- The lane clusters wake; each element of `es` of vd takes its code; the flags of all join FFLAGS (R300). `v` gives the
code and the flags of an element, `p` its poisoned words (R206). -/
def elementwise (d : VReg) (y : Layout) (es : List Nat) (v : Nat → Nat × Nat) (p : Nat → Bad := fun _ => 0)
    (t : State) : State :=
  t.wakeLanes.modH (written d y es v p)

/-- The same for a mask register, each element of which takes a bit. -/
def bitwise (d : MReg) (es : List Nat) (b : Nat → Bool) (f : Nat → Nat) (t : State) : State :=
  t.wakeLanes.modH fun h =>
    (putBitsOf d (es.map fun e => (e, 0, 0, b e)) h).raise (orAll (es.map f))

/-- Entries are taken from the queues that the sources name (R106). -/
def consumed (p q : Src) (t : State) : State := t.modH fun h => h.popQueues (queuesOf p q)

/-- The element-wise instruction that `mk` makes, of two sources and, where `third`, the old vd: in the formats that `ok`
admits it completes, and each active element becomes what `g` makes of the codes read, where no enabled flag is raised
(R300, R75). Sources are read with their displacements, shells and scalars, or from a queue (R52, R106). -/
def ElementTwo (mk : Stack → VReg → VReg → Fin 64 → MReg → Bool → Instr) (ok : Fmt → Bool) (third : Bool)
    (g : Hart → Nat → Nat → Nat → Nat × Nat) : Prop :=
  ∀ x d a b m sc s (u v w : Nat → Nat),
    let i := mk x d a b m sc
    let p := s.h.src1 x a
    let q := s.h.src2 x b sc
    let y := s.h.layout
    let es := s.h.on m (maskInv x)
    let o := s.h.operands y ((if third then [d] else []) ++ s.h.regsOf p ++ s.h.regsOf q)
    Issues i s → VecReady x (ok s.h.fmt) (d :: (p.reg? ++ q.reg?)) [m] s → s.h.filled (queuesOf p q) →
    s.h.maskClean m →
    (∀ e ∈ es, (o.read p e).gives (u e) ∧ (o.read q e).gives (v e) ∧ (third = true → (o.elem d e).gives (w e)) ∧
      (third = false → w e = 0) ∧ (g s.h (u e) (v e) (w e)).2 &&& s.h.enables = 0) →
    exec i s = passes i s fun t => consumed p q (elementwise d y es (fun e => g s.h (u e) (v e) (w e)) (t := t))

/-- The same for one source. -/
def ElementOne (mk : Stack → VReg → VReg → MReg → Instr) (ok : Fmt → Bool) (g : Hart → Nat → Nat × Nat) : Prop :=
  ∀ x d a m s (u : Nat → Nat),
    let i := mk x d a m
    let p := s.h.src1 x a
    let y := s.h.layout
    let es := s.h.on m (maskInv x)
    let o := s.h.operands y (s.h.regsOf p ++ s.h.regsOf p)
    Issues i s → VecReady x (ok s.h.fmt) (d :: p.reg?) [m] s → s.h.filled (queuesOf p p) → s.h.maskClean m →
    (∀ e ∈ es, (o.read p e).gives (u e) ∧ (g s.h (u e)).2 &&& s.h.enables = 0) →
    exec i s = passes i s fun t => consumed p p (elementwise d y es (fun e => g s.h (u e)) (t := t))

/-! Where vector forms trap (R53, R75, R191, R194, R195), and what the checks of two and three runs come to (R210 to R213). -/

/-- The flags that have an enable, in the order of R191, and the cause of each (Tables 4-7 and 10-6): NV, DZ, OF, UF, NX, SAT.
-/
def flagCauses : List (Nat × Nat) := [(4, 0x10), (3, 0x11), (2, 0x12), (1, 0x13), (0, 0x14), (5, 0x15)]

/-- The cause with which an element traps: that of a shell trap, where a read of it meets one (`none`, R53); else that of the
first enabled flag that it raises (R75). -/
def trapCause (enables : Nat) : Option Nat → Option Nat
  | none => some 0x18
  | some f => (flagCauses.find? fun p => (f &&& enables).testBit p.1).map (·.2)

/-- What the reads of an element of two sources come to: the result of `g` on two clean codes, or none at a shell trap. -/
def reads2 (a b : RRes) (g : Nat → Nat → Nat × Nat) (r : Option (Nat × Nat)) : Prop :=
  (∃ u v, a.gives u ∧ b.gives v ∧ r = some (g u v)) ∨
  (a = .shell ∧ (b = .shell ∨ ∃ v, b.gives v) ∨ b = .shell ∧ ∃ u, a.gives u) ∧ r = none

/-- An instruction of two sources, or of one that stands for both, that may issue, whose format, registers, queues and mask are
in order, and whose active elements read what `r` tells: a result with its flags, or a shell trap. -/
structure Reading (i : Instr) (x : Stack) (ok : Bool) (d : VReg) (p q : Src) (m : MReg) (third : Bool)
    (g : Nat → Nat → Nat → Nat × Nat) (r : Nat → Option (Nat × Nat)) (s : State) : Prop where
  issues : Issues i s
  ready : VecReady x ok (d :: (if p = q then p.reg? else p.reg? ++ q.reg?)) [m] s
  filled : s.h.filled (queuesOf p q)
  clean : s.h.maskClean m
  reads : let o := s.h.operands s.h.layout ((if third then [d] else []) ++ s.h.regsOf p ++ s.h.regsOf q)
    ∀ e ∈ s.h.on m (maskInv x), ∃ w, (third = true → (o.elem d e).gives w) ∧ (third = false → w = 0) ∧
      reads2 (o.read p e) (o.read q e) (fun u v => g u v w) (r e)

/-- The first trap of the active elements stands at element `t`, with the cause `c`: at the lowest stripe that holds one, and
there at the lowest element (R191). -/
def FirstTrap (es : List Nat) (stripe : Nat → Nat) (cause : Nat → Option Nat) (t c : Nat) : Prop :=
  t ∈ es ∧ cause t = some c ∧ ∀ e ∈ es, cause e ≠ none → stripe t < stripe e ∨ stripe t = stripe e ∧ t ≤ e

/-- The outcome of a vector instruction that traps at stripe `k` (R194, R195): the stripes below `k` stand committed, with their
flags; no later one does; the instruction is left open, with the value that vd held, and its queue entries stay; TPC is its
address. -/
def opensAt (i : Instr) (d : VReg) (p q : Src) (es : List Nat) (v : Nat → Option (Nat × Nat)) (code detail k : Nat) (val : Word)
    (s : State) (n : Nat) : Out :=
  let o : OpenInstr := { pc := s.h.pc, instr := i, stripe := k, kept := s.h.regCells d, keptMask := 0, keptBad := [], frees := queuesOf p q, purse := 0 }
  let y := s.h.layout
  .next (takeTrap { code := code, detail := detail, stripe := k, val := val, opened := some o } s.h.pc false
    (((issued i s).wakeLanes.modH fun h => h.countMismatch n).modH
      (written d y (es.filter fun e => y.stripe e < k) fun e => (v e).getD (0, 0))))

/-- Where an instruction that reads so traps, at an element of its own. -/
def TrapsInOrder (i : Instr) (x : Stack) (d : VReg) (p q : Src) (m : MReg) (r : Nat → Option (Nat × Nat)) (s : State) : Prop :=
  ∀ t c, FirstTrap (s.h.on m (maskInv x)) s.h.layout.stripe (fun e => trapCause s.h.enables ((r e).map (·.2))) t c →
    exec i s = opensAt i d p q (s.h.on m (maskInv x)) r c 0 (s.h.layout.stripe t) (wd t) s 0

/-- What a disagreement of the runs of such an instruction comes to, where nothing else stands in its way, `u` being the state
with one upset to come (R210, R211, R213): a word that two further runs, or two of three, agree on is counted in CHK.MCNT, and
the instruction goes on; a lane cluster that two further runs outvote is retired first, once (`u`, whose report does not fall
into the backing area of the hart); what no run settles is a data
error at its stripe, or the last one that is written. -/
def Checks (i : Instr) (x : Stack) (d : VReg) (p q : Src) (m : MReg) (r : Nat → Option (Nat × Nat)) (s : State) : Prop :=
  let es := s.h.on m (maskInv x)
  let k := fun k : Nat => min k (es.foldl (fun n e => max n (s.h.layout.stripe e)) 0)
  let counted := fun n : Nat => s.modH fun h => h.countMismatch n
  let meets := fun u : Upset => { s with upsets := [u] }
  let splits := fun (u : Upset) (detail n k : Nat) (e : Nat) => exec i (meets u) = opensAt i d p q es r 0x20 detail k (wd e) s n
  (∀ e ∈ es, trapCause s.h.enables ((r e).map (·.2)) = none) →
    (x.crit = false → s.h.chkEn = true →
      exec i (meets .mismatch) = exec i (counted 1) ∧
      (∀ j e, splits (.split j e) 2 2 (k j) e) ∧
      ∀ l j e, ((s.coreOf s.h.core).spUsed = true → splits (.outvoted l j e) 2 2 (k j) e) ∧
        ((s.coreOf s.h.core).spUsed = false → ∀ u, retireLc l ((issued i (counted 2)).wakeLanes) = some u →
          u.h.vregs = s.h.vregs → u.h.vgen = s.h.vgen → exec i (meets (.outvoted l j e)) = .next (completed i
            (consumed p q (u.modH (written d s.h.layout es fun e => (r e).getD (0, 0)))) (behind i s)))) ∧
    (x.crit = true →
      (∀ n, exec i (meets (.criticalOutvoted n)) = exec i (counted n)) ∧
      ∀ j e, splits (.criticalSplit j e) 3 0 (k j) e) ∧
    (x.crit = false → s.h.chkEn = false → ∀ u, exec i (meets u) = .next (completed i
      { (consumed p q (elementwise d s.h.layout es (fun e => (r e).getD (0, 0)) (t := issued i s))) with upsets := [u] } (behind i s)))

/-! Vector memory. -/

/-- The formats of every vector memory instruction but the unit-stride ones (R321). -/
def wideIn (s : State) : Bool := !isSliced s.h.fmt && 8 ≤ width s.h.fmt

/-- Unit stride (Table 16-8): the address and the number of the bytes that hold the bits from e * w on of the string at s[a]. -/
def unitAt (a : SReg) (s : State) (e : Nat) : Int × Nat :=
  let w := width s.h.fmt
  ((s.readN a : Int) + (e * w / 8 : Nat), (e * w % 8 + w + 7) / 8)

/-- A stride s[b], counted in elements (Table 16-8). -/
def strideAt (a b : SReg) (s : State) (e : Nat) : Int × Nat :=
  ((s.readN a : Int) + e * (s.h.sreg b).toInt * (width s.h.fmt / 8 : Nat), width s.h.fmt / 8)

/-- A byte offset `k e`, taken from a register (Table 16-8). -/
def offsetAt (a : SReg) (k : Nat → Nat) (s : State) (e : Nat) : Int × Nat :=
  ((s.readN a : Int) + signedOf (width s.h.fmt) (k e), width s.h.fmt / 8)

/-- A place of a raster array with rows of s[b] bytes and planes of s[c] bytes (R334). -/
def rasterAt (a b c : SReg) (s : State) (e : Nat) : Int × Nat :=
  let p := s.h.geo.coord e
  ((s.readN a : Int) + p.z * (s.h.sreg c).toInt + p.y * (s.h.sreg b).toInt + p.x * (width s.h.fmt / 8 : Nat),
    width s.h.fmt / 8)

/-- FX, FY and C of a pixel group (R98). -/
def pixelGroup (x : Stack) (s : State) : Nat × Nat × Nat :=
  (if (x.ext.getD 0).getLsbD 0 then 4 else 2, if (x.ext.getD 0).getLsbD 1 then 4 else 2, s.readN (extReg x))

/-- A pixel group is legal: its channels are not 0, and fit the field (R98). -/
def pixelsFit (x : Stack) (s : State) : Bool :=
  let g := pixelGroup x s
  x.ext.isSome && g.2.2 != 0 && g.1 * g.2.1 * g.2.2 ≤ s.h.geo.gx * s.h.geo.bx && wideIn s

/-- A channel of a pixel group; beyond the last one no access is made (R98, R99). -/
def pixelAt (x : Stack) (a b : SReg) (s : State) (e : Nat) : Int × Nat :=
  let g := pixelGroup x s
  let p := s.h.geo.coord e
  let n := p.x.toNat
  let c := g.2.2
  if g.1 * g.2.1 * c ≤ n then (0, 0)
  else ((s.readN a : Int) + ((p.z.toNat * g.2.1 + n / c / g.1 : Nat) : Int) * (s.h.sreg b).toInt +
    (((p.y.toNat * g.1 + n / c % g.1) * c + n % c) * (width s.h.fmt / 8) : Nat), width s.h.fmt / 8)

/-- The active elements of register `j` are the clean codes `k`, read beside the registers `rs`. -/
def offsetsIn (x : Stack) (rs : List VReg) (j : VReg) (m : MReg) (k : Nat → Nat) (s : State) : Prop :=
  ∀ e ∈ s.h.on m (maskInv x), ((s.h.operands s.h.layout rs).elem j e).gives (k e)

/-- Every access of the active elements finds its place (R179): `addr e` is the address and the bytes of element `e`, and
an element with no bytes makes no access. No engine transfer of the hart is outstanding (R120). -/
structure Placed (need : Need) (align : Nat) (es : List Nat) (addr : Nat → Int × Nat) (p : Nat → Phys) (s : State) :
    Prop where
  place : ∀ e ∈ es, (addr e).2 ≠ 0 → probe s need (addr e).1 (addr e).2 align = .ok (p e)
  idle : s.h.xfers = []

/-- What an element of a load finds: its code, and its poisoned words. -/
def found (w : Nat) (addr : Nat → Int × Nat) (p : Nat → Phys) (u : State) (e : Nat) : Nat × Nat × Bad :=
  if (addr e).2 = 0 then (e, 0, 0)
  else
    let va := (addr e).1.toNat
    (e, codeIn w e (u.loadBytes va (p e) (addr e).2).1, u.loadBad va (p e) (addr e).2)

/-- `i` completes as a vector load (R320): the acquire of the form comes first, and each active element of vd, or of a new
entry of the queue, takes the code in its bytes, with their poison. `regs` and `rs` form the addresses. -/
def LoadsElements (i : Instr) (x : Stack) (d : Fin 64) (regs : List VReg) (m : MReg) (rs : List SReg) (ok : State → Bool)
    (need : Need) (addr : State → Nat → Int × Nat) (pre : State → Prop := fun _ => True) : Prop :=
  ∀ s p,
    let on := s.h.on m (maskInv x)
    Issues i s → VecReady x (ok s) ((if toQueue x then [] else [d]) ++ regs) [m] s → Clean rs s → s.h.maskClean m →
    (toQueue x = true → s.h.queues[(Fin.ofNat 4 d.val : Fin 4)].length < 4) → pre s →
    Placed need (elemAlign s.h.fmt) on (addr s) p s →
    exec i s = passes i s fun t =>
      let u := acqOf x t.wakeLanes
      u.modH (deliverLoad x d (on.map (found (width s.h.fmt) (addr s) p u)))

/-- `i`, which reads or writes elements in memory, traps as a whole at the lowest active element whose access finds a fault, with
its cause, and TVAL holds the element (R179, R190); nothing is read or written. -/
def ElementsFault (i : Instr) (x : Stack) (regs : List VReg) (m : MReg) (rs : List SReg) (ok : State → Bool) (need : Need)
    (addr : State → Nat → Int × Nat) (pre : State → Prop := fun _ => True) : Prop :=
  ∀ s t c,
    let on := s.h.on m (maskInv x)
    let at_ := fun e => probe s need (addr s e).1 (addr s e).2 (elemAlign s.h.fmt)
    Issues i s → VecReady x (ok s) regs [m] s → Clean rs s → s.h.maskClean m → pre s →
    t ∈ on → (addr s t).2 ≠ 0 → at_ t = .bad c → (∀ e ∈ on, e < t → (addr s e).2 = 0 ∨ ∃ p, at_ e = .ok p) →
    exec i s = .next (takeTrap (wholeTrap c (wd t)) s.h.pc false s.wakeLanes)

/-- The progress word of a form with NTF, and its scope (R115). -/
def Notifies (x : Stack) (s : State) (nt : Option (Phys × Scope)) : Prop :=
  match x.memm with
  | none => nt = none
  | some m =>
    if m.ntf = 0 then nt = none
    else Clean [m.ntf] s ∧ ∃ q, probe s needNormalWrite (s.readN m.ntf) 8 8 = .ok q ∧ nt = some (q, m.scope)

/-- `i` completes as a vector store (R352): after the release of the form, the code of each active element of vs goes to its
bytes, in ascending order, and the progress word of the form grows by VL. -/
def StoresElements (i : Instr) (x : Stack) (v : VReg) (regs : List VReg) (m : MReg) (rs : List SReg) (ok : State → Bool)
    (need : Need) (addr : State → Nat → Int × Nat) (pre : State → Prop := fun _ => True) : Prop :=
  ∀ s p nt (c : Nat → Nat) (z : Nat → Option (PLoc × Bad)),
    let on := s.h.on m (maskInv x)
    Issues i s → VecReady x (ok s) (v :: regs) [m] s → Clean rs s → s.h.maskClean m → Notifies x s nt → pre s →
    (∀ e ∈ on, ∃ g, (s.h.operands s.h.layout (v :: regs)).elem v e = .code (c e) g (z e)) →
    Placed need (elemAlign s.h.fmt) on (addr s) p s →
    exec i s = passes i s fun t =>
      notify nt s.h.vl (on.foldl (fun u e =>
        if (addr s e).2 = 0 then u
        else storeElem (width s.h.fmt) u (⟨e, (addr s e).1, (addr s e).2⟩, p e) (c e) (badOf (z e))) (relOf x t.wakeLanes))

/-- The descriptor at `va` reads as the tensor `t` (R116, R285): one load of 256 bytes, aligned, without a fault, without
poison. -/
def Describes (s : State) (va : Nat) (t : Tensor) : Prop :=
  va % 64 = 0 ∧ ∃ p bs, probe s needRead (va : Int) 256 1 = .ok p ∧ s.loadBytes va p 256 = (bs, none) ∧ Tensor.ofBytes bs = some t

/-- Every element of a tensor finds its place as the copy engine of the tile translates it (R117). -/
def EnginePlaced (need : Need) (t : Tensor) (p : Nat → Phys) (s : State) : Prop :=
  ∀ e < t.count, probeEngine s need (t.addrs.getD e 0) t.esz t.esz = .ok (p e)

/-- A hart as it stands before its first instruction (R18, Table 2-3): placed, with its index, what its descriptor gives it, and
everything else at reset, but for the contents that Table 2-3 leaves open, masks and vector registers (log entry 6). -/
def StartsAs (g : Gang) (p : Nat × CoreId × Ctx) (h : Hart) : Prop :=
  h = { Hart.reset with
    status := .running, core := p.2.1, ctx := p.2.2, gang := g.num, index := p.1, cid := g.cid, inc := g.inc
    pc := g.desc.entry, sregs := h.sregs, masks := h.masks, vgen := h.vgen, backing := h.backing
    vbase := g.desc.vbas + wd (p.1 * 0x20000) } ∧
  (∀ r : SReg, h.sreg r = if r = 1 then wd p.1 else if r = 2 then g.desc.args else if r = 3 then g.desc.harts.setWidth 64
    else if r = 4 then g.num.setWidth 64 else 0)

/-- The quarters that a gang declares on a core hold its image, the lowest first, or zeros where it names none (R18); the bytes of
a page that is lost or meets a backing area are free (R150, R104). -/
def HoldsQuarters (s : State) (g : Gang) (c : CoreId) (m : Mem) : Prop :=
  ∀ q < 4, g.desc.spq.getLsbD q = true → ∀ i < 0x40000,
    let byte := m.spad.get unlisted (c.val * 0x100000 + q * 0x40000 + i)
    let va := g.desc.spsrc.toNat + ((List.range q).countP fun k => g.desc.spq.getLsbD k) * 0x40000 + i
    (g.desc.spsrc = 0 → byte = 0) ∧
    (g.desc.spsrc ≠ 0 → ∀ p, unitProbe s needNormalRead g 1 (va / 4096 * 4096) = .ok p → s.sys.homeLost p.pa = false →
      s.backed p.pa 4096 = false → byte = s.mem.curByte (p.pa + va % 4096))

/-! Lane clusters (R27). -/

/-- The lane clusters that a hart holds, the lowest numbered first. -/
def Hart.clusters (h : Hart) : List Nat := (List.range 8).filter fun l => h.lcs.getLsbD l

/-- The lane clusters of the core of the hart in focus that are free while it holds `mine`, the lowest numbered first. -/
def State.freeClusters (s : State) (mine : List Nat) : List Nat :=
  (List.range 8).filter fun l => !mine.contains l &&
    s.rest.all fun h => h.core != s.h.core || h.status == .absent || !h.lcs.getLsbD l

/-- The other requesters of its core. -/
def State.otherRequesters (s : State) : Nat :=
  s.rest.countP fun h => h.core == s.h.core && h.status != .absent && h.requester

/-- The other harts of its core that wait for lane clusters are `ws`, the oldest waiter first, each stalled in its SETVL, SETVLB or
VREST; the placed harts of the core stand at contexts of their own. -/
structure WaitsForLanes (s : State) (ws : List Hart) : Prop where
  all : ∀ h, h ∈ ws ↔ h ∈ s.rest ∧ h.core = s.h.core ∧ h.status ≠ .absent ∧ h.requester = true ∧ h.lcs = 0
  aged : ws.Pairwise fun a b => a.waitAge < b.waitAge
  stalled : ∀ h ∈ ws, ∃ r, h.status = .stalled (.lanes r)
  apart : (s.h :: s.rest.filter fun h => h.core == s.h.core && h.status != .absent).Pairwise fun a b => a.ctx ≠ b.ctx

/-- A hart `h` that waited comes to stand as `h'` with the lane clusters `g`: with none it goes on waiting; else its stalled
instruction completes with them. -/
def Granted (h h' : Hart) (g : List Nat) : Prop :=
  (g = [] → h' = h) ∧
  (g ≠ [] → h'.core = h.core ∧ h'.ctx = h.ctx ∧ (∀ l, l ∈ h'.clusters ↔ l ∈ g) ∧
    ∀ r, h.status = .stalled (.lanes r) → h'.status = .running ∧ h'.pc = h.pc + wd r.x.len ∧ h'.fmt = r.fmt ∧ h'.nregc = r.nreg ∧
      ∀ q, r.kind = .flat q → h'.vl = min q.toNat (g.length * 262144 / (2 * (4 * 2 ^ r.nreg.code) * width r.fmt)) ∧
        (r.d ≠ 0 → h'.sreg r.d = wd h'.vl))

/-- From `s` to `t` the waiting harts `ws` are granted the lane clusters `gs`, and every other hart stays as it stands. -/
structure Grants (ws : List Hart) (gs : List (List Nat)) (s t : State) : Prop where
  granted : ∀ p ∈ ws.zip gs, ∃ h' ∈ t.rest, Granted p.1 h' p.2
  others : ∀ h ∈ s.rest, h ∉ ws → h ∈ t.rest
  size : t.rest.length = s.rest.length

/-! Images and records. -/

/-- The 16 bytes at an offset hold a shell entry (Table 10-9). -/
def shellAt (num : Nat → Nat → Nat) (off : Nat) (x : Shell) : Prop :=
  match x with
  | .zero => num (off + 8) 1 = 0
  | .const v => num (off + 8) 1 = 1 ∧ num off 8 = v.toNat
  | .edge => num (off + 8) 1 = 2
  | .link r => num (off + 8) 1 = 3 ∧ num (off + 9) 1 = r.val
  | .trap => num (off + 8) 1 = 4

/-- The parts of an image of `vl` elements of `w` bits and `n` registers (Table 10-10): the bytes of a register, of a mask
register and of a scale register. -/
def imageParts (vl w : Nat) : Nat × Nat × Nat := (64 * ((vl * w + 511) / 512), 64 * ((vl + 511) / 512), 64 * ((vl + 2047) / 2048))

/-- Where register `r`, mask register `m` and scale register `k` begin in an image (Table 10-10). -/
def imageRegAt (vl w r : Nat) : Nat := 0x2000 + r * (imageParts vl w).1
def imageMaskAt (vl w n m : Nat) : Nat := imageRegAt vl w n + m * (imageParts vl w).2.1
def imageScaleAt (vl w n k : Nat) : Nat := imageMaskAt vl w n 8 + k * (imageParts vl w).2.2

/-- The bytes are the image of the hart (R203, Table 10-10). -/
structure ImageOfHart (s : State) (im : List Byte) : Prop where
  length : im.length = imageScaleAt s.h.vl (width s.h.fmt) s.h.nreg 8
  head : [imageAt im 0 8, imageAt im 8 8, imageAt im 16 8, imageAt im 24 8, imageAt im 32 8, imageAt im 40 24] =
    [s.h.vl, (csrRead s .vtype).toNat, s.h.bgeo.toNat, s.h.dil.toNat, im.length, 0]
  progress : ∀ r : VReg, imageAt im (0x40 + 2 * r.val) 2 =
    if s.h.nreg ≤ r.val then 0
    else if s.h.opened.any (fun o => destReg o.instr == some r) then s.h.tstripe.toNat % 65536 else 0xFFFF
  shells : ∀ (r : VReg) (f : Fin 6), shellAt (imageAt im) (0x100 + 16 * (6 * r.val + f.val)) (s.h.shell r f.val)
  regs : ∀ r : VReg, r.val < s.h.nreg → ∀ e < s.h.vl, ∃ c o p, (s.h.operands s.h.layout [r]).elem r e = .code c o p ∧
    imageAt im (imageRegAt s.h.vl (width s.h.fmt) r.val) (imageParts s.h.vl (width s.h.fmt)).1
      / 2 ^ (e * width s.h.fmt) % 2 ^ width s.h.fmt = c
  masks : ∀ (m : MReg) (e : Nat),
    (imageAt im (imageMaskAt s.h.vl (width s.h.fmt) s.h.nreg m.val) (imageParts s.h.vl (width s.h.fmt)).2.1).testBit e =
      (decide (e < s.h.vl) && s.h.maskBit m e)
  scales : ∀ (k : KReg) (j : Nat), 32 * j < s.h.vl →
    imageAt im (imageScaleAt s.h.vl (width s.h.fmt) s.h.nreg k.val + j) 1 = (s.h.scale k j).toNat

/-- The hart holds the registers, masks and scale registers of an image of `vl` elements (R204). -/
structure HoldsImage (h : Hart) (im : List Byte) (vl : Nat) : Prop where
  regs : ∀ r : VReg, r.val < h.nreg → ∀ e < vl, ∃ o p, (h.operands h.layout [r]).elem r e =
    .code (imageAt im (imageRegAt vl (width h.fmt) r.val) (imageParts vl (width h.fmt)).1
      / 2 ^ (e * width h.fmt) % 2 ^ width h.fmt) o p
  masks : ∀ (m : MReg) (e : Nat), m ≠ 0 → e < vl → h.maskBit m e =
    (imageAt im (imageMaskAt vl (width h.fmt) h.nreg m.val) (imageParts vl (width h.fmt)).2.1).testBit e
  scales : ∀ (k : KReg) (j : Nat), 32 * j < vl →
    (h.scale k j).toNat = imageAt im (imageScaleAt vl (width h.fmt) h.nreg k.val + j) 1

/-- What the stop record of a hart holds after either kind of stop (R201, Table 10-9): `num off n` is the number in `n` bytes at
an offset. -/
structure RecordOf (s : State) (how : Nat) (num : Nat → Nat → Nat) : Prop where
  head : [num 0 8, num 8 8, num 0x12 1, num 0x13 1, num 0x16 1] =
    [how, s.h.pc.toNat, s.h.lcn, lmvl s.h, (s.messagesFor s.h).length % 256]
  interrupt : num 0x17 1 = (match s.h.irq with | none => 0 | some (_, again) => if again then 3 else 1) ∧
    num 0x18 8 = s.h.irq.elim 0 fun p => p.1.toNat
  tokens : ∀ i < 25, num (0x20 + i) 1 = s.h.tokens.getD i 0 % 256
  sregs : ∀ r : SReg, num (0x40 + 8 * r.val) 8 = (s.h.sreg r).toNat
  csrs : ∀ p ∈ (List.range 15).zip [Csr.vl, .vtype, .bgeo, .dil, .cbypass, .purse, .frm, .fflags, .chk, .fst, .tvec, .tcause,
    .tpc, .tstripe, .tval], num (0x240 + 8 * p.1) 8 = (csrRead s p.2).toNat
  masks : ∀ (m : MReg) (e : Nat), e < 65536 →
    (num (0x1000 + 8192 * m.val) 8192).testBit e = if m = 0 then true else s.h.maskBit m e
  cells : ∀ k < 4096, num (0x15000 + 4 * k) 4 = (lookupD 0 k s.h.cells).toNat
  shells : ∀ (r : VReg) (f : Fin 6), shellAt num (0x19000 + 16 * (6 * r.val + f.val)) (s.h.shell r f.val)
  messages : ∀ j < 8, ∀ m, (s.messagesFor s.h)[j]? = some m →
    num (0x380 + 16 * j) 4 = m.sender % 2 ^ 32 ∧ num (0x384 + 16 * j) 4 = m.words % 2 ^ 32 ∧
    (∀ l < 64, (num (0x388 + 16 * j) 8).testBit l = m.lanes.contains l) ∧
    (m.words ≤ 128 → ∀ i l, m.laneList[i]? = some l → ∀ w < m.words,
      num (0xC0000 + j * 0x8000 + 4 * (i * m.words + w)) 4 = (m.cell (128 * l + w)).val.toNat)

/-- What it holds besides after a forced stop (Table 10-9). A value kept stands in lane blocks, as R102 places them. -/
structure ForcedRecordOf (h : Hart) (num : Nat → Nat → Nat) : Prop where
  stripe : num 0x10 2 = (h.resume.map fun o => o.stripe % 65536).getD 0xFFFF
  counts : (∀ q : Fin 4, h.queues[q].length < 16) → ∀ q : Fin 4, num 0x14 2 / 16 ^ q.val % 16 = h.queues[q].length
  progress : ∀ r : VReg, num (0x300 + 2 * r.val) 2 = progressOf h r
  scales : ∀ (k : KReg) (j : Nat), j < 2048 → num (0x11000 + 2048 * k.val + j) 1 = (h.scale k j).toNat
  queues : ∀ (q : Fin 4) (j e : Nat) (x : QEntry) (c : Nat × Bad), j < 4 → h.queues[q][j]? = some x → x.elems[e]? = some c →
    (e + 1) * width h.fmt ≤ 0x40000 →
    num (0x20000 + (4 * q.val + j) * 0x8000) 0x8000 / 2 ^ (width h.fmt * e) % 2 ^ width h.fmt = c.1 % 2 ^ width h.fmt
  kept : let at_ := fun c : VCell => c.key / 128 % 64 * (2048 / h.nreg) + 4 * (c.key % 128)
    ∀ p ∈ [(0xA0000, h.opened), (0xA8000, h.resume)], ∀ o, p.2 = some o →
      (destReg o.instr = none → num p.1 8192 = o.keptMask % 2 ^ 65536) ∧
      (destReg o.instr ≠ none → (o.kept.map at_).Nodup → ∀ c ∈ o.kept, num (p.1 + at_ c) 4 = c.val.toNat)

/-- A hart as a record of either kind restores it (R202), with the format and the NREG that the saved VTYPE names. -/
structure RestoredFrom (num : Nat → Nat → Nat) (f : Fmt) (n : NregC) (h : Hart) : Prop where
  pc : h.pc = wd (num 8 8)
  interrupt : h.irq = if num 0x17 1 % 2 = 1 then some (wd (num 0x18 8), num 0x17 1 / 2 % 2 == 1) else none
  tokens : ∀ i < 25, h.tokens.getD i 0 = min 16 (num (0x20 + i) 1)
  sregs : ∀ r : SReg, r ≠ 0 → h.sreg r = wd (num (0x40 + 8 * r.val) 8)
  vector : h.vl = num 0x240 8 % 2 ^ 19 ∧ h.fmt = f ∧ h.nregc = n
  flags : [h.dil, h.purse, h.frm, h.fflags, h.fst, h.tvec, h.tcause, h.tpc, h.tstripe, h.tval] =
    ([(3, Csr.dil), (5, .purse), (6, .frm), (7, .fflags), (9, .fst), (10, .tvec), (11, .tcause), (12, .tpc), (13, .tstripe),
      (14, .tval)] : List (Nat × Csr)).map fun p =>
        wd (num (0x240 + 8 * p.1) 8) &&&
          (if p.2 = .fst then 0xC00000000FFFFFFF else if p.2 = .tvec ∨ p.2 = .tval then -1 else csrRw p.2)
  masks : ∀ (m : MReg) (e : Nat), m ≠ 0 → e < 65536 → h.maskBit m e = (num (0x1000 + 8192 * m.val) 8192).testBit e
  shells : ∀ (r : VReg) (f : Fin 6), let off := 0x19000 + 16 * (6 * r.val + f.val)
    num (off + 8) 1 ≤ 4 → (num (off + 8) 1 = 3 → num (off + 9) 1 < 64) → shellAt num off (h.shell r f.val)

/-! The module's own steps. -/

/-- From `s` to `t` the device register at `off` comes to hold `v`, and nothing else changes. -/
structure SetsDev (off : Nat) (v : Word) (s t : State) : Prop where
  now : t.sys.dev off = v
  others : ∀ o, o ≠ off → t.sys.dev o = s.sys.dev o
  rest : t = { s with sys := { s.sys with devr := t.sys.devr } }

/-- The command of code `op` that is in progress is the one `k`, and it has not been answered. -/
def State.runs (s : State) (op : Nat) (k : CmdRun) : Prop := s.sys.pendingCmds (fun c => c == op) = [k]

/-- The launch that command 0x01 makes, of the descriptor at a physical address (Table 11-5). -/
def State.launchAt (s : State) (a : Word) : State × Word :=
  let d := Desc.ofBytes (s.readFor a.toNat 80).1
  s.launch d false true (d.cid.setWidth 12)

/-- The row `i` of code `op` brings the command in progress to its answer `v`, and leaves `f` of the state. -/
def Answers (i : Instr) (op : Nat) (ok : CmdRun → State → Prop) (v : CmdRun → State → Word)
    (f : CmdRun → State → State := fun _ s => s) : Prop :=
  ∀ s k, s.runs op k → ok k s → exec i s = .next ((f k s).answerCmd k (v k s))

end Machine

/-! The results of the tables, as the manual states them. -/

namespace Spec

open Machine

/-- The scalar instructions with two register sources, and what each writes to sd (Tables 14-2 and 15-3). -/
def two : List ((Stack → SReg → SReg → SReg → Instr) × (Word → Word → Word)) :=
  [(.add, fun a b => a + b),
   (.sub, fun a b => a - b),
   (.and, fun a b => a &&& b),
   (.or, fun a b => a ||| b),
   (.xor, fun a b => a ^^^ b),
   (.shl, fun a b => a <<< (b % 64)),
   (.shr, fun a b => a >>> (b % 64)),
   (.sra, fun a b => a.sshiftRight (b % 64).toNat),
   (.mul, fun a b => BitVec.ofInt 64 (a.toInt * b.toInt)),
   (.mulh, fun a b => (a.signExtend 128 * b.signExtend 128).extractLsb' 64 64),
   (.mulhn, fun a b => (a.setWidth 128 * b.setWidth 128).extractLsb' 64 64),
   (.div, fun a b => if b = 0 then -1 else a.sdiv b),
   (.divn, fun a b => if b = 0 then -1 else a / b),
   (.rem, fun a b => if b = 0 then a else a.srem b),
   (.remn, fun a b => if b = 0 then a else a % b),
   (.min, fun a b => if a.toInt ≤ b.toInt then a else b),
   (.max, fun a b => if b.toInt ≤ a.toInt then a else b),
   (.minn, fun a b => if a.toNat ≤ b.toNat then a else b),
   (.maxn, fun a b => if b.toNat ≤ a.toNat then a else b),
   (.slt, fun a b => if a.toInt < b.toInt then 1 else 0),
   (.sltn, fun a b => if a.toNat < b.toNat then 1 else 0)]

/-! Codes of the floating formats (R60, R61), and of integers (R63). Each code is below 2^w. -/

/-- Mantissa bits (Table 4-2). -/
def man : Fmt → Nat
  | .fp16 => 10
  | .bf16 => 7
  | .e4m3 => 3
  | .e5m2 => 2
  | .e2m1 => 1
  | _ => 23

/-- The exponent field. -/
def expo (f : Fmt) (c : Nat) : Nat := c / 2 ^ man f % 2 ^ (width f - 1 - man f)

/-- The mantissa field. -/
def mant (f : Fmt) (c : Nat) : Nat := c % 2 ^ man f

/-- The greatest exponent field. -/
def topExpo (f : Fmt) : Nat := 2 ^ (width f - 1 - man f) - 1

/-- The sign bit. -/
def neg (f : Fmt) (c : Nat) : Bool := 2 ^ (width f - 1) ≤ c

/-- A NaN. -/
def isNan (f : Fmt) (c : Nat) : Bool := expo f c == topExpo f && mant f c != 0

/-- A signalling NaN: the highest mantissa bit is 0. -/
def signalling (f : Fmt) (c : Nat) : Bool := isNan f c && mant f c < 2 ^ (man f - 1)

/-- An infinity. -/
def isInf (f : Fmt) (c : Nat) : Bool := expo f c == topExpo f && mant f c == 0

/-- A zero of either sign. -/
def isZero (f : Fmt) (c : Nat) : Bool := expo f c == 0 && mant f c == 0

/-- The zero of a sign. -/
def zero (f : Fmt) (s : Bool) : Nat := if s then 2 ^ (width f - 1) else 0

/-- The infinity of a sign. -/
def inf (f : Fmt) (s : Bool) : Nat := zero f s + topExpo f * 2 ^ man f

/-- 1.0. -/
def one (f : Fmt) : Nat := (2 ^ (width f - 2 - man f) - 1) * 2 ^ man f

/-- The canonical NaN (Table 4-2). -/
def nan (f : Fmt) : Nat := if f = .fp16 then 0x7E00 else if f = .bf16 then 0x7FC0 else 0x7FC00000

/-- An operand: under FTZ a subnormal one is read as the zero of its sign (R74). -/
def arg (f : Fmt) (ftz : Bool) (c : Nat) : Nat := if ftz && expo f c == 0 then zero f (neg f c) else c

/-- NV among the flags (Table 4-7). -/
def nv : Nat := 16

/-- DZ among the flags (Table 4-7). -/
def dz : Nat := 8

/-- SAT among the flags (Table 4-7). -/
def clamped : Nat := 32

/-- A NaN among the operands gives the canonical NaN, with NV where one of them is signalling (R62). -/
def nanOf (f : Fmt) (xs : List Nat) : Option (Nat × Nat) :=
  if xs.any (isNan f) then some (nan f, if xs.any (signalling f) then nv else 0) else none

/-- A sum of two codes of which one is a NaN, an infinity or a zero, or which cancel: IEEE 754-2019 and R73. -/
def addSpecial (f : Fmt) (rm : RM) (a b : Nat) : Option (Nat × Nat) :=
  (nanOf f [a, b]).or <|
    if isInf f a && isInf f b then some (if neg f a = neg f b then (a, 0) else (nan f, nv))
    else if isInf f a then some (a, 0)
    else if isInf f b then some (b, 0)
    else if isZero f a && isZero f b then some (zero f (if neg f a = neg f b then neg f a else rm == .rdn), 0)
    else if isZero f a then some (b, 0)
    else if isZero f b then some (a, 0)
    else if neg f a ≠ neg f b ∧ a % 2 ^ (width f - 1) = b % 2 ^ (width f - 1) then some (zero f (rm == .rdn), 0)
    else none

/-- A code with its sign reversed. -/
def flip (f : Fmt) (c : Nat) : Nat := (c + 2 ^ (width f - 1)) % 2 ^ width f

/-- The sign of a product or a quotient. -/
def sign2 (f : Fmt) (a b : Nat) : Bool := neg f a != neg f b

/-- A product of which a factor is a NaN, an infinity or a zero (R73). -/
def mulSpecial (f : Fmt) (a b : Nat) : Option (Nat × Nat) :=
  (nanOf f [a, b]).or <|
    if isInf f a && isZero f b || isZero f a && isInf f b then some (nan f, nv)
    else if isInf f a || isInf f b then some (inf f (sign2 f a b), 0)
    else if isZero f a || isZero f b then some (zero f (sign2 f a b), 0)
    else none

/-- A quotient of which an operand is a NaN, an infinity or a zero (R73). -/
def divSpecial (f : Fmt) (a b : Nat) : Option (Nat × Nat) :=
  (nanOf f [a, b]).or <|
    if isInf f a && isInf f b || isZero f a && isZero f b then some (nan f, nv)
    else if isInf f a then some (inf f (sign2 f a b), 0)
    else if isInf f b then some (zero f (sign2 f a b), 0)
    else if isZero f b then some (inf f (sign2 f a b), dz)
    else if isZero f a then some (zero f (sign2 f a b), 0)
    else none

/-- A fused result of which an operand is a NaN, or a factor is an infinity or a zero, or the addend is an infinity (R329):
`np` negates the product, `nc` the addend. 0 × ∞ comes first, whatever the addend. -/
def fusedSpecial (np nc : Bool) (f : Fmt) (rm : RM) (a b c : Nat) : Option (Nat × Nat) :=
  let d := if nc then flip f c else c
  let s := sign2 f a b != np
  if isInf f a && isZero f b || isZero f a && isInf f b then some (nan f, nv)
  else (nanOf f [a, b, c]).or <|
    if isInf f a || isInf f b then addSpecial f rm (inf f s) d
    else if isInf f c then some (d, 0)
    else if isZero f a || isZero f b then addSpecial f rm (zero f s) d
    else none

/-- The place of a code that is no NaN in the order of R78, in which −0 stands below +0. -/
def key (f : Fmt) (c : Nat) : Int := if neg f c then -((c % 2 ^ (width f - 1) : Nat) : Int) - 1 else (c : Int)

/-- The lesser of two codes, or the greater (R78). -/
def pick (less : Bool) (f : Fmt) (a b : Nat) : Nat × Nat :=
  (if isNan f a && isNan f b then nan f
   else if isNan f a then b
   else if isNan f b then a
   else if key f a < key f b then (if less then a else b)
   else (if less then b else a),
   if signalling f a || signalling f b then nv else 0)

/-- The value of an integer code (R63). -/
def val (f : Fmt) (c : Nat) : Int := if isSigned f && neg f c then (c : Int) - 2 ^ width f else c

/-- The bounds of an integer format (R76). -/
def hi (f : Fmt) : Int := if isSigned f then 2 ^ (width f - 1) - 1 else 2 ^ width f - 1

/-- The bounds of an integer format (R76). -/
def lo (f : Fmt) : Int := if isSigned f then -2 ^ (width f - 1) else 0

/-- An exact integer delivered modulo 2^w, or clamped under SAT (R76). -/
def fit (f : Fmt) (sat : Bool) (v : Int) : Nat × Nat :=
  let w := width f
  if sat && hi f < v then ((hi f % 2 ^ w).toNat, clamped)
  else if sat && v < lo f then ((lo f % 2 ^ w).toNat, clamped)
  else ((v % 2 ^ w).toNat, 0)

/-- The quotient of two integers truncated toward zero (R77). -/
def quotient (a b : Int) : Int := if (0 ≤ a) = (0 ≤ b) then (a.natAbs / b.natAbs : Nat) else -((a.natAbs / b.natAbs : Nat) : Int)

/-! Exact values, and their one rounding (R61, R73, R74). -/

/-- m * 2^e. -/
def mag (m : Nat) (e : Int) : Rat := if 0 ≤ e then ((m * 2 ^ e.toNat : Nat) : Rat) else (m : Rat) / ((2 ^ (-e).toNat : Nat) : Rat)

/-- The bias of a format (Table 4-2). -/
def bias (f : Fmt) : Int := 2 ^ (width f - 2 - man f) - 1

/-- The code of the largest finite value (Table 4-2). -/
def top (f : Fmt) : Nat :=
  match f with
  | .e4m3 => 0x7E
  | .e2m1 => 7
  | _ => inf f false - 1

/-- What a code decodes to, but for the escape of E2M1 (R61): NaN, ±∞, or the sign, the significand and its exponent. -/
def decoded (f : Fmt) (c : Nat) : FVal :=
  if f = .e8m0 then (if c = 255 then .nan false else .fin false 1 ((c : Int) - 127))
  else if f = .e4m3 ∧ c % 128 = 127 then .nan false
  else if f ≠ .e4m3 ∧ f ≠ .e2m1 ∧ expo f c = topExpo f then (if mant f c = 0 then .inf (neg f c) else .nan (signalling f c))
  else if expo f c = 0 then .fin (neg f c) (mant f c) (1 - bias f - man f)
  else .fin (neg f c) (2 ^ man f + mant f c) (expo f c - bias f - man f)

/-- The magnitude that a code without its sign stands for, were the exponent unbounded above. -/
def grid (f : Fmt) (c : Nat) : Rat :=
  if c < 2 ^ man f then mag c (1 - bias f - man f)
  else mag (2 ^ man f + c % 2 ^ man f) ((c / 2 ^ man f : Nat) - bias f - man f)

/-- `v c` is the magnitude `x`, with sign `s`, rounded in mode `rm` to the ascending magnitudes `v` (Table 4-6); a tie goes to an
even `c`. -/
def Rounds (rm : RM) (s : Bool) (v : Nat → Rat) (c : Nat) (x : Rat) : Prop :=
  if rm = .rne then
    2 * x ≤ v c + v (c + 1) ∧ (2 * x = v c + v (c + 1) → c % 2 = 0) ∧
      (c = 0 ∨ v (c - 1) + v c ≤ 2 * x ∧ (2 * x = v (c - 1) + v c → c % 2 = 0))
  else if rm = .rdn ∧ s = true ∨ rm = .rup ∧ s = false then x ≤ v c ∧ (c = 0 ∨ v (c - 1) < x)
  else v c ≤ x ∧ x < v (c + 1)

/-- A magnitude `x` that is not 0, with sign `s`, delivered to a float format: rounded once, with OF and NX at an overflow, NX
where it is inexact, and UF where it is tiny after rounding and inexact, or flushed under FTZ (R73, R74). -/
def FloatOf (f : Fmt) (rm : RM) (ftz sat s : Bool) (x : Rat) (r : Nat × Nat) : Prop :=
  ∃ c, Rounds rm s (grid f) c x ∧
    if top f < c then
      r = (if f ≠ .e4m3 ∧ f ≠ .e2m1 ∧ sat = false ∧ (rm = .rne ∨ rm = .rdn ∧ s = true ∨ rm = .rup ∧ s = false) then inf f s
        else zero f s + top f, 5)
    else if ftz = true ∧ isFloat f = true ∧ 0 < c ∧ c < 2 ^ man f then r = (zero f s, 3)
    else r.1 = (if f = .e2m1 ∧ c = 0 then 0 else zero f s + c) ∧
      (grid f c = x → r.2 = 0) ∧ (grid f c ≠ x → (r.2 = 1 ∨ r.2 = 3) ∧
        (mag 1 (1 - bias f) ≤ x → r.2 = 1) ∧ (c < 2 ^ man f → r.2 = 3))

/-- A value is finite. -/
def finite (v : FVal) : Bool :=
  match v with
  | .fin _ _ _ => true
  | .nan _ | .inf _ => false

/-- The magnitude of a finite value. -/
def size (v : FVal) : Rat :=
  match v with
  | .fin _ m e => mag m e
  | .nan _ | .inf _ => 0

/-- A finite value with its sign. -/
def signed (v : FVal) : Rat := if v.neg then -size v else size v

/-- The exact result `q` of an operation, delivered: an exact zero of terms that cancel is +0, or −0 under RDN (IEEE 754-2019), and
every other result is rounded once (R73, R74). -/
def Delivers (f : Fmt) (rm : RM) (ftz : Bool) (q : Rat) (r : Nat × Nat) : Prop :=
  (q = 0 → r = (zero f (rm == .rdn), 0)) ∧ (q ≠ 0 → FloatOf f rm ftz false (decide (q < 0)) (if q < 0 then -q else q) r)

/-- The positive square root of `y`, rounded once: the code and NX (R73). No root of a value of a format, and no reciprocal of one,
leaves the normal numbers of the format or ties between two of them; magnitudes are compared by their squares. -/
def RootOf (f : Fmt) (rm : RM) (y : Rat) (r : Nat × Nat) : Prop :=
  let v := grid f
  (if rm = .rne then (v (r.1 - 1) + v r.1) * (v (r.1 - 1) + v r.1) < 4 * y ∧ 4 * y < (v r.1 + v (r.1 + 1)) * (v r.1 + v (r.1 + 1))
   else if rm = .rup then v (r.1 - 1) * v (r.1 - 1) < y ∧ y ≤ v r.1 * v r.1
   else v r.1 * v r.1 ≤ y ∧ y < v (r.1 + 1) * v (r.1 + 1)) ∧
  r.1 ≤ top f ∧ r.2 = if v r.1 * v r.1 = y then 0 else 1

/-- An element-wise instruction of two sources: the formats it admits, whether it reads vd, the function of the model, what the
manual gives for integers, what it gives for floats where an operand or a result is special, and elsewhere the exact result of
the values of the operands. -/
structure VecTwo where
  form : Stack → VReg → VReg → Fin 64 → MReg → Bool → Instr
  ok : Fmt → Bool
  third : Bool
  fn : Hart → Nat → Nat → Nat → Nat × Nat
  int : Fmt → Bool → Nat → Nat → Nat → Nat × Nat
  special : Fmt → RM → Nat → Nat → Nat → Option (Nat × Nat)
  exact : Rat → Rat → Rat → Rat := fun _ _ _ => 0
  flushed : Bool := true

/-- The bitwise instructions: they take codes as they stand, of every format (R324, R351). -/
def bits (mk : Stack → VReg → VReg → Fin 64 → MReg → Bool → Instr) (fn : Hart → Nat → Nat → Nat → Nat × Nat)
    (g : Nat → Nat → Nat) : VecTwo :=
  ⟨mk, isArith, false, fn, fun _ _ a b _ => (g a b, 0), fun _ _ a b _ => some (g a b, 0), fun _ _ _ => 0, false⟩

/-- The arithmetic of two sources (R324, R351). -/
def arith (mk : Stack → VReg → VReg → Fin 64 → MReg → Bool → Instr) (fn : Hart → Nat → Nat → Nat → Nat × Nat)
    (int : Fmt → Bool → Nat → Nat → Nat × Nat) (special : Fmt → RM → Nat → Nat → Option (Nat × Nat))
    (exact : Rat → Rat → Rat := fun _ _ => 0) : VecTwo :=
  ⟨mk, isArith, false, fn, fun f sat a b _ => int f sat a b, fun f rm a b _ => special f rm a b, fun a b _ => exact a b, true⟩

/-- What integers alone may use. -/
def ints (mk : Stack → VReg → VReg → Fin 64 → MReg → Bool → Instr) (fn : Hart → Nat → Nat → Nat → Nat × Nat)
    (int : Fmt → Bool → Nat → Nat → Nat × Nat) : VecTwo :=
  ⟨mk, isInt, false, fn, fun f sat a b _ => int f sat a b, fun _ _ _ _ _ => none, fun _ _ _ => 0, true⟩

/-- The fused instructions (R329). -/
def fused (mk : Stack → VReg → VReg → Fin 64 → MReg → Bool → Instr) (np nc : Bool) : VecTwo :=
  ⟨mk, isArith, true, fFused np nc,
    fun f sat a b c => fit f sat ((if np then -(val f a * val f b) else val f a * val f b) + (if nc then -val f c else val f c)),
    fun f rm a b c => fusedSpecial np nc f rm a b c,
    fun a b c => (if np then -(a * b) else a * b) + (if nc then -c else c), true⟩

/-- The element-wise instructions of two sources (Tables 16-3, 16-7 and 17-4, VADD of R351's group; R76 to R78). -/
def vecTwo : List VecTwo :=
  [arith .vadd fVadd (fun f sat a b => fit f sat (val f a + val f b)) addSpecial (· + ·),
   arith .vsub fVsub (fun f sat a b => fit f sat (val f a - val f b)) (fun f rm a b => addSpecial f rm a (if isNan f b then b else flip f b))
     (· - ·),
   arith .vmul fVmul (fun f sat a b => fit f sat (val f a * val f b)) (fun f _ a b => mulSpecial f a b) (· * ·),
   ints .vmulh fVmulh (fun f _ a b => ((val f a * val f b / 2 ^ width f % 2 ^ width f).toNat, 0)),
   arith .vdiv fVdiv
     (fun f sat a b => if val f b = 0 then (2 ^ width f - 1, dz) else fit f sat (quotient (val f a) (val f b)))
     (fun f _ a b => divSpecial f a b) (· / ·),
   arith .vmin fVmin (fun f _ a b => (if val f a ≤ val f b then a else b, 0)) (fun f _ a b => some (pick true f a b)),
   arith .vmax fVmax (fun f _ a b => (if val f b ≤ val f a then a else b, 0)) (fun f _ a b => some (pick false f a b)),
   bits .vand fVand (· &&& ·), bits .vor fVor (· ||| ·), bits .vxor fVxor (· ^^^ ·),
   ints .vshl fVshl (fun f sat a b => fit f sat (val f a * 2 ^ (b % width f))),
   ints .vshr fVshr (fun f _ a b => (a / 2 ^ (b % width f), 0)),
   ints .vsra fVsra (fun f _ a b =>
     (((if neg f a then (a : Int) - 2 ^ width f else (a : Int)) / 2 ^ (b % width f) % 2 ^ width f).toNat, 0)),
   fused .vfma false false, fused .vfms false true, fused .vfnma true true, fused .vfnms true false]

/-- The function of a row is what the manual gives: on integers; on floats where it is special, and elsewhere the exact result of the
finite operands, rounded once (R73, R74). Float operands are flushed under FTZ (R74), but by the bitwise instructions. -/
def VecTwo.holds (p : VecTwo) : Prop :=
  ∀ (h : Hart) (a b c : Nat), let f := h.fmt
    let g := fun c => if p.flushed then arg f h.ftz c else c
    a < 2 ^ width f → b < 2 ^ width f → c < 2 ^ width f → p.ok f = true →
      (isInt f = true → p.fn h a b c = p.int f h.sat a b c) ∧
      (isFloat f = true →
        (∀ r, p.special f h.rm (g a) (g b) (g c) = some r → p.fn h a b c = r) ∧
        (p.special f h.rm (g a) (g b) (g c) = none →
          Delivers f h.rm h.ftz (p.exact (signed (decoded f (g a))) (signed (decoded f (g b))) (signed (decoded f (g c)))) (p.fn h a b c)))

/-- An element-wise instruction of one source. Where an operand is not special, `exact` relates its value to an exact result, and
`root` gives the number whose square root is the result. -/
structure VecOne where
  form : Stack → VReg → VReg → MReg → Instr
  ok : Fmt → Bool
  fn : Hart → Nat → Nat × Nat
  int : Fmt → Bool → Nat → Nat × Nat
  special : Fmt → Nat → Option (Nat × Nat)
  flushed : Bool := true
  exact : Rat → Rat → Prop := fun _ _ => False
  root : Rat → Option Rat := fun _ => none

/-- What floats alone may use. -/
def floats (mk : Stack → VReg → VReg → MReg → Instr) (fn : Hart → Nat → Nat × Nat)
    (special : Fmt → Nat → Option (Nat × Nat)) (exact : Rat → Rat → Prop := fun _ _ => False)
    (root : Rat → Option Rat := fun _ => none) : VecOne :=
  ⟨mk, isFloat, fn, fun _ _ _ => (0, 0), special, true, exact, root⟩

/-- A float operation of one source that is not defined below −0 (Tables 16-5 and 17-2): `z` gives what a zero gives, `t` what
+∞ gives. -/
def rootSpecial (f : Fmt) (c : Nat) (z : Nat × Nat) (t : Nat) : Option (Nat × Nat) :=
  (nanOf f [c]).or <|
    if isZero f c then some z
    else if neg f c then some (nan f, nv)
    else if isInf f c then some (t, 0)
    else none

/-- The bit of Table 15-7. -/
def classBit (f : Fmt) (c : Nat) : Nat :=
  if isNan f c then (if signalling f c then 8 else 9)
  else if isInf f c then (if neg f c then 0 else 7)
  else if isZero f c then (if neg f c then 3 else 4)
  else if expo f c = 0 then (if neg f c then 2 else 5)
  else if neg f c then 1 else 6

/-- The element-wise instructions of one source (Tables 15-6, 15-7, 16-4, 16-5 and 17-2). -/
def vecOne : List VecOne :=
  [⟨.vabs, isArith, fVabs, fun f sat a => if isSigned f then fit f sat ((val f a).natAbs : Int) else (a, 0),
     fun f a => (nanOf f [a]).or (some (a % 2 ^ (width f - 1), 0)), true, fun _ _ => False, fun _ => none⟩,
   ⟨.vneg, isArith, fVneg, fun f sat a => fit f sat (-val f a), fun f a => (nanOf f [a]).or (some (flip f a, 0)), true,
     fun _ _ => False, fun _ => none⟩,
   floats .vsqrt fVsqrt (fun f a => rootSpecial f a (a, 0) (inf f false)) (root := some),
   floats .vrcp fVrcp (fun f a => divSpecial f (one f) a) (fun x y => y = 1 / x),
   floats .vrsq fVrsq (fun f a => rootSpecial f a (inf f (neg f a), dz) (zero f false)) (root := fun x => some (1 / x)),
   floats .vexp2 fVexp2 (fun f a => (nanOf f [a]).or <|
     if isInf f a then some (if neg f a then zero f false else inf f false, 0)
     else if isZero f a then some (one f, 0)
     else if a = one f then some (one f + 2 ^ man f, 0) else none) (fun x y => ∃ n : Int, x = n ∧ y = mag 1 n),
   floats .vlog2 fVlog2 (fun f a => if a = one f then some (zero f false, 0) else rootSpecial f a (inf f true, dz) (inf f false))
     (fun x y => ∃ n : Int, x = mag 1 n ∧ y = n),
   ⟨.vclass, isFloat, fVclass, fun _ _ _ => (0, 0), fun f a => some (2 ^ classBit f a, 0), false,
     fun _ _ => False, fun _ => none⟩,
   ⟨.vnot, isArith, fVnot, fun f _ a => (2 ^ width f - 1 - a, 0), fun f a => some (2 ^ width f - 1 - a, 0), false,
     fun _ _ => False, fun _ => none⟩,
   ⟨.vclz, isInt, fVclz, fun f _ a => ((List.range (width f)).countP fun k => a / 2 ^ k == 0, 0), fun _ _ => none, false,
     fun _ _ => False, fun _ => none⟩,
   ⟨.vpopc, isInt, fVpopc, fun f _ a => ((List.range (width f)).countP fun k => a.testBit k, 0), fun _ _ => none, false,
     fun _ _ => False, fun _ => none⟩]

/-- The function of a row is what the manual gives: on integers; on floats where it is special, where the result is exact, and where it
is a root, rounded once (R73, R74). Float operands are flushed under FTZ (R74), but by VCLASS and VNOT. -/
def VecOne.holds (p : VecOne) : Prop :=
  ∀ (h : Hart) (a : Nat), let f := h.fmt
    a < 2 ^ width f → p.ok f = true →
      (isInt f = true → p.fn h a = p.int f h.sat a) ∧
      (isFloat f = true →
        let c := if p.flushed then arg f h.ftz a else a
        (∀ r, p.special f c = some r → p.fn h a = r) ∧
        (p.special f c = none →
          (∀ q, p.exact (signed (decoded f c)) q → Delivers f h.rm h.ftz q (p.fn h a)) ∧
          ∀ y, p.root (signed (decoded f c)) = some y → RootOf f h.rm y (p.fn h a)))

/-- The place of a code that is no NaN in the order of the numbers, in which −0 and +0 are equal. -/
def rank (f : Fmt) (c : Nat) : Int := if neg f c then -((c % 2 ^ (width f - 1) : Nat) : Int) else (c : Int)

/-- A VCMP condition on two codes, and the flags it raises (Table 15-9): a NaN is unordered; EQ, NE and UO raise NV for a signalling
NaN, and the others for any. On integers UO is never true. -/
def comparison (c : VCond) (f : Fmt) (ftz : Bool) (a b : Nat) : Bool × Nat :=
  if isFloat f then
    let x := arg f ftz a
    let y := arg f ftz b
    let unordered := isNan f x || isNan f y
    let quiet := if signalling f x || signalling f y then nv else 0
    let loud := if unordered then nv else 0
    match c with
    | .eq => (!unordered && rank f x == rank f y, quiet)
    | .ne => (unordered || rank f x != rank f y, quiet)
    | .lt => (!unordered && rank f x < rank f y, loud)
    | .le => (!unordered && rank f x ≤ rank f y, loud)
    | .gt => (!unordered && rank f y < rank f x, loud)
    | .ge => (!unordered && rank f y ≤ rank f x, loud)
    | .uo => (unordered, quiet)
  else
    let x := val f a
    let y := val f b
    (match c with
     | .eq => x == y
     | .ne => x != y
     | .lt => x < y
     | .le => x ≤ y
     | .gt => y < x
     | .ge => y ≤ x
     | .uo => false, 0)

/-- What a node of the tree of R80 makes of two leaves or nodes, of which none stands for the identity: `f` combines two values, and
`g` one with the identity. -/
def node (f : Nat → Nat → Nat × Nat) (g : Nat → Nat × Nat) (a b : Option Nat) : Option Nat × Nat :=
  match a, b with
  | some u, some v => (some (f u v).1, (f u v).2)
  | some u, none | none, some u => (some (g u).1, (g u).2)
  | none, none => (none, 0)

/-- A node of the tree of R80, at height `k` and number `j`: its value, and the flags raised at it and below it. -/
def tree {A : Type} (f : A → A → A × Nat) (leaf : Nat → A) : Nat → Nat → A × Nat
  | 0, j => (leaf j, 0)
  | k + 1, j =>
    let a := tree f leaf k (2 * j)
    let b := tree f leaf k (2 * j + 1)
    let r := f a.1 b.1
    (r.1, a.2 ||| b.2 ||| r.2)

/-- The reductions: the formats each admits, its identity (Table 4-11), and what combines two codes (R80). -/
def vecFold : List ((Stack → VReg → VReg → MReg → Instr) × (Fmt → Bool) × (Fmt → Nat) × (Hart → Nat → Nat → Nat × Nat)) :=
  [(.vrsum, isArith, fun f => if isFloat f then 2 ^ (width f - 1) else 0, fun h a b => fVadd h a b 0),
   (.vrmax, isArith, fun f => if isFloat f then infCode f true else if isSigned f then 2 ^ (width f - 1) else 0,
    fun h a b => fVmax h a b 0),
   (.vrmin, isArith, fun f => if isFloat f then infCode f false
      else if isSigned f then 2 ^ (width f - 1) - 1 else 2 ^ width f - 1, fun h a b => fVmin h a b 0),
   (.vrand, isInt, fun f => 2 ^ width f - 1, fun _ a b => (a &&& b, 0)),
   (.vror, isInt, fun _ => 0, fun _ a b => (a ||| b, 0))]

/-! Conversions (R67, R69, R79), scales (R348) and the greatest of a line (R100), on exact values. -/

/-- A value converted to E8M0 (Table 4-10): its code and its flags. -/
def ToScale (x : FVal) (r : Nat × Nat) : Prop :=
  match x with
  | .nan _ | .inf _ => r = (255, nv)
  | .fin _ m e => (m = 0 → r = (255, nv)) ∧ (m ≠ 0 → ∃ k : Int, mag 1 k ≤ mag m e ∧ mag m e < mag 1 (k + 1) ∧
      (r.1 : Int) = max 0 (min 254 (k + 127)) ∧ r.2 = (if mag m e = mag 1 k ∧ -127 ≤ k ∧ k ≤ 127 then 0 else 1))

/-- A value converted to a float format (Table 4-10). -/
def ToFloat (f : Fmt) (rm : RM) (ftz sat : Bool) (x : FVal) (r : Nat × Nat) : Prop :=
  match x with
  | .nan sig => r = (if f = .e4m3 then 0x7F else if f = .e5m2 then 0x7E else if f = .e2m1 then 0 else nan f,
      if sig || f = .e2m1 then nv else 0)
  | .inf s => r = (if f = .e4m3 ∨ f = .e2m1 then (zero f s + top f, nv) else (inf f s, 0))
  | .fin s m e => FloatOf f rm ftz sat s (mag m e) r

/-- A value converted to an integer format (Table 4-10): the rounded integer is tested against the range. -/
def ToInt (f : Fmt) (rm : RM) (x : FVal) (r : Nat × Nat) : Prop :=
  match x with
  | .nan _ => r = (0, nv)
  | .inf s => r = (((if s then lo f else hi f) % 2 ^ width f).toNat, nv)
  | .fin s m e => ∃ n : Nat, Rounds rm s (fun k => (k : Rat)) n (mag m e) ∧
      let v : Int := if s then -(n : Int) else n
      r = if hi f < v then ((hi f % 2 ^ width f).toNat, nv)
        else if v < lo f then ((lo f % 2 ^ width f).toNat, nv)
        else ((v % 2 ^ width f).toNat, if (n : Rat) = mag m e then 0 else 1)

/-- A value converted to a format that is not bit-sliced (Table 4-10). -/
def Converts (f : Fmt) (rm : RM) (ftz sat : Bool) (x : FVal) (r : Nat × Nat) : Prop :=
  if f = .e8m0 then ToScale x r else if isFloat f || isSmall f then ToFloat f rm ftz sat x r else ToInt f rm x r

/-- The value that VCVT reads of a float or E8M0 source: the code `c`, which stands at `org`, a register and an element. Under FTZ a
subnormal operand is a zero (R74). An escape is its purse entry, and NaN with NV where it has none (R69); BS applies
the scale of the element's block, of which 0xFF stands for NaN (R67). -/
def source (h : Hart) (ents : List PEntry) (c : Nat) (org : Option (VReg × Nat)) : FVal :=
  if isSmall h.fmt = false then decoded h.fmt (if isFloat h.fmt then arg h.fmt h.ftz c else c)
  else
    let entry := org.bind fun u => ents.find? fun p => p.reg == u.1 && p.e == u.2
    let value := if h.fmt = .e2m1 ∧ c = 8 then entry.map fun p => decoded .bf16 p.code else some (decoded h.fmt c)
    match value, org with
    | none, _ => .nan true
    | some v, none => v
    | some v, some (u, j) =>
      let k := (h.scale (pairK u) (j / 32)).toNat
      if h.bs = false then v else if k = 255 then .nan false else v.shift ((k : Int) - 127)

/-- An infinity of sign `s`. -/
def infinite (s : Bool) (v : FVal) : Bool := v == .inf s

/-- The product of two values that are no NaN is an infinity of sign `s`. -/
def infProduct (s : Bool) (p : FVal × FVal) : Bool :=
  (!finite p.1 || !finite p.2) && !p.1.isZero && !p.2.isZero && (p.1.neg != p.2.neg) == s

/-- A cell of the matrix unit: what the old value and the products of `ps` make of it, and the flags (R81). That a quiet NaN hides
infinities of both signs beside it is log entry 46. -/
def CellOf (old : FVal) (ps : List (FVal × FVal)) (r : Nat × Nat) : Prop :=
  let vs := old :: ps.flatMap fun p => [p.1, p.2]
  let bad := ps.any fun p => p.1.isZero && (infinite true p.2 || infinite false p.2) ||
    p.2.isZero && (infinite true p.1 || infinite false p.1)
  let inf := fun s => infinite s old || ps.any (infProduct s)
  (vs.any (·.isNan) = true → r = (nan .fp32, if bad || vs.any (· == .nan true) then nv else 0)) ∧
  (vs.any (·.isNan) = false →
    (bad = true ∨ inf true = true ∧ inf false = true → r = (nan .fp32, nv)) ∧
    (∀ s, bad = false → inf s = true → inf (!s) = false → r = (Spec.inf .fp32 s, 0))) ∧
  (vs.all finite = true → ∃ s m e,
    signed (.fin s m e) = signed old + (ps.map fun p => signed p.1 * signed p.2).sum ∧
    (m = 0 → (s = true ↔ old.isZero = true ∧ old.neg = true ∧
      ∀ p ∈ ps, (p.1.isZero = true ∨ p.2.isZero = true) ∧ p.1.neg ≠ p.2.neg)) ∧
    ToFloat .fp32 .rne false false (.fin s m e) r)

/-- k is log2 (A / M) rounded in mode `rm`, for positive A and M (R348). -/
def RoundsLog (rm : RM) (A M : Rat) (k : Int) : Prop :=
  if rm = .rne then mag 1 (2 * k - 1) * (M * M) ≤ A * A ∧ A * A ≤ mag 1 (2 * k + 1) * (M * M)
  else if rm = .rup ∨ rm = .rtz ∧ A < M then mag 1 (k - 1) * M < A ∧ A ≤ mag 1 k * M
  else mag 1 k * M ≤ A ∧ A < mag 1 (k + 1) * M

/-- The entry of a block of values for the target `f` (R348). -/
def ScaleOf (rm : RM) (f : Fmt) (vs : List FVal) (r : Option (BitVec 8)) : Prop :=
  (vs = [] → r = none) ∧
  (vs.any (fun v => !finite v) = true → r = some 255) ∧
  (vs ≠ [] → vs.all finite = true → ∃ v ∈ vs, (∀ u ∈ vs, size u ≤ size v) ∧
    (size v = 0 → r = some 127) ∧
    (size v ≠ 0 → ∃ k : Int, RoundsLog rm (size v) (if f = .e4m3 then 448 else if f = .e5m2 then 57344 else 6) k ∧
      r = some (BitVec.ofInt 8 (max 0 (min 254 (k + 127))))))

/-- Whether a code ranks strictly above another in VARGMAX (R100): as R78 orders them, and a NaN above every number. -/
def above (h : Hart) (a b : Nat) : Bool :=
  if isFloat h.fmt then
    !isNan h.fmt b && (isNan h.fmt a || key h.fmt (arg h.fmt h.ftz b) < key h.fmt (arg h.fmt h.ftz a))
  else val h.fmt b < val h.fmt a

/-- What VARGMAX writes for a line, of which `cs` holds the active elements by ascending x: the lowest x of its maximum, clamped to
2^w − 1 with SAT, with NV for a signalling NaN (R100). -/
def ArgmaxOf (h : Hart) (cs : List (Nat × Nat)) (r : Nat × Nat) : Prop :=
  let w := width h.fmt
  (cs = [] → r = (2 ^ w - 1, 0)) ∧
  (cs ≠ [] → ∃ p ∈ cs, (∀ q ∈ cs, above h q.2 p.2 = false ∧ (q.1 < p.1 → above h p.2 q.2 = true)) ∧
    r.1 = min p.1 (2 ^ w - 1) ∧
    r.2 = (if isFloat h.fmt && cs.any (fun q => signalling h.fmt q.2) then nv else 0) ||| (if 2 ^ w - 1 < p.1 then clamped else 0))

/-- The grants of R27, from the free lane clusters, the lowest numbered first: each waiting hart takes the lesser of its demand and
the fair share. -/
def grants (share : Nat) : List Nat → List Nat → List (List Nat)
  | _, [] => []
  | free, d :: ds => free.take (min d share) :: grants share (free.drop (min d share)) ds

/-- The fair share of a core with `n` requesters (R27). -/
def fairShare (n : Nat) : Nat := max 1 (8 / n)

/-- The number of 0 bits above the highest 1 bit: the number of shifts to the right, below 64, that leave 0. -/
def clz (a : Word) : Word := wd ((List.range 64).countP fun k => a >>> k == 0)

/-- The number of 1 bits. -/
def popc (a : Word) : Word := wd ((List.range 64).countP fun k => a.getLsbD k)

/-- What an AMO writes in place of `old` (R278, R279). -/
def amo {w : Nat} (o : AmoOp) (old b : BitVec w) : BitVec w :=
  match o with
  | .add => old + b
  | .and => old &&& b
  | .or => old ||| b
  | .xor => old ^^^ b
  | .min => if old.sle b then old else b
  | .max => if b.sle old then old else b
  | .minn => if old ≤ b then old else b
  | .maxn => if b ≤ old then old else b
  | .swap => b

/-- TCAUSE of a trap (Table 10-1): CODE in [7:0], DETAIL in [15:8], VPB in [16]. -/
def tcause (code detail : Nat) (vpb : Bool) : Word :=
  BitVec.ofNat 47 0 ++ BitVec.ofBool vpb ++ BitVec.ofNat 8 detail ++ BitVec.ofNat 8 code

/-- The RW bits of the control registers (Table 13-16 and the table of each). -/
def csrRw : Csr → Word
  | .vtype => 0xC0
  | .dil => 0xFFFFFF
  | .cbypass => 0xFFFFFFFF
  | .purse => 0xFFFFFFFFFFFFFFFE
  | .frm => 0x3F0F
  | .fflags => 0x3F
  | .chk => 0xFFFF0001
  | .tcause => 0x1FFFF
  | .tpc => 0xFFFFFFFFFFFFFFFE
  | .tstripe => 0xFFFF
  | .tval => 0xFFFFFFFFFFFFFFFF
  | .tvec => 0xFFFFFFFFFFFFFFFD
  | .vl | .bgeo | .vbase | .fst | .cid | .inc | .hmask | .cyc => 0

/-- The W1C bits of the control registers: those of FST (Table 8-6). -/
def csrW1c (c : Csr) : Word := if c = .fst then 0xC000000000000000 else 0

/-- What a write that comes to `new` leaves: a result of 100 to 111 in FRM.RM leaves that field unchanged (Table 4-6). -/
def csrStored (c : Csr) (old new : Word) : Word :=
  if c = .frm ∧ new.getLsbD 2 = true then (new &&& ~~~7) ||| (old &&& 7) else new

end Spec

namespace Machine

/-- The scalar instructions, and the steps of the memory system, that `MemoryKeepsItsForm` covers. -/
def keepers (x : Stack) (d a b : SReg) (k : BitVec 8) (l : BitVec 18) (n : BitVec 12) (z : Sz) (sc : Scope)
    (o : AmoOp) (csr : Csr) (c : CoreId) (w : Word) (pa : Nat) (bs : List Byte) (y : Ctx) (v : BitVec 32) (be : BitVec 4)
    (who : Agent) (tag : Tag) (skew : Fin 3) : List Instr :=
  Spec.two.map (fun p => p.1 x d a b) ++
  [.clz x d a, .popc x d a, .addi x d a n, .lih x d l, .adpc x d l, .jal x d l, .jalr x d a k, .ld x d a k z, .st x d a k z,
   .ldaq x d a sc z, .strl x d a sc z, .amo x d a b o z, .csrr x d csr, .csrw x a csr, .csrs x a csr, .csrc x a csr,
   .sysc x, .wordRegistration c y ⟨pa, skew⟩ v be, .sliceRead ⟨c, y⟩ ⟨pa, skew⟩, .readForward c pa, .writeBack c pa, .responseArrival c pa,
   .homeWriteApply ⟨who, tag⟩ pa bs, .sharerInvalidation who pa, .homeAtomic ⟨c, y⟩ (.amo o) z pa w,
   .homeAtomic ⟨c, y⟩ (.cas w) z pa w, .claimService c y pa w, .farmWrite ⟨⟨c, y⟩, pa⟩ w, .hostSnoop pa, .copyEngineTransfer c y,
   .vredElementAdd c y, .progressWordAdd c y]

end Machine

end Sys2Proof
end

