-- ==== Sys2Proof/Certificates/Slice0/Obligations.lean ====
section
/-! DEFINITION. The statements for the provers. -/

section

open Sys2Proof Sys2Proof.Machine

/-! Scalar instructions. -/

/-- R272, R275, R303: each scalar instruction with two register sources completes, and s[sd] receives what Tables 14-2 and
15-3 give; nothing else changes but the pc and the tokens of the form. The result of XOR is read from its name in Table 13-3. -/
def Obligations.ScalarTwoSourceResults : Prop :=
  ∀ p ∈ Spec.two, ∀ x d a b, WritesScalar (p.1 x d a b) d [a, b] fun s => p.2 (s.h.sreg a) (s.h.sreg b)

/-- R275, R303, R276, R304, R298, R277: counts, shifts by a constant, immediates. R266: the compressed register operations do
what the full-size words of the table do. That with destination s0 they complete and read nothing is log entry 27; XORI is read from
its name in Table 13-3. -/
def Obligations.ScalarOneSourceResults : Prop :=
  (∀ (x : Stack) (d a : SReg) (n : BitVec 6) (k : BitVec 12) (l : BitVec 18),
     WritesScalar (.clz x d a) d [a] (fun s => Spec.clz (s.h.sreg a)) ∧
     WritesScalar (.popc x d a) d [a] (fun s => Spec.popc (s.h.sreg a)) ∧
     WritesScalar (.shli x d a n) d [a] (fun s => s.h.sreg a <<< n) ∧
     WritesScalar (.shri x d a n) d [a] (fun s => s.h.sreg a >>> n) ∧
     WritesScalar (.srai x d a n) d [a] (fun s => (s.h.sreg a).sshiftRight n.toNat) ∧
     WritesScalar (.addi x d a k) d [a] (fun s => s.h.sreg a + immOf x k) ∧
     WritesScalar (.andi x d a k) d [a] (fun s => s.h.sreg a &&& immOf x k) ∧
     WritesScalar (.ori x d a k) d [a] (fun s => s.h.sreg a ||| immOf x k) ∧
     WritesScalar (.xori x d a k) d [a] (fun s => s.h.sreg a ^^^ immOf x k) ∧
     WritesScalar (.slti x d a k) d [a] (fun s => if (s.h.sreg a).toInt < (immOf x k).toInt then 1 else 0) ∧
     WritesScalar (.lih x d l) d [] (fun _ => l.signExtend 64 <<< 12) ∧
     WritesScalar (.adpc x d l) d [] (fun s => s.h.pc + l.signExtend 64 <<< 12)) ∧
  (∀ (d a : Fin 32) (k : BitVec 6),
     WritesScalar (.caddi d k) (r32 d) [r32 d] (fun s => s.h.sreg (r32 d) + k.signExtend 64) ∧
     WritesScalar (.cli d k) (r32 d) [] (fun _ => k.signExtend 64) ∧
     WritesScalar (.cmov d a) (r32 d) [r32 a] (fun s => s.h.sreg (r32 a)) ∧
     WritesScalar (.cadd d a) (r32 d) [r32 d, r32 a] (fun s => s.h.sreg (r32 d) + s.h.sreg (r32 a)) ∧
     WritesScalar (.csub d a) (r32 d) [r32 d, r32 a] (fun s => s.h.sreg (r32 d) - s.h.sreg (r32 a)))

/-- R267: every class-000 instruction with sd = s0, and CADDI and CLI with sd = s0, is a hint: it changes nothing but the pc and
the tokens of its form. `hint e` is ADDI s0, s0 with imm12 = e. A word of CLZ or POPC whose field sb is not 0 is none, and
raises the illegal-instruction trap. That a hint with TW or TP takes and gives its tokens is log entry 23. -/
def Obligations.HintsChangeNothing : Prop :=
  ∀ (x : Stack) (a b : SReg) (e : BitVec 12) (n : BitVec 6) (l : BitVec 18),
    (∀ i ∈ Spec.two.map (fun p => p.1 x 0 a b) ++ [.hint x e, .nop x, .clz x 0 a, .popc x 0 a, .shli x 0 a n, .shri x 0 a n,
        .srai x 0 a n, .addi x 0 a e, .andi x 0 a e, .ori x 0 a e, .xori x 0 a e, .slti x 0 a e, .lih x 0 l, .adpc x 0 l,
        .caddi 0 n, .cli 0 n], ∀ s, Issues i s → exec i s = passes i s id) ∧
    (Instr.hint x e).word = 3 + 32 * e.toNat ∧
    (b ≠ 0 → ∀ i ∈ [Instr.clz .plain 0 a, .popc .plain 0 a],
      decodeForm (wordBytes (i.word + 2048 * b.val)) = .error (.illegalInstr 0))

/-- R283, R266: the branches, the fields of their words, and the compressed branches. -/
def Obligations.BranchesGoWhereTheySay : Prop :=
  ∀ (x : Stack) (a b : SReg) (k : BitVec 12) (c : Fin 32) (m : BitVec 6) (l : BitVec 11),
    let near := fun s : State => s.h.pc + k.signExtend 64 <<< 1
    let short := fun s : State => s.h.pc + m.signExtend 64 <<< 1
    Branches (.beq x a b k) [a, b] (fun s => s.h.sreg a = s.h.sreg b) near ∧
    Branches (.bne x a b k) [a, b] (fun s => s.h.sreg a ≠ s.h.sreg b) near ∧
    Branches (.blt x a b k) [a, b] (fun s => (s.h.sreg a).toInt < (s.h.sreg b).toInt) near ∧
    Branches (.bge x a b k) [a, b] (fun s => (s.h.sreg b).toInt ≤ (s.h.sreg a).toInt) near ∧
    Branches (.bltn x a b k) [a, b] (fun s => (s.h.sreg a).toNat < (s.h.sreg b).toNat) near ∧
    Branches (.bgen x a b k) [a, b] (fun s => (s.h.sreg b).toNat ≤ (s.h.sreg a).toNat) near ∧
    Branches (.cbeqz c m) [r32 c] (fun s => s.h.sreg (r32 c) = 0) short ∧
    Branches (.cbnez c m) [r32 c] (fun s => s.h.sreg (r32 c) ≠ 0) short ∧
    Branches (.cj l) [] (fun _ => true) (fun s => s.h.pc + l.signExtend 64 <<< 1) ∧
    ∀ p ∈ [(2, Instr.beq x a b k), (3, .bne x a b k), (4, .blt x a b k), (5, .bge x a b k), (6, .bltn x a b k), (7, .bgen x a b k)],
      p.2.word = 1 * 2 ^ 29 + a.val * 2 ^ 23 + b.val * 2 ^ 17 + k.toNat * 2 ^ 5 + p.1 * 2 ^ 2 + 3

/-- R294: JAL and JALR write the address behind the form and jump; JALR to an odd address traps and writes nothing; the
fields of their words. -/
def Obligations.JumpsLinkAndGo : Prop :=
  ∀ (x : Stack) (d a : SReg) (k : BitVec 8) (l : BitVec 18) (s : State),
    (Issues (.jal x d l) s →
      exec (.jal x d l) s = jumpsTo (.jal x d l) s (fun t => t.writeS d (s.h.pc + wd x.len)) (s.h.pc + l.signExtend 64 <<< 2)) ∧
    (Issues (.jalr x d a k) s → Clean [a] s →
      let target := s.h.sreg a + k.signExtend 64
      (target % 2 = 0 → exec (.jalr x d a k) s =
        jumpsTo (.jalr x d a k) s (fun t => t.writeS d (s.h.pc + wd x.len)) target) ∧
      (target % 2 = 1 → exec (.jalr x d a k) s = trapsWith s { code := cMisaligned, val := 0 })) ∧
    (Instr.jal x d l).word = 1 * 2 ^ 29 + d.val * 2 ^ 23 + l.toNat * 2 ^ 5 + 1 * 2 ^ 2 + 3 ∧
    (Instr.jalr x d a k).word = 1 * 2 ^ 29 + d.val * 2 ^ 23 + a.val * 2 ^ 17 + k.toNat * 2 ^ 9 + 8 * 2 ^ 5 + 3

/-- R296, R297, R266: scalar loads. -/
def Obligations.ScalarLoadsRead : Prop :=
  ∀ (x : Stack) (d a : SReg) (k : BitVec 8) (z : Sz) (sc : Scope) (d8 a8 : Fin 8) (u : BitVec 5),
    Loads (.ld x d a k z) id d a k.toInt (szBytes z) ∧
    Loads (.ldaq x d a sc z) (fun t => t.acquire sc) d a 0 (szBytes z) ∧
    Loads (.cldw d8 a8 u) id (r8 d8) (r8 a8) (4 * u.toNat : Nat) 4 ∧
    Loads (.cldd d8 a8 u) id (r8 d8) (r8 a8) (8 * u.toNat : Nat) 8

/-- R309, R266: scalar stores. -/
def Obligations.ScalarStoresWrite : Prop :=
  ∀ (x : Stack) (d a : SReg) (k : BitVec 8) (z : Sz) (sc : Scope) (d8 a8 : Fin 8) (u : BitVec 5),
    Stores (.st x d a k z) id d a k.toInt (szBytes z) ∧
    Stores (.strl x d a sc z) (fun t => t.release sc) d a 0 (szBytes z) ∧
    Stores (.cstw d8 a8 u) id (r8 d8) (r8 a8) (4 * u.toNat : Nat) 4 ∧
    Stores (.cstd d8 a8 u) id (r8 d8) (r8 a8) (8 * u.toNat : Nat) 8

/-- R278, R279, R284: the scalar atomics. That a CAS which fails still ends the registration and the core's copies, and what
becomes of poison, is log entry 27. -/
def Obligations.ScalarAtomicsUpdate : Prop :=
  ∀ (x : Stack) (d a b : SReg) (o : AmoOp) (z : Sz),
    Updates (.amo x d a b o z) x d a [b] (szBytes z) (fun s old => some (Spec.amo o old ((s.h.sreg b).setWidth _))) ∧
    Updates (.cas x d a b z) x d a [d, b] (szBytes z)
      fun s old => if old = (s.h.sreg d).setWidth _ then some ((s.h.sreg b).setWidth _) else none

/-- R309, R266, R126, R5: what a scalar store stores, and its frame. R272: the frame of the scalar register operations: every
scalar register but sd, every other register, all of memory and the rest of the machine stay, s0 reads 0, and sd is clean. -/
def Obligations.ScalarInstructionsLeaveTheRest : Prop :=
  (∀ (x : Stack) (d a : SReg) (k : BitVec 8) (z : Sz) (sc : Scope) (d8 a8 : Fin 8) (u : BitVec 5),
    StoresOnly (.st x d a k z) d a k.toInt (szBytes z) ∧
    StoresOnly (.strl x d a sc z) d a 0 (szBytes z) ∧
    StoresOnly (.cstw d8 a8 u) (r8 d8) (r8 a8) (4 * u.toNat : Nat) 4 ∧
    StoresOnly (.cstd d8 a8 u) (r8 d8) (r8 a8) (8 * u.toNat : Nat) 8) ∧
  ∀ (x : Stack) (d a b : SReg) (n m : BitVec 6) (k : BitVec 12) (l : BitVec 18) (d5 a5 : Fin 32),
    ∀ p ∈ Spec.two.map (fun p => (p.1 x d a b, d, [a, b])) ++
      [(.clz x d a, d, [a]), (.popc x d a, d, [a]), (.shli x d a n, d, [a]), (.shri x d a n, d, [a]), (.srai x d a n, d, [a]),
       (.addi x d a k, d, [a]), (.andi x d a k, d, [a]), (.ori x d a k, d, [a]), (.xori x d a k, d, [a]), (.slti x d a k, d, [a]),
       (.lih x d l, d, []), (.adpc x d l, d, []), (.caddi d5 m, r32 d5, [r32 d5]), (.cli d5 m, r32 d5, []),
       (.cmov d5 a5, r32 d5, [r32 a5]), (.cadd d5 a5, r32 d5, [r32 d5, r32 a5]), (.csub d5 a5, r32 d5, [r32 d5, r32 a5])],
    ∀ s t, Issues p.1 s → (p.2.1 = 0 ∨ Clean p.2.2 s ∧ NoUpset s) → exec p.1 s = .next t →
      t.h.sreg 0 = 0 ∧ t.h.pc = behind p.1 s ∧ (p.2.1 ≠ 0 → t.h.sPoison p.2.1 = false) ∧
      (∀ r, r ≠ p.2.1 → t.h.sreg r = s.h.sreg r ∧ t.h.sPoison r = s.h.sPoison r) ∧
      (∀ l, (∀ r, l ≠ .sreg r) → (l ∈ t.h.poison ↔ l ∈ s.h.poison)) ∧
      (∀ y, t.mem.curByte y = s.mem.curByte y) ∧
      t = { s with h := { s.h with pc := t.h.pc, sregs := t.h.sregs, tokens := t.h.tokens, poison := t.h.poison } }

/-! Traps. -/

/-- R192, R188, R230: a trap with TVEC.EN = 1 and TVEC.INH = 0, of a cause that is neither 0x28 nor a data error of DETAIL 2, is
delivered: the four trap registers are written, INH becomes 1, the hart continues at HADDR * 4; nothing else of the hart
changes but the open instruction, and nothing outside it, but for the report of a data error. Any other trap holds the hart
in fault, with the trap registers written, and a report is made, which names the hart, its CID, its INC and TCAUSE (0 for a
violation, Table 11-10). A report that falls into the backing area of the hart leaves unspecified vector registers (R104). The
model's choices: an undelivered trap makes one report, of kind 2 for a data error and of kind 4 for a violation (log entry 24);
the tokens of forms that issued ahead of their turn go back (`unwindAhead`, log entry 23). -/
def Obligations.TrapsAreDeliveredOrHoldTheHart : Prop :=
  ∀ (t : TrapInfo) (tpc : Word) (vpb : Bool) (s : State),
    let delivered := s.h.tvec.getLsbD 0 = true ∧ s.h.tvec.getLsbD 1 = false ∧ t.code ≠ 0x28 ∧ ¬(t.code = 0x20 ∧ t.detail = 2)
    let cause := Spec.tcause t.code t.detail vpb
    let v : Hart := { s.h.unwindAhead with
      tcause := cause, tpc := tpc &&& ~~~1, tstripe := wd (t.stripe % 65536), tval := t.val
      opened := t.opened.or (s.h.resume.or s.h.opened), resume := none, barred := false }
    let enters : Hart := { v with status := .running, tvec := s.h.tvec ||| 2, pc := s.h.tvec &&& ~~~3 }
    let holds : Hart := { v with status := .heldInFault }
    let r : Report :=
      { kind := if t.code = 0x20 then 2 else if t.code = 0x28 then 4 else 1
        detail := t.detail, cid := s.h.cid, inc := s.h.inc
        tcause := if t.code = 0x28 then 0 else cause
        addr := if t.code = 0x28 then t.val else tpc &&& ~~~1
        master := hartMaster s.h.core s.h.ctx, gang := gangWord s.h.gang s.h.index }
    let u := takeTrap t tpc vpb s
    (s.h.ahead = [] → s.h.unwindAhead = s.h) ∧
    (delivered → t.code ≠ 0x20 → u = { s with h := enters }) ∧
    (delivered → t.code = 0x20 → u = State.report { s with h := enters } r ∧
      u.h = { enters with vregs := u.h.vregs, vgen := u.h.vgen }) ∧
    (¬delivered → u = State.report { s with h := holds } r ∧ u.h = { holds with vregs := u.h.vregs, vgen := u.h.vgen })

/-- R224, R230: a report is record HEAD of the ring, and HEAD grows by 1, while fewer than 16 383 records stand; else OVF
grows by 1 and saturates. TAIL stays. The ring meets no backing area of a placed hart. R150, R220, R135: on a die that has failed
the ring takes nothing; behind older reports that wait, a link that retrains, or an open multicast entry, the report waits. -/
def Obligations.ReportsGoToTheRing : Prop :=
  ∀ (s : State) (r : Report) (ring head tail ovf : Nat), s.mem.Formed → ring = s.sys.ctxBase + 0x100000 →
    head = s.mem.curNat ring 8 → tail = s.mem.curNat (ring + 8) 8 → ovf = s.mem.curNat (ring + 16) 8 →
    let place := ring + 0x40 + 64 * (head % 16383)
    let waits := s.sys.reports ≠ [] ∨ s.sys.linkWaits ring = true ∨ s.sys.linkWaits place = true ∨ s.sys.mcHolds ring = true ∨
      s.sys.mcHolds place = true
    (s.sys.homeLost ring = true → s.report r = s) ∧
    (s.sys.homeLost ring = false → waits → s.report r = { s with sys := { s.sys with reports := s.sys.reports ++ [r] } }) ∧
    ((∀ p, ring ≤ p → p < ring + 0x100000 → s.sys.homeLost p = false) → ¬waits → s.backed ring 0x100000 = false →
    (s.report r).mem.curNat (ring + 8) 8 = tail ∧
    (head - tail < 16383 → head + 1 < 2 ^ 64 →
      (s.report r).mem.curBytes place 64 = r.bytes ∧
      (s.report r).mem.curNat ring 8 = head + 1 ∧ (s.report r).mem.curNat (ring + 16) 8 = ovf ∧
      (s.report r).sys.msi = s.sys.msi + 1) ∧
    (16383 ≤ head - tail → (s.report r).mem.curNat ring 8 = head ∧
      (s.report r).mem.curNat (ring + 16) 8 = min (ovf + 1) (2 ^ 64 - 1)))

/-- R310: SYSC takes the trap of cause 0x30 with TPC behind the form, once its token is pushed. R196: TRET returns. Without an
open instruction the hart continues at TPC; at an open instruction's address it resumes at stripe TSTRIPE, or closes it where
no stripe is left: the instruction is complete, the queue entries that it consumed are freed, and PURSE moves past its entries;
elsewhere it closes it and continues at TPC, and the queues and PURSE stay (log entry 45). INH becomes 0. R198: after a trap in a block the
hart continues behind the VFETCH. -/
def Obligations.SyscTrapsAndTretReturns : Prop :=
  (∀ x : Stack, (Instr.sysc x).word = 0xC000001F) ∧
  (∀ (x : Stack) (s : State), Issues (.sysc x) s →
     exec (.sysc x) s = .next (takeTrap { code := 0x30 } (s.h.pc + wd x.len) false
       ((issued (.sysc x) s).pushOrHold (pushFifo x 0)))) ∧
  (∀ (x : Stack) (s : State), Issues (.tret x) s → s.h.inHandler = true →
     exec (.tret x) s = .next (returnFromTrap (openStripes s.h) ((issued (.tret x) s).pushOrHold (pushFifo x 0))) ∧
     ∀ (n : Nat) (t : State), t.h.tcause.getLsbD 16 = false →
       let completes := fun (o : OpenInstr) (n : Nat) (t : State) =>
         (returnFromTrap n t).h.queues = (t.h.popQueues o.frees).queues ∧ (returnFromTrap n t).h.purse = t.h.purse + wd o.purse
       let v := { t.h with tvec := t.h.tvec &&& ~~~2, status := .running }
       (t.h.opened = none → returnFromTrap n t = { t with h := { v with pc := t.h.tpc } }) ∧
       ∀ o, t.h.opened = some o →
         (t.h.tpc = o.pc → t.h.tstripe.toNat < n → returnFromTrap n t =
           { t with h := { v with opened := none, resume := some { o with stripe := t.h.tstripe.toNat }, pc := o.pc } }) ∧
         (t.h.tpc = o.pc → n ≤ t.h.tstripe.toNat → (returnFromTrap n t).h.opened = none ∧
           (returnFromTrap n t).h.pc = o.pc + wd (formLen o.instr) ∧ (returnFromTrap n t).h.resume = t.h.resume ∧ completes o n t) ∧
         (t.h.tpc ≠ o.pc → (returnFromTrap n t).h.opened = none ∧ (returnFromTrap n t).h.pc = t.h.tpc ∧
           (returnFromTrap n t).h.resume = t.h.resume ∧ (returnFromTrap n t).h.queues = t.h.queues ∧
           (returnFromTrap n t).h.purse = t.h.purse)) ∧
  ∀ (n : Nat) (t : State) (next : Word) (push : Option Nat), t.h.tcause.getLsbD 16 = true → t.h.vpClosed = some (next, push) →
    (returnFromTrap n t).h.pc = next ∧ (returnFromTrap n t).h.vpClosed = none ∧ (returnFromTrap n t).h.inHandler = false

/-- R258, R197, R196: INCB, RCF, SLWB and HMSW of a hart that is not privileged, SETVL, SETVLB, CLAIM, VREST, MSETM and
MREL in a handler, and TRET outside one, raise an illegal-instruction trap. -/
def Obligations.ForbiddenFormsTrap : Prop :=
  ∀ (x : Stack) (d a b : SReg) (f : Fmt) (n : NregC) (z y w : Fin 5) (l : MvlC) (s : State),
    (s.h.cid ≠ 0 → ∀ i ∈ [Instr.incb x d a, .rcf x d a, .slwb x a b, .hmsw x a],
      Issues i s → exec i s = trapsWith s { code := 1 }) ∧
    (s.h.inHandler = true →
      ∀ i ∈ [Instr.setvl x d a f n, .setvlb x d f n z y w, .claim x d a b, .vrest x a, .msetm x l, .mrel x],
      Issues i s → exec i s = trapsWith s { code := 1 }) ∧
    (s.h.inHandler = false → Issues (.tret x) s → exec (.tret x) s = trapsWith s { code := 1 })

/-- R179, R190: a scalar access whose probe finds a fault traps as a whole with its cause, and changes nothing; the probe
finds an address fault where the bytes leave the address space, and no access passes at an address that is not a multiple
of its size. R206, R208: a poisoned source that was replayed is a data error, and the instruction writes nothing. -/
def Obligations.FaultyAccessesTrap : Prop :=
  ((∀ (x : Stack) (d a b : SReg) (k : BitVec 8) (o : AmoOp) (z : Sz) (sc : Scope) (s : State) (c : Nat), Clean [a, b, d] s →
     (probe s needLd (s.readN a + k.toInt) (szBytes z) (szBytes z) = .bad c →
       Issues (.ld x d a k z) s → exec (.ld x d a k z) s = trapsWith s { code := c }) ∧
     (probe s needSt (s.readN a + k.toInt) (szBytes z) (szBytes z) = .bad c →
       Issues (.st x d a k z) s → exec (.st x d a k z) s = trapsWith s { code := c }) ∧
     (probe s needLd (s.readN a) (szBytes z) (szBytes z) = .bad c →
       Issues (.ldaq x d a sc z) s → exec (.ldaq x d a sc z) s = trapsWith s { code := c }) ∧
     (probe s needSt (s.readN a) (szBytes z) (szBytes z) = .bad c →
       Issues (.strl x d a sc z) s → exec (.strl x d a sc z) s = trapsWith s { code := c }) ∧
     (probe s needAtomic (s.readN a) (szBytes z) (szBytes z) = .bad c →
       (Issues (.amo x d a b o z) s → exec (.amo x d a b o z) s = trapsWith s { code := c }) ∧
       (Issues (.cas x d a b z) s → exec (.cas x d a b z) s = trapsWith s { code := c }))) ∧
   ∀ (s : State) (need : Need) (va : Int) (n : Nat),
     (addressOk va n = false → probe s need va n n = .bad 3) ∧ (∀ p, probe s need va n n = .ok p → va.toNat % n = 0)) ∧
  (∀ p ∈ Spec.two, ∀ x d a b s, d ≠ 0 → Issues (p.1 x d a b) s → NoUpset s → s.h.sPoison a = true →
     s.h.squash = some (.sreg a) → exec (p.1 x d a b) s = trapsWith s { code := 0x20 })

/-! Control registers. -/

/-- R288, R269: CSRR writes the register to sd. -/
def Obligations.CsrrReads : Prop :=
  ∀ (x : Stack) (d : SReg) (c : Csr) (s : State), Issues (.csrr x d c) s →
    exec (.csrr x d c) s = passes (.csrr x d c) s fun t => t.writeS d (csrRead s c)

/-- R269: CSRW writes the RW fields of s[sa], CSRS sets RW bits, CSRC clears them; CSRW and CSRS clear W1C bits; RO and RES0
bits stay, and so does every other control register, every scalar register and memory. Table 4-6: a reserved rounding mode is not
taken. -/
def Obligations.CsrWritesChangeTheirFields : Prop :=
  ∀ (x : Stack) (a : SReg) (c : Csr) (s : State),
    let old := csrRead s c
    let v := s.h.sreg a
    let rw := Spec.csrRw c
    let w1c := Spec.csrW1c c
    let after := fun (t : State) (new : Word) =>
      csrRead t c = Spec.csrStored c old new ∧ (∀ k, k ≠ c → csrRead t k = csrRead s k) ∧ t.h.sregs = s.h.sregs ∧ t.h.poison = s.h.poison ∧
      t.mem = s.mem ∧ t.sys = s.sys ∧ t.rest = s.rest ∧ t.h.vregs = s.h.vregs ∧ t.h.masks = s.h.masks
    (Issues (.csrw x a c) s → Clean [a] s → ∃ t, exec (.csrw x a c) s = passes (.csrw x a c) s (fun _ => t) ∧
      after t ((old &&& ~~~rw ||| v &&& rw) &&& ~~~(v &&& w1c))) ∧
    (Issues (.csrs x a c) s → Clean [a] s → ∃ t, exec (.csrs x a c) s = passes (.csrs x a c) s (fun _ => t) ∧
      after t ((old ||| v &&& rw) &&& ~~~(v &&& w1c))) ∧
    (Issues (.csrc x a c) s → Clean [a] s → ∃ t, exec (.csrc x a c) s = passes (.csrc x a c) s (fun _ => t) ∧
      after t (old &&& ~~~(v &&& rw)))

/-! Vector instructions. -/

/-- R300, R324, R329, R351, R76 to R78: the element-wise instructions of two sources, and the fused ones, complete, each active
element with the result of its function: on integers what `Spec.vecTwo` gives, on floats what it gives where an operand is a NaN, an
infinity or a zero (R62, R73, R74), and elsewhere the exact result of the values of the operands, rounded once, with OF, UF and NX. -/
def Obligations.TwoSourceVectorResults : Prop := ∀ p ∈ Spec.vecTwo, ElementTwo p.form p.ok p.third p.fn ∧ p.holds

/-- R300, R311, R325, R341, R76: the element-wise instructions of one source, in the same way; of square roots and reciprocals of
any value, and of VEXP2 and VLOG2 where the result is exact, the result is the exact one, rounded once (R73). -/
def Obligations.OneSourceVectorResults : Prop := ∀ p ∈ Spec.vecOne, ElementOne p.form p.ok p.fn ∧ p.holds

/-- R312, R347: VADC and VSBC take every element below VL, read the carry of mc before they write it, and give the sum or
the difference modulo 2^w and its carry or borrow. R350: VSEL moves the code of the source that mc selects, with its poison,
and reads no other. R316: VCMP writes a bit of md for each active element: the condition on the two values, integers or
floats by the format, with NV where the condition raises it (Table 15-9, `Spec.comparison`). -/
def Obligations.CarrySelectCompareResults : Prop :=
  (∀ x d a b (mc : MReg) sc s (u v : Nat → Nat),
     let p := s.h.src1 x a
     let q := s.h.src2 x b sc
     let y := s.h.layout
     let w := width s.h.fmt
     let es := List.range s.h.vl
     let o := s.h.operands y (s.h.regsOf p ++ s.h.regsOf q)
     let c := fun e => if s.h.maskBit mc e then 1 else 0
     let gives := fun (code : Nat → Nat) (bit : Nat → Bool) (t : State) => consumed p q (t.wakeLanes.modH fun h =>
       putBitsOf mc (es.map fun e => (e, code e, 0, bit e)) (putReg d y (es.map fun e => (e, code e, 0, bit e)) h))
     VecReady x (isInt s.h.fmt && mc != 0) (d :: (p.reg? ++ q.reg?)) [mc] s → s.h.filled (queuesOf p q) →
     s.h.maskClean mc → (∀ e ∈ es, (o.read p e).gives (u e) ∧ (o.read q e).gives (v e) ∧ u e < 2 ^ w ∧ v e < 2 ^ w) →
     (Issues (.vadc x d a b mc sc) s → exec (.vadc x d a b mc sc) s = passes (.vadc x d a b mc sc) s
       (gives (fun e => (u e + v e + c e) % 2 ^ w) fun e => 2 ^ w ≤ u e + v e + c e)) ∧
     (Issues (.vsbc x d a b mc sc) s → exec (.vsbc x d a b mc sc) s = passes (.vsbc x d a b mc sc) s
       (gives (fun e => (2 ^ w + u e - v e - c e) % 2 ^ w) fun e => u e < v e + c e))) ∧
  (∀ x d a b (mc : MReg) sc s (u : Nat → Nat) (z : Nat → Option (PLoc × Bad)),
     let i := Instr.vsel x d a b mc sc
     let p := s.h.src1 x a
     let q := s.h.src2 x b sc
     let y := s.h.layout
     let o := s.h.operands y (s.h.regsOf p ++ s.h.regsOf q)
     Issues i s → VecReady x (isArith s.h.fmt) (d :: (p.reg? ++ q.reg?)) [mc] s → s.h.filled (queuesOf p q) →
     s.h.maskClean mc →
     (∀ e < s.h.vl, ∃ g, (if e ∈ s.h.on mc (maskInv x) then o.read p e else o.read q e) = .code (u e) g (z e)) →
     exec i s = passes i s fun t =>
       consumed p q (elementwise d y (List.range s.h.vl) (fun e => (u e, 0)) (fun e => badOf (z e)) t)) ∧
  (∀ x (c : VCond) (d : MReg) a b m sc s (u v : Nat → Nat),
     let i := Instr.vcmp x c d a b m sc
     let p := s.h.src1 x a
     let q := s.h.src2 x b sc
     let es := s.h.on m (maskInv x)
     let o := s.h.operands s.h.layout (s.h.regsOf p ++ s.h.regsOf q)
     let value := fun e => Spec.comparison c s.h.fmt s.h.ftz (u e) (v e)
     Issues i s → VecReady x (isArith s.h.fmt && d != 0) (p.reg? ++ q.reg?) [d, m] s → s.h.filled (queuesOf p q) →
     s.h.maskClean m →
     (∀ e ∈ es, (o.read p e).gives (u e) ∧ (o.read q e).gives (v e) ∧ u e < 2 ^ width s.h.fmt ∧ v e < 2 ^ width s.h.fmt ∧
       (value e).2 &&& s.h.enables = 0) →
     exec i s = passes i s fun t => consumed p q (bitwise d es (fun e => (value e).1) (fun e => (value e).2) t))

/-- R314: VBSADD and VBSMUL on bit-sliced elements, under SAT or modulo 2^n. R315: VBSL and VBSJ move bit j of the element at
position k of every lane between place k * n + j of the joined layout and place j * b + k of the sliced one, b being the
positions of a lane (R64). -/
def Obligations.SlicedResults : Prop :=
  (∀ x d (a b : VReg) m s (u v : Nat → Nat),
     let p := s.h.src1 x a
     let q := s.h.src2 x b false
     let y := s.h.layoutAt (width s.h.fmt) true
     let es := s.h.on m (maskInv x)
     let o := s.h.operands y (s.h.regsOf p ++ s.h.regsOf q)
     let r := fun (g : Int → Int → Int) e => Spec.fit s.h.fmt s.h.sat (g (Spec.val s.h.fmt (u e)) (Spec.val s.h.fmt (v e)))
     let clean := fun g : Int → Int → Int => ∀ e ∈ es, (o.read p e).gives (u e) ∧ (o.read q e).gives (v e) ∧
       u e < 2 ^ width s.h.fmt ∧ v e < 2 ^ width s.h.fmt ∧ (r g e).2 &&& s.h.enables = 0
     VecReady x (isSliced s.h.fmt) (d :: (p.reg? ++ q.reg?)) [m] s → s.h.filled (queuesOf p q) → s.h.maskClean m →
     (Issues (.vbsadd x d a b m) s → clean (· + ·) → exec (.vbsadd x d a b m) s = passes (.vbsadd x d a b m) s fun t =>
       consumed p q (elementwise d y es (r (· + ·)) (t := t))) ∧
     (Issues (.vbsmul x d a b m) s → clean (· * ·) → exec (.vbsmul x d a b m) s = passes (.vbsmul x d a b m) s fun t =>
       consumed p q (elementwise d y es (r (· * ·)) (t := t)))) ∧
  (∀ x (d a : VReg) s,
     let y := s.h.layout
     let n := y.w
     let b := y.positions
     let v := viewOf s.h.vgen (s.h.regCells a) a y
     let moves := fun (i : Instr) (src dst : Nat → Nat → Nat) => Issues i s →
       VecReady x (isSliced s.h.fmt) [d, a] [] s → ∃ cs : List VCell,
       exec i s = passes i s (fun t => t.wakeLanes.modH fun h => h.putCells cs) ∧
       (∀ c ∈ cs, ∃ lane < y.lanes, ∃ k < y.words, c.key = wordKey d lane k) ∧
       ∀ lane < y.lanes, ∀ j < n, ∀ k < b, dst j k / 32 < y.words → ∃ c ∈ cs, c.key = wordKey d lane (dst j k / 32) ∧
         c.val.getLsbD (dst j k % 32) = v.bit lane (src j k)
     moves (.vbsl x d a) (fun j k => k * n + j) (fun j k => j * b + k) ∧
     moves (.vbsj x d a) (fun j k => j * b + k) (fun j k => k * n + j))

/-- R337, R330: VMOV moves codes with their poison, from a register, whole lane blocks in the bit-sliced formats, or from a
scalar; VIDX writes start + e * step. -/
def Obligations.VectorMoveResults : Prop :=
  ∀ x (d a : VReg) (c : SReg) m (start : BitVec 10) (step : BitVec 8) s (u : Nat → Nat) (z : Nat → Option (PLoc × Bad)),
    let p := s.h.src1 x a
    let y := s.h.layout
    let es := s.h.on m (maskInv x)
    let o := s.h.operands y (s.h.regsOf p)
    (Issues (.vmov x d a m) s → VecReady x (isArith s.h.fmt) [d, a] [m] s → s.h.maskClean m →
      (∀ e ∈ es, ∃ g, o.read p e = .code (u e) g (z e)) →
      exec (.vmov x d a m) s = passes (.vmov x d a m) s (elementwise d y es (fun e => (u e, 0)) fun e => badOf (z e))) ∧
    (Issues (.vmov x d a 0) s → isSliced s.h.fmt = true → VecReady x true [d, a] [0] s →
      exec (.vmov x d a 0) s = passes (.vmov x d a 0) s fun t => t.wakeLanes.modH (copyBlocks d a)) ∧
    (Issues (.vmovScalar x d c m) s → VecReady x (isArith s.h.fmt) [d] [m] s → s.h.maskClean m →
      exec (.vmovScalar x d c m) s = passes (.vmovScalar x d c m) s
        (elementwise d y es (fun _ => (s.readN c % 2 ^ width s.h.fmt, 0)) fun _ => allBad (s.h.sPoison c))) ∧
    (Issues (.vidx x d start step) s → VecReady x (isInt s.h.fmt) [d] [] s →
      exec (.vidx x d start step) s = passes (.vidx x d start step) s
        (elementwise d y (List.range s.h.vl) fun e => (codeOf (width s.h.fmt) (start.toInt + e * step.toInt), 0)))

/-- R302: the mask instructions write every bit of md below VL; MPOPC counts the true bits of ms below VL, and MFIRST gives
the index of the lowest, or -1. -/
def Obligations.MaskResults : Prop :=
  (∀ (x : Stack) (d a b : MReg) (r : SReg) (s : State),
     let bit := fun m e => s.h.maskBit m e
     let writes := fun (i : Instr) (ms : List MReg) (f : Nat → Bool) =>
       Issues i s → VecReady x (d != 0) [] (d :: ms) s → (∀ m ∈ ms, s.h.maskClean m) →
       exec i s = passes i s (bitwise d (List.range s.h.vl) f fun _ => 0)
     writes (.mand x d a b) [a, b] (fun e => bit a e && bit b e) ∧
     writes (.mor x d a b) [a, b] (fun e => bit a e || bit b e) ∧
     writes (.mxor x d a b) [a, b] (fun e => bit a e ^^ bit b e) ∧
     writes (.mandn x d a b) [a, b] (fun e => bit a e && !bit b e) ∧
     writes (.mnot x d a) [a] (fun e => !bit a e) ∧
     (Clean [r] s → writes (.mshl x d a r) [a] fun e => if e = 0 then (s.h.sreg r).getLsbD 0 else bit a (e - 1)) ∧
     (Clean [r] s → writes (.mset x d r) [] fun e => e < s.readN r)) ∧
  (∀ (x : Stack) (d : SReg) (a : MReg) (s : State), VecReady x true [] [a] s → s.h.maskClean a →
     let bit := fun e => s.h.maskBit a e
     (Issues (.mpopc x d a) s → exec (.mpopc x d a) s = passes (.mpopc x d a) s fun t =>
       t.wakeLanes.writeS d (wd ((List.range s.h.vl).countP bit))) ∧
     (Issues (.mfirst x d a) s → ∃ v, exec (.mfirst x d a) s = passes (.mfirst x d a) s (fun t => t.wakeLanes.writeS d v) ∧
       ((∀ e < s.h.vl, bit e = false) → v = -1) ∧
       ∀ e < s.h.vl, bit e = true → (∀ j < e, bit j = false) → v = wd e))

/-- R340, R317, R323: VPERM, VCOMP and VDECB move codes with their poison. -/
def Obligations.PermutationResults : Prop :=
  ∀ x (d a j : VReg) m (lz ly lx : Fin 4) s (k u : Nat → Nat) (z : Nat → Option (PLoc × Bad)),
    let y := s.h.layout
    let g := s.h.geo
    let on := s.h.on m (maskInv x)
    let o := s.h.operands y [a]
    let oj := s.h.operands y [a, j]
    let joined := !isSliced s.h.fmt
    let moves := fun es => elementwise d y es (fun e => (u e, 0)) fun e => badOf (z e)
    let comes := fun e r => ∃ g, r = RRes.code (u e) g (z e)
    let up := fun n l => (n + 2 ^ l - 1) / 2 ^ l
    let fx := up (g.gx * g.bx) lx.val
    let fy := up (g.gy * g.by_) ly.val
    let fz := up (g.gz * g.bz) lz.val
    let kept := Nat.min s.h.vl (fx * fy * fz)
    (Issues (.vperm x d a j m) s → VecReady x (joined && 8 ≤ width s.h.fmt) [d, a, j] [m] s → s.h.maskClean m →
      (∀ e ∈ on, (oj.elem j e).gives (k e) ∧ (k e < s.h.vl → comes e (oj.elem a (k e))) ∧
        (s.h.vl ≤ k e → u e = 0 ∧ z e = none)) →
      exec (.vperm x d a j m) s = passes (.vperm x d a j m) s (moves on)) ∧
    (Issues (.vcomp x d a m) s → VecReady x joined [d, a] [m] s → s.h.maskClean m →
      (∀ e < on.length, comes e (o.elem a (on.getD e 0))) →
      exec (.vcomp x d a m) s = passes (.vcomp x d a m) s (moves (List.range on.length))) ∧
    (Issues (.vdecb x d a lz ly lx) s → VecReady x joined [d, a] [] s →
      (∀ e < kept, comes e (o.elem a (g.index ⟨(e % fx * 2 ^ lx.val : Nat), (e / fx % fy * 2 ^ ly.val : Nat),
        (e / (fx * fy) * 2 ^ lz.val : Nat)⟩))) →
      exec (.vdecb x d a lz ly lx) s = passes (.vdecb x d a lz ly lx) s (moves (List.range kept)))

/-- R326, R331: VEXT takes an element to sd, VINS puts a scalar into an element. -/
def Obligations.ElementAccess : Prop :=
  ∀ x (d : SReg) (v : VReg) (b c : SReg) s (u : Nat) (z : Option (PLoc × Bad)), Clean [b] s →
    let n := s.readN b
    let y := s.h.layout
    let w := width s.h.fmt
    (Issues (.vext x d v b) s → VecReady x (!isSliced s.h.fmt) [v] [] s →
      (n < s.h.vl → (∃ g, (s.h.operands y [v]).elem v n = .code u g z) →
        exec (.vext x d v b) s = passes (.vext x d v b) s fun t => t.wakeLanes.writeSP d
          (if isSigned s.h.fmt then BitVec.ofInt 64 (signedOf w u) else wd u) z.isSome) ∧
      (s.h.vl ≤ n → exec (.vext x d v b) s = passes (.vext x d v b) s fun t => t.wakeLanes.writeS d 0)) ∧
    (Issues (.vins x v c b) s → VecReady x (!isSliced s.h.fmt) [v] [] s →
      exec (.vins x v c b) s = passes (.vins x v c b) s
        (elementwise v y (if n < s.h.vl then [n] else []) (fun _ => (s.readN c % 2 ^ w, 0)) fun _ => allBad (s.h.sPoison c)))

/-- R343, R80: the reductions combine the active elements along the tree, with identities in the other leaves, which leave every sum
unchanged, and write element 0 alone. The model's choices (log entry 46): with VL = 1 the element is copied, without a flag, FTZ or a
canonical NaN; every node is an IEEE 754 operation, so that under RDN a sum that cancels is -0, and one with an identity still turns a
NaN into the canonical one and flushes under FTZ. -/
def Obligations.ReductionResults : Prop :=
  ∀ p ∈ Spec.vecFold, ∀ x (d a : VReg) m s (k : Nat) (u : Nat → Nat),
    let i := p.1 x d a m
    let on := s.h.on m (maskInv x)
    let o := s.h.operands s.h.layout [a]
    let top := Spec.tree (Spec.node (p.2.2.2 s.h) fun c => p.2.2.2 { s.h with frm := s.h.frm &&& ~~~7 } c (p.2.2.1 s.h.fmt))
      (fun e => if e ∈ on then some (u e) else none) k 0
    let r := (top.1.getD (p.2.2.1 s.h.fmt), top.2)
    Issues i s → VecReady x (p.2.1 s.h.fmt) [d, a] [m] s → s.h.maskClean m → (∀ e ∈ on, (o.elem a e).gives (u e)) →
    s.h.vl ≤ 2 ^ k → (k = 0 ∨ 2 ^ (k - 1) < s.h.vl) → r.2 &&& s.h.enables = 0 →
    exec i s = passes i s (elementwise d s.h.layout ((List.range s.h.vl).take 1) (fun _ => r) (t := ·))

/-- R345: VRESH writes the bit string of the elements of vs, cut at the width of VTYPE; elements beyond it become 0. R206: a 32-bit
word of a result is poisoned where a bit of it comes from a poisoned word. -/
def Obligations.ReshapeResults : Prop :=
  ∀ x (d a : VReg) (f : Fmt) s (u : Nat → Nat) (z : Nat → Option (PLoc × Bad)),
    let y := s.h.layout
    let ys := s.h.layoutAt (width f) false
    let w := width s.h.fmt
    let n := min s.h.vl (s.h.vl * width f / w)
    Issues (.vresh x d a f) s →
    VecReady x (!isSliced s.h.fmt && !isSliced f && ys.b * ys.s * ys.w ≤ 32 * s.h.blockWords) [d, a] [] s →
    (∀ e < s.h.vl, u e < 2 ^ width f ∧ ∃ g, (s.h.operands ys [a]).elem a e = .code (u e) g (z e)) →
    ∃ c q : Nat → Nat,
      exec (.vresh x d a f) s = passes (.vresh x d a f) s
        (elementwise d y (List.range s.h.vl) (fun e => (c e, 0)) q) ∧
      (∀ e < n, c e < 2 ^ w ∧ (∀ b < w, (c e).testBit b = (u ((e * w + b) / width f)).testBit ((e * w + b) % width f)) ∧
        ∀ i, (q e).testBit i = true ↔ ∃ b < w, b / 32 = i ∧
          (badOf (z ((e * w + b) / width f))).testBit ((e * w + b) % width f / 32) = true) ∧
      ∀ e, n ≤ e → c e = 0 ∧ q e = 0

/-- R318, R79, R67, R69: VCVT converts each active element, with the purse entries that its escapes reserve, and PURSE
moves past them; each result is what Table 4-10 gives (`Spec.Converts`). R348: VSCL gives each block of 32 elements that holds an
active one the scale of its greatest magnitude (`Spec.ScaleOf`), and raises NV for a signalling NaN or an infinity. R100: VARGMAX
writes, at the first element of each line along x, the lowest x of the greatest active element (`Spec.ArgmaxOf`). That an element
with neither a register nor a purse entry takes neither a scale nor an entry is log entry 30. -/
def Obligations.ConversionAndArgmaxResults : Prop :=
  (∀ x (d a : VReg) (f : Fmt) m (r : RmField) s (ents : List PEntry) (c fl : Nat → Nat),
     let i := Instr.vcvt x d a f m r
     let p := s.h.src1 x a
     let yd := s.h.layoutAt (width f) false
     let on := s.h.on m (maskInv x)
     let o := s.h.operands s.h.layout (s.h.regsOf p)
     Issues i s → s.h.xfers = [] →
     VecReady x (!isSliced s.h.fmt && !isSliced f && yd.b * yd.s * yd.w ≤ 32 * s.h.blockWords) (d :: p.reg?) [m] s →
     s.h.filled (queuesOf p p) → s.h.maskClean m →
     (s.h.fmt ≠ .e2m1 → ents = []) →
     (s.h.fmt = .e2m1 → readPurse s 0 (escapes o (p.reg?.map fun u => (u, List.range s.h.vl))) = .ok ents) →
     (∀ e ∈ on, cvtElem s.h f (s.h.rmOf r) ents d e (o.read p e) = .val (c e) (fl e) 0 false ∧ fl e &&& s.h.enables = 0) →
     exec i s = passes i s fun t => (elementwise d yd on (fun e => (c e, fl e)) (t := t)).modH fun h =>
       { h.popQueues (queuesOf p p) with purse := h.purse + wd (2 * ents.length) }) ∧
  (∀ x (k : KReg) (a : VReg) (f : Fmt) m (r : RmField) s (u : Nat → Nat),
     let i := Instr.vscl x k a f m r
     let on := s.h.on m (maskInv x)
     let o := s.h.operands s.h.layout [a]
     let v := fun e => operandF s.h.fmt s.h.ftz (u e)
     let nv := fun e => match v e with
       | .nan sig => if sig then fNV else 0
       | .inf _ => fNV
       | .fin _ _ _ => 0
     let entries := (List.range ((s.h.vl + 31) / 32)).filterMap fun j =>
       (sclEntry (s.h.rmOf r) f ((on.filter fun e => e / 32 = j).map v)).map fun b => (j, b)
     Issues i s → VecReady x (isFloat s.h.fmt && isSmall f) [a] [m] s → s.h.maskClean m →
     (∀ e ∈ on, (o.elem a e).gives (u e) ∧ nv e &&& s.h.enables = 0) → on ≠ [] →
     exec i s = passes i s fun t => t.wakeLanes.modH fun h => (h.putScales k entries).raise (orAll (on.map nv))) ∧
  (∀ x (d a : VReg) m s (u : Nat → Nat),
     let i := Instr.vargmax x d a m
     let g := s.h.geo
     let on := s.h.on m (maskInv x)
     let o := s.h.operands s.h.layout [a]
     let r := fun e => argmaxLine s.h ((List.range (g.gx * g.bx)).filterMap fun (k : Nat) =>
       let j := g.index { g.coord e with x := k }
       if j ∈ on then some (k, u j) else none)
     let es := (List.range s.h.vl).filter fun e => (g.coord e).x = 0
     Issues i s → VecReady x (isArith s.h.fmt) [d, a] [m] s → s.h.maskClean m →
     (∀ e ∈ on, (o.elem a e).gives (u e)) → (∀ e ∈ es, (r e).2 &&& s.h.enables = 0) →
     exec i s = passes i s (elementwise d s.h.layout es r (t := ·))) ∧
  (∀ f rm ftz sat x, isSliced f = false → Spec.Converts f rm ftz sat x (convertF f rm ftz sat x)) ∧
  (∀ (h : Hart) (fd : Fmt) (rm : RM) (ents : List PEntry) (d : VReg) (e c : Nat) (org : Option (VReg × Nat)),
     let fs := h.fmt
     let float := isFloat fs || isSmall fs || fs == .e8m0
     let v := Spec.val fs c
     let x := if float then Spec.source h ents c org else .fin (decide (v < 0)) v.natAbs 0
     let k := (h.scale (pairK d) (e / 32)).toNat
     c < 2 ^ width fs → isSliced fs = false → isSliced fd = false → (∀ r j, h.scalePoison r j = none) →
     (∀ p ∈ ents, p.poison = none ∧ p.code < 2 ^ 16) →
     ∃ r, cvtElem h fd rm ents d e (.code c org none) = .val r.1 r.2 0 false ∧
       if h.bs && isSmall fd then
         (if k = 255 then r = (if fd = .e4m3 then 0x7F else if fd = .e5m2 then 0x7E else 0, Spec.nv)
          else Spec.Converts fd rm h.ftz h.sat (x.shift (127 - (k : Int))) r)
       else if float || isFloat fd || isSmall fd || fd == .e8m0 then Spec.Converts fd rm h.ftz h.sat x r
       else r = Spec.fit fd h.sat v) ∧
  (∀ f ftz c, isFloat f = true → c < 2 ^ width f → operandF f ftz c =
     if ftz && Spec.expo f c == 0 && Spec.mant f c != 0 then .fin (Spec.neg f c) 0 0 else Spec.decoded f c) ∧
  (∀ rm f vs, isSmall f = true → Spec.ScaleOf rm f vs (sclEntry rm f vs)) ∧
  ∀ (h : Hart) (cs : List (Nat × Nat)), isArith h.fmt = true → (∀ p ∈ cs, p.2 < 2 ^ width h.fmt) →
    cs.Pairwise (fun p q => p.1 < q.1) → Spec.ArgmaxOf h cs (argmaxLine h cs)

/-- R320, R321, R333 to R335, R98: the vector loads, each with the address of its element `e` (Table 16-8): the bits from
e * w on of the string at s[sa]; a stride counted in elements; a byte offset from vi; a place of a raster array; a pixel
group. R163: VLDX with an acquire writes m7: bit e is true where element e is active and a scope miss, and such an element
is not loaded. R134, R135, R336: VLDM loads at unit stride, through the multicast entries that its headers join, or else open:
an entry that opens holds the latest values; the core drops its older copies of the words that arrived (R159). -/
def Obligations.VectorLoadsRead : Prop :=
  (∀ (x : Stack) (d : Fin 64) (a b : SReg) (j : VReg) (m : MReg) (k : Nat → Nat),
     LoadsElements (.vld x d a m) x d [] m [a] (fun _ => true) (unitNeed x false) (unitAt a) ∧
     LoadsElements (.vldStrided x d a b m) x d [] m [a, b] wideIn needRead (strideAt a b) ∧
     (acqScope x = none → LoadsElements (.vldx x d a j m) x d [j] m [a] wideIn needRead (offsetAt a k) (offsetsIn x [j] j m k)) ∧
     LoadsElements (.vldb x d a b m) x d [] m [a, b, extReg x] (fun s => x.ext.isSome && wideIn s) needRead
       (rasterAt a b (extReg x)) ∧
     LoadsElements (.vldbS2c x d a b m) x d [] m [a, b, extReg x] (pixelsFit x) needRead (pixelAt x a b)) ∧
  (∀ (x : Stack) (d : Fin 64) (a : SReg) (j : VReg) (m : MReg) (sc : Scope) (k : Nat → Nat) s p, acqScope x = some sc →
     let i := Instr.vldx x d a j m
     let on := s.h.on m (maskInv x)
     let missed := fun e => scopeMiss s sc (p e) (width s.h.fmt / 8)
     Issues i s → VecReady x (wideIn s) ((if toQueue x then [] else [d]) ++ [j]) [m, 7] s → Clean [a] s →
     s.h.maskClean m → (toQueue x = true → s.h.queues[(Fin.ofNat 4 d.val : Fin 4)].length < 4) →
     offsetsIn x [j] j m k s → Placed needRead (elemAlign s.h.fmt) on (offsetAt a k s) p s →
     exec i s = passes i s fun t =>
       let u := t.wakeLanes.acquire sc
       u.modH fun h => (deliverLoad x d ((on.filter fun e => !missed e).map (found (width s.h.fmt) (offsetAt a k s) p u)) h).putMask 7
         ((List.range s.h.vl).map fun e => (e, on.contains e && missed e))) ∧
  (∀ (x : Stack) (d : Fin 64) (a b : SReg) (m : MReg) s p,
     let i := Instr.vldm x d a b m
     let on := s.h.on m (maskInv x)
     let at_ := fun e => ((⟨e, (unitAt a s e).1, (unitAt a s e).2⟩ : Acc), p e)
     Issues i s → VecReady x (s.readN b < 65536 && (s.readN b).testBit (s.h.core.val % 16)) [d] [m] s → Clean [a, b] s →
     s.h.maskClean m → Placed needNormalRead (elemAlign s.h.fmt) on (unitAt a s) p s →
     exec i s = passes i s fun t =>
       let u := acqOf x t.wakeLanes
       let got := (mcParts u (s.readN a) (width s.h.fmt) (BitVec.ofNat 16 (s.readN b)) (on.map at_)).flatMap u.partBytes
       let byte := fun pa => ((got.find? fun b => b.1 == pa).map (·.2)).getD (Config.freeByte u.tick pa, true)
       (u.modH (deliverLoad x d (on.map fun e =>
         let bs := (bytesOf u (at_ e)).map byte
         (e, codeIn (width s.h.fmt) e (bs.map (·.1)), badBytes (bs.map (·.2)))))).modMem fun m =>
           m.dropWords s.h.core (on.flatMap fun e => bytesOf u (at_ e))) ∧
  ∀ (s : State) (part : McPart),
    (∀ e, s.sys.mc.find? (fun e => e.part == part) = some e → s.partBytes part = e.bytes) ∧
    ((∀ e ∈ s.sys.mc, e.part ≠ part) → ∀ q ∈ s.partBytes part, s.sys.homeLost q.1 = false → s.backed q.1 1 = false →
      q.2 = (s.mem.curByte q.1, s.mem.curPoison q.1))

/-- R352, R353, R99: the vector stores, with the same addresses. That the elements are stored in ascending order, where R352 leaves
them unordered without .ord, is the model's choice (log entry 9). -/
def Obligations.VectorStoresWrite : Prop :=
  ∀ (x : Stack) (v : VReg) (a b : SReg) (j : VReg) (m : MReg) (k : Nat → Nat),
    StoresElements (.vst x v a m) x v [] m [a] (fun _ => true) (unitNeed x true) (unitAt a) ∧
    StoresElements (.vstStrided x v a b m) x v [] m [a, b] wideIn needWrite (strideAt a b) ∧
    StoresElements (.vstx x v a j m) x v [j] m [a] wideIn needWrite (offsetAt a k) (offsetsIn x [v, j] j m k) ∧
    StoresElements (.vstb x v a b m) x v [] m [a, b, extReg x] (fun s => x.ext.isSome && wideIn s) needWrite
      (rasterAt a b (extReg x)) ∧
    StoresElements (.vstbC2s x v a b m) x v [] m [a, b, extReg x] (pixelsFit x) needWrite (pixelAt x a b)

/-- R342, R305, R109: a prefetch changes no register and no memory; QDROP takes the oldest entry of its queue, and traps on
an empty one; TKCLR empties every token FIFO. -/
def Obligations.PrefetchQueueToken : Prop :=
  ∀ (x : Stack) (a b : SReg) (j : VReg) (m : MReg) (n : Fin 4) (k : Nat → Nat) (s : State),
    let wide := !isSliced s.h.fmt && 8 ≤ width s.h.fmt
    let waking := fun (i : Instr) (ok : Bool) (regs : List VReg) (rs : List SReg) => Issues i s → VecReady x ok regs [m] s →
      Clean rs s → s.h.maskClean m → exec i s = passes i s (·.wakeLanes)
    waking (.vpref x a m) true [] [a] ∧
    waking (.vprefStrided x a b m) wide [] [a, b] ∧
    ((∀ e ∈ s.h.on m (maskInv x), ((s.h.operands s.h.layout [j]).elem j e).gives (k e)) →
      waking (.vprefIndexed x a j m) wide [j] [a]) ∧
    (Issues (.qdrop x n) s →
      (s.h.queues[n] ≠ [] → exec (.qdrop x n) s = passes (.qdrop x n) s fun t =>
        t.modH fun h => { h with queues := h.queues.set n h.queues[n].tail }) ∧
      (s.h.queues[n] = [] → exec (.qdrop x n) s = trapsWith s { code := 1 })) ∧
    (Issues (.tkclr x) s →
      exec (.tkclr x) s = passes (.tkclr x) s fun t => t.modH fun h => { h with tokens := Vector.replicate 25 0 })

/-- R313, R279: VAMO at the homes of the active elements, in ascending order, between the release and the acquire of the
form: vd takes the old values, with an acquire except at the scope misses, each judged at its turn, which go to m7 and touch
nothing (R163). The model's choices: the ascending order (log entry 9), and that a miss is judged at its turn (log entry 28). -/
def Obligations.VectorAtomicsUpdate : Prop :=
  (∀ (x : Stack) (o : Fin 8) (d : VReg) (a : SReg) (j : VReg) (m : MReg) s (p : Nat → Phys) (k c : Nat → Nat)
      (z : Nat → Option (PLoc × Bad)),
    let w := width s.h.fmt
    let on := s.h.on m (maskInv x)
    let addr := fun e => ((s.readN a : Int) + signedOf w (k e), w / 8)
    let missed := fun (u : State) e => match acqScope x with
      | some sc => scopeMiss u sc (p e) (w / 8)
      | none => false
    let updates := fun (i : Instr) (op : AmoOp) =>
      Issues i s → VecReady x (vamoFmt s.h.fmt) [d, j] (if (acqScope x).isSome then [m, 7] else [m]) s → Clean [a] s →
      s.h.maskClean m →
      (∀ e ∈ on, ((s.h.operands s.h.layout [d, j]).elem j e).gives (k e) ∧
        ∃ g, (s.h.operands s.h.layout [d, j]).elem d e = .code (c e) g (z e)) →
      Placed needAtomic (w / 8) on addr p s →
      exec i s = passes i s fun t =>
        let r := on.foldl (fun (r : State × List (Nat × Nat × Bad) × List Nat) e =>
          if missed r.1 e then (r.1, r.2.1, e :: r.2.2)
          else
            let u := vamoElem op w (⟨e, (addr e).1, w / 8⟩, p e) (c e) (z e).isSome r.1
            (u.1, r.2.1 ++ [(e, u.2)], r.2.2)) (relOf x t.wakeLanes, [], [])
        (acqOf x r.1).modH fun h =>
          let h := if r.2.1.isEmpty then h else h.putElems d h.layout r.2.1
          if (acqScope x).isSome then h.putMask 7 ((List.range s.h.vl).map fun e => (e, r.2.2.contains e)) else h
    updates (.vamo x o d a j m) (vamoOp o) ∧ updates (.vamoSwap x d a j m) .swap) ∧
  ∀ (o : AmoOp) (w old c : Nat), 0 < w → old < 2 ^ w → c < 2 ^ w →
    amoNew o w old c = (Spec.amo o (BitVec.ofNat w old) (BitVec.ofNat w c)).toNat

/-- R53, R75, R191, R194, R195: an element-wise instruction traps at the lowest stripe that holds a trap, with the cause of the
lowest element there: a shell trap, or an enabled flag that the element raises; the stripes below it stand committed, no later one
does, and the instruction is left open. R179, R190: an instruction that accesses memory traps at its lowest element whose access finds
a fault, before it reads or writes anything. R209 to R211, R213: what the runs of an instruction under CHK.EN or CRIT come to where
they disagree; that a run may be upset is log entry 8. -/
def Obligations.VectorFormsTrap : Prop :=
  (∀ p ∈ Spec.vecTwo, ∀ x d a b m sc s r,
     let i := p.form x d a b m sc
     let u := s.h.src1 x a
     let v := s.h.src2 x b sc
     Reading i x (p.ok s.h.fmt) d u v m p.third (p.fn s.h) r s → TrapsInOrder i x d u v m r s ∧ Checks i x d u v m r s) ∧
  (∀ p ∈ Spec.vecOne, ∀ x d a m s r,
     let i := p.form x d a m
     let u := s.h.src1 x a
     Reading i x (p.ok s.h.fmt) d u u m false (fun c _ _ => p.fn s.h c) r s →
       TrapsInOrder i x d u u m r s ∧ Checks i x d u u m r s) ∧
  (∀ (x : Stack) (d : Fin 64) (v : VReg) (a b : SReg) (j : VReg) (m : MReg) (o : Fin 8) (k : Nat → Nat),
     let into := fun j : List VReg => (if toQueue x then [] else [d]) ++ j
     let room := fun s : State => toQueue x = true → s.h.queues[(Fin.ofNat 4 d.val : Fin 4)].length < 4
     let short := fun s : State => acqScope x = none ∨ s.h.vl ≤ 65536
     let noted := fun s : State => s.h.xfers = [] ∧ ∃ nt, Notifies x s nt
     let adds := fun s : State => s.entriesUsed + 1 ≤ 32
     let addFmt := fun s : State => vredFmt s.h && !s.h.scaled s.h.fmt
     let raster := fun s : State => x.ext.isSome && wideIn s
     ElementsFault (.vld x d a m) x (into []) m [a] (fun _ => true) (unitNeed x false) (unitAt a) room ∧
     ElementsFault (.vldStrided x d a b m) x (into []) m [a, b] wideIn needRead (strideAt a b) room ∧
     ElementsFault (.vldx x d a j m) x (into [j]) m [a] wideIn needRead (offsetAt a k)
       (fun s => room s ∧ short s ∧ offsetsIn x [j] j m k s) ∧
     ElementsFault (.vldm x v a b m) x [v] m [a, b] (fun s => s.readN b < 65536 && (s.readN b).testBit (s.h.core.val % 16))
       needNormalRead (unitAt a) ∧
     ElementsFault (.vldb x d a b m) x (into []) m [a, b, extReg x] raster needRead (rasterAt a b (extReg x)) room ∧
     ElementsFault (.vldbS2c x d a b m) x (into []) m [a, b, extReg x] (pixelsFit x) needRead (pixelAt x a b) room ∧
     ElementsFault (.vst x v a m) x [v] m [a] (fun _ => true) (unitNeed x true) (unitAt a) noted ∧
     ElementsFault (.vstStrided x v a b m) x [v] m [a, b] wideIn needWrite (strideAt a b) noted ∧
     ElementsFault (.vstx x v a j m) x [v, j] m [a] wideIn needWrite (offsetAt a k)
       (fun s => noted s ∧ offsetsIn x [v, j] j m k s) ∧
     ElementsFault (.vstb x v a b m) x [v] m [a, b, extReg x] raster needWrite (rasterAt a b (extReg x)) noted ∧
     ElementsFault (.vstbC2s x v a b m) x [v] m [a, b, extReg x] (pixelsFit x) needWrite (pixelAt x a b) noted ∧
     (∀ i ∈ [Instr.vamo x o v a j m, .vamoSwap x v a j m], ElementsFault i x [v, j] m [a] (fun s => vamoFmt s.h.fmt) needAtomic
       (offsetAt a k) (fun s => short s ∧ offsetsIn x [v, j] j m k s)) ∧
     ElementsFault (.vred x v a m) x [v] m [a] addFmt needNormalWrite
       (fun s e => ((s.readN a : Int) + (e * (width s.h.fmt / 8) : Nat), width s.h.fmt / 8)) adds ∧
     ElementsFault (.vredIndexed x v a j m) x [v, j] m [a] (fun s => addFmt s && 16 ≤ width s.h.fmt) needNormalWrite
       (offsetAt a k) (fun s => adds s ∧ offsetsIn x [v, j] j m k s)) ∧
  ∀ p ∈ Spec.two, ∀ x d a b s, d ≠ 0 → x.crit = true → Issues (p.1 x d a b) s → Clean [a, b] s → NoUpset s →
    let i := p.1 x d a b
    (∀ n, exec i { s with upsets := [.criticalOutvoted n] } =
      passes i s fun t => (t.modH fun h => h.countMismatch n).writeS d (p.2 (s.h.sreg a) (s.h.sreg b))) ∧
    ∀ k e, exec i { s with upsets := [.criticalSplit k e] } = trapsWith s { code := 0x20, detail := 3 }

/-- R332, R349: VKLD and VKST move the scale entries of the elements below VL, one byte each, with their poison. R344,
R67, R69, R119: VRED enters an engine transfer of one add for each active element, with its source format, code and
scale; its purse entries are reserved. -/
def Obligations.ScalesAndReductionsGoToMemory : Prop :=
  (∀ (x : Stack) (k : KReg) (a : SReg) s (p : Nat → Phys),
     let js := List.range ((s.h.vl + 31) / 32)
     let addr := fun j : Nat => ((s.readN a : Int) + j, 1)
     VecReady x true [] [] s → Clean [a] s → s.h.vl ≤ 65536 →
     (Issues (.vkld x k a) s → Placed needRead 1 js addr p s →
       exec (.vkld x k a) s = passes (.vkld x k a) s fun t =>
         let b := fun j => t.wakeLanes.loadBytes (s.readN a + j) (p j) 1
         t.wakeLanes.modH fun h => (h.putScales k (js.map fun j => (j, (b j).1.headD 0))).poisonScales k
           (js.filter fun j => (b j).2.isSome)) ∧
     (Issues (.vkst x k a) s → Placed needWrite 1 js addr p s →
       exec (.vkst x k a) s = passes (.vkst x k a) s fun t =>
         js.foldl (fun u j => u.storeBytes (s.readN a + j) (p j) [s.h.scale k j] (s.h.scalePoison k j).isSome) t.wakeLanes)) ∧
  (∀ (x : Stack) (v : VReg) (a : SReg) (j : VReg) (m : MReg) s (p : Nat → Phys) (ents : List PEntry) (k c : Nat → Nat)
       (z : Nat → Option (PLoc × Bad)),
     let on := s.h.on m (maskInv x)
     let fm := if s.h.scaled s.h.fmt then Fmt.fp32 else s.h.fmt
     let n := width fm / 8
     let enters := fun (i : Instr) (regs : List VReg) (ok : Bool) (addr : Nat → Int) =>
       Issues i s → VecReady x (vredFmt s.h && ok) (v :: regs) [m] s → Clean [a] s → s.h.maskClean m → s.entriesUsed + 1 ≤ 32 →
       (s.h.fmt ≠ .e2m1 → ents = []) →
       (s.h.fmt = .e2m1 → readPurse s 0 (escapes (s.h.operands s.h.layout [v]) [(v, List.range s.h.vl)]) = .ok ents) →
       (∀ e ∈ on, ∃ g, (s.h.operands s.h.layout (v :: regs)).elem v e = .code (c e) g (z e)) →
       Placed needNormalWrite n on (fun e => (addr e, n)) p s →
       exec i s = passes i s fun t =>
         let u := relOf x t.wakeLanes
         let adds := on.map fun e =>
           let q := senderOf s.h v ents e (c e) (z e).isSome
           XElem.add (p e) fm q.1 q.2.1 q.2.2.1 q.2.2.2
         (if on = [] then u else u.enqueue ⟨.vred, adds, none, 1⟩).modH fun h =>
           { h with purse := h.purse + wd (2 * ents.length) }
     enters (.vred x v a m) [] true (fun e => s.readN a + (e * n : Nat)) ∧
     ((∀ e ∈ on, ((s.h.operands s.h.layout [v, j]).elem j e).gives (k e)) →
       enters (.vredIndexed x v a j m) [j] (16 ≤ width s.h.fmt) fun e => s.readN a + signedOf (width s.h.fmt) (k e)))

/-- R327, R34 to R36: VFETCH starts a virtual processor at s[sa] for each active element, and passes where there is none; it
keeps the registers and PURSE, for the scalar operands of its blocks (R35) and for a stop that unwinds it (R69, R328). R339,
R35: a group `g` that executes VSTOP ends, and the control thread goes on behind the VFETCH when no virtual processor is
left; VNEXT sends each of its virtual processors to its own entry address plus the offset in its element of vs; VPBR moves
those whose element is not 0 by o words, and the others to the next instruction. That the control thread goes on only when none is
left, where R36 lets it continue at once, is the model's choice (log entry 9). -/
def Obligations.VirtualProcessorsRun : Prop :=
  (∀ (x : Stack) (a : SReg) (m : MReg) (s : State),
     let i := Instr.vfetch x a m
     let b := s.h.sreg a
     let on := s.h.on m (maskInv x)
     Issues i s → VecReady x true [] [m] s → Clean [a] s → s.h.maskClean m →
     (b.toNat % 4 ≠ 0 → ∃ t, exec i s = .next t ∧ t.h = (takeTrap (wholeTrap cMisaligned) s.h.pc false s).h) ∧
     (b.toNat % 4 = 0 → on = [] → exec i s = passes i s (·.wakeLanes)) ∧
     (b.toNat % 4 = 0 → on ≠ [] → ∃ r : VpRun, exec i s = .next ((issued i s).wakeLanes.modH fun h => { h with vp := some r }) ∧
       r.vps = on.map (fun e => ⟨e, b, b⟩) ∧ r.group = none ∧ r.at_ = s.h.pc ∧ r.next = s.h.pc + wd x.len ∧
       r.pop = popFifo x 1 ∧ r.push = pushFifo x 1 ∧ r.sregs0 = s.h.sregs ∧ r.regs0 = s.h.vregs ∧ r.masks0 = s.h.masks ∧
       r.fflags0 = s.h.fflags ∧ r.purse0 = s.h.purse ∧ r.poison0 = s.h.poison)) ∧
  (∀ (a : VReg) (o : BitVec 6) (s : State) (r : VpRun) (g : List Nat) (c : Nat → Nat),
     s.h.vp = some r → r.group = some g → NoUpset s →
     let left := r.vps.filter fun v => !g.contains v.e
     let goes := fun f : Vp → Vp => State.modH s.wakeLanes fun h =>
       { h with vp := some { r with group := none, vps := r.vps.map fun v => if g.contains v.e then f v else v } }
     let w := width s.h.fmt
     let reads := VecReady .plain (!isSliced s.h.fmt) [a] [] s ∧ s.h.resume = none ∧ (∀ v ∈ r.vps, g.contains v.e → v.e ∈ s.h.elems) ∧
       r.vps ≠ [] ∧ ∀ e ∈ s.h.elems, ((s.h.operands s.h.layout [a]).elem a e).gives (c e)
     (left ≠ [] → exec (.vstop .plain) s =
       .next { s with h := { s.h with vp := some { r with vps := left, group := none } } }) ∧
     (left = [] → exec (.vstop .plain) s =
       .next (State.pushOrHold { s with h := { s.h with vp := none, pc := r.next } } r.push)) ∧
     (reads → (∀ e ∈ s.h.elems, signedOf (min w 32) (c e) % 4 = 0) → exec (.vnext .plain a) s =
       .next (goes fun v =>
         let pc := v.entry + BitVec.ofInt 64 (signedOf (min w 32) (c v.e))
         { v with pc := pc, entry := pc })) ∧
     (reads → exec (.vpbr .plain o a) s =
       .next (goes fun v => { v with pc := if c v.e = 0 then v.pc + 4 else v.pc + 4 * o.signExtend 64 })))

/-- R84 to R86, R94: MSETM claims a free matrix unit, with every cell +0, and waits for one that another hart holds; MREL
gives it back, and the hart that has waited longest has it at once: its MSETM completes, with every cell +0, or, where it was stopped
while it held the unit, it goes on with its own cells; MZERO clears one tile. -/
def Obligations.MatrixUnitClaims : Prop :=
  (∀ (x : Stack) (l : MvlC) (t : Fin 4) (s : State),
    let noCells := fun h : Hart => h.poison.filter fun p => match p with
      | .cell _ => false
      | _ => true
    let fresh := fun (u : State) (v : Option MvlC) => u.modH fun h => { h with poison := noCells h, mvl := v, cells := [] }
    (Issues (.msetm x l) s → s.h.inHandler = false →
      (s.h.mvl = some l → exec (.msetm x l) s = passes (.msetm x l) s id) ∧
      ((∃ k, s.h.mvl = some k ∧ k ≠ l) ∨ s.unitHeld s.h.core = false ∧ s.h.mvl = none →
        exec (.msetm x l) s = passes (.msetm x l) s (fresh · (some l))) ∧
      (s.h.mvl = none → s.unitHeld s.h.core = true → ∃ u, exec (.msetm x l) s = .next u ∧
        u.h.status = .stalled (.matrix l x) ∧ u.h.tokens = s.h.tokens ∧ u.h.mvl = none ∧ u.h.pc = s.h.pc)) ∧
    (Issues (.mrel x) s → s.h.inHandler = false → s.h.mvl ≠ none → (∀ h ∈ s.rest, h.core = s.h.core → h.waitsUnit = false) →
      exec (.mrel x) s = passes (.mrel x) s (fresh · none)) ∧
    (∀ w ∈ s.rest, Issues (.mrel x) s → s.h.inHandler = false → s.h.mvl ≠ none → w.core = s.h.core → w.waitsUnit = true →
      w.ctx ≠ s.h.ctx → (∀ h ∈ s.rest, h.core = s.h.core → h.status ≠ .absent → h.mvl = none ∧ (h ≠ w → h.ctx ≠ w.ctx ∧
        (h.waitsUnit = true → w.unitAge < h.unitAge))) →
      ∃ u, exec (.mrel x) s = passes (.mrel x) s (fun _ => u) ∧ u.h = (fresh (issued (.mrel x) s) none).h ∧
        (∀ h ∈ s.rest, h ≠ w → h ∈ u.rest) ∧ ∃ v ∈ u.rest,
          (∀ k y, w.status = .stalled (.matrix k y) → v.core = w.core ∧ v.ctx = w.ctx ∧ v.mvl = some k ∧ v.cells = [] ∧
            v.poison = noCells w ∧ v.status = .running ∧ v.pc = w.pc + wd y.len) ∧
          ∀ k, w.status = .stalled (.reclaim k) → v = { w with mvl := some k, status := .running }) ∧
    (Issues (.mzero x t) s → ∀ k, s.h.mvl = some k → t.val < tilesOf k →
      exec (.mzero x t) s = passes (.mzero x t) s fun u => u.modH fun h =>
        h.putTile (t.val * mvlOf k ^ 2) (mvlOf k ^ 2) fun _ => 0)) ∧
  ∀ (h : Hart) (lo n : Nat) (f : Nat → BitVec 32) (k : Nat),
    (h.putTile lo n f).cell k = if lo ≤ k ∧ k < lo + n then f (k - lo) else h.cell k

/-- R89 to R91, R81, R69: MOP adds to each cell of the tile the products of p pairs of packed elements, MROW adds to each
cell of one row the products of 8 * G * p pairs; each cell is summed exactly and rounded once (`Spec.CellOf`), of the values
that their operands read as (`Spec.source`). The model's choices: that a quiet NaN hides infinities of both signs beside it, without
NV (log entry 46), and that an escape without a register of its own has no purse entry (log entry 30). -/
def Obligations.MatrixProducts : Prop :=
  (∀ (old : BitVec 32) (ps : List (FVal × FVal)), let r := accumulate old ps
     Spec.CellOf (Spec.decoded .fp32 old.toNat) ps (r.1.toNat, r.2)) ∧
  (∀ (o : Env) (ents : List PEntry) (src : Src) (e : Nat),
     (o.h.vl ≤ e → mread o ents src e = .val (.fin false 0 0)) ∧
     ∀ c org, e < o.h.vl → o.read src e = .code c org none → matFmt o.h.fmt = true → c < 2 ^ width o.h.fmt →
       (∀ k j, o.h.scalePoison k j = none) → (∀ p ∈ ents, p.poison = none ∧ p.code < 2 ^ 16) →
       mread o ents src e = .val (if isSmall o.h.fmt then Spec.source o.h ents c org else Spec.decoded o.h.fmt c)) ∧
  ∀ (x : Stack) (a b : VReg) (r : SReg) (s : State) (l : MvlC) (ents : List PEntry) (A : Nat → FVal)
      (B : Nat → Nat → FVal),
    let n := mvlOf l
    let p := packing s.h.fmt
    let t := (tileAt x).at_
    let e2m1 := fun (o : Env) (order : List (VReg × List Nat)) =>
      (s.h.fmt ≠ .e2m1 → ents = []) ∧ (s.h.fmt = .e2m1 → readPurse s 0 (escapes o order) = .ok ents)
    let sums := fun (lo m : Nat) (pairs : Nat → List (FVal × FVal)) (u : State) => u.wakeLanes.modH fun h =>
      { (h.putTile lo m fun j => (accumulate (s.h.cell (lo + j)) (pairs j)).1).raise
          (orAll ((List.range m).map fun j => (accumulate (s.h.cell (lo + j)) (pairs j)).2)) with
        purse := h.purse + wd (2 * ents.length) }
    s.h.mvl = some l → t.val < tilesOf l → s.h.xfers = [] → isSliced s.h.fmt = false →
    (Issues (.mop x a b) s →
      let o1 := Src.reg a (s.h.disp1 x)
      let o2 := Src.reg b (s.h.disp2 x)
      let o := s.h.operands s.h.layout (s.h.regsOf o1 ++ s.h.regsOf o2)
      VecReady x (matFmt s.h.fmt) [a, b] [] s → s.h.cellPoison (t.val * n * n) (n * n) = none →
      e2m1 o (readOrder s.h.vl [a, b] fun _ e => e < n * p) →
      (∀ e < n * p, mread o ents o1 e = .val (A e) ∧ mread o ents o2 e = .val (B 0 e)) →
      exec (.mop x a b) s = passes (.mop x a b) s (sums (t.val * n * n) (n * n) fun c =>
        (List.range p).map fun u => (A (c / n * p + u), B 0 (c % n * p + u)))) ∧
    (Issues (.mrow x r a b) s → Clean [r, (tileAt x).sb] s →
      let g := 2 ^ (tileAt x).lgr.val
      let row := s.readN r
      let e0 := s.readN (tileAt x).sb
      let o1 := Src.reg a (s.h.disp1 x)
      let tile : List VReg := (List.range 8).map fun u => Fin.ofNat 64 (b.val + u)
      let o := s.h.operands s.h.layout (s.h.regsOf o1 ++ tile)
      let lo := t.val * n * n + row * n
      let ends := (List.range (8 * g * p)).filterMap fun k =>
        if s.h.vl ≤ e0 + k then none
        else match o.read o1 (e0 + k) with
          | .code _ (some (v, e)) _ => if v = a then some e else none
          | .code _ none _ => none
          | .shell => none
      VecReady x (matFmt s.h.fmt && b.val + 7 < s.h.nreg) (a :: tile) [] s → row < n → s.h.cellPoison lo n = none →
      e2m1 o (readOrder s.h.vl (a :: tile) fun v e => v = a && ends.contains e || tile.contains v && e < g * n * p) →
      (∀ k < 8 * g * p, mread o ents o1 (e0 + k) = .val (A k) ∧ ∀ j < n,
        mread o ents (.reg (Fin.ofNat 64 (b.val + k / p / g)) ⟨0, 0, 0⟩) (k / p % g * n * p + j * p + k % p) = .val (B j k)) →
      exec (.mrow x r a b) s = passes (.mrow x r a b) s (sums lo n fun j =>
        (List.range (8 * g * p)).map fun k => (A k, B j k)))

/-- R95: MMOVV converts the cells of one row to elements of vd, and MLDA elements of vs to the cells of one row, at the
active elements from s[sb] on. -/
def Obligations.MatrixRowsMove : Prop :=
  ∀ (x : Stack) (v : VReg) (a b : SReg) (m : MReg) (t : Fin 4) (s : State) (l : MvlC) (u : Nat → Nat),
    let n := mvlOf l
    let e0 := s.readN b
    let lo := t.val * n * n + s.readN a * n
    let js := (List.range n).filter fun j => (s.h.on m (maskInv x)).contains (e0 + j)
    let out := fun e => convertF s.h.fmt s.h.rm s.h.ftz s.h.sat (decodeF .fp32 (s.h.cell (lo + (e - e0))).toNat)
    let into := fun j => convertF .fp32 .rne false false (decodeF s.h.fmt (u (e0 + j)))
    s.h.mvl = some l → t.val < tilesOf l → VecReady x (isFloat s.h.fmt) [v] [m] s → Clean [a, b] s → s.h.maskClean m →
    s.readN a < n →
    (Issues (.mmovv x v a b m t) s → (∀ j ∈ js, s.h.poison.contains (.cell (lo + j)) = false) →
      exec (.mmovv x v a b m t) s = passes (.mmovv x v a b m t) s
        (elementwise v s.h.layout (js.map (e0 + ·)) (fun e => ((out e).1, onlyNV (out e).2)) (t := ·))) ∧
    (Issues (.mlda x v a b m t) s → (∀ j ∈ js, ((s.h.operands s.h.layout [v]).elem v (e0 + j)).gives (u (e0 + j))) →
      exec (.mlda x v a b m t) s = passes (.mlda x v a b m t) s fun w => w.wakeLanes.modH fun h =>
        (js.foldl (fun (h : Hart) j => h.putTile (lo + j) 1 fun _ => BitVec.ofNat 32 (into j).1) h).raise
          (orAll (js.map fun j => onlyNV (into j).2)))

/-- R96, R116, R117, R119, R285, R286: MSTA, CECOPY and CEFILL enter an engine transfer of every element, and CESTAT counts
the copies and fills that are outstanding. -/
def Obligations.EngineTransfersEnter : Prop :=
  ∀ (x : Stack) (a b d : SReg) (j : VReg) (m : MReg) (t : Fin 4) (s : State) (l : MvlC) (p q : Nat → Phys)
      (nt : Option (Phys × Scope)) (k : Nat → Nat) (dst src : Tensor),
    let notes := nt.map fun n => Notify.mk n.1 0 n.2
    let n := mvlOf l
    let cells := List.range (n * n)
    let stores := fun (i : Instr) (ok : Bool) (regs : List VReg) (rs : List SReg) (key : Nat → Nat) (addr : Nat → Int) =>
      let on := fun c => (s.h.on m (maskInv x)).contains (key c)
      Issues i s → s.h.mvl = some l → t.val < tilesOf l → VecReady x ok regs [m] s → Clean rs s → s.h.maskClean m →
      s.entriesUsed + 1 ≤ 32 → Notifies x s nt → Placed needWrite 4 (cells.filter on) (fun c => (addr c, 4)) p s →
      (∀ c ∈ cells.filter on, s.h.poison.contains (.cell (t.val * n * n + c)) = false) →
      exec i s = passes i s fun u => u.wakeLanes.enqueue ⟨.msta, cells.map fun c =>
        if on c then XElem.put (p c) (natToBytes 4 (s.h.cell (t.val * n * n + c)).toNat) false else .skip, notes, 1⟩
    stores (.mstaStrided x a b m t) true [] [a, b] (· % n)
      (fun c => s.readN a + (c / n : Nat) * (s.h.sreg b).toInt + (4 * (c % n) : Nat)) ∧
    ((∀ e ∈ s.h.on m (maskInv x), ((s.h.operands s.h.layout [j]).elem j e).gives (k e)) →
      stores (.mstaIndexed x a j m t) (16 ≤ width s.h.fmt) [j] [a] (· / n)
        fun c => s.readN a + signedOf (width s.h.fmt) (k (c / n)) + (4 * (c % n) : Nat)) ∧
    (Issues (.cecopy x a b) s → Clean [a, b] s → s.h.xfers = [] → s.entriesUsed + 2 ≤ 32 →
      Describes s (s.readN a) dst → Describes s (s.readN b) src →
      dst.esz = src.esz → dst.count = src.count → dst.count * dst.esz ≤ 2 ^ 40 → Notifies x s nt →
      EnginePlaced needRead src p s → EnginePlaced needWrite dst q s →
      exec (.cecopy x a b) s = passes (.cecopy x a b) s fun u => u.enqueue ⟨.cecopy,
        (List.range dst.count).map fun e => XElem.copy (p e) (q e) dst.esz, notes, 2⟩) ∧
    (Issues (.cefill x a b) s → Clean [a] s → s.h.xfers = [] → s.entriesUsed + 1 ≤ 32 → Describes s (s.readN a) dst →
      dst.count * dst.esz ≤ 2 ^ 40 → EnginePlaced needWrite dst q s →
      exec (.cefill x a b) s = passes (.cefill x a b) s fun u => u.enqueue ⟨.cefill,
        (List.range dst.count).map fun e => XElem.put (q e) (natToBytes dst.esz (s.readN b)) (s.h.sPoison b), none, 1⟩) ∧
    (Issues (.cestat x d) s → exec (.cestat x d) s = passes (.cestat x d) s fun u =>
      u.writeS d (wd (s.h.xfers.countP fun y => y.kind = .cecopy ∨ y.kind = .cefill)))

/-- R27, R31, R43, R307, R42, R108: SETVL of 0 gives every lane cluster back. Otherwise a hart that is alone on its core comes to
hold as many lane clusters as its request needs, and no fewer than before; SETVL writes the VL that they allow, SETVLB the
geometry, which is valid where it fits. Queue entries are discarded, and memory stays. R27 beside other harts, among which the harts
`ws` wait: where one waits, or the hart itself holds none, it gives up what exceeds the fair share, the lowest numbered first; the
waiting harts are granted lane clusters by age, it takes what it still may of those left, and it waits while it holds none. -/
def Obligations.GeometryIsNegotiated : Prop :=
  ∀ (x : Stack) (d a : SReg) (f : Fmt) (n : NregC) (z y w : Fin 5) (s : State),
    let r := s.readN a
    let vlmax := fun c => c * 262144 / (2 * (4 * 2 ^ n.code) * width f)
    let alone := ∀ h ∈ s.rest, h.core = s.h.core → h.status = .absent
    let rest := fun (i : Instr) (t : State) => t.h.fmt = f ∧ t.h.nregc = n ∧ t.h.pc = behind i s ∧ t.mem = s.mem ∧
      (d ≠ 0 → t.h.sreg d = wd t.h.vl) ∧ (∀ k, k ≠ d → t.h.sreg k = s.h.sreg k) ∧ t.h.masks = s.h.masks ∧
      ∀ q : Fin 4, t.h.queues[q] = []
    let least := fun (fits : Nat → Bool) (c : Nat) => 1 ≤ c ∧ c ≤ 8 ∧ (fits c = true ∨ c = 8) ∧
      ∀ k, 1 ≤ k → k < c → fits k = false
    let written := fun (c : Nat) (t : State) => least (fun k => r ≤ vlmax k) c ∧ t.h.vl = min r (vlmax t.h.lcn) ∧ t.h.bgeo = wd (2 ^ 62)
    let g := gridOf x
    let bricks := (g.1.toNat + 1) * (g.2.1.toNat + 1) * (g.2.2.toNat + 1)
    let size := 2 ^ z.val * 2 ^ y.val * 2 ^ w.val
    let holds := fun k => size ≤ 512 && (bricks + 8 * k - 1) / (8 * k) * size * width f ≤ 32 * (512 / (4 * 2 ^ n.code))
    let shaped := fun (c : Nat) (t : State) => least holds c ∧ t.h.vl = (if holds t.h.lcn then bricks * size else 0) ∧
      t.h.bgeo = BitVec.ofBool (!holds t.h.lcn) ++ (0#27 : BitVec 27) ++ g.1 ++ g.2.1 ++ g.2.2 ++ (0#3 : BitVec 3) ++
        BitVec.ofNat 3 z.val ++ BitVec.ofNat 3 y.val ++ BitVec.ofNat 3 w.val
    let shared := fun (i : Instr) (ws : List Hart) (wrote : Nat → State → Prop) => ∃ t c, exec i s = .next t ∧
      let contested := !ws.isEmpty || s.h.lcs == 0
      let share := Spec.fairShare (1 + s.otherRequesters)
      let keeps := if contested then s.h.clusters.drop (s.h.lcn - share) else s.h.clusters
      let free := s.freeClusters keeps
      let gs := Spec.grants share free (ws.map (·.demand) ++ if s.h.lcs = 0 then [c] else [])
      let own := keeps ++ if s.h.lcs = 0 then gs.getLastD [] else []
      let all := own ++ (free.drop gs.flatten.length).take (min c (if contested then share else 8) - own.length)
      Grants ws gs s t ∧ (∀ l, l ∈ t.h.clusters ↔ l ∈ all) ∧
        (all ≠ [] → rest i t ∧ wrote c t) ∧
        (all = [] → t.h.pc = s.h.pc ∧ t.h.tokens = s.h.tokens ∧ t.h.requester = true ∧ t.h.demand = c ∧
          ∃ q, t.h.status = .stalled (.lanes q) ∧ q.fmt = f ∧ q.nreg = n ∧ q.d = d)
    s.h.inHandler = false → s.h.preempt = false →
    (∀ ws, WaitsForLanes s ws → (s.h.lcs = 0 → s.h.requester = false) →
      (Issues (.setvl x d a f n) s → Clean [a] s → r ≠ 0 → shared (.setvl x d a f n) ws written) ∧
      (Issues (.setvlb x d f n z y w) s → isSliced f = false → shared (.setvlb x d f n z y w) ws shaped) ∧
      (Issues (.setvl x d a f n) s → Clean [a] s → r = 0 → ∃ t, exec (.setvl x d a f n) s = .next t ∧ rest (.setvl x d a f n) t ∧
        Grants ws (Spec.grants (Spec.fairShare s.otherRequesters) (s.freeClusters []) (ws.map (·.demand))) s t)) ∧
    (Issues (.setvl x d a f n) s → Clean [a] s → s.placedOnce → r = 0 → ∃ t, exec (.setvl x d a f n) s = .next t ∧
      rest (.setvl x d a f n) t ∧ t.h.vl = 0 ∧ t.h.lcs = 0 ∧ t.h.requester = false) ∧
    (Issues (.setvl x d a f n) s → Clean [a] s → r ≠ 0 → alone → ∃ t c, exec (.setvl x d a f n) s = .next t ∧
      rest (.setvl x d a f n) t ∧ written c t ∧ t.h.lcn = max s.h.lcn c) ∧
    (Issues (.setvlb x d f n z y w) s → isSliced f = false → alone → ∃ t c, exec (.setvlb x d f n z y w) s = .next t ∧
      rest (.setvlb x d f n z y w) t ∧ shaped c t ∧ t.h.lcn = max s.h.lcn c)

/-- R51, R203, R346, R204: SETSH writes the faces it names and no other; VSAVE stores the image of the hart (Table 10-10); VREST
takes lane clusters for the geometry of an image, and the format, the dilation, BS, SAT and the shells from it; where it fits
the lane clusters granted, also VL and BGEO, the registers, the masks and the scale registers; else VL is 0, and every
vector register is dead. A geometry whose bricks do not divide VL is left out, and a lane block that the elements do not
fit (log entry 54). -/
def Obligations.ShellsAndImages : Prop :=
  ∀ (x : Stack) (d : VReg) (q : Fin 64) (k : ShKind) (c : ShFace) (a : SReg) (s : State),
    (Issues (.setsh x d q k c) s → d.val < s.h.nreg → (k = .link → q.val < s.h.nreg) → (k = .const → Clean [q] s) →
      ∃ sh, exec (.setsh x d q k c) s = passes (.setsh x d q k c) s (fun t => t.modH fun h => { h with shells := sh }) ∧
        ∀ (r : VReg) (face : Nat), face < 6 → lookupD Shell.zero (6 * r.val + face) sh =
          if r = d ∧ face ∈ facesOf c then
            (match k with
              | .zero => .zero
              | .const => .const (s.h.sreg q)
              | .edge => .edge
              | .link => .link q
              | .trap => .trap)
          else s.h.shell r face) ∧
    (Issues (.vsave x a) s → Clean [a] s → s.h.offChip = [] → s.h.xfers = [] → s.h.vl ≤ 65536 → s.readN a % 64 = 0 →
      ImageOfHart s (imageOf s).1 ∧
      ∀ ps, rangeProbe s needWrite (s.readN a) (pageParts (s.readN a) (imageScaleAt s.h.vl (width s.h.fmt) s.h.nreg 8)) = .ok ps →
        exec (.vsave x a) s = passes (.vsave x a) s fun t =>
          t.wakeLanes.storeRange (s.readN a) (imageOf s).1 (imageOf s).2 ps) ∧
    ∀ (ps qs : List (Nat × Nat × Phys)) (hd im : List Byte × List Nat) (f : Fmt) (n : NregC),
      let base := s.readN a
      let len := imageAt hd.1 0x20 8
      let vl := imageAt im.1 0 8
      let g := imageAt im.1 0x10 8
      let bricks := (g / 2 ^ 12 % 256 + 1) * (g / 2 ^ 20 % 256 + 1) * (g / 2 ^ 28 % 256 + 1)
      let size := 2 ^ (g % 8) * 2 ^ (g / 8 % 8) * 2 ^ (g / 64 % 8)
      let fits := fun k => vl ≤ k * 262144 / (2 * (4 * 2 ^ n.code) * width f) && (g.testBit 62 ||
        size ≤ 512 && (bricks + 8 * k - 1) / (8 * k) * size * width f ≤ 32 * (512 / (4 * 2 ^ n.code)))
      Issues (.vrest x a) s → Clean [a] s → s.h.inHandler = false → s.h.preempt = false → s.h.xfers = [] → s.h.offChip = [] →
      (∀ h ∈ s.rest, h.core = s.h.core → h.status = .absent) → base % 64 = 0 →
      rangeProbe s needRead base (pageParts base 64) = .ok ps → s.rangeBytes base ps = hd → (∀ o ∈ hd.2, 0x28 ≤ o) →
      vtypeFields (imageAt hd.1 8 8) = some (f, n) → imageAt hd.1 0x10 8 / 2 ^ 36 % 2 ^ 26 = 0 →
      imageAt hd.1 0x10 8 / 2 ^ 9 % 8 = 0 → len = imageScaleAt (imageAt hd.1 0 8) (width f) (4 * 2 ^ n.code) 8 →
      imageAt hd.1 0 8 ≤ 65536 → vl ≤ 65536 → rangeProbe s needRead base (pageParts base len) = .ok qs → s.rangeBytes base qs = im →
      ∃ t c, exec (.vrest x a) s = .next t ∧ t.h.fmt = f ∧ t.h.nregc = n ∧ t.h.pc = behind (.vrest x a) s ∧
        (1 ≤ c ∧ c ≤ 8 ∧ (fits c = true ∨ c = 8) ∧ ∀ k, 1 ≤ k → k < c → fits k = false) ∧ t.h.lcn = max s.h.lcn c ∧
        (∀ q : Fin 4, t.h.queues[q] = []) ∧
        (∀ (r : VReg) (k : Fin 6) y, shellAt (imageAt im.1) (0x100 + 16 * (6 * r.val + k.val)) y → t.h.shell r k.val = y) ∧
        t.mem = s.mem ∧ t.h.sregs = s.h.sregs ∧ t.h.dil = wd (imageAt im.1 24 8 % 2 ^ 24) ∧
        (t.h.bs = (imageAt im.1 8 8).testBit 7) ∧ (t.h.sat = (imageAt im.1 8 8).testBit 6) ∧
        (fits t.h.lcn = true → t.h.vl = vl ∧ t.h.bgeo = wd g ∧
          (t.h.vl % t.h.geo.s = 0 → t.h.layout.stripes ≤ t.h.blockWords → HoldsImage t.h im.1 vl)) ∧
        (fits t.h.lcn = false → t.h.vl = 0 ∧ t.h.bgeo = wd g ||| wd (2 ^ 63) ∧ t.h.vregs = [] ∧ t.h.scales = [])

/-- R37, R38, R287, R290: CLAIM adds to NEXT of a block the strips that are left of it, up to s[sb] and VLMAX, as an
acquire at .dev, and VL becomes their number; sd receives the old NEXT. FARM sets NEXT to 0 and TOTAL to s[sb], as a release
at .dev. -/
def Obligations.StripsAreClaimed : Prop :=
  ∀ (x : Stack) (d a b : SReg) (s : State) (p : Phys), Clean [a, b] s → Reaches needAtomic (s.readN a) 16 p s →
    (Issues (.claim x d a b) s → s.h.inHandler = false → s.h.lcs ≠ 0 → s.readN b ≠ 0 →
      ∀ bs, ((s.atHome s.h p 16).curPhys s.h.core p 16) = (bs, none) →
      let next := imageAt bs 0 8
      let g := min (min (s.readN b) (s.h.lcn * 262144 / (2 * s.h.nreg * width s.h.fmt))) (imageAt bs 8 8 - next)
      exec (.claim x d a b) s = passes (.claim x d a b) s fun t =>
        let u := t.atHome t.h p 16
        ((u.writeHome u.h p (natToBytes 8 (next + g)) false).modH fun h =>
          ({ h.dropQueues with vl := g, bgeo := wd (2 ^ 62) }).setSreg d (wd next)).acquire .dev) ∧
    (Issues (.farm x a b) s → exec (.farm x a b) s = passes (.farm x a b) s fun t =>
      let u := t.release .dev
      u.writeHome u.h p (natToBytes 8 0 ++ natToBytes 8 (s.readN b)) false)

/-- R291, R160, R166, R167: FENCE. R354, R165: WAITM passes where the word differs from s[sb], or an interrupt or a pre-emption
pends, and waits else. R281, R282: BAR arrives, after a release, and passes, as an acquire, once every hart named has
arrived, or waits. R289: EXIT frees what the hart holds, empties its channels, and counts its gang out. -/
def Obligations.WaitingAndLeaving : Prop :=
  (∀ (x : Stack) (a b : SReg) (sc : Scope) (c : BitVec 4) (s : State),
     (c ≠ 0 → Issues (.fence x sc c) s → exec (.fence x sc c) s = passes (.fence x sc c) s fun t =>
       let wide := sc == .dev || sc == .sys
       let u := if wide || c.getLsbD 2 || c.getLsbD 1 then t.release sc else if c.getLsbD 0 then t.drain else t
       let v := if c.getLsbD 0 then u.completePt else u
       if c.getLsbD 3 then v.acquire sc else v) ∧
     (Issues (.waitm x a b) s → Clean [a, b] s → ∀ p bs, Reaches needRead (s.readN a) 4 p s →
       s.curPhys s.h.core p 4 = (bs, none) →
       ((bytesNat bs ≠ s.readN b % 2 ^ 32 ∨ s.h.irq ≠ none ∨ s.h.preempt = true) →
         exec (.waitm x a b) s = passes (.waitm x a b) s id) ∧
       (bytesNat bs = s.readN b % 2 ^ 32 → s.h.irq = none → s.h.preempt = false →
         exec (.waitm x a b) s = .next { s with h := { s.h with status := .stalled (.monitor x)
                                                                monitor := some (pieceOf (p.key s.h.core)) } })) ∧
     (Issues (.bar x a sc) s → Clean [a] s →
       let m := s.readN a
       let pod := podOf s.h.core
       let inst : BarInst := ⟨pod, s.h.gang, BitVec.ofNat 16 m, sc, []⟩
       let named := fun y : BarInst => y.pod = pod ∧ y.gang = s.h.gang ∧ y.mask = BitVec.ofNat 16 m
       barScope sc = true → m < 2 ^ 16 → m.testBit (s.h.core.val % 16) = true →
       (∀ k < 16, m.testBit k = true → s.hasParticipant s.h.gang (16 * pod + k) = true) →
       ∀ old : BarInst, (s.sys.bars.find? (fun y => named y) = some old ∧ old.scope = sc ∨
         s.sys.bars.find? (fun y => named y) = none ∧ old = inst ∧ s.sys.bars.countP (fun y => y.pod = pod) < 16) →
       let new : BarInst := { old with arrived := old.arrived ++ [s.h.index] }
       let enter := fun t : State => ((t.modH fun h => { h with barred := false }).release sc).modSys fun y =>
         { y with bars := y.bars.filter (· ≠ old) ++ [new] }
       ((∀ j ∈ s.awaits new, j ∈ new.arrived) →
         exec (.bar x a sc) s = passes (.bar x a sc) s fun t => ((enter t).completeBar new).acquire sc) ∧
       ((∃ j ∈ s.awaits new, j ∉ new.arrived) → ∃ t, exec (.bar x a sc) s = .next t ∧
         t.h.status = .stalled (.barrier sc x) ∧ new ∈ t.sys.bars ∧ t.h.pc = s.h.pc ∧ t.h.tokens = s.h.tokens))) ∧
  (∀ (x : Stack) (s : State), Issues (.exit x) s → s.placedOnce → ∃ t, exec (.exit x) s = .next t ∧ t.h.status = .absent ∧ t.h.lcs = 0 ∧
     t.h.mvl = none ∧ t.h.irq = none ∧ t.h.xfers = [] ∧
     (∀ m ∈ t.sys.msgs, ¬(m.gang = s.h.gang ∧ m.receiver = s.h.index)) ∧
     ∀ g, s.gangOf s.h.gang = some g → ∃ g', t.gangOf s.h.gang = some g' ∧ g'.live = g.live - 1 ∧ g'.desc = g.desc)

/-- R295, R12, R13, R355, R136, R138, R280: LAUNCH, as a release at .sys, writes the number of the new gang, or -1, -2 or -3;
XSEND leaves a copy of the register in the channel and waits while it is full; XRECV takes the oldest message of its peer
and waits for one; AMSG runs the handler behind older messages, and waits while what they write is held by an open multicast
entry. The model's choices: that AMSG runs the messages that its Teller has queued before its own (log entry 37), that XSEND and XRECV
find the peer by its place (log entry 35), and that the poison of the payload goes to the answer (log entry 15). -/
def Obligations.HartsCommunicate : Prop :=
  (∀ (x : Stack) (d a b : SReg) (v : VReg) (s : State),
    (Issues (.launch x d a) s → Clean [a] s → s.h.xfers = [] →
      ∀ p, probe s needRead (s.readN a) 80 16 = .ok p → (s.loadBytes (s.readN a) p 80).2 = none →
      exec (.launch x d a) s = passes (.launch x d a) s fun t =>
        let r := (t.release .sys).launch (.ofBytes (s.loadBytes (s.readN a) p 80).1) true (s.h.cid = 0) s.h.cid
        r.1.writeS d r.2) ∧
    (∀ g, s.gangOf s.h.gang = some g → Clean [a] s → s.readN a < g.desc.harts.toNat → s.readN a ≠ s.h.index →
      (∀ p ∈ g.places, p.1 = s.readN a → podOf p.2.1 = podOf s.h.core ∧ p.2.1 ≠ s.h.core) → v.val < s.h.nreg →
      s.h.offChip = [] →
      let j := s.readN a
      let mine := s.sys.msgs.filter fun m => m.gang = s.h.gang ∧ m.receiver = j
      (Issues (.xsend x a v) s → mine.length < 8 → mine.countP (fun m => m.sender = s.h.index) < 2 →
        exec (.xsend x a v) s = passes (.xsend x a v) s fun t =>
          t.wakeLanes.modSys fun y => { y with msgs := y.msgs ++ [messageOf s.h v j] }) ∧
      (Issues (.xrecv x v a) s → ∀ m, s.sys.msgs.find? (fun m =>
          decide (m.gang = s.h.gang ∧ m.receiver = s.h.index ∧ m.sender = j)) = some m →
        exec (.xrecv x v a) s = passes (.xrecv x v a) s fun t =>
          (t.wakeLanes.modSys fun y => { y with msgs := y.msgs.erase m }).modH fun h =>
            h.putCells ((m.data.filter fun c => c.key / 128 < 8 * h.lcn && c.key % 128 < h.blockWords).map fun c =>
              { c with key := 8192 * v.val + c.key })) ∧
      (Issues (.xrecv x v a) s → (∀ m ∈ s.sys.msgs, ¬(m.gang = s.h.gang ∧ m.receiver = s.h.index ∧ m.sender = j)) →
        ∃ t, exec (.xrecv x v a) s = .next t ∧ t.h.status = .stalled .retry ∧ t.h.pc = s.h.pc ∧ t.h.tokens = s.h.tokens)) ∧
    (Issues (.amsg x d a b) s → Clean [a, b] s → s.h.xfers = [] →
      ∀ p q, probe s needNormalAtomic (s.readN a) 1 1 = .ok p → probe s needRead (s.readN b) 64 64 = .ok q →
      let bytes := s.loadBytes (s.readN b) q 64
      let i := Instr.amsg x d a b
      (homeDie p.pa = none → exec i s = passes i s fun t => ((t.release .dev).acquire .dev).writeS d (-4)) ∧
      ∀ die, homeDie p.pa = some die →
        let k := sliceFor s.sys.hmask[die] die p.skew.val p.pa
        let run := (((issued i s).release .dev).runQueue k).bind fun u =>
          runHandler u ⟨k, none, amsgHandler x, bytes.1, p.pa, s.h.cid, s.h.inc⟩
        (∀ r, run = some r → exec i s = passes i s fun _ =>
          (r.1.acquire .dev).writeSP d (BitVec.ofInt 64 r.2.1) (r.2.2 || bytes.2.isSome)) ∧
        (run = none → ∃ t, exec i s = .next t ∧ t.h.status = .stalled .retry ∧ t.h.pc = s.h.pc ∧ t.h.tokens = s.h.tokens))) ∧
  ∀ (u : State) (D : Desc) (hart priv : Bool) (c : BitVec 12),
    let r := u.launch D hart priv c
    (D.bad hart = true → r = (u, -2)) ∧
    (D.bad hart = false → D.prio = 3 → hart = true → priv = false → r = (u, -3)) ∧
    (D.bad hart = false → (D.prio ≠ 3 ∨ hart = false ∨ priv = true) →
      ((∃ k ∈ D.dies, u.sys.freeSlot k = none) → r = (u, -1)) ∧
      ((∀ k ∈ D.dies, u.sys.freeSlot k ≠ none) → ∃ g : Gang, r.1.sys.gangs = u.sys.gangs ++ [g] ∧ g.desc = D ∧
        g.cid = c ∧ g.inc = u.sys.curInc c ∧ g.st = .waiting ∧ g.live = D.harts.toNat ∧ g.num = r.2.setWidth 8))

/-- R292, R293, R306, R308, R142, R146, R123: the privileged operations of a hart of context 0. -/
def Obligations.PrivilegedOperations : Prop :=
  ∀ (x : Stack) (d a b : SReg) (s : State), s.h.cid = 0 →
    (Issues (.incb x d a) s → Clean [a] s → s.readN a < 4096 → s.readN a ≠ 0 →
      let c := BitVec.ofNat 12 (s.readN a)
      let new := s.sys.curInc c + 1
      (s.sys.incState c new = .free → ∃ t, exec (.incb x d a) s = .next t ∧ t.sys.curInc c = new ∧
        t.sys.incState c new = .live ∧ t.sys.incState c (new - 1) = .sweep ∧ (d ≠ 0 → t.h.sreg d = new.setWidth 64) ∧
        t.h.pc = behind (.incb x d a) s ∧ ∀ k, k ≠ c → t.sys.curInc k = s.sys.curInc k) ∧
      (s.sys.incState c new ≠ .free → ∃ t, exec (.incb x d a) s = .next t ∧ t.h.status = .stalled .retry ∧ t.h.pc = s.h.pc)) ∧
    (Issues (.rcf x d a) s → Clean [a] s → s.readN a < 4096 →
      (s.sys.sweeping (BitVec.ofNat 12 (s.readN a)) = false →
        exec (.rcf x d a) s = passes (.rcf x d a) s fun t => (t.writeS d 0).acquire .sys) ∧
      (s.sys.sweeping (BitVec.ofNat 12 (s.readN a)) = true → ∃ t, exec (.rcf x d a) s = .next t ∧
        t.h.status = .stalled (.rcf (BitVec.ofNat 12 (s.readN a)) false d x) ∧ t.h.pc = s.h.pc)) ∧
    (Issues (.slwb x a b) s → Clean [a, b] s →
      (s.readN b = 0 → exec (.slwb x a b) s = passes (.slwb x a b) s id) ∧
      ∀ ps, s.readN b ≠ 0 → addressOk (s.readN a) (s.readN b) = true →
        rangeBy s (slwbProbe s) (s.readN a) (pageParts (s.readN a) (s.readN b)) = .ok ps →
        let qs := ps.filter fun q => !q.2.2.spad && !q.2.2.dev
        let die := dieOf s.h.core
        ((∀ q ∈ qs, s.slwbWaits die q.2.2.pa q.2.1 = false) →
          exec (.slwb x a b) s = passes (.slwb x a b) s fun t => qs.foldl (fun u q => u.slwb die q.2.2.pa q.2.1) t.drain) ∧
        ((∃ q ∈ qs, s.slwbWaits die q.2.2.pa q.2.1 = true) → ∃ t, exec (.slwb x a b) s = .next t ∧
          t.h.status = .stalled .retry ∧ t.h.pc = s.h.pc ∧ t.h.tokens = s.h.tokens)) ∧
    (Issues (.hmsw x a) s → Clean [a] s → s.h.sreg a ≠ 0 →
      (s.stuckOn (dieOf s.h.core) = false → ∃ t,
        exec (.hmsw x a) s = passes (.hmsw x a) s (fun u => u.hmsw (dieOf s.h.core) (s.h.sreg a)) ∧
        exec (.hmsw x a) s = .next t ∧ t.sys.hmask = s.sys.hmask.set (dieOf s.h.core) (s.h.sreg a)) ∧
      (s.stuckOn (dieOf s.h.core) = true → ∃ t, exec (.hmsw x a) s = .next t ∧ t.h.status = .stalled .retry ∧ t.h.pc = s.h.pc))

/-- R231, Tables 11-4, 11-12 and 11-13: what a store to each register of the device range does. R222: a store to OP starts a
command, or is ignored and sets LOSTCMD. R225: while the module stays in reset, the registers of the Vault alone take one. -/
def Obligations.DeviceRegistersTakeStores : Prop :=
  ∀ (s : State) (off : Nat) (v : Word), devAssigned off = true →
    let b := off - off % 0x1000
    let o := off % 0x1000
    let st := s.sys.dev (b + 0x20)
    let vault := 0x10000 ≤ off ∧ off < 0x101C0
    (s.sys.booted = false → ¬vault → exec (.deviceRegisterWrite off v) s = .next s) ∧
    ((s.sys.booted = true ∨ vault) →
    (off < 0x10000 ∧ (o = 8 ∨ o = 0x10) ∨ 0x10000 ≤ off ∧ off < 0x10030 ∨ 0x20000 ≤ off ∧ 0x100 ≤ o ∧ o < 0x300 →
      ∃ t : State, exec (.deviceRegisterWrite off v) s = .next t ∧ SetsDev off v s t) ∧
    (0x20000 ≤ off → o < 0x100 → ∃ t : State, exec (.deviceRegisterWrite off v) s = .next t ∧
      SetsDev off (v &&& (if o % 16 = 0 then 0xFFFFFFFFFF001 else 0xFFFFFFFFFF000)) s t) ∧
    (off < 0x10000 ∧ o = 0x20 ∨ off = 0x10038 → ∃ t : State, exec (.deviceRegisterWrite off v) s = .next t ∧
      SetsDev off (s.sys.dev off &&& ~~~(v &&& 2)) s t) ∧
    (off < 0x10000 ∧ o = 0x18 ∨ 0x10040 ≤ off ∧ off < 0x11000 ∨ off = 0x11008 ∨ off = 0x12000 →
      exec (.deviceRegisterWrite off v) s = .next s) ∧
    (off < 0x10000 → o = 0 → st.getLsbD 0 = true → ∃ t : State, exec (.deviceRegisterWrite off v) s = .next t ∧
      SetsDev (b + 0x20) (st ||| 2) s t) ∧
    (off < 0x10000 → o = 0 → st.getLsbD 0 = false → ∃ t : State, exec (.deviceRegisterWrite off v) s = .next t ∧
      t.sys.dev (b + 0x20) = st ||| 1 ∧ (∀ a, a ≠ b + 0x20 → t.sys.dev a = s.sys.dev a) ∧
      t.sys.cmds = s.sys.cmds ++ [⟨Fin.ofNat 16 (off / 0x1000), v.setWidth 8, s.sys.dev (b + 8), s.sys.dev (b + 0x10), false, none⟩] ∧
      t.inbox = commandRow (v.setWidth 8) :: s.inbox) ∧
    (off = 0x10030 → ∃ t : State, exec (.deviceRegisterWrite off v) s = .next t ∧ t.sys.dev off = v &&& 7 ∧
      (∀ a, a ≠ off → t.sys.dev a = s.sys.dev a) ∧ t.inbox = .mextWrite :: s.inbox) ∧
    (off = 0x11000 → exec (.deviceRegisterWrite off v) s = .next { s with inbox := .powcapWrite v :: s.inbox }) ∧
    (off = 0x13000 → exec (.deviceRegisterWrite off v) s = .next { s with inbox := .selfidWrite v :: s.inbox }) ∧
    (0x20000 ≤ off → o = 0x300 → exec (.deviceRegisterWrite off v) s =
      .next { s with inbox := .portEnableWrite (Fin.ofNat 32 (off / 0x1000)) v :: s.inbox }))

/-- R231, R227, R229, R225: POWCAP, SELFID, the ports' ENABLE, MEXT, and the draw; the Vault's measurements; boot. The model's
choices: a disabled port shows UP = 0 and retrains (log entry 20); what the measurements of boot cover, and the order of causes in the
boot status (log entry 12). -/
def Obligations.VaultPowerAndBoot : Prop :=
  ∀ (s : State) (v : Word) (p : Fin 32) (w : BitVec 16),
    let c := v.toNat % 2 ^ 16
    let id := v.toNat % 2 ^ 11
    let cap := (s.sys.dev 0x11000).toNat
    let i := (s.sys.dev 0x10030).toNat
    let m := (List.range 6).flatMap fun j => natToBytes 8 (s.sys.dev (0x10000 + 8 * j)).toNat
    let first := flashImage s.sys.flash 0
    let second := flashImage s.sys.flash 0x8000000
    let room := 0x8000000 - 0x100
    (900 ≤ c → c ≤ 1800 → ∃ t : State, exec (.powcapWrite v) s = .next t ∧ t.sys.dev 0x11000 = wd c ∧
      (∀ a, a ≠ 0x11000 → t.sys.dev a = s.sys.dev a) ∧ t.sys.withheld = decide (c < (s.sys.dev 0x11008).toNat)) ∧
    ((c < 900 ∨ 1800 < c) → exec (.powcapWrite v) s = .next s) ∧
    (s.sys.selfSet = false → id < 2040 → ∃ t : State, exec (.selfidWrite v) s = .next t ∧ t.sys.selfSet = true ∧ t.sys.selfId = id ∧
      ∀ a, a ≠ 0x13000 → t.sys.dev a = s.sys.dev a) ∧
    ((s.sys.selfSet = true ∨ 2040 ≤ id) → exec (.selfidWrite v) s = .next s) ∧
    (∃ t : State, exec (.portEnableWrite p v) s = .next t ∧ (t.sys.dev (portReg p)).getLsbD 0 = v.getLsbD 0 ∧
      (v.getLsbD 0 = true → t.sys.portUp p = s.sys.portUp p) ∧
      (v.getLsbD 0 = false → s.sys.portUp p = true → t.sys.portUp p = false ∧ .port p ∈ t.sys.retraining) ∧
      (t.sys.dev (portReg p)).getLsbD 2 = (s.sys.dev (portReg p)).getLsbD 2 ∧
      ∀ a, a ≠ portReg p → t.sys.dev a = s.sys.dev a) ∧
    ((i < 4 ∨ (s.sys.dev 0x10038).getLsbD 0 = true) → ∃ t : State, exec .mextWrite s = .next t ∧
      SetsDev 0x10038 (s.sys.dev 0x10038 ||| 2) s t) ∧
    (4 ≤ i → (s.sys.dev 0x10038).getLsbD 0 = false → ∃ t : State, exec .mextWrite s = .next t ∧ t.sys.measuring = some (i, m) ∧
      t.sys.dev 0x10038 = s.sys.dev 0x10038 ||| 1 ∧ ∀ k, t.sys.mreg k = s.sys.mreg k) ∧
    (∀ k n, s.sys.measuring = some (k, n) → ∃ t : State, exec .measurementDone s = .next t ∧ t.sys.measuring = none ∧
      t.sys.mreg k = sha384 (s.sys.mreg k ++ n) ∧ (∀ l, l ≠ k → t.sys.mreg l = s.sys.mreg l) ∧
      t.sys.dev 0x10038 = s.sys.dev 0x10038 &&& ~~~1) ∧
    (cap < w.toNat → ∃ t : State, exec (.powerCapExceeded w) s = .next t ∧ t.sys.withheld = true ∧
      t.sys.dev 0x11008 = w.setWidth 64) ∧
    (w.toNat ≤ cap → ∃ t : State, exec (.powerDrawBelowCap w) s = .next t ∧ t.sys.withheld = false ∧
      t.sys.dev 0x11008 = w.setWidth 64) ∧
    (s.sys.booted = false → first.verify room ≠ 0 → second.verify room ≠ 0 → ∃ t : State, exec .boot s = .next t ∧
      SetsDev 0x12000 (wd (0x300 + second.verify room * 0x10000)) s t) ∧
    (s.sys.booted = false → ∀ f, (first.verify room = 0 ∧ f = first ∨
        first.verify room ≠ 0 ∧ second.verify room = 0 ∧ f = second) →
      ∃ t : State, exec .boot s = .next t ∧ t.sys.booted = true ∧ t.sys.ctxBase = Config.bootContextTable.toNat * 0x10000 ∧
        t.sys.mreg 0 = sha384 (s.sys.mreg 0 ++ sha384 (f.signed (imageAt f.header 8 8))) ∧
        t.sys.mreg 1 = sha384 (s.sys.mreg 1 ++ sha384 (Config.bootImage 0)) ∧
        (t.sys.dev 0x12000).getLsbD 8 = decide (first.verify room ≠ 0) ∧
        2 ≤ (t.sys.dev 0x12000).toNat % 256)

/-- R222, R223 and Table 11-5: a command in progress is answered -2 and does nothing where an operand is outside its limits,
or names no normal memory (log entry 52), or its code is not assigned; what each other command does, and what it answers; and its
completion, which sets RES and clears BUSY. The model's choices: a rerun that waits for a link, or whose gang is not placed again at
once, is answered later (log entry 18); a pre-emption of no gang is answered 0 (log entry 34); a launch takes a poisoned descriptor as
its bytes read (log entry 52). -/
def Obligations.CommandsTakeEffect : Prop :=
  ((∀ p ∈ ([(.cmdLaunch, 1, fun k _ => k.a.toNat % 16 ≠ 0 ∨ mainEnd < k.a.toNat + 80),
       (.cmdIncb, 2, fun k _ => 4096 ≤ k.a.toNat), (.cmdRcf, 3, fun k _ => 4096 ≤ k.a.toNat),
       (.cmdSlwb, 4, fun k _ => k.b ≠ 0 ∧ 2 ^ 52 < k.a.toNat + k.b.toNat),
       (.cmdHmsw, 5, fun k _ => 4 ≤ k.a.toNat ∨ k.b = 0),
       (.cmdDeclareFailed, 6, fun k s => agentOf k.a = none ∨ agentOf k.a = some .host ∧ s.sys.hostUp = false),
       (.cmdResumeHart, 7, fun k s => ∀ h, s.namedHart k.a = some h → h.status ≠ .heldInFault),
       (.cmdRetireHart, 8, fun k s => s.namedHart k.a = none), (.cmdPreEmptGang, 9, fun k _ => 256 ≤ k.a.toNat),
       (.cmdReleaseMaster, 10, fun k _ => (Master.ofWord k.a).valid k.a = false),
       (.cmdContextTable, 11, fun k _ => k.a.toNat % 0x10000 ≠ 0),
       (.cmdInterruptHart, 12, fun k s => s.namedHart k.a = none),
       (.cmdRerunGang, 13, fun k s => k.a.toNat < 256 → ∀ g, s.gangOf (k.a.setWidth 8) = some g → k.down = false ∧ g.st ≠ .resident),
       (.cmdFarm, 14, fun k s => k.a.toNat % 16 ≠ 0 ∨ s.sys.normal k.a.toNat 16 = false),
       (.cmdLoadTellers, 15, fun k s => k.a.toNat % 64 ≠ 0 ∨ s.sys.normal k.a.toNat 0x2000 = false ∨ k.b = 0 ∨ 16 ≤ k.b.toNat),
       (.cmdAttest, 16, fun k s => s.sys.normal k.a.toNat 48 = false ∨ k.b.toNat % 64 ≠ 0 ∨ s.sys.normal k.b.toNat 544 = false)] :
       List (Instr × Nat × (CmdRun → State → Prop))), Answers p.1 p.2.1 p.2.2 fun _ _ => -2) ∧
   ∀ s k, s.sys.pendingCmds (fun op => op = 0 ∨ 16 < op) = [k] → exec .cmdUnknown s = .next (s.answerCmd k (-2))) ∧
  (Answers .cmdLaunch 1 (fun k _ => k.a.toNat % 16 = 0 ∧ k.a.toNat + 80 ≤ mainEnd)
     (fun k s => (s.launchAt k.a).2) (fun k s => (s.launchAt k.a).1) ∧
   (∀ s k, s.runs 2 k → k.a.toNat < 4096 →
     let c : BitVec 12 := k.a.setWidth 12
     let new := s.sys.curInc c + 1
     (s.sys.incState c new = .free → ∃ t : State, exec .cmdIncb s = .next (t.answerCmd k (new.setWidth 64)) ∧
       t.sys.curInc c = new ∧ t.sys.incState c new = .live ∧ t.sys.incState c (new - 1) = .sweep) ∧
     (s.sys.incState c new ≠ .free → exec .cmdIncb s = .next s)) ∧
   (∀ s k, s.runs 3 k → k.a.toNat < 4096 → s.sys.sweeping (k.a.setWidth 12) = true → exec .cmdRcf s = .next s) ∧
   Answers .cmdRcf 3 (fun k s => k.a.toNat < 4096 ∧ s.sys.sweeping (k.a.setWidth 12) = false)
     (fun k _ => if k.down then 1 else 0) ∧
   Answers .cmdSlwb 4 (fun k s => k.b ≠ 0 ∧ k.a.toNat + k.b.toNat ≤ 2 ^ 52 ∧ ∀ d, s.slwbWaits d k.a.toNat k.b.toNat = false)
     (fun _ _ => 0) (fun k s => (List.finRange 4).foldl (fun u d => u.slwb d k.a.toNat k.b.toNat) s) ∧
   (∀ s k, s.runs 4 k → k.b ≠ 0 → k.a.toNat + k.b.toNat ≤ 2 ^ 52 → (∃ d, s.slwbWaits d k.a.toNat k.b.toNat = true) →
     exec .cmdSlwb s = .next s) ∧
   Answers .cmdSlwb 4 (fun k _ => k.b = 0) (fun _ _ => 0) ∧
   Answers .cmdHmsw 5 (fun k s => k.a.toNat < 4 ∧ k.b ≠ 0 ∧ s.stuckOn (Fin.ofNat 4 k.a.toNat) = false) (fun _ _ => 0)
     (fun k s => s.hmsw (Fin.ofNat 4 k.a.toNat) k.b) ∧
   (∀ a, Answers .cmdDeclareFailed 6 (fun k s => agentOf k.a = some a ∧ (a = .host → s.sys.hostUp = true)) (fun _ _ => 0)
     (fun _ s => s.declareFailed a)) ∧
   (∀ s k h u, s.runs 7 k → s.namedHart k.a = some h → h.status = .heldInFault →
     s.onHart h.core h.ctx resumeHeld = some u → exec .cmdResumeHart s = .next (u.askAdmission.answerCmd k 0)) ∧
   (∀ s k h u, s.runs 8 k → s.namedHart k.a = some h → s.onHart h.core h.ctx exitHart = some u →
     s.stuckFor h = false →
     exec .cmdRetireHart s = .next (u.answerCmd k 0)) ∧
   (∀ s k, s.runs 9 k → k.a.toNat < 256 → ∃ t : State, exec .cmdPreEmptGang s = .next (t.answerCmd k 0) ∧
     ∀ h ∈ t.harts, h.gang = k.a.setWidth 8 → h.preempt = true) ∧
   (∀ s k, s.runs 10 k → (Master.ofWord k.a).valid k.a = true → ∃ t : State, exec .cmdReleaseMaster s = .next (t.answerCmd k 0) ∧
     t.sys.frozen = s.sys.frozen.filter (· ≠ k.a) ∧
     ∀ h ∈ t.h :: t.rest, h.status = .frozen → t.sys.frozenHart h = true) ∧
   (∀ s k, s.runs 11 k → k.a.toNat % 0x10000 = 0 → (∀ h ∈ s.harts, s.stuckOf h = false) →
     let ring := k.a.toNat + 0x100000
     s.sys.linkWaits ring = false → s.sys.mcHolds ring = false → s.mem.wf = true → s.backed ring 64 = false → s.sys.reports = [] →
     ∃ t : State, exec .cmdContextTable s = .next (t.answerCmd k 0) ∧ t.sys.ctxBase = k.a.toNat ∧
       t.mem.transl = [] ∧ t.mem.ptrs = [] ∧ (∀ h ∈ t.harts, h.xfers = [] ∧ h.ptStores = 0) ∧
       (s.sys.normal ring 64 = true → s.sys.homeLost ring = false → ∀ i < 64, t.mem.curByte (ring + i) = 0)) ∧
   (∀ s k h, s.runs 12 k → s.namedHart k.a = some h → ∃ t : State, exec .cmdInterruptHart s = .next (t.answerCmd k 0) ∧
     ∀ g ∈ t.harts, g.core = h.core → g.ctx = h.ctx → ∃ again, g.irq = some (k.b, again)) ∧
   (∀ s k g, s.runs 13 k → k.a.toNat < 256 → s.gangOf (k.a.setWidth 8) = some g →
     let t := s.rerun g
     let back := ∃ x, t.gangOf g.num = some x ∧ x.st = .resident
     (k.down = false → g.st = .resident → s.rerunWaits g = false →
       (back → exec .cmdRerunGang s = .next (t.answerCmd k 0)) ∧
       (¬back → ∃ u : State, exec .cmdRerunGang s = .next u ∧ u.gangOf g.num = t.gangOf g.num ∧ { k with down := true } ∈ u.sys.cmds)) ∧
     (k.down = true → g.st ≠ .waiting → exec .cmdRerunGang s = .next (s.answerCmd k 0)) ∧
     (k.down = true ∧ g.st = .waiting ∨ k.down = false ∧ g.st = .resident ∧ s.rerunWaits g = true →
       exec .cmdRerunGang s = .next s)) ∧
   (∀ s k, s.runs 14 k → k.a.toNat % 16 = 0 → s.sys.normal k.a.toNat 16 = true → s.sys.homeLost k.a.toNat = false →
     s.mem.wf = true → s.sys.mcHolds k.a.toNat = false → s.sys.linkWaits k.a.toNat = false → s.backed k.a.toNat 16 = false → ∃ t : State, exec .cmdFarm s = .next (t.answerCmd k 0) ∧
       t.mem.curBytes k.a.toNat 16 = natToBytes 8 0 ++ natToBytes 8 k.b.toNat) ∧
   (∀ s k, s.runs 15 k → k.a.toNat % 64 = 0 → s.sys.normal k.a.toNat 0x2000 = true → k.b ≠ 0 → k.b.toNat < 16 →
     s.sys.endsWait k.a.toNat 0x2000 = false →
     ∃ t : State, exec .cmdLoadTellers s = .next (t.answerCmd k 0) ∧ ∀ d : Fin 4, k.b.getLsbD d.val = true →
       t.sys.tellerImage.find? (fun p => p.1 == d) = some (d, (s.readFor k.a.toNat 0x2000).1)) ∧
   (∀ s k, s.runs 16 k → s.sys.normal k.a.toNat 48 = true → k.b.toNat % 64 = 0 → s.sys.normal k.b.toNat 544 = true →
     s.sys.endsWait k.a.toNat 48 = false → s.sys.endsWait k.b.toNat 544 = false → s.sys.mcHoldsN k.b.toNat 544 = false →
     (∀ i < 544, s.sys.homeLost (k.b.toNat + i) = false) → s.backed k.b.toNat 544 = false → s.mem.wf = true → ∃ t : State, exec .cmdAttest s = .next (t.answerCmd k 0) ∧
       t.mem.curBytes k.b.toNat 544 = (
         let m := s.sys.attested (s.readFor k.a.toNat 48).1
         m ++ signed m)) ∧
   ∀ s k v, s.sys.cmds.find? (fun x => x.ans.isSome) = some k → k.ans = some v →
     let b := 0x1000 * k.n.val
     ∃ t : State, exec .commandCompletion s = .next t ∧ t.sys.dev (b + 0x18) = v ∧ (t.sys.dev (b + 0x20)).getLsbD 0 = false ∧
       (t.sys.dev (b + 0x20)).getLsbD 1 = (s.sys.dev (b + 0x20)).getLsbD 1 ∧ (∀ x ∈ t.sys.cmds, x.n ≠ k.n) ∧
       ∀ a, a ≠ b + 0x18 → a ≠ b + 0x20 → t.sys.dev a = s.sys.dev a)

/-- R16, R18, Table 2-3, R15, R19, R22, R20, R200, R26: the Launch Unit admits the first gang in order that can be placed; the
harts of one that starts stand at their places as Table 2-3 says, behind an acquire of their cores, the quarters hold the image, and
gangs that it passes over are counted; the reads of WAITC and the adds to DONE; staging; budgets; forced stops; ageing. The model's
choices (log entry 34): the acquire of the cores, that the image is read at the admission, the order among blocking gangs, and that a
gang which is not placeable is passed over. -/
def Obligations.GangsAreAdmittedAndCounted : Prop :=
  ∀ (s : State) (die : Fin 4) (n : BitVec 8) (c : CoreId) (k : Ctx),
    (s.nextAdmission die = none → exec (.gangAdmission die) s = .next s) ∧
    (∀ g ps, s.nextAdmission die = some (g, ps) → exec (.gangAdmission die) s = .next (s.admitGang g ps) ∧
      g ∈ s.sys.gangs ∧ g.st = .waiting ∧ g.ready = true ∧ g.home = die ∧ s.placeable g = some ps ∧
      ∀ x ∈ s.sys.gangs, x.st = .waiting → x.ready = true → x.home = die → s.placeable x ≠ none →
        x.admittedBefore g = false) ∧
    (∀ g ps, s.nextAdmission die = some (g, ps) → g.stopped = [] → ∃ t hs, exec (.gangAdmission die) s = .next t ∧
      t.h = s.h ∧ t.rest = s.rest ++ hs ∧ hs.length = ps.length ∧ (∀ x ∈ ps.zip hs, StartsAs g x.1 x.2) ∧ t.mem.home = s.mem.home ∧ t.mem.regd = s.mem.regd ∧
      (∀ p ∈ ps, HoldsQuarters s g p.2.1 t.mem ∧ ∀ x ∈ t.mem.l1, x.core ≠ p.2.1) ∧
      (∀ x ∈ s.sys.gangs, ∃ y ∈ t.sys.gangs, y.num = x.num ∧ y.desc = x.desc ∧
        (x.num = g.num → y.st = .resident ∧ y.staged = [] ∧ ∀ p ∈ ps, p ∈ y.places) ∧
        (x.num ≠ g.num → y.st = x.st ∧
          y.passed = if x.st = .waiting ∧ x.ready = true ∧ sharesCore x g = true then x.passed + 1 else x.passed))) ∧
    (s.gangOf n = none → exec (.waitcRead n) s = .next s ∧ exec (.doneAdd n) s = .next s) ∧
    (∀ g p, s.gangOf n = some g → g.st = .waiting → g.ready = false → s.sys.dieLost g.home.val = false →
      unitProbe s needNormalRead g 8 g.desc.waitc.toNat = .ok p → s.sys.homeLost p.pa = false →
      s.backed p.pa 8 = false → anyWord s.mem.curPoison p.pa 8 = false →
      (g.desc.waitn.toNat ≤ s.mem.curNat p.pa 8 → ∃ t : State, exec (.waitcRead n) s = .next t ∧
        t.gangOf n = some { g with ready := true } ∧ Instr.gangAdmission g.home ∈ t.inbox) ∧
      (s.mem.curNat p.pa 8 < g.desc.waitn.toNat → exec (.waitcRead n) s = .next s)) ∧
    (∀ g code, s.gangOf n = some g → g.st = .waiting → g.ready = false → s.sys.dieLost g.home.val = false →
      unitProbe s needNormalRead g 8 g.desc.waitc.toNat = .bad code →
      exec (.waitcRead n) s = .next ((s.report (unitReport g 0 code g.desc.waitc)).discardGang g)) ∧
    (∀ g, s.gangOf n = some g → g.st = .ended → s.sys.dieLost g.home.val = false →
      (g.desc.done = 0 → ∃ t : State, exec (.doneAdd n) s = .next t ∧ t.gangOf n = none ∧ t.mem = s.mem) ∧
      ∀ p, g.desc.done ≠ 0 → unitProbe s needNormalAtomic g 8 g.desc.done.toNat = .ok p → s.sys.homeLost p.pa = false →
        s.backed p.pa 8 = false → s.mem.wf = true → ∃ t : State, exec (.doneAdd n) s = .next t ∧ t.gangOf n = none ∧
          t.mem.curNat p.pa 8 = (s.mem.curNat p.pa 8 + 1) % 2 ^ 64) ∧
    (∀ g x, s.gangOf n = some g → s.nextOn g.home c = some x → x.num = n → c ∉ g.staged → s.sys.dieLost (dieOf c).val = false →
      (∀ x ∈ s.residents c, x.desc.spq &&& g.desc.spq = 0) → (∀ x ∈ s.sys.gangs, c ∉ x.staged) → s.imageWaits g = false →
      ∃ t : State, exec (.gangStaging n c) s = .next t ∧ t.gangOf n = some { g with staged := c :: g.staged } ∧
        HoldsQuarters s g c t.mem) ∧
    (∀ g, s.gangOf n = some g → g.st = .resident → g.desc.budget ≠ 0 → ∃ t : State, exec (.budgetExpiry n) s = .next t ∧
      ∀ h ∈ t.harts, h.gang = n → h.preempt = true) ∧
    (s.h.at c k = true → s.h.preempt = true → s.h.status ≠ .heldInFault → s.h.status ≠ .frozen →
      exec (.forcedStop c k) s = .next ((forceStop s).getD s)) ∧
    (s.h.at c k = true → s.ready s.h = true → ∃ t : State, exec (.ageingPriorityRaise c k) s = .next t ∧ t.h.aged = true)

/-- R199 to R202, R165: a pending pre-emption taken at SETVL, SETVLB or VREST, and a forced stop, write the record of the hart as
Table 10-9 lays it out, free its context, count it as stopped, and end a gang's residence with its last hart; a record that faults
holds the hart in fault. Admitted again, the hart holds what its record saves: after HOW = 1 its vector registers are dead; after
HOW = 2 they wait in the backing area, and the instruction at its pc resumes at the stripe saved. The model's choice: the form of the
open instruction, for which the record has no field, comes from the model's own list of stopped harts (log entry 17). -/
def Obligations.StopRecords : Prop :=
  ∀ (s : State) (g : Gang),
    let base := fun i : Nat => recordBase g.desc i
    let quiet := s.h.xfers = [] ∧ s.h.lost = none ∧ s.sys.reports = [] ∧ s.mem.wf = true ∧ s.gangOf s.h.gang = some g
    let sound := fun fs : List Nat => fs.Nodup ∧ ∀ p ∈ fs, p % 4096 = 0
    let counted := fun (how : Nat) (t : State) => ∃ y me, t.gangOf s.h.gang = some y ∧ y.stopped = g.stopped ++ [me] ∧
      me.index = s.h.index ∧ me.how = how ∧ me.lcn = s.h.lcn ∧
      (g.st = .resident → g.live = g.stopped.length + 1 → y.st = .waiting ∧ y.ready = true) ∧
      ∀ m ∈ t.sys.msgs, ¬(m.gang = s.h.gang ∧ m.receiver = s.h.index)
    let held := fun t : State => t.h.status = .heldInFault ∧ t.h.tval = 0xFFFF ∧ t.h.tcause = Spec.tcause cBacking 0 false
    (∀ (x : Stack) (d a : SReg) (f : Fmt) (n : NregC) (z y w : Fin 5), isSliced f = false →
      ∀ i ∈ [Instr.setvl x d a f n, .setvlb x d f n z y w, .vrest x a], Issues i s → s.h.preempt = true →
        s.h.tvec.getLsbD 1 = false → quiet →
        let frames := recordFrames (s.release .sys) needNormalWrite s.h (base s.h.index) (List.range 256)
        (∀ fs, frames = .ok fs → sound fs → ∃ t : State, exec i s = .next t ∧ t.h.status = .absent ∧
          RecordOf s 1 (RecordView.num ⟨fs.toArray, t.mem⟩) ∧ counted 1 t) ∧
        (frames = .error false → ∃ t : State, exec i s = .next t ∧ held t)) ∧
    (∀ (c : CoreId) (k : Ctx) (w : State), s.h.at c k = true → s.h.preempt = true → s.h.status ≠ .heldInFault →
      s.h.status ≠ .frozen → s.stuck = false → s.h.vp = none → s.heldOf s.h = [] → s.h.ahead = [] → quiet →
      writeBackAll (((s.leaveBarrier s.h).modSys fun y => y.detach s.h).release .sys) = .ok w →
      let frames := recordFrames w needNormalWrite s.h (base s.h.index) (List.range 256)
      (∀ fs, frames = .ok fs → sound fs → ∃ t : State, exec (.forcedStop c k) s = .next t ∧ t.h.status = .absent ∧
        RecordOf s 2 (RecordView.num ⟨fs.toArray, t.mem⟩) ∧ ForcedRecordOf s.h (RecordView.num ⟨fs.toArray, t.mem⟩) ∧
        counted 2 t) ∧
      (frames = .error false → ∃ t : State, exec (.forcedStop c k) s = .next t ∧ held t)) ∧
    ∀ (die : Fin 4) (p : Nat × CoreId × Ctx) (r : Stopped) (fs : List Nat) (f : Fmt) (n : NregC),
      let num := RecordView.num ⟨fs.toArray, s.mem⟩
      s.nextAdmission die = some (g, [p]) → g.stopped.find? (fun r => r.index == p.1) = some r →
      recordFrames s needNormalRead (freshHart s g p.1 p.2.1 p.2.2) (base p.1) (List.range 256) = .ok fs →
      vtypeFields (num 0x248 8) = some (f, n) →
      ∃ (t : State) (h : Hart), exec (.gangAdmission die) s = .next t ∧ t.rest = s.rest ++ [h] ∧ h.at p.2.1 p.2.2 = true ∧
        h.gang = g.num ∧ h.index = p.1 ∧ h.cid = g.cid ∧ h.inc = g.inc ∧ RestoredFrom num f n h ∧
        (∃ ms, t.sys.msgs = ms ++ s.sys.msgs ∧ ms.length = min 8 (num 0x16 1)) ∧
        (MvlC.ofCode (num 0x13 1) = none → h.mvl = none ∧ h.status = .running) ∧
        (∀ l, MvlC.ofCode (num 0x13 1) = some l →
          let busy := s.unitHeld p.2.1 || (s.onCore p.2.1).any Hart.waitsUnit
          (busy = true → h.status = .stalled (.reclaim l)) ∧ (busy = false → h.mvl = some l ∧ h.status = .running) ∧
          ∀ j < 4096, (lookupD 0 j h.cells).toNat = num (0x15000 + 4 * j) 4) ∧
        (r.how ≠ 2 → h.lcs = 0 ∧ h.vregs = [] ∧ h.queues = Vector.replicate 4 [] ∧ h.opened = none ∧ h.resume = none) ∧
        (r.how = 2 → h.lcs = takeLow (s.freeLcs p.2.1) r.lcn ∧
          (∀ (v : VReg) (l : Fin 8), v.val < h.nreg → h.lcs.getLsbD l.val = true → (v, l) ∈ h.offChip) ∧
          (∀ (k : KReg) (j : Nat), j < 2048 → (h.scale k j).toNat = num (0x11000 + 2048 * k.val + j) 1) ∧
          (∀ (q : Fin 4) (j : Nat), j < min 4 (num 0x14 2 / 16 ^ q.val % 16) → ∃ x, h.queues[q][j]? = some x ∧
            ∀ e < h.vl, (x.elems.getD e (0, 0)).1 =
              num (0x20000 + (4 * q.val + j) * 0x8000) 0x8000 / 2 ^ (width f * e) % 2 ^ width f) ∧
          (r.opened = none → h.opened = none) ∧
          (∀ o, r.opened = some o → ∃ o', h.opened = some o' ∧ o'.instr = o.instr ∧ o'.stripe = h.tstripe.toNat) ∧
          (num 0x10 2 = 0xFFFF → h.resume = none) ∧
          (num 0x10 2 ≠ 0xFFFF → ∀ i len, decodeFor (isSliced h.fmt) (fetchBytes { s with h := h } 18 h.pc.toNat) = .ok (i, len) →
            ∃ o, h.resume = some o ∧ o.instr = i ∧ o.pc = h.pc ∧ o.stripe = num 0x10 2))

/-- R105, R103, R33, R57, R109, R193, R214, R165, R355, R138, R139: the power of lane clusters, refills, stripes, retirements,
interrupts, violations, wakes, arrivals and handlers, for a hart in focus. The model's choices: a held form that does more than write
the hart's own registers makes its effect in a step of its own, once it is due (log entry 23); the points at which an interrupt is
taken (log entry 25). -/
def Obligations.CoresTakeTheirSteps : Prop :=
  ∀ (s : State) (c : CoreId) (l : Fin 8) (k : Ctx),
    let powered := fun (p : Power) (t : State) => (t.coreOf c).power[l] = p ∧
      ∀ j : Fin 8, j ≠ l → (t.coreOf c).power[j] = (s.coreOf c).power[j]
    ((s.coreOf c).power[l] = .on → ∃ t : State, exec (.lcOnToRetention c l) s = .next t ∧ powered .retention t ∧
      t = { s with cores := t.cores }) ∧
    (∀ h, (s.coreOf c).power[l] ≠ .on → s.holder c l = some h → h.status = .running → s.usesLanes h = true →
      ∃ t : State, exec (.laneClusterWake c l) s = .next t ∧ powered .on t ∧ t = { s with cores := t.cores }) ∧
    ((s.holder c l = none ∨ ∃ h, s.holder c l = some h ∧ s.usesLanes h = false) → exec (.laneClusterWake c l) s = .next s) ∧
    ((s.coreOf c).power[l] = .retention → s.holder c l = none → ∃ t : State, exec (.lcRetentionToOff c l) s = .next t ∧
      powered .off t ∧ t = { s with cores := t.cores }) ∧
    (∀ h m off, (s.coreOf c).power[l] = .retention → s.holder c l = some h → h.idles = true →
      writeBackLc s h l = .ok (m, off) → ∃ t : State, exec (.lcRetentionToOff c l) s = .next t ∧ powered .off t ∧ t.mem = m ∧
        ∀ x ∈ t.harts, x.at h.core h.ctx = true → ∀ q ∈ off, q ∈ x.offChip) ∧
    (s.h.at c k = true →
      (∀ v u, (∃ j, (v, j) ∈ s.h.offChip) → refill s v = .ok u → exec (.registerRefill c k v) s = .next u) ∧
      (∀ d, (s.heldOf s.h).head? = some d → d.due = false → d.fifo.all s.h.hasPlace = true →
        (d.external = true → ∃ t : State, exec (.instructionRetirement c k) s = .next t ∧ { d with due := true } ∈ t.held) ∧
        (d.external = false → ∃ t : State, exec (.instructionRetirement c k) s = .next t ∧ t.held = s.held.erase d ∧
          ∀ f, d.fifo = some f → f < 25 → t.h.tokens.getD f 0 = s.h.tokens.getD f 0 + 1)) ∧
      (∀ v again, s.h.interruptible = true → s.takable s.h = true → s.h.irq = some (v, again) →
        ∃ t : State, exec (.interruptTaken c k) s = .next t ∧ t.h.status = .running ∧ t.h.pc = s.h.tvec &&& ~~~3 ∧
          t.h.tvec = s.h.tvec ||| 2 ∧ t.h.tpc = s.h.pc &&& ~~~1 ∧ t.h.tval = v ∧ t.h.irq = none ∧
          t.h.tcause = Spec.tcause cInterrupt (if again then 1 else 0) false) ∧
      (∀ x, s.h.status = .stalled (.monitor x) → ∃ t : State, exec (.monitorWake c k) s = .next t ∧
        t.h.status = .running ∧ t.h.monitor = none ∧ t.h.pc = s.h.pc + wd x.len)) ∧
    (∀ w a, (Master.ofWord w).valid w = true →
      ((Master.ofWord w).kind ≤ 2 → s.h.at (Master.ofWord w).number (Fin.ofNat 8 (Master.ofWord w).ctx) = true →
        ∃ t : State, exec (.protectionViolation w a) s = .next t ∧ w ∈ t.sys.frozen ∧ t.h.status = .heldInFault ∧
          t.h.tval = a ∧ t.h.tpc = s.h.pc &&& ~~~1 ∧
          t.h.tcause = Spec.tcause cProtection (Master.ofWord w).kind false) ∧
      (2 < (Master.ofWord w).kind → ∃ t : State, exec (.protectionViolation w a) s = .next t ∧ w ∈ t.sys.frozen)) ∧
    (∀ x d a m v n, let i := Instr.xrecv x d a
      let u := { s with h := { s.h with status := .running } }
      s.h.at c k = true → s.h.status = .stalled .retry →
      decodeFor (isSliced s.h.fmt) (fetchBytes s 18 s.h.pc.toNat) = .ok (i, n) → Issues i u → s.gangOf s.h.gang = some v → Clean [a] s → s.readN a < v.desc.harts.toNat → s.readN a ≠ s.h.index →
      (∀ p ∈ v.places, p.1 = s.readN a → podOf p.2.1 = podOf s.h.core ∧ p.2.1 ≠ s.h.core) → d.val < s.h.nreg →
      s.h.offChip = [] → s.sys.msgs.find? (fun m => decide (m.gang = s.h.gang ∧ m.receiver = s.h.index ∧
        m.sender = s.readN a)) = some m →
      exec (.xrecvMessageArrival c k) s = passes i u fun t =>
        (t.wakeLanes.modSys fun y => { y with msgs := y.msgs.erase m }).modH fun h =>
          h.putCells ((m.data.filter fun c => c.key / 128 < 8 * h.lcn && c.key % 128 < h.blockWords).map fun c =>
            { c with key := 8192 * d.val + c.key })) ∧
    (∀ z m, s.sys.nextMsg z = some m →
      let taken := { s with sys := { s.sys with tellerQ := s.sys.tellerQ.erase m } }
      (s.sys.msgStale m = true → exec (.tellerHandlerRun z) s = .next taken) ∧
      (∀ r, s.sys.msgStale m = false → runHandler taken m = some r →
        exec (.tellerHandlerRun z) s = .next r.1 ∧ r.1.sys.tellerQ = s.sys.tellerQ.erase m ∧
        (r.2.1 = -1 → exec (.handlerAbort z) s = .next r.1)) ∧
      (s.sys.msgStale m = false → runHandler taken m = none → exec (.tellerHandlerRun z) s = .next s)) ∧
    (∀ x d a b m sc n (u v : Nat → Nat), let i := Instr.vadd x d a b m sc
      let p := s.h.src1 x a
      let q := s.h.src2 x b sc
      let y := s.h.layout
      let es := s.h.on m (maskInv x)
      let o := s.h.operands y (s.h.regsOf p ++ s.h.regsOf q)
      let now := es.filter fun e => y.stripe e = 0
      s.h.at c k = true → decodeFor (isSliced s.h.fmt) (fetchBytes s 18 s.h.pc.toNat) = .ok (i, n) →
      fetchPoison s ((n + 1) / 2) s.h.pc.toNat = none → Issues i s → VecReady x (isArith s.h.fmt) (d :: (p.reg? ++ q.reg?)) [m] s → s.h.filled (queuesOf p q) →
      s.h.maskClean m → (∃ e ∈ es, y.stripe e ≠ 0) →
      (∀ e ∈ es, (o.read p e).gives (u e) ∧ (o.read q e).gives (v e) ∧ (fVadd s.h (u e) (v e) 0).2 &&& s.h.enables = 0) →
      ∃ t : State, exec (.stripeIssue c k) s = .next t ∧ t.h.pc = s.h.pc ∧ t.h.status = .running ∧
        (∃ z, t.h.resume = some z ∧ z.instr = i ∧ z.stripe = 1) ∧
        t.h.vregs = (putReg d y (now.map fun e => (e, (fVadd s.h (u e) (v e) 0).1, 0, false)) s.h).vregs)

/-- R175, R180, R185, R186, R167: walks, page-sorting rounds, invalidations and completed PT stores. R126, R127, R128, R121: words
register, reads are forwarded, answered or made to wait, misses are filled, answers arrive, and words are written back. That an
answer which a later write has overtaken is dropped is the model's choice (log entry 13). R125, R183: a word registers at the slice
that its leaf's SKEW chooses. -/
def Obligations.SlicesTakeTheirSteps : Prop :=
  ∀ (s : State) (c : CoreId) (k : Ctx) (sl : Fin 512) (pa : Nat) (skew : Fin 3),
    let w := wordAt pa
    let answer := fun (r : ReadReq) (v : BitVec 32 × Bool) (t : State) =>
      t.mem.answers = s.mem.answers ++ [⟨⟨r.core, w, v.1, v.2⟩, r.tag⟩]
    let latest := (s.mem.curWord w, s.mem.curPoison w)
    let sound := s.sys.homeLost pa = false ∧ s.sys.homeLost w = false ∧ s.backed w 4 = false
    let fresh := fun r : ReadReq => s.sys.staleAt r.core r.tag = false
    (∀ cid (va : Word), canonical va.toNat = true → ∃ t : State, exec (.translationWalk c cid va) s = .next t ∧
      t = { s with mem := { s.mem with transl := t.mem.transl, ptrs := t.mem.ptrs } } ∧
      (∀ q e size ps, walkBy s c cid va.toNat = .leaf q e size ps →
        t.mem.leafHeld (.tlb c) cid va.toNat = some ⟨.tlb c, cid, va.toNat / size, e, size, ps⟩) ∧
      (∀ q e size ps, walk s cid va.toNat = .leaf q e size ps →
        t.mem.leafHeld (.engine (tileOf c)) cid va.toNat = some ⟨.engine (tileOf c), cid, va.toNat / size, e, size, ps⟩) ∧
      (walkBy s c cid va.toNat = .fault → ∀ x, x.agent = .tlb c → (x ∈ t.mem.transl ↔ x ∈ s.mem.transl)) ∧
      (s.mem.pointer c cid va.toNat = none → ∀ x ∈ walkTables s cid va.toNat,
        (⟨c, cid, x.1, upperBits va.toNat x.1, x.2.1, x.2.2⟩ : WalkPtr) ∈ t.mem.ptrs)) ∧
    (∀ h pages, s.harts.find? (fun x => x.at c k) = some h → pages.length ≤ 64 → pages.Nodup →
      (∀ p ∈ pages, canonical (4096 * p) = true) → ∃ t : State, exec (.pageSortingRound c k pages) s = .next t ∧
        t = { s with mem := { s.mem with transl := t.mem.transl } } ∧
        ∀ x, x ∈ t.mem.transl ↔ x ∈ s.mem.transl ∧ x.agent ≠ .sorter c ∨ ∃ p ∈ pages, ∃ q e size ps,
          translate s c h.cid (4096 * p) = .leaf q e size ps ∧ x = ⟨.sorter c, h.cid, 4096 * p / size, e, size, ps⟩) ∧
    (pa % 64 = 0 → (∀ h ∈ s.harts, tileOf h.core = tileOf c → s.stuckFor h = false) →
      ∃ t : State, exec (.tlbInvalidationAck c pa) s = .next t ∧ (∀ x ∈ t.mem.transl, x.agent ∈ agentsOf c → pa ∉ x.pieces) ∧
        (∀ x ∈ t.mem.ptrs, x.core = c → pa ∉ x.pieces) ∧ ∀ h ∈ t.harts, tileOf h.core = tileOf c → h.xfers = []) ∧
    (s.h.at c k = true → s.owesAcks s.h = true → (∀ h ∈ s.harts, s.stuckOf h = false) → ∃ t : State,
      exec (.ptStoreCompletion c k) s = .next t ∧ t.mem.transl = [] ∧ t.mem.ptrs = [] ∧ t.mem.unacked = false ∧
      ∀ h ∈ t.harts, h.ptStores = 0 ∧ h.xfers = []) ∧
    (∀ h v be, s.harts.find? (fun x => x.at c k) = some h → h.status ≠ .frozen → pa % 4 = 0 → be ≠ 0 → s.sys.holds pa = true →
      homeAgent pa ≠ some .device → s.sys.linkWaits pa = false → s.sys.mcHolds pa = false → sound →
      ∃ t : State, exec (.wordRegistration c k ⟨pa, skew⟩ v be) s = .next t ∧
        (∀ i < 4, byteOf (t.mem.curWord pa) i = if be.getLsbD i then byteOf v i else byteOf (s.mem.curWord pa) i) ∧
        (∃ r, t.mem.reg pa = some r ∧ r.core = h.core ∧ r.cid = h.cid ∧ r.inc = h.inc ∧ r.skew = skew) ∧
        ∀ a, wordAt a ≠ pa → t.mem.reg a = s.mem.reg a) ∧
    (∀ h, s.harts.find? (fun x => x.at c k) = some h → h.status ≠ .frozen → s.sys.holds pa = true →
      homeAgent pa ≠ some .device → s.mem.copy c pa = none →
      let r : ReadReq := ⟨c, w, s.tagOf h⟩
      let slice := s.sliceOf c skew pa
      let known := (slice, pieceOf pa) ∈ s.mem.misses
      let room := s.missRoom slice pa = true ∧ (known ∨ ∀ x ∈ s.mem.waiting, x.1 = slice → s.leavingAt slice x.2.pa = true)
      (∀ q, s.mem.reg pa = some q → q.core ≠ c → exec (.sliceRead ⟨c, k⟩ ⟨pa, skew⟩) s =
        .next { s with mem := { s.mem with forwards := s.mem.forwards ++ [r] } }) ∧
      (s.mem.reg pa = none → sound → fresh r → s.mem.sliceHas c pa = true →
        ∃ t : State, exec (.sliceRead ⟨c, k⟩ ⟨pa, skew⟩) s = .next t ∧ answer r latest t) ∧
      (s.mem.reg pa = none → sound → s.mem.sliceHas c pa = false →
        (room → ∃ t : State, exec (.sliceRead ⟨c, k⟩ ⟨pa, skew⟩) s = .next t ∧ (slice, pieceOf pa) ∈ t.mem.misses ∧
          t.mem.missReads = s.mem.missReads ++ [(slice, r)]) ∧
        (¬room → exec (.sliceRead ⟨c, k⟩ ⟨pa, skew⟩) s =
          .next { s with mem := { s.mem with waiting := s.mem.waiting ++ [(slice, r)] } }))) ∧
    (∀ f r, s.mem.forwards.find? (fun f => f.pa == w) = some f → s.mem.reg pa = some r → r.core = c → s.backed w 4 = false →
      fresh f → ∃ t : State, exec (.readForward c pa) s = .next t ∧ answer f (r.val, r.poison) t ∧
        t.mem.forwards = s.mem.forwards.erase f) ∧
    (∀ f, s.mem.forwards.find? (fun f => f.pa == w) = some f → s.mem.reg pa = none → sound → fresh f →
      ∃ t : State, exec (.readForward c pa) s = .next t ∧ answer f latest t ∧ t.mem.forwards = s.mem.forwards.erase f) ∧
    (∀ x, s.mem.waiting.find? (fun x => x.1 == sl && !s.leavingAt sl x.2.pa) = some x → s.missRoom sl x.2.pa = true →
      ∃ t : State, exec (.missTableAdmission sl) s = .next t ∧ t.mem.waiting = s.mem.waiting.erase x ∧
        (fresh x.2 → (sl, pieceOf x.2.pa) ∈ t.mem.misses ∧ t.mem.missReads = s.mem.missReads ++ [(sl, x.2)]) ∧
        (¬fresh x.2 → t.mem.misses = s.mem.misses ∧ t.mem.missReads = s.mem.missReads)) ∧
    ((sl, pa) ∈ s.mem.misses → s.sys.linkWaits pa = false → ∃ t : State, exec (.missFillAnswer sl pa) s = .next t ∧
      t.mem.misses = s.mem.misses.erase (sl, pa) ∧
      ∀ x ∈ s.mem.missReads, if x.1 = sl ∧ pieceOf x.2.pa = pa
        then x ∉ t.mem.missReads ∧ (fresh x.2 → t.mem.sliceHas x.2.core x.2.pa = true ∧
          ∃ y ∈ t.mem.answers, y.tag = x.2.tag ∧ y.copy.core = x.2.core ∧ y.copy.pa = wordAt x.2.pa)
        else x ∈ t.mem.missReads) ∧
    (∀ x, s.mem.answers.find? (fun x => x.copy.core == c && x.copy.pa == w) = some x →
      let stands := s.sys.staleAt c x.tag = false ∧ (∀ r, s.mem.reg pa = some r → r.core ≠ c) ∧
        x.copy.val = s.mem.curWord pa ∧ x.copy.poison = s.mem.curPoison pa
      ∃ t : State, exec (.responseArrival c pa) s = .next t ∧ t.mem.answers = s.mem.answers.erase x ∧
        (stands → t.mem.copy c pa = some x.copy) ∧ (¬stands → t.mem.l1 = s.mem.l1)) ∧
    (∀ a, s.mem.answers.find? (fun x => x.copy.core == c && x.copy.pa == w) = none →
      s.mem.homeAnswers.find? (fun a => a.1 == c) = some a → exec (.responseArrival c pa) s =
        .next { s with mem := { s.mem with homeAnswers := s.mem.homeAnswers.erase a } }) ∧
    ∀ r, s.mem.reg pa = some r → r.core = c → s.mem.wf = true →
      (r.leaving = false → s.mem.regd.countP (fun x => x.leaving && s.sliceOf x.core x.skew x.pa == s.sliceOf c r.skew r.pa) < 16 →
        ∃ t : State, exec (.writeBack c pa) s = .next t ∧ t.mem.reg pa = some { r with leaving := true } ∧
          (∀ a, wordAt a ≠ w → t.mem.reg a = s.mem.reg a) ∧ t.mem.home = s.mem.home) ∧
      (r.leaving = true → s.sys.linkWaits pa = false → s.sys.mcHolds pa = false → s.sys.homeLost pa = false →
        ∃ t : State, exec (.writeBack c pa) s = .next t ∧ t.mem.reg pa = none ∧
          (∀ a, wordAt a ≠ w → t.mem.reg a = s.mem.reg a) ∧ ∀ a, t.mem.curByte a = s.mem.curByte a)

/-- R130, R131, R149: a write packet applies whole at its home and ends the copies of every other sharer. R161, R278, R279, R38, R37:
atomics, claims and farms at their homes. R82, R115, R117: elements, progress words and transfers. R135, R143: multicast. The
model's choices: a control core's write completes as a PT store does (log entry 41); the pieces that an open entry holds, and a header
that comes behind the last beat (log entry 36). -/
def Obligations.HomesTakeTheirSteps : Prop :=
  ∀ (s : State) (c : CoreId) (k : Ctx) (pa : Nat), s.mem.wf = true →
    let open_ := pa < mainEnd ∧ s.sys.mcHolds pa = false ∧ s.sys.homeLost pa = false
    (∀ a tag bs, bs ≠ [] → pieceOf (pa + bs.length - 1) = pieceOf pa → pa < mainEnd →
      let good := a ∉ s.sys.failed ∧ s.sys.homeLost pa = false ∧ s.sys.staleFrom a tag = false
      (¬good → exec (.homeWriteApply ⟨a, tag⟩ pa bs) s = .next s) ∧
      (good → s.sys.mcHoldsN pa bs.length = false → s.backed pa bs.length = false →
        ((∀ d, a ≠ .hdie d) → ∃ t : State, exec (.homeWriteApply ⟨a, tag⟩ pa bs) s = .next t ∧
          (∀ i < bs.length, t.mem.curByte (pa + i) = bs.getD i 0) ∧
          (∀ x, (x < pa ∨ pa + bs.length ≤ x) → t.mem.curByte x = s.mem.curByte x) ∧
          ((∀ r ∈ s.mem.regd, r.pa + 4 ≤ pa ∨ pa + bs.length ≤ r.pa) →
            ∀ q, q ∈ t.mem.sharers ↔ q ∈ s.mem.sharers ∧ (meets q.2 pa bs.length = false ∨ q.1 = a))) ∧
        (∀ d, a = .hdie d → (∀ h ∈ s.harts, s.stuckOf h = false) → ∃ t : State,
          exec (.homeWriteApply ⟨a, tag⟩ pa bs) s = .next t ∧ (∀ i < bs.length, t.mem.curByte (pa + i) = bs.getD i 0) ∧
          t.mem.transl = [] ∧ t.mem.ptrs = [] ∧ ∀ h ∈ t.harts, h.xfers = [] ∧ h.ptStores = 0))) ∧
    (∀ a p, ∃ t : State, exec (.sharerInvalidation a p) s = .next t ∧
      ∀ q, q ∈ t.mem.sharers ↔ q ∈ s.mem.sharers ∧ q ≠ (a, p)) ∧
    (∀ h, s.harts.find? (fun x => x.at c k) = some h → h.status ≠ .frozen → open_ →
      (∀ z (b : Word), pa % szBytes z = 0 → s.backed pa (szBytes z) = false →
        let n := szBytes z
        let old := s.mem.curNat pa n
        (∀ o, ∃ t : State, exec (.homeAtomic ⟨c, k⟩ (.amo o) z pa b) s = .next t ∧
          t.mem.curNat pa n = (Spec.amo o (BitVec.ofNat (8 * n) old) (b.setWidth (8 * n))).toNat ∧
          t.mem.homeAnswers = s.mem.homeAnswers ++ [(c, wd old, s.tagOf h)]) ∧
        ∀ e : Word, ∃ t : State, exec (.homeAtomic ⟨c, k⟩ (.cas e) z pa b) s = .next t ∧
          t.mem.curNat pa n = (if old = e.toNat % 2 ^ (8 * n) then b.toNat % 2 ^ (8 * n) else old) ∧
          t.mem.homeAnswers = s.mem.homeAnswers ++ [(c, wd old, s.tagOf h)]) ∧
      (∀ req : Word, pa % 16 = 0 → s.backed pa 16 = false → req ≠ 0 → h.lcs ≠ 0 →
        let next := s.mem.curNat pa 8
        let total := s.mem.curNat (pa + 8) 8
        let grant := min (min req.toNat (h.lcn * 262144 / (2 * h.nreg * width h.fmt))) (total - next)
        ∃ t : State, exec (.claimService c k pa req) s = .next t ∧ t.mem.curNat pa 8 = (next + grant) % 2 ^ 64 ∧
          t.mem.curNat (pa + 8) 8 = total ∧ t.mem.homeAnswers = s.mem.homeAnswers ++ [(c, wd next, s.tagOf h)]) ∧
      (∀ total : Word, pa % 16 = 0 → s.backed pa 16 = false → s.stuckFor h = false → ∃ t : State, exec (.farmWrite ⟨⟨c, k⟩, pa⟩ total) s = .next t ∧
          t.mem.curBytes pa 16 = natToBytes 8 0 ++ natToBytes 8 total.toNat ∧
          ∀ x ∈ t.mem.l1, x.core = c → pieceOf x.pa ≠ pieceOf pa)) ∧
    (s.h.at c k = true →
      (∀ before x behind, firstXfer (fun k => k != .vred) s.h.xfers = some (before, x, behind) → x.elems ≠ [] →
        (x.kind.engine = true → s.engineFrozen s.h = false) → (∀ e ∈ x.elems, s.sys.elemWaits e = false) →
        let u := x.elems.foldl (performElem s.h) s
        ∃ t : State, exec (.copyEngineTransfer c k) s = .next t ∧
          (x.notify = none → t.mem = u.mem ∧ t.h.xfers = before ++ behind) ∧
          ∀ n, x.notify = some n →
            let owed : Notify := { n with pending := n.pending + x.elems.length }
            (u.mayAdd before u.h owed = true → t.mem = (notifyXfer u.h u owed owed.pending).mem ∧ t.h.xfers = before ++ behind) ∧
            (u.mayAdd before u.h owed = false → t.mem = u.mem ∧
              t.h.xfers = before ++ [{ x with elems := [], notify := some owed }] ++ behind)) ∧
      (∀ before x e es behind, firstXfer (fun k => k == .vred) s.h.xfers = some (before, x, behind) → x.elems = e :: es →
        s.sys.elemWaits e = false → ∃ t : State, exec (.vredElementAdd c k) s = .next t ∧ t.mem = (performElem s.h s e).mem ∧
          t.h.xfers = before ++ (if es = [] then [] else [{ x with elems := es }]) ++ behind) ∧
      (∀ x xs n, s.h.xfers = x :: xs → x.notify = some n → n.pending ≠ 0 → s.mayAdd [] s.h n = true →
        ∃ t : State, exec (.progressWordAdd c k) s = .next t ∧
          t.mem = (notifyXfer s.h s n n.pending).mem ∧
          t.h.xfers = (if x.elems = [] then [] else [{ x with notify := some { n with pending := 0 } }]) ++ xs) ∧
      (∀ x d a b m len p, let i := Instr.vldm x d a b m
        let u := { s with h := { s.h with status := .running } }
        let on := s.h.on m (maskInv x)
        let v := acqOf x (issued i u).wakeLanes
        let parts := mcParts v (s.readN a) (width s.h.fmt) (BitVec.ofNat 16 (s.readN b))
          (on.map fun e => ((⟨e, (unitAt a s e).1, (unitAt a s e).2⟩ : Acc), p e))
        (s.h.status = .running ∨ s.h.status = .stalled .retry) →
        decodeFor (isSliced s.h.fmt) (fetchBytes s 18 s.h.pc.toNat) = .ok (i, len) →
        Issues i u → VecReady x (s.readN b < 65536 && (s.readN b).testBit (s.h.core.val % 16)) [d] [m] u → Clean [a, b] s →
        s.h.maskClean m → Placed needNormalRead (elemAlign s.h.fmt) on (unitAt a s) p u → parts ≠ [] →
        ∃ t got, exec (.multicastHeader c k) s = .next t ∧ t.h.status = .stalled (.beats got) ∧ got.parts = parts ∧
          got.got = [] ∧ t.h.pc = s.h.pc ∧ t.h.tokens = s.h.tokens ∧
          t.sys.mc = (parts.foldl (State.openPart c k) v).sys.mc)) ∧
    ∀ part : McPart,
      ((∀ e ∈ s.sys.mc, e.part ≠ part) → exec (.multicastBeatSend part) s = .next s ∧
        (State.openPart c k s part).sys.mc = s.sys.mc ++ [⟨part, s.gather part.key, 0, [(c, k, 0)], []⟩]) ∧
      ∀ e, s.sys.mc.find? (fun e => e.part == part) = some e →
        (∃ f ∈ (State.openPart c k s part).sys.mc, f.part = part ∧ f.bytes = e.bytes ∧ f.next = e.next ∧
          f.attached = e.attached ++ [(c, k, e.next)]) ∧
        (e.next + 1 < e.beats → ∃ t : State, exec (.multicastBeatSend part) s = .next t ∧
          { e with next := e.next + 1 } ∈ t.sys.mc ∧
          ∀ v, s.h.status = .stalled (.beats v) → e.attached.countP (fun a => s.h.at a.1 a.2.1) = 1 →
            t.h.status = .stalled (.beats { v with got := v.got ++ (e.bytes.drop (128 * e.next)).take 128 })) ∧
        (∀ v, e.next + 1 = e.beats → e.attached = [(s.h.core, s.h.ctx, 0)] → e.replay = [] → s.h.status = .stalled (.beats v) →
          v.parts = [part] → ∃ t : State, exec (.multicastBeatSend part) s = .next t ∧ t.h.status = .running ∧
            t.h.pc = s.h.pc + wd v.x.len ∧ (∀ f ∈ t.sys.mc, f.part ≠ part) ∧
            t.h.vregs = (deliverLoad v.x v.d (Mcast.values { v with got := v.got ++ (e.bytes.drop (128 * e.next)).take 128 }
              s.tick (width s.h.fmt)) s.h).vregs) ∧
        (∀ p q ps, e.beats ≤ e.next → e.replay = p :: q :: ps → ∃ t : State, exec (.multicastBeatSend part) s = .next t ∧
          ∃ f ∈ t.sys.mc, f.part = part ∧ f.bytes = e.bytes ∧ f.next = e.next ∧ f.replay = q :: ps) ∧
        (e.beats ≤ e.next → e.replay = [] → ∃ t : State, exec (.multicastBeatSend part) s = .next t ∧
          ∀ f ∈ t.sys.mc, f.part ≠ part)

/-- R142, R143, R145, R149 to R151, R205, R214 to R216, R219 to R221, R229: the steps of the module at its edge. The model's choices:
a change of an incarnation adds 1 to the number that the port holds, and the corners of sweeps and links (log entry 36); the steps that
are passed over (log entry 40). -/
def Obligations.TheEdgeTakesItsSteps : Prop :=
  ∀ (s : State) (p : Fin 32) (a : Agent) (l : Link),
    (∀ cid, s.sys.portUp p = true → .port p ∉ s.sys.retraining → ∃ t : State, exec (.incarnationChange p cid) s = .next t ∧
      t.sys.portInc p cid = s.sys.portInc p cid + 1 ∧
      (∀ q d, (q ≠ p ∨ d ≠ cid) → t.sys.portInc q d = s.sys.portInc q d) ∧
      ∀ m, m ∈ t.sys.tellerQ ↔ m ∈ s.sys.tellerQ ∧ ¬((∃ o, m.port = some (p, o)) ∧ m.cid = cid ∧ m.inc = s.sys.portInc p cid)) ∧
    (∀ ck cid inc w, s.sys.sweeps.find? (fun w => w.cid == cid && w.inc == inc) = some w → ck ∈ w.pending →
      let clear := s.absorb ck cid inc
      let silent := s.sys.canReport ck = false ∨ clear.holdsInc ck cid inc = true
      (silent → exec (.sweepReport ck cid inc) s = .next clear) ∧
      (¬silent → w.pending.erase ck ≠ [] → ∃ t : State, exec (.sweepReport ck cid inc) s = .next t ∧ t.mem = clear.mem ∧
        { w with pending := w.pending.erase ck } ∈ t.sys.sweeps) ∧
      (¬silent → w.pending.erase ck = [] → ∃ t : State, exec (.sweepReport ck cid inc) s = .next t ∧
        t.sys.incState cid inc = .free ∧ ∀ x ∈ t.sys.sweeps, ¬(x.cid = cid ∧ x.inc = inc))) ∧
    (∀ c cid inc, let clear := (s.absorb (.core c) cid inc).mem
      (∀ x, x ∈ clear.answers ↔ x ∈ s.mem.answers ∧ ¬(x.copy.core = c ∧ x.tag.cid = cid ∧ x.tag.inc = inc)) ∧
      ∀ x, x ∈ clear.homeAnswers ↔ x ∈ s.mem.homeAnswers ∧ ¬(x.1 = c ∧ x.2.2.cid = cid ∧ x.2.2.inc = inc)) ∧
    (∀ sl cid inc, let clear := (s.absorb (.slice sl) cid inc).mem
      (∀ x, x ∈ clear.missReads ↔ x ∈ s.mem.missReads ∧ ¬(x.1 = sl ∧ x.2.tag.cid = cid ∧ x.2.tag.inc = inc)) ∧
      ∀ x, x ∈ clear.waiting ↔ x ∈ s.mem.waiting ∧ ¬(x.1 = sl ∧ x.2.tag.cid = cid ∧ x.2.tag.inc = inc)) ∧
    (((∃ d, a = .cdie d) ∨ ∃ d, a = .hdie d) →
      exec (.dieLossReport a) s = .next (s.declareFailed a) ∧ exec (.junctionOverTemperature a) s = .next (s.declareFailed a)) ∧
    (a ∉ s.sys.failed → a ∈ (s.declareFailed a).sys.failed ∧
      (∀ x ∈ (s.declareFailed a).mem.sharers, x.1 ≠ a ∧ homedAt a x.2 = false) ∧
      ∀ e ∈ (s.declareFailed a).sys.mc, homedAt a e.part.key.base = false) ∧
    (a ∈ s.sys.failed → s.declareFailed a = s) ∧
    (a ∈ s.sys.failed → (∀ q d, a = .peer q d → s.sys.linkUp (.port q) = true ∧ (q, d) ∈ s.sys.peers) →
      (a = .host → s.sys.linkUp .host = true) →
      (s.leftOf a = true → exec (.agentRejoin a) s = .next s) ∧
      (s.leftOf a = false → ∃ t : State, exec (.agentRejoin a) s = .next t ∧ a ∉ t.sys.failed ∧
        t.sys.joinOf a = s.sys.joinOf a + 1)) ∧
    (∀ x ∈ s.mem.sharers, x.1 = a → s.leftOf a = true) ∧
    (∀ d, (∃ r ∈ s.mem.regd, dieOf r.core = d) ∨ (∃ x ∈ s.mem.l1, dieOf x.core = d) ∨ (∃ h ∈ s.harts, dieOf h.core = d) →
      s.leftOf (.cdie d) = true) ∧
    (s.sys.linkUp l = true → ∃ t : State, exec (.linkRetrain l) s = .next t ∧ l ∈ t.sys.retraining ∧ t.sys.linkUp l = false ∧
      ∀ q, l = .port q → t.sys.portUp q = false) ∧
    (l ∈ s.sys.retraining → s.sys.farAgent l = some a → exec (.linkRetrainTimeout l) s = .next (s.declareFailed a)) ∧
    (∀ dev : BitVec 16, s.sys.selfSet = true → (s.sys.dev (portReg p)).getLsbD 0 = true → dev.toNat < 2040 →
      (s.sys.portUp p = false ∧ .port p ∉ s.sys.retraining ∨ .port p ∈ s.sys.retraining ∧ s.sys.peerOf p = some dev) →
      ∃ t : State, exec (.linkTrained p dev) s = .next t ∧ t.sys.portUp p = true ∧ t.sys.peerOf p = some dev ∧
        .port p ∉ t.sys.retraining ∧ (p, dev) ∈ t.sys.windows ∧ ∀ x ∈ s.sys.windows, x ∈ t.sys.windows) ∧
    (s.sys.linkUp .host = false → ∃ t : State, exec .hostLinkTrained s = .next t ∧ t.sys.linkUp .host = true) ∧
    (∀ r : PeerReq, s.sys.linkUp (.port p) = true → s.sys.peerOf p = some r.dev → peerReqOk r = true →
      let good := Agent.peer p r.dev ∉ s.sys.failed ∧ peerMaster p ∉ s.sys.frozen ∧ r.join = s.sys.joinOf (.peer p r.dev) ∧
        r.inc = s.sys.portInc p r.cid
      (¬good → exec (.weakarRequestAdmission p r) s = .next s) ∧
      (good → s.sys.admits p r = false → ∃ t : State, exec (.weakarRequestAdmission p r) s = .next t ∧
        peerMaster p ∈ t.sys.frozen) ∧
      (∀ bs, good → s.sys.admits p r = true → r.kind = .write bs → s.sys.homeLost r.addr = false →
        s.sys.mcHoldsN r.addr bs.length = false → s.backed r.addr bs.length = false → s.mem.wf = true →
        ∃ t : State, exec (.weakarRequestAdmission p r) s = .next t ∧
          (∀ i < bs.length, t.mem.curByte (r.addr + i) = bs.getD i 0) ∧
          ∀ x, (x < r.addr ∨ r.addr + bs.length ≤ x) → t.mem.curByte x = s.mem.curByte x)) ∧
    (∀ r : PeerReq, s.sys.linkUp (.port p) = true → s.sys.peerOf p = some r.dev → peerReqOk r = true →
      Agent.peer p r.dev ∉ s.sys.failed → peerMaster p ∉ s.sys.frozen → r.join = s.sys.joinOf (.peer p r.dev) →
      r.inc = s.sys.portInc p r.cid → s.sys.admits p r = true → s.sys.homeLost r.addr = false →
      s.sys.mcHoldsN r.addr (peerLength r.kind) = false → s.backed r.addr (peerLength r.kind) = false → s.mem.wf = true →
      (∀ o z b, r.kind = .atomic o z b → ∃ t : State, exec (.weakarRequestAdmission p r) s = .next t ∧
        let n := szBytes z
        t.mem.curNat r.addr n =
          (Spec.amo o (BitVec.ofNat (8 * n) (s.mem.curNat r.addr n)) (b.setWidth (8 * n))).toNat) ∧
      ∀ z e b, r.kind = .cas z e b → ∃ t : State, exec (.weakarRequestAdmission p r) s = .next t ∧
        let n := szBytes z
        let old := s.mem.curNat r.addr n
        t.mem.curNat r.addr n = if old = e.toNat % 2 ^ (8 * n) then b.toNat % 2 ^ (8 * n) else old) ∧
    (∀ r : HostReq, s.sys.linkUp .host = true → .host ∉ s.sys.failed →
      let open_ := hostMaster ∉ s.sys.frozen ∧ r.join = s.sys.joinOf .host
      (∀ bs, r.write = some bs → bs ≠ [] →
        (¬open_ → exec (.hostLinkRequest r) s = .next s) ∧
        (open_ → r.addr + bs.length ≤ mainEnd → s.sys.homeLost r.addr = false → s.sys.booted = true →
          s.sys.mcHoldsN r.addr bs.length = false → s.backed r.addr bs.length = false → s.mem.wf = true →
          ∃ t : State, exec (.hostLinkRequest r) s = .next t ∧
            (∀ i < bs.length, t.mem.curByte (r.addr + i) = bs.getD i 0) ∧
            ∀ x, (x < r.addr ∨ r.addr + bs.length ≤ x) → t.mem.curByte x = s.mem.curByte x) ∧
        (open_ → r.addr + bs.length ≤ mainEnd → s.sys.booted = false → exec (.hostLinkRequest r) s = .next s) ∧
        (open_ → bs.length = 8 → mainEnd ≤ r.addr → devAssigned (r.addr - devBase) = true →
          exec (.hostLinkRequest r) s =
            .next (s.post (.deviceRegisterWrite (r.addr - devBase) (wd (bytesNat bs)))))) ∧
      (r.write = none → r.len ≠ 0 → open_ → 0x20000000000 ≤ r.addr → ∃ t : State,
        exec (.hostLinkRequest r) s = .next t ∧ hostMaster ∈ t.sys.frozen)) ∧
    (∀ n, n % 64 = 0 → homeAgent n = some .host → s.sys.linkUp .host = true → ∃ t : State, exec (.hostSnoop n) s = .next t ∧
      ∀ x, x ∈ t.mem.sharers ↔ x ∈ s.mem.sharers ∧ (x.1 = .host ∨ ¬(x.2 < n + 64 ∧ n < x.2 + 64))) ∧
    (∀ loc, exec (.arrayErrorDetected loc true) s = .next { s with sys := { s.sys with corrected := s.sys.corrected + 1 } }) ∧
    (∀ n, n < mainEnd → ∃ t : State, exec (.arrayErrorDetected (.mem n) false) s = .next t ∧
      ∀ x, x % 4 = 0 → (x ∈ t.mem.poison ↔ x ∈ s.mem.poison ∨ pieceOf x = pieceOf n)) ∧
    (∀ n, ∃ t : State, exec (.arrayErrorDetected (.sliceTag n) false) s = .next t ∧
      ∀ x, x % 4 = 0 → (x ∈ t.mem.poison ↔ x ∈ s.mem.poison ∨ x / 2048 = n / 2048)) ∧
    (∀ sl off, off < 0x2000 → ∃ t : State, exec (.arrayErrorDetected (.teller sl off) false) s = .next t ∧
      8192 * sl.val + wordAt off ∈ t.sys.tellerPoison ∧ t.sys.tellerMem = s.sys.tellerMem) ∧
    ∀ c k r, s.h.at c k = true → r ≠ 0 → ∃ t : State, exec (.arrayErrorDetected (.sreg c k r) false) s = .next t ∧
      t.h.sPoison r = true ∧ t.h.sregs = s.h.sregs

/-- R244 to R257, R266, R267: words that the manual writes out decode to the instructions that they stand for. -/
def Obligations.WrittenWordsDecode : Prop :=
  ∀ p ∈ ([(32, 0x028C397F, .div .plain 5 6 7), (32, 0x0281FFE3, .addi .plain 5 0 (-1)), (16, 0x0001, .caddi 0 0),
      (32, 0x22841063, .ld .plain 5 2 8 .d), (32, 0x20800207, .jal .plain 1 16), (32, 0x228C011B, .bltn .plain 5 6 8),
      (32, 0x490828A3, .vcmp .plain .lt 2 4 5 0 false), (32, 0x6084180F, .mand .plain 1 2 3),
      (32, 0x610280FB, .vcvt .plain 2 1 .fp32 0 .dyn), (32, 0x808A105F, .vredIndexed .plain 1 5 2 0),
      (32, 0xA0002003, .msetm .plain .m16), (32, 0xA0125083, .cecopy .plain 9 10), (32, 0xA00E02A3, .bar .plain 7 .pod),
      (32, 0xC300000F, .csrr .plain 6 .vl), (32, 0xC28C3873, .amo .plain 5 6 7 .add .d),
      (32, 0xC000001F, .sysc .plain), (32, 0xC280787F, .fence .plain .sys 15)] : List (Nat × Nat × Instr)),
    decodeTableWord p.1 p.2.1 = some p.2.2

/-- R242 to R257, R264, R266: the form of every well-formed instruction decodes to it, whatever bytes follow, and to its
length. -/
def Obligations.EncodingsDecode : Prop :=
  ∀ (i : Instr) (rest : List Byte), i.wellFormed = true →
    decodeForm (encode i ++ rest) = .ok (i, (encode i).length)

/-- R242 to R257, R264, R266: bytes that decode are the form of the instruction that they decode to, which is
well-formed: each pattern has one meaning. -/
def Obligations.DecodingsEncode : Prop :=
  ∀ (bs : List Byte) (i : Instr) (n : Nat), decodeForm bs = .ok (i, n) →
    i.wellFormed = true ∧ encode i = bs.take n ∧ n = (encode i).length

/-- R25, R264, R265, R193, R109, R229: what one step runs: the module's own step that waits, a form that may retire, or, for
the hart granted, its block, its interrupt, the instruction that resumes, or the form at its pc; and the decode traps. What every
step adds: a tick, the cycles of each core (R4, R270), and the backing areas as the tables map them (R104). The model's choices: the
head of the inbox runs first, one act a step (log entry 7), and the harts are tried in the order of log entry 9; the held forms (log
entry 23); a step takes a free number of cycles of each core (log entry 10). -/
def Obligations.AStepRunsTheDecodedInstruction : Prop :=
  ∀ s : State,
    (∀ t, step s = .next t → ∀ h ∈ t.rest, h.status ≠ .absent) ∧
    (let t := s.tock
     t.tick = s.tick + 1 ∧ (∀ c : CoreId, t.cyc[c] = s.cyc[c] + Config.cycles c.val s.tick) ∧
     t = { s with tick := t.tick, cyc := t.cyc, h := { s.h with backing := t.h.backing }, rest := t.rest } ∧
     t.rest.length = s.rest.countP (fun h => h.status ≠ .absent) ∧
     ∀ h ∈ s.harts, ∃ k ∈ t.harts, k = { h with backing := k.backing } ∧
       ((∀ n < 32, walk s h.cid ((h.vbase &&& ~~~4095).toNat + 4096 * n) ≠ .wait) → ∀ a, a ∈ k.backing ↔ ∃ n < 32, ∃ p e size ps,
         walk s h.cid ((h.vbase &&& ~~~4095).toNat + 4096 * n) = .leaf p e size ps ∧ leafKind e ≠ 2 ∧ a = p / 4096 * 4096)) ∧
    (∀ i is, s.inbox = i :: is → (s.sys.booted = true ∨ Instr.inReset i = true) →
      step s = tocked (exec i { s with inbox := is })) ∧
    (∀ i is, s.inbox = i :: is → s.sys.booted = false → Instr.inReset i = false →
      step s = .next { s with inbox := is }.tock) ∧
    (s.inbox = [] → s.sys.booted = false → step s = .next s.tock) ∧
    (s.inbox = [] → (∀ d ∈ s.held, d.due = false) → (s.sys.withheld = true ∨ s.tries = []) → step s = .next s.tock) ∧
    (∀ d, s.inbox = [] → s.sys.booted = true → s.held.find? (fun d => d.due) = some d →
      step s = tocked (releaseHeld exec d s)) ∧
    (∀ p, p ∈ s.tries ↔ ∃ h ∈ s.harts, (h.core, h.ctx) = p ∧ s.ready h = true) ∧
    ∀ c k l u, s.inbox = [] → s.sys.booted = true → (∀ d ∈ s.held, d.due = false) → s.sys.withheld = false →
      s.tries = (c, k) :: l →
      s.focus c k = some u → u.h.retries = false → u.h.vp = none →
      let g := u.grant
      let bytes := fetchBytes g 18 g.h.pc.toNat
      g.h = { u.h with aged := false, status := .running } ∧ g.mem = s.mem ∧
      (g.takable g.h = true → step s = .next (takeInterrupt g).tock) ∧
      (g.takable g.h = false →
        (∀ o, u.h.resume = some o → step s = tocked (exec o.instr g)) ∧
        (u.h.resume = none →
          (∀ i n, decodeFor (isSliced g.h.fmt) bytes = .ok (i, n) → fetchPoison g ((n + 1) / 2) g.h.pc.toNat = none →
            step s = tocked (exec i g)) ∧
          (g.heldOf g.h = [] →
            (∀ off, decodeFor (isSliced g.h.fmt) bytes = .error (.illegalInstr off) → fetchPoison g ((off + 2 + 1) / 2) g.h.pc.toNat = none →
              step s = .next (takeTrap { code := cIllegal, unit := off } (g.h.pc + wd off) false g).tock) ∧
            (∀ off, decodeFor (isSliced g.h.fmt) bytes = .error (.illegalUnit off) → fetchPoison g ((off + 2 + 1) / 2) g.h.pc.toNat = none →
              step s = .next (takeTrap { code := cPrefixUnit, unit := off } (g.h.pc + wd off) false g).tock) ∧
            ∀ off cause, decodeFor (isSliced g.h.fmt) bytes = .error (.short off) → fetchPoison g ((off + 1) / 2) g.h.pc.toNat = none →
              probe g needFetch (g.h.pc.toNat + off : Nat) 2 2 = .bad cause →
              step s = .next (takeTrap { code := cause, val := wd off } g.h.pc false g).tock)))

/-- Tables 13-16 to 13-18 and those they name, R141, R227, R231, R225: what reset leaves. The general registers, which the
manual gives no value at reset, hold 0 by the model's choice (log entry 2), and memory has nothing listed
(log entry 1). -/
def Obligations.ResetLeaves : Prop :=
  (∀ c, csrRead State.reset c = match c with
    | .vtype => 0x10
    | .bgeo => 0x4000000000000000
    | .cbypass => 0x10000
    | .chk => 1
    | .hmask => 0xFFFFFFFFFFFFFFFF
    | .vl | .dil | .vbase | .purse | .frm | .fflags | .fst | .tcause | .tpc | .tstripe | .tval | .tvec | .cid | .inc | .cyc =>
      0) ∧
  (∀ r, State.reset.h.sreg r = 0) ∧
  (∀ off, State.reset.sys.dev off = if off = 0x11000 then 1800 else 0) ∧
  (∀ i, State.reset.sys.mreg i = List.replicate 48 0) ∧
  (∀ c v, State.reset.sys.curInc c = 0 ∧ State.reset.sys.incState c v = if v = 0 then .live else .free) ∧
  State.reset.harts = [] ∧ State.reset.mem.Sound ∧ (∀ a, State.reset.mem.curByte a = 0) ∧
  State.reset.inbox = [.boot] ∧ State.reset.sys.booted = false

/-- Log entry 1 and R126: memory keeps its canonical form over every scalar instruction and every step of the memory system
that `keepers` lists, whatever they come to: a result, a trap, a held form. -/
def Obligations.MemoryKeepsItsForm : Prop :=
  ∀ x d a b k l n z sc o csr c w pa bs y v be who tag skew, ∀ i ∈ keepers x d a b k l n z sc o csr c w pa bs y v be who tag skew,
    ∀ s t : State, s.mem.wf = true → exec i s = .next t → t.mem.wf = true

/-- R126 and log entry 1: every step, of any hart or of the module, from any state, keeps memory in its canonical form, with each
registration at a word and no word registered to two cores or twice to one. -/
def Obligations.EveryStepKeepsMemorySound : Prop :=
  ∀ s t : State, s.mem.Sound → step s = .next t → t.mem.Sound

end
end

