-- ==== Sys2Proof/Laws/State.lean ====
section
/-! SUPPORT. One lemma per field for each update of the state: the field that the update writes, and the fields that it
leaves. -/

namespace Sys2Proof.Machine

variable (s : State) (h : Hart)

/-! The updates of the whole state. -/

@[simp] theorem State.modH_h (f : Hart → Hart) : (s.modH f).h = f s.h := rfl
@[simp] theorem State.modH_rest (f : Hart → Hart) : (s.modH f).rest = s.rest := rfl
@[simp] theorem State.modH_cores (f : Hart → Hart) : (s.modH f).cores = s.cores := rfl
@[simp] theorem State.modH_held (f : Hart → Hart) : (s.modH f).held = s.held := rfl
@[simp] theorem State.modH_mem (f : Hart → Hart) : (s.modH f).mem = s.mem := rfl
@[simp] theorem State.modH_sys (f : Hart → Hart) : (s.modH f).sys = s.sys := rfl
@[simp] theorem State.modH_inbox (f : Hart → Hart) : (s.modH f).inbox = s.inbox := rfl
@[simp] theorem State.modH_tick (f : Hart → Hart) : (s.modH f).tick = s.tick := rfl
@[simp] theorem State.modH_upsets (f : Hart → Hart) : (s.modH f).upsets = s.upsets := rfl
@[simp] theorem State.modH_cyc (f : Hart → Hart) : (s.modH f).cyc = s.cyc := rfl

@[simp] theorem State.modMem_h (f : Mem → Mem) : (s.modMem f).h = s.h := rfl
@[simp] theorem State.modMem_rest (f : Mem → Mem) : (s.modMem f).rest = s.rest := rfl
@[simp] theorem State.modMem_cores (f : Mem → Mem) : (s.modMem f).cores = s.cores := rfl
@[simp] theorem State.modMem_held (f : Mem → Mem) : (s.modMem f).held = s.held := rfl
@[simp] theorem State.modMem_mem (f : Mem → Mem) : (s.modMem f).mem = f s.mem := rfl
@[simp] theorem State.modMem_sys (f : Mem → Mem) : (s.modMem f).sys = s.sys := rfl
@[simp] theorem State.modMem_inbox (f : Mem → Mem) : (s.modMem f).inbox = s.inbox := rfl
@[simp] theorem State.modMem_tick (f : Mem → Mem) : (s.modMem f).tick = s.tick := rfl
@[simp] theorem State.modMem_upsets (f : Mem → Mem) : (s.modMem f).upsets = s.upsets := rfl
@[simp] theorem State.modMem_cyc (f : Mem → Mem) : (s.modMem f).cyc = s.cyc := rfl

@[simp] theorem State.modSys_h (f : Sys → Sys) : (s.modSys f).h = s.h := rfl
@[simp] theorem State.modSys_rest (f : Sys → Sys) : (s.modSys f).rest = s.rest := rfl
@[simp] theorem State.modSys_cores (f : Sys → Sys) : (s.modSys f).cores = s.cores := rfl
@[simp] theorem State.modSys_held (f : Sys → Sys) : (s.modSys f).held = s.held := rfl
@[simp] theorem State.modSys_mem (f : Sys → Sys) : (s.modSys f).mem = s.mem := rfl
@[simp] theorem State.modSys_sys (f : Sys → Sys) : (s.modSys f).sys = f s.sys := rfl
@[simp] theorem State.modSys_inbox (f : Sys → Sys) : (s.modSys f).inbox = s.inbox := rfl
@[simp] theorem State.modSys_tick (f : Sys → Sys) : (s.modSys f).tick = s.tick := rfl
@[simp] theorem State.modSys_upsets (f : Sys → Sys) : (s.modSys f).upsets = s.upsets := rfl
@[simp] theorem State.modSys_cyc (f : Sys → Sys) : (s.modSys f).cyc = s.cyc := rfl

@[simp] theorem State.post_h (i : Instr) : (s.post i).h = s.h := rfl
@[simp] theorem State.post_rest (i : Instr) : (s.post i).rest = s.rest := rfl
@[simp] theorem State.post_cores (i : Instr) : (s.post i).cores = s.cores := rfl
@[simp] theorem State.post_held (i : Instr) : (s.post i).held = s.held := rfl
@[simp] theorem State.post_mem (i : Instr) : (s.post i).mem = s.mem := rfl
@[simp] theorem State.post_sys (i : Instr) : (s.post i).sys = s.sys := rfl
@[simp] theorem State.post_inbox (i : Instr) : (s.post i).inbox = s.inbox ++ [i] := rfl
@[simp] theorem State.post_tick (i : Instr) : (s.post i).tick = s.tick := rfl
@[simp] theorem State.post_upsets (i : Instr) : (s.post i).upsets = s.upsets := rfl
@[simp] theorem State.post_cyc (i : Instr) : (s.post i).cyc = s.cyc := rfl

@[simp] theorem State.writeS_rest (r : SReg) (v : Word) : (s.writeS r v).rest = s.rest := rfl
@[simp] theorem State.writeS_cores (r : SReg) (v : Word) : (s.writeS r v).cores = s.cores := rfl
@[simp] theorem State.writeS_held (r : SReg) (v : Word) : (s.writeS r v).held = s.held := rfl
@[simp] theorem State.writeS_mem (r : SReg) (v : Word) : (s.writeS r v).mem = s.mem := rfl
@[simp] theorem State.writeS_sys (r : SReg) (v : Word) : (s.writeS r v).sys = s.sys := rfl
@[simp] theorem State.writeS_inbox (r : SReg) (v : Word) : (s.writeS r v).inbox = s.inbox := rfl
@[simp] theorem State.writeS_tick (r : SReg) (v : Word) : (s.writeS r v).tick = s.tick := rfl
@[simp] theorem State.writeS_upsets (r : SReg) (v : Word) : (s.writeS r v).upsets = s.upsets := rfl
@[simp] theorem State.writeS_cyc (r : SReg) (v : Word) : (s.writeS r v).cyc = s.cyc := rfl
@[simp] theorem State.writeS_h (r : SReg) (v : Word) : (s.writeS r v).h = s.h.setSreg r v := rfl

@[simp] theorem State.stall_rest (w : Stall) : (s.stall w).rest = s.rest := rfl
@[simp] theorem State.stall_cores (w : Stall) : (s.stall w).cores = s.cores := rfl
@[simp] theorem State.stall_held (w : Stall) : (s.stall w).held = s.held := rfl
@[simp] theorem State.stall_mem (w : Stall) : (s.stall w).mem = s.mem := rfl
@[simp] theorem State.stall_sys (w : Stall) : (s.stall w).sys = s.sys := rfl
@[simp] theorem State.stall_inbox (w : Stall) : (s.stall w).inbox = s.inbox := rfl
@[simp] theorem State.stall_tick (w : Stall) : (s.stall w).tick = s.tick := rfl
@[simp] theorem State.stall_upsets (w : Stall) : (s.stall w).upsets = s.upsets := rfl
@[simp] theorem State.stall_cyc (w : Stall) : (s.stall w).cyc = s.cyc := rfl

/-! The updates of a hart. -/

@[simp] theorem Hart.raise_status (f : Nat) : (h.raise f).status = h.status := rfl
@[simp] theorem Hart.raise_core (f : Nat) : (h.raise f).core = h.core := rfl
@[simp] theorem Hart.raise_ctx (f : Nat) : (h.raise f).ctx = h.ctx := rfl
@[simp] theorem Hart.raise_gang (f : Nat) : (h.raise f).gang = h.gang := rfl
@[simp] theorem Hart.raise_index (f : Nat) : (h.raise f).index = h.index := rfl
@[simp] theorem Hart.raise_cid (f : Nat) : (h.raise f).cid = h.cid := rfl
@[simp] theorem Hart.raise_inc (f : Nat) : (h.raise f).inc = h.inc := rfl
@[simp] theorem Hart.raise_pc (f : Nat) : (h.raise f).pc = h.pc := rfl
@[simp] theorem Hart.raise_sregs (f : Nat) : (h.raise f).sregs = h.sregs := rfl
@[simp] theorem Hart.raise_vl (f : Nat) : (h.raise f).vl = h.vl := rfl
@[simp] theorem Hart.raise_fmt (f : Nat) : (h.raise f).fmt = h.fmt := rfl
@[simp] theorem Hart.raise_nregc (f : Nat) : (h.raise f).nregc = h.nregc := rfl
@[simp] theorem Hart.raise_bs (f : Nat) : (h.raise f).bs = h.bs := rfl
@[simp] theorem Hart.raise_sat (f : Nat) : (h.raise f).sat = h.sat := rfl
@[simp] theorem Hart.raise_bgeo (f : Nat) : (h.raise f).bgeo = h.bgeo := rfl
@[simp] theorem Hart.raise_dil (f : Nat) : (h.raise f).dil = h.dil := rfl
@[simp] theorem Hart.raise_vbase (f : Nat) : (h.raise f).vbase = h.vbase := rfl
@[simp] theorem Hart.raise_cbypass (f : Nat) : (h.raise f).cbypass = h.cbypass := rfl
@[simp] theorem Hart.raise_purse (f : Nat) : (h.raise f).purse = h.purse := rfl
@[simp] theorem Hart.raise_frm (f : Nat) : (h.raise f).frm = h.frm := rfl
@[simp] theorem Hart.raise_fflags (f : Nat) : (h.raise f).fflags = h.fflags ||| wd f := rfl
@[simp] theorem Hart.raise_chkEn (f : Nat) : (h.raise f).chkEn = h.chkEn := rfl
@[simp] theorem Hart.raise_mcnt (f : Nat) : (h.raise f).mcnt = h.mcnt := rfl
@[simp] theorem Hart.raise_fst (f : Nat) : (h.raise f).fst = h.fst := rfl
@[simp] theorem Hart.raise_lost (f : Nat) : (h.raise f).lost = h.lost := rfl
@[simp] theorem Hart.raise_tcause (f : Nat) : (h.raise f).tcause = h.tcause := rfl
@[simp] theorem Hart.raise_tpc (f : Nat) : (h.raise f).tpc = h.tpc := rfl
@[simp] theorem Hart.raise_tstripe (f : Nat) : (h.raise f).tstripe = h.tstripe := rfl
@[simp] theorem Hart.raise_tval (f : Nat) : (h.raise f).tval = h.tval := rfl
@[simp] theorem Hart.raise_tvec (f : Nat) : (h.raise f).tvec = h.tvec := rfl
@[simp] theorem Hart.raise_lcs (f : Nat) : (h.raise f).lcs = h.lcs := rfl
@[simp] theorem Hart.raise_requester (f : Nat) : (h.raise f).requester = h.requester := rfl
@[simp] theorem Hart.raise_waitAge (f : Nat) : (h.raise f).waitAge = h.waitAge := rfl
@[simp] theorem Hart.raise_unitAge (f : Nat) : (h.raise f).unitAge = h.unitAge := rfl
@[simp] theorem Hart.raise_demand (f : Nat) : (h.raise f).demand = h.demand := rfl
@[simp] theorem Hart.raise_vregs (f : Nat) : (h.raise f).vregs = h.vregs := rfl
@[simp] theorem Hart.raise_vgen (f : Nat) : (h.raise f).vgen = h.vgen := rfl
@[simp] theorem Hart.raise_masks (f : Nat) : (h.raise f).masks = h.masks := rfl
@[simp] theorem Hart.raise_scales (f : Nat) : (h.raise f).scales = h.scales := rfl
@[simp] theorem Hart.raise_shells (f : Nat) : (h.raise f).shells = h.shells := rfl
@[simp] theorem Hart.raise_queues (f : Nat) : (h.raise f).queues = h.queues := rfl
@[simp] theorem Hart.raise_tokens (f : Nat) : (h.raise f).tokens = h.tokens := rfl
@[simp] theorem Hart.raise_poison (f : Nat) : (h.raise f).poison = h.poison := rfl
@[simp] theorem Hart.raise_opened (f : Nat) : (h.raise f).opened = h.opened := rfl
@[simp] theorem Hart.raise_resume (f : Nat) : (h.raise f).resume = h.resume := rfl
@[simp] theorem Hart.raise_mvl (f : Nat) : (h.raise f).mvl = h.mvl := rfl
@[simp] theorem Hart.raise_cells (f : Nat) : (h.raise f).cells = h.cells := rfl
@[simp] theorem Hart.raise_xfers (f : Nat) : (h.raise f).xfers = h.xfers := rfl
@[simp] theorem Hart.raise_ptStores (f : Nat) : (h.raise f).ptStores = h.ptStores := rfl
@[simp] theorem Hart.raise_irq (f : Nat) : (h.raise f).irq = h.irq := rfl
@[simp] theorem Hart.raise_preempt (f : Nat) : (h.raise f).preempt = h.preempt := rfl
@[simp] theorem Hart.raise_monitor (f : Nat) : (h.raise f).monitor = h.monitor := rfl
@[simp] theorem Hart.raise_vp (f : Nat) : (h.raise f).vp = h.vp := rfl
@[simp] theorem Hart.raise_vpClosed (f : Nat) : (h.raise f).vpClosed = h.vpClosed := rfl
@[simp] theorem Hart.raise_squash (f : Nat) : (h.raise f).squash = h.squash := rfl
@[simp] theorem Hart.raise_offChip (f : Nat) : (h.raise f).offChip = h.offChip := rfl
@[simp] theorem Hart.raise_aged (f : Nat) : (h.raise f).aged = h.aged := rfl
@[simp] theorem Hart.raise_single (f : Nat) : (h.raise f).single = h.single := rfl
@[simp] theorem Hart.raise_backing (f : Nat) : (h.raise f).backing = h.backing := rfl
@[simp] theorem Hart.raise_ahead (f : Nat) : (h.raise f).ahead = h.ahead := rfl
@[simp] theorem Hart.raise_barred (f : Nat) : (h.raise f).barred = h.barred := rfl

@[simp] theorem Hart.pushTok_status (f : Nat) : (h.pushTok f).status = h.status := rfl
@[simp] theorem Hart.pushTok_core (f : Nat) : (h.pushTok f).core = h.core := rfl
@[simp] theorem Hart.pushTok_ctx (f : Nat) : (h.pushTok f).ctx = h.ctx := rfl
@[simp] theorem Hart.pushTok_gang (f : Nat) : (h.pushTok f).gang = h.gang := rfl
@[simp] theorem Hart.pushTok_index (f : Nat) : (h.pushTok f).index = h.index := rfl
@[simp] theorem Hart.pushTok_cid (f : Nat) : (h.pushTok f).cid = h.cid := rfl
@[simp] theorem Hart.pushTok_inc (f : Nat) : (h.pushTok f).inc = h.inc := rfl
@[simp] theorem Hart.pushTok_pc (f : Nat) : (h.pushTok f).pc = h.pc := rfl
@[simp] theorem Hart.pushTok_sregs (f : Nat) : (h.pushTok f).sregs = h.sregs := rfl
@[simp] theorem Hart.pushTok_vl (f : Nat) : (h.pushTok f).vl = h.vl := rfl
@[simp] theorem Hart.pushTok_fmt (f : Nat) : (h.pushTok f).fmt = h.fmt := rfl
@[simp] theorem Hart.pushTok_nregc (f : Nat) : (h.pushTok f).nregc = h.nregc := rfl
@[simp] theorem Hart.pushTok_bs (f : Nat) : (h.pushTok f).bs = h.bs := rfl
@[simp] theorem Hart.pushTok_sat (f : Nat) : (h.pushTok f).sat = h.sat := rfl
@[simp] theorem Hart.pushTok_bgeo (f : Nat) : (h.pushTok f).bgeo = h.bgeo := rfl
@[simp] theorem Hart.pushTok_dil (f : Nat) : (h.pushTok f).dil = h.dil := rfl
@[simp] theorem Hart.pushTok_vbase (f : Nat) : (h.pushTok f).vbase = h.vbase := rfl
@[simp] theorem Hart.pushTok_cbypass (f : Nat) : (h.pushTok f).cbypass = h.cbypass := rfl
@[simp] theorem Hart.pushTok_purse (f : Nat) : (h.pushTok f).purse = h.purse := rfl
@[simp] theorem Hart.pushTok_frm (f : Nat) : (h.pushTok f).frm = h.frm := rfl
@[simp] theorem Hart.pushTok_fflags (f : Nat) : (h.pushTok f).fflags = h.fflags := rfl
@[simp] theorem Hart.pushTok_chkEn (f : Nat) : (h.pushTok f).chkEn = h.chkEn := rfl
@[simp] theorem Hart.pushTok_mcnt (f : Nat) : (h.pushTok f).mcnt = h.mcnt := rfl
@[simp] theorem Hart.pushTok_fst (f : Nat) : (h.pushTok f).fst = h.fst := rfl
@[simp] theorem Hart.pushTok_lost (f : Nat) : (h.pushTok f).lost = h.lost := rfl
@[simp] theorem Hart.pushTok_tcause (f : Nat) : (h.pushTok f).tcause = h.tcause := rfl
@[simp] theorem Hart.pushTok_tpc (f : Nat) : (h.pushTok f).tpc = h.tpc := rfl
@[simp] theorem Hart.pushTok_tstripe (f : Nat) : (h.pushTok f).tstripe = h.tstripe := rfl
@[simp] theorem Hart.pushTok_tval (f : Nat) : (h.pushTok f).tval = h.tval := rfl
@[simp] theorem Hart.pushTok_tvec (f : Nat) : (h.pushTok f).tvec = h.tvec := rfl
@[simp] theorem Hart.pushTok_lcs (f : Nat) : (h.pushTok f).lcs = h.lcs := rfl
@[simp] theorem Hart.pushTok_requester (f : Nat) : (h.pushTok f).requester = h.requester := rfl
@[simp] theorem Hart.pushTok_waitAge (f : Nat) : (h.pushTok f).waitAge = h.waitAge := rfl
@[simp] theorem Hart.pushTok_unitAge (f : Nat) : (h.pushTok f).unitAge = h.unitAge := rfl
@[simp] theorem Hart.pushTok_demand (f : Nat) : (h.pushTok f).demand = h.demand := rfl
@[simp] theorem Hart.pushTok_vregs (f : Nat) : (h.pushTok f).vregs = h.vregs := rfl
@[simp] theorem Hart.pushTok_vgen (f : Nat) : (h.pushTok f).vgen = h.vgen := rfl
@[simp] theorem Hart.pushTok_masks (f : Nat) : (h.pushTok f).masks = h.masks := rfl
@[simp] theorem Hart.pushTok_scales (f : Nat) : (h.pushTok f).scales = h.scales := rfl
@[simp] theorem Hart.pushTok_shells (f : Nat) : (h.pushTok f).shells = h.shells := rfl
@[simp] theorem Hart.pushTok_queues (f : Nat) : (h.pushTok f).queues = h.queues := rfl
@[simp] theorem Hart.pushTok_tokens (f : Nat) : (h.pushTok f).tokens = h.tokens.setIfInBounds f (h.tokens.getD f 0 + 1) := rfl
@[simp] theorem Hart.pushTok_poison (f : Nat) : (h.pushTok f).poison = h.poison := rfl
@[simp] theorem Hart.pushTok_opened (f : Nat) : (h.pushTok f).opened = h.opened := rfl
@[simp] theorem Hart.pushTok_resume (f : Nat) : (h.pushTok f).resume = h.resume := rfl
@[simp] theorem Hart.pushTok_mvl (f : Nat) : (h.pushTok f).mvl = h.mvl := rfl
@[simp] theorem Hart.pushTok_cells (f : Nat) : (h.pushTok f).cells = h.cells := rfl
@[simp] theorem Hart.pushTok_xfers (f : Nat) : (h.pushTok f).xfers = h.xfers := rfl
@[simp] theorem Hart.pushTok_ptStores (f : Nat) : (h.pushTok f).ptStores = h.ptStores := rfl
@[simp] theorem Hart.pushTok_irq (f : Nat) : (h.pushTok f).irq = h.irq := rfl
@[simp] theorem Hart.pushTok_preempt (f : Nat) : (h.pushTok f).preempt = h.preempt := rfl
@[simp] theorem Hart.pushTok_monitor (f : Nat) : (h.pushTok f).monitor = h.monitor := rfl
@[simp] theorem Hart.pushTok_vp (f : Nat) : (h.pushTok f).vp = h.vp := rfl
@[simp] theorem Hart.pushTok_vpClosed (f : Nat) : (h.pushTok f).vpClosed = h.vpClosed := rfl
@[simp] theorem Hart.pushTok_squash (f : Nat) : (h.pushTok f).squash = h.squash := rfl
@[simp] theorem Hart.pushTok_offChip (f : Nat) : (h.pushTok f).offChip = h.offChip := rfl
@[simp] theorem Hart.pushTok_aged (f : Nat) : (h.pushTok f).aged = h.aged := rfl
@[simp] theorem Hart.pushTok_single (f : Nat) : (h.pushTok f).single = h.single := rfl
@[simp] theorem Hart.pushTok_backing (f : Nat) : (h.pushTok f).backing = h.backing := rfl
@[simp] theorem Hart.pushTok_ahead (f : Nat) : (h.pushTok f).ahead = h.ahead := rfl
@[simp] theorem Hart.pushTok_barred (f : Nat) : (h.pushTok f).barred = h.barred := rfl

@[simp] theorem Hart.enterHandler_status  : (h.enterHandler).status = .running := rfl
@[simp] theorem Hart.enterHandler_core  : (h.enterHandler).core = h.core := rfl
@[simp] theorem Hart.enterHandler_ctx  : (h.enterHandler).ctx = h.ctx := rfl
@[simp] theorem Hart.enterHandler_gang  : (h.enterHandler).gang = h.gang := rfl
@[simp] theorem Hart.enterHandler_index  : (h.enterHandler).index = h.index := rfl
@[simp] theorem Hart.enterHandler_cid  : (h.enterHandler).cid = h.cid := rfl
@[simp] theorem Hart.enterHandler_inc  : (h.enterHandler).inc = h.inc := rfl
@[simp] theorem Hart.enterHandler_pc  : (h.enterHandler).pc = h.tvec &&& ~~~3 := rfl
@[simp] theorem Hart.enterHandler_sregs  : (h.enterHandler).sregs = h.sregs := rfl
@[simp] theorem Hart.enterHandler_vl  : (h.enterHandler).vl = h.vl := rfl
@[simp] theorem Hart.enterHandler_fmt  : (h.enterHandler).fmt = h.fmt := rfl
@[simp] theorem Hart.enterHandler_nregc  : (h.enterHandler).nregc = h.nregc := rfl
@[simp] theorem Hart.enterHandler_bs  : (h.enterHandler).bs = h.bs := rfl
@[simp] theorem Hart.enterHandler_sat  : (h.enterHandler).sat = h.sat := rfl
@[simp] theorem Hart.enterHandler_bgeo  : (h.enterHandler).bgeo = h.bgeo := rfl
@[simp] theorem Hart.enterHandler_dil  : (h.enterHandler).dil = h.dil := rfl
@[simp] theorem Hart.enterHandler_vbase  : (h.enterHandler).vbase = h.vbase := rfl
@[simp] theorem Hart.enterHandler_cbypass  : (h.enterHandler).cbypass = h.cbypass := rfl
@[simp] theorem Hart.enterHandler_purse  : (h.enterHandler).purse = h.purse := rfl
@[simp] theorem Hart.enterHandler_frm  : (h.enterHandler).frm = h.frm := rfl
@[simp] theorem Hart.enterHandler_fflags  : (h.enterHandler).fflags = h.fflags := rfl
@[simp] theorem Hart.enterHandler_chkEn  : (h.enterHandler).chkEn = h.chkEn := rfl
@[simp] theorem Hart.enterHandler_mcnt  : (h.enterHandler).mcnt = h.mcnt := rfl
@[simp] theorem Hart.enterHandler_fst  : (h.enterHandler).fst = h.fst := rfl
@[simp] theorem Hart.enterHandler_lost  : (h.enterHandler).lost = h.lost := rfl
@[simp] theorem Hart.enterHandler_tcause  : (h.enterHandler).tcause = h.tcause := rfl
@[simp] theorem Hart.enterHandler_tpc  : (h.enterHandler).tpc = h.tpc := rfl
@[simp] theorem Hart.enterHandler_tstripe  : (h.enterHandler).tstripe = h.tstripe := rfl
@[simp] theorem Hart.enterHandler_tval  : (h.enterHandler).tval = h.tval := rfl
@[simp] theorem Hart.enterHandler_tvec  : (h.enterHandler).tvec = h.tvec ||| 2 := rfl
@[simp] theorem Hart.enterHandler_lcs  : (h.enterHandler).lcs = h.lcs := rfl
@[simp] theorem Hart.enterHandler_requester  : (h.enterHandler).requester = h.requester := rfl
@[simp] theorem Hart.enterHandler_waitAge  : (h.enterHandler).waitAge = h.waitAge := rfl
@[simp] theorem Hart.enterHandler_unitAge  : (h.enterHandler).unitAge = h.unitAge := rfl
@[simp] theorem Hart.enterHandler_demand  : (h.enterHandler).demand = h.demand := rfl
@[simp] theorem Hart.enterHandler_vregs  : (h.enterHandler).vregs = h.vregs := rfl
@[simp] theorem Hart.enterHandler_vgen  : (h.enterHandler).vgen = h.vgen := rfl
@[simp] theorem Hart.enterHandler_masks  : (h.enterHandler).masks = h.masks := rfl
@[simp] theorem Hart.enterHandler_scales  : (h.enterHandler).scales = h.scales := rfl
@[simp] theorem Hart.enterHandler_shells  : (h.enterHandler).shells = h.shells := rfl
@[simp] theorem Hart.enterHandler_queues  : (h.enterHandler).queues = h.queues := rfl
@[simp] theorem Hart.enterHandler_tokens  : (h.enterHandler).tokens = h.tokens := rfl
@[simp] theorem Hart.enterHandler_poison  : (h.enterHandler).poison = h.poison := rfl
@[simp] theorem Hart.enterHandler_opened  : (h.enterHandler).opened = h.opened := rfl
@[simp] theorem Hart.enterHandler_resume  : (h.enterHandler).resume = h.resume := rfl
@[simp] theorem Hart.enterHandler_mvl  : (h.enterHandler).mvl = h.mvl := rfl
@[simp] theorem Hart.enterHandler_cells  : (h.enterHandler).cells = h.cells := rfl
@[simp] theorem Hart.enterHandler_xfers  : (h.enterHandler).xfers = h.xfers := rfl
@[simp] theorem Hart.enterHandler_ptStores  : (h.enterHandler).ptStores = h.ptStores := rfl
@[simp] theorem Hart.enterHandler_irq  : (h.enterHandler).irq = h.irq := rfl
@[simp] theorem Hart.enterHandler_preempt  : (h.enterHandler).preempt = h.preempt := rfl
@[simp] theorem Hart.enterHandler_monitor  : (h.enterHandler).monitor = h.monitor := rfl
@[simp] theorem Hart.enterHandler_vp  : (h.enterHandler).vp = h.vp := rfl
@[simp] theorem Hart.enterHandler_vpClosed  : (h.enterHandler).vpClosed = h.vpClosed := rfl
@[simp] theorem Hart.enterHandler_squash  : (h.enterHandler).squash = h.squash := rfl
@[simp] theorem Hart.enterHandler_offChip  : (h.enterHandler).offChip = h.offChip := rfl
@[simp] theorem Hart.enterHandler_aged  : (h.enterHandler).aged = h.aged := rfl
@[simp] theorem Hart.enterHandler_single  : (h.enterHandler).single = h.single := rfl
@[simp] theorem Hart.enterHandler_backing  : (h.enterHandler).backing = h.backing := rfl
@[simp] theorem Hart.enterHandler_ahead  : (h.enterHandler).ahead = h.ahead := rfl
@[simp] theorem Hart.enterHandler_barred  : (h.enterHandler).barred = h.barred := rfl

@[simp] theorem Hart.trapRegs_status (t : TrapInfo) (p : Word) (b : Bool) : (h.trapRegs t p b).status = h.status := rfl
@[simp] theorem Hart.trapRegs_core (t : TrapInfo) (p : Word) (b : Bool) : (h.trapRegs t p b).core = h.core := rfl
@[simp] theorem Hart.trapRegs_ctx (t : TrapInfo) (p : Word) (b : Bool) : (h.trapRegs t p b).ctx = h.ctx := rfl
@[simp] theorem Hart.trapRegs_gang (t : TrapInfo) (p : Word) (b : Bool) : (h.trapRegs t p b).gang = h.gang := rfl
@[simp] theorem Hart.trapRegs_index (t : TrapInfo) (p : Word) (b : Bool) : (h.trapRegs t p b).index = h.index := rfl
@[simp] theorem Hart.trapRegs_cid (t : TrapInfo) (p : Word) (b : Bool) : (h.trapRegs t p b).cid = h.cid := rfl
@[simp] theorem Hart.trapRegs_inc (t : TrapInfo) (p : Word) (b : Bool) : (h.trapRegs t p b).inc = h.inc := rfl
@[simp] theorem Hart.trapRegs_pc (t : TrapInfo) (p : Word) (b : Bool) : (h.trapRegs t p b).pc = h.pc := rfl
@[simp] theorem Hart.trapRegs_sregs (t : TrapInfo) (p : Word) (b : Bool) : (h.trapRegs t p b).sregs = h.sregs := rfl
@[simp] theorem Hart.trapRegs_vl (t : TrapInfo) (p : Word) (b : Bool) : (h.trapRegs t p b).vl = h.vl := rfl
@[simp] theorem Hart.trapRegs_fmt (t : TrapInfo) (p : Word) (b : Bool) : (h.trapRegs t p b).fmt = h.fmt := rfl
@[simp] theorem Hart.trapRegs_nregc (t : TrapInfo) (p : Word) (b : Bool) : (h.trapRegs t p b).nregc = h.nregc := rfl
@[simp] theorem Hart.trapRegs_bs (t : TrapInfo) (p : Word) (b : Bool) : (h.trapRegs t p b).bs = h.bs := rfl
@[simp] theorem Hart.trapRegs_sat (t : TrapInfo) (p : Word) (b : Bool) : (h.trapRegs t p b).sat = h.sat := rfl
@[simp] theorem Hart.trapRegs_bgeo (t : TrapInfo) (p : Word) (b : Bool) : (h.trapRegs t p b).bgeo = h.bgeo := rfl
@[simp] theorem Hart.trapRegs_dil (t : TrapInfo) (p : Word) (b : Bool) : (h.trapRegs t p b).dil = h.dil := rfl
@[simp] theorem Hart.trapRegs_vbase (t : TrapInfo) (p : Word) (b : Bool) : (h.trapRegs t p b).vbase = h.vbase := rfl
@[simp] theorem Hart.trapRegs_cbypass (t : TrapInfo) (p : Word) (b : Bool) : (h.trapRegs t p b).cbypass = h.cbypass := rfl
@[simp] theorem Hart.trapRegs_purse (t : TrapInfo) (p : Word) (b : Bool) : (h.trapRegs t p b).purse = h.purse := rfl
@[simp] theorem Hart.trapRegs_frm (t : TrapInfo) (p : Word) (b : Bool) : (h.trapRegs t p b).frm = h.frm := rfl
@[simp] theorem Hart.trapRegs_fflags (t : TrapInfo) (p : Word) (b : Bool) : (h.trapRegs t p b).fflags = h.fflags := rfl
@[simp] theorem Hart.trapRegs_chkEn (t : TrapInfo) (p : Word) (b : Bool) : (h.trapRegs t p b).chkEn = h.chkEn := rfl
@[simp] theorem Hart.trapRegs_mcnt (t : TrapInfo) (p : Word) (b : Bool) : (h.trapRegs t p b).mcnt = h.mcnt := rfl
@[simp] theorem Hart.trapRegs_fst (t : TrapInfo) (p : Word) (b : Bool) : (h.trapRegs t p b).fst = h.fst := rfl
@[simp] theorem Hart.trapRegs_lost (t : TrapInfo) (p : Word) (b : Bool) : (h.trapRegs t p b).lost = h.lost := rfl
@[simp] theorem Hart.trapRegs_tcause (t : TrapInfo) (p : Word) (b : Bool) : (h.trapRegs t p b).tcause = tcauseWord t b := rfl
@[simp] theorem Hart.trapRegs_tpc (t : TrapInfo) (p : Word) (b : Bool) : (h.trapRegs t p b).tpc = p &&& ~~~1 := rfl
@[simp] theorem Hart.trapRegs_tstripe (t : TrapInfo) (p : Word) (b : Bool) : (h.trapRegs t p b).tstripe = wd (t.stripe % 65536) := rfl
@[simp] theorem Hart.trapRegs_tval (t : TrapInfo) (p : Word) (b : Bool) : (h.trapRegs t p b).tval = t.val := rfl
@[simp] theorem Hart.trapRegs_tvec (t : TrapInfo) (p : Word) (b : Bool) : (h.trapRegs t p b).tvec = h.tvec := rfl
@[simp] theorem Hart.trapRegs_lcs (t : TrapInfo) (p : Word) (b : Bool) : (h.trapRegs t p b).lcs = h.lcs := rfl
@[simp] theorem Hart.trapRegs_requester (t : TrapInfo) (p : Word) (b : Bool) : (h.trapRegs t p b).requester = h.requester := rfl
@[simp] theorem Hart.trapRegs_waitAge (t : TrapInfo) (p : Word) (b : Bool) : (h.trapRegs t p b).waitAge = h.waitAge := rfl
@[simp] theorem Hart.trapRegs_unitAge (t : TrapInfo) (p : Word) (b : Bool) : (h.trapRegs t p b).unitAge = h.unitAge := rfl
@[simp] theorem Hart.trapRegs_demand (t : TrapInfo) (p : Word) (b : Bool) : (h.trapRegs t p b).demand = h.demand := rfl
@[simp] theorem Hart.trapRegs_vregs (t : TrapInfo) (p : Word) (b : Bool) : (h.trapRegs t p b).vregs = h.vregs := rfl
@[simp] theorem Hart.trapRegs_vgen (t : TrapInfo) (p : Word) (b : Bool) : (h.trapRegs t p b).vgen = h.vgen := rfl
@[simp] theorem Hart.trapRegs_masks (t : TrapInfo) (p : Word) (b : Bool) : (h.trapRegs t p b).masks = h.masks := rfl
@[simp] theorem Hart.trapRegs_scales (t : TrapInfo) (p : Word) (b : Bool) : (h.trapRegs t p b).scales = h.scales := rfl
@[simp] theorem Hart.trapRegs_shells (t : TrapInfo) (p : Word) (b : Bool) : (h.trapRegs t p b).shells = h.shells := rfl
@[simp] theorem Hart.trapRegs_queues (t : TrapInfo) (p : Word) (b : Bool) : (h.trapRegs t p b).queues = h.queues := rfl
@[simp] theorem Hart.trapRegs_tokens (t : TrapInfo) (p : Word) (b : Bool) : (h.trapRegs t p b).tokens = h.tokens := rfl
@[simp] theorem Hart.trapRegs_poison (t : TrapInfo) (p : Word) (b : Bool) : (h.trapRegs t p b).poison = h.poison := rfl
@[simp] theorem Hart.trapRegs_opened (t : TrapInfo) (p : Word) (b : Bool) : (h.trapRegs t p b).opened = t.opened.or (h.resume.or h.opened) := rfl
@[simp] theorem Hart.trapRegs_resume (t : TrapInfo) (p : Word) (b : Bool) : (h.trapRegs t p b).resume = none := rfl
@[simp] theorem Hart.trapRegs_mvl (t : TrapInfo) (p : Word) (b : Bool) : (h.trapRegs t p b).mvl = h.mvl := rfl
@[simp] theorem Hart.trapRegs_cells (t : TrapInfo) (p : Word) (b : Bool) : (h.trapRegs t p b).cells = h.cells := rfl
@[simp] theorem Hart.trapRegs_xfers (t : TrapInfo) (p : Word) (b : Bool) : (h.trapRegs t p b).xfers = h.xfers := rfl
@[simp] theorem Hart.trapRegs_ptStores (t : TrapInfo) (p : Word) (b : Bool) : (h.trapRegs t p b).ptStores = h.ptStores := rfl
@[simp] theorem Hart.trapRegs_irq (t : TrapInfo) (p : Word) (b : Bool) : (h.trapRegs t p b).irq = h.irq := rfl
@[simp] theorem Hart.trapRegs_preempt (t : TrapInfo) (p : Word) (b : Bool) : (h.trapRegs t p b).preempt = h.preempt := rfl
@[simp] theorem Hart.trapRegs_monitor (t : TrapInfo) (p : Word) (b : Bool) : (h.trapRegs t p b).monitor = h.monitor := rfl
@[simp] theorem Hart.trapRegs_vp (t : TrapInfo) (p : Word) (b : Bool) : (h.trapRegs t p b).vp = h.vp := rfl
@[simp] theorem Hart.trapRegs_vpClosed (t : TrapInfo) (p : Word) (b : Bool) : (h.trapRegs t p b).vpClosed = h.vpClosed := rfl
@[simp] theorem Hart.trapRegs_squash (t : TrapInfo) (p : Word) (b : Bool) : (h.trapRegs t p b).squash = h.squash := rfl
@[simp] theorem Hart.trapRegs_offChip (t : TrapInfo) (p : Word) (b : Bool) : (h.trapRegs t p b).offChip = h.offChip := rfl
@[simp] theorem Hart.trapRegs_aged (t : TrapInfo) (p : Word) (b : Bool) : (h.trapRegs t p b).aged = h.aged := rfl
@[simp] theorem Hart.trapRegs_single (t : TrapInfo) (p : Word) (b : Bool) : (h.trapRegs t p b).single = h.single := rfl
@[simp] theorem Hart.trapRegs_backing (t : TrapInfo) (p : Word) (b : Bool) : (h.trapRegs t p b).backing = h.backing := rfl
@[simp] theorem Hart.trapRegs_ahead (t : TrapInfo) (p : Word) (b : Bool) : (h.trapRegs t p b).ahead = h.ahead := rfl
@[simp] theorem Hart.trapRegs_barred (t : TrapInfo) (p : Word) (b : Bool) : (h.trapRegs t p b).barred = false := rfl

/-! A scalar register written: every field but the registers and their poison stays. -/

@[simp] theorem Hart.setSreg_status (r : SReg) (v : Word) (p : Bool) : (h.setSreg r v p).status = h.status := by
  unfold Hart.setSreg; split <;> rfl
@[simp] theorem Hart.setSreg_core (r : SReg) (v : Word) (p : Bool) : (h.setSreg r v p).core = h.core := by
  unfold Hart.setSreg; split <;> rfl
@[simp] theorem Hart.setSreg_ctx (r : SReg) (v : Word) (p : Bool) : (h.setSreg r v p).ctx = h.ctx := by
  unfold Hart.setSreg; split <;> rfl
@[simp] theorem Hart.setSreg_gang (r : SReg) (v : Word) (p : Bool) : (h.setSreg r v p).gang = h.gang := by
  unfold Hart.setSreg; split <;> rfl
@[simp] theorem Hart.setSreg_index (r : SReg) (v : Word) (p : Bool) : (h.setSreg r v p).index = h.index := by
  unfold Hart.setSreg; split <;> rfl
@[simp] theorem Hart.setSreg_cid (r : SReg) (v : Word) (p : Bool) : (h.setSreg r v p).cid = h.cid := by
  unfold Hart.setSreg; split <;> rfl
@[simp] theorem Hart.setSreg_inc (r : SReg) (v : Word) (p : Bool) : (h.setSreg r v p).inc = h.inc := by
  unfold Hart.setSreg; split <;> rfl
@[simp] theorem Hart.setSreg_pc (r : SReg) (v : Word) (p : Bool) : (h.setSreg r v p).pc = h.pc := by
  unfold Hart.setSreg; split <;> rfl
@[simp] theorem Hart.setSreg_vl (r : SReg) (v : Word) (p : Bool) : (h.setSreg r v p).vl = h.vl := by
  unfold Hart.setSreg; split <;> rfl
@[simp] theorem Hart.setSreg_fmt (r : SReg) (v : Word) (p : Bool) : (h.setSreg r v p).fmt = h.fmt := by
  unfold Hart.setSreg; split <;> rfl
@[simp] theorem Hart.setSreg_nregc (r : SReg) (v : Word) (p : Bool) : (h.setSreg r v p).nregc = h.nregc := by
  unfold Hart.setSreg; split <;> rfl
@[simp] theorem Hart.setSreg_bs (r : SReg) (v : Word) (p : Bool) : (h.setSreg r v p).bs = h.bs := by
  unfold Hart.setSreg; split <;> rfl
@[simp] theorem Hart.setSreg_sat (r : SReg) (v : Word) (p : Bool) : (h.setSreg r v p).sat = h.sat := by
  unfold Hart.setSreg; split <;> rfl
@[simp] theorem Hart.setSreg_bgeo (r : SReg) (v : Word) (p : Bool) : (h.setSreg r v p).bgeo = h.bgeo := by
  unfold Hart.setSreg; split <;> rfl
@[simp] theorem Hart.setSreg_dil (r : SReg) (v : Word) (p : Bool) : (h.setSreg r v p).dil = h.dil := by
  unfold Hart.setSreg; split <;> rfl
@[simp] theorem Hart.setSreg_vbase (r : SReg) (v : Word) (p : Bool) : (h.setSreg r v p).vbase = h.vbase := by
  unfold Hart.setSreg; split <;> rfl
@[simp] theorem Hart.setSreg_cbypass (r : SReg) (v : Word) (p : Bool) : (h.setSreg r v p).cbypass = h.cbypass := by
  unfold Hart.setSreg; split <;> rfl
@[simp] theorem Hart.setSreg_purse (r : SReg) (v : Word) (p : Bool) : (h.setSreg r v p).purse = h.purse := by
  unfold Hart.setSreg; split <;> rfl
@[simp] theorem Hart.setSreg_frm (r : SReg) (v : Word) (p : Bool) : (h.setSreg r v p).frm = h.frm := by
  unfold Hart.setSreg; split <;> rfl
@[simp] theorem Hart.setSreg_fflags (r : SReg) (v : Word) (p : Bool) : (h.setSreg r v p).fflags = h.fflags := by
  unfold Hart.setSreg; split <;> rfl
@[simp] theorem Hart.setSreg_chkEn (r : SReg) (v : Word) (p : Bool) : (h.setSreg r v p).chkEn = h.chkEn := by
  unfold Hart.setSreg; split <;> rfl
@[simp] theorem Hart.setSreg_mcnt (r : SReg) (v : Word) (p : Bool) : (h.setSreg r v p).mcnt = h.mcnt := by
  unfold Hart.setSreg; split <;> rfl
@[simp] theorem Hart.setSreg_fst (r : SReg) (v : Word) (p : Bool) : (h.setSreg r v p).fst = h.fst := by
  unfold Hart.setSreg; split <;> rfl
@[simp] theorem Hart.setSreg_lost (r : SReg) (v : Word) (p : Bool) : (h.setSreg r v p).lost = h.lost := by
  unfold Hart.setSreg; split <;> rfl
@[simp] theorem Hart.setSreg_tcause (r : SReg) (v : Word) (p : Bool) : (h.setSreg r v p).tcause = h.tcause := by
  unfold Hart.setSreg; split <;> rfl
@[simp] theorem Hart.setSreg_tpc (r : SReg) (v : Word) (p : Bool) : (h.setSreg r v p).tpc = h.tpc := by
  unfold Hart.setSreg; split <;> rfl
@[simp] theorem Hart.setSreg_tstripe (r : SReg) (v : Word) (p : Bool) : (h.setSreg r v p).tstripe = h.tstripe := by
  unfold Hart.setSreg; split <;> rfl
@[simp] theorem Hart.setSreg_tval (r : SReg) (v : Word) (p : Bool) : (h.setSreg r v p).tval = h.tval := by
  unfold Hart.setSreg; split <;> rfl
@[simp] theorem Hart.setSreg_tvec (r : SReg) (v : Word) (p : Bool) : (h.setSreg r v p).tvec = h.tvec := by
  unfold Hart.setSreg; split <;> rfl
@[simp] theorem Hart.setSreg_lcs (r : SReg) (v : Word) (p : Bool) : (h.setSreg r v p).lcs = h.lcs := by
  unfold Hart.setSreg; split <;> rfl
@[simp] theorem Hart.setSreg_requester (r : SReg) (v : Word) (p : Bool) : (h.setSreg r v p).requester = h.requester := by
  unfold Hart.setSreg; split <;> rfl
@[simp] theorem Hart.setSreg_waitAge (r : SReg) (v : Word) (p : Bool) : (h.setSreg r v p).waitAge = h.waitAge := by
  unfold Hart.setSreg; split <;> rfl
@[simp] theorem Hart.setSreg_unitAge (r : SReg) (v : Word) (p : Bool) : (h.setSreg r v p).unitAge = h.unitAge := by
  unfold Hart.setSreg; split <;> rfl
@[simp] theorem Hart.setSreg_demand (r : SReg) (v : Word) (p : Bool) : (h.setSreg r v p).demand = h.demand := by
  unfold Hart.setSreg; split <;> rfl
@[simp] theorem Hart.setSreg_vregs (r : SReg) (v : Word) (p : Bool) : (h.setSreg r v p).vregs = h.vregs := by
  unfold Hart.setSreg; split <;> rfl
@[simp] theorem Hart.setSreg_vgen (r : SReg) (v : Word) (p : Bool) : (h.setSreg r v p).vgen = h.vgen := by
  unfold Hart.setSreg; split <;> rfl
@[simp] theorem Hart.setSreg_masks (r : SReg) (v : Word) (p : Bool) : (h.setSreg r v p).masks = h.masks := by
  unfold Hart.setSreg; split <;> rfl
@[simp] theorem Hart.setSreg_scales (r : SReg) (v : Word) (p : Bool) : (h.setSreg r v p).scales = h.scales := by
  unfold Hart.setSreg; split <;> rfl
@[simp] theorem Hart.setSreg_shells (r : SReg) (v : Word) (p : Bool) : (h.setSreg r v p).shells = h.shells := by
  unfold Hart.setSreg; split <;> rfl
@[simp] theorem Hart.setSreg_queues (r : SReg) (v : Word) (p : Bool) : (h.setSreg r v p).queues = h.queues := by
  unfold Hart.setSreg; split <;> rfl
@[simp] theorem Hart.setSreg_tokens (r : SReg) (v : Word) (p : Bool) : (h.setSreg r v p).tokens = h.tokens := by
  unfold Hart.setSreg; split <;> rfl
@[simp] theorem Hart.setSreg_opened (r : SReg) (v : Word) (p : Bool) : (h.setSreg r v p).opened = h.opened := by
  unfold Hart.setSreg; split <;> rfl
@[simp] theorem Hart.setSreg_resume (r : SReg) (v : Word) (p : Bool) : (h.setSreg r v p).resume = h.resume := by
  unfold Hart.setSreg; split <;> rfl
@[simp] theorem Hart.setSreg_mvl (r : SReg) (v : Word) (p : Bool) : (h.setSreg r v p).mvl = h.mvl := by
  unfold Hart.setSreg; split <;> rfl
@[simp] theorem Hart.setSreg_cells (r : SReg) (v : Word) (p : Bool) : (h.setSreg r v p).cells = h.cells := by
  unfold Hart.setSreg; split <;> rfl
@[simp] theorem Hart.setSreg_xfers (r : SReg) (v : Word) (p : Bool) : (h.setSreg r v p).xfers = h.xfers := by
  unfold Hart.setSreg; split <;> rfl
@[simp] theorem Hart.setSreg_ptStores (r : SReg) (v : Word) (p : Bool) : (h.setSreg r v p).ptStores = h.ptStores := by
  unfold Hart.setSreg; split <;> rfl
@[simp] theorem Hart.setSreg_irq (r : SReg) (v : Word) (p : Bool) : (h.setSreg r v p).irq = h.irq := by
  unfold Hart.setSreg; split <;> rfl
@[simp] theorem Hart.setSreg_preempt (r : SReg) (v : Word) (p : Bool) : (h.setSreg r v p).preempt = h.preempt := by
  unfold Hart.setSreg; split <;> rfl
@[simp] theorem Hart.setSreg_monitor (r : SReg) (v : Word) (p : Bool) : (h.setSreg r v p).monitor = h.monitor := by
  unfold Hart.setSreg; split <;> rfl
@[simp] theorem Hart.setSreg_vp (r : SReg) (v : Word) (p : Bool) : (h.setSreg r v p).vp = h.vp := by
  unfold Hart.setSreg; split <;> rfl
@[simp] theorem Hart.setSreg_vpClosed (r : SReg) (v : Word) (p : Bool) : (h.setSreg r v p).vpClosed = h.vpClosed := by
  unfold Hart.setSreg; split <;> rfl
@[simp] theorem Hart.setSreg_squash (r : SReg) (v : Word) (p : Bool) : (h.setSreg r v p).squash = h.squash := by
  unfold Hart.setSreg; split <;> rfl
@[simp] theorem Hart.setSreg_offChip (r : SReg) (v : Word) (p : Bool) : (h.setSreg r v p).offChip = h.offChip := by
  unfold Hart.setSreg; split <;> rfl
@[simp] theorem Hart.setSreg_aged (r : SReg) (v : Word) (p : Bool) : (h.setSreg r v p).aged = h.aged := by
  unfold Hart.setSreg; split <;> rfl
@[simp] theorem Hart.setSreg_single (r : SReg) (v : Word) (p : Bool) : (h.setSreg r v p).single = h.single := by
  unfold Hart.setSreg; split <;> rfl
@[simp] theorem Hart.setSreg_backing (r : SReg) (v : Word) (p : Bool) : (h.setSreg r v p).backing = h.backing := by
  unfold Hart.setSreg; split <;> rfl
@[simp] theorem Hart.setSreg_ahead (r : SReg) (v : Word) (p : Bool) : (h.setSreg r v p).ahead = h.ahead := by
  unfold Hart.setSreg; split <;> rfl
@[simp] theorem Hart.setSreg_barred (r : SReg) (v : Word) (p : Bool) : (h.setSreg r v p).barred = h.barred := by
  unfold Hart.setSreg; split <;> rfl

/-- Reading a register after a write to it: s0 reads 0, any other the value written (R272). -/
theorem Hart.sreg_setSreg_same (r : SReg) (v : Word) (p : Bool) : (h.setSreg r v p).sreg r = if r = 0 then 0 else v := by
  unfold Hart.setSreg Hart.sreg; split <;> simp

/-- A write to one register leaves the others. -/
theorem Hart.sreg_setSreg_other {r q : SReg} (v : Word) (p : Bool) (hq : q ≠ r) : (h.setSreg r v p).sreg q = h.sreg q := by
  unfold Hart.setSreg Hart.sreg
  split
  · rfl
  · split
    · rfl
    · have hne : r.val ≠ q.val := fun he => hq (Fin.ext he.symm)
      exact Vector.getElem_set_ne (hi := r.isLt) (hj := q.isLt) hne

@[simp] theorem Hart.sreg_zero : h.sreg 0 = 0 := by simp [Hart.sreg]

end Sys2Proof.Machine
end

