-- ==== Sys2Proof/Laws/Issue.lean ====
section
/-! SUPPORT. What issuing a form comes to (R25, R109): for a body that completes, jumps, traps, waits or leaves. -/

namespace Sys2Proof.Machine

/-- Taking a token leaves the hart's place among the harts, so the forms that it holds stay the same. -/
theorem heldOf_tokens (s : State) (v : Vector Nat 25) :
    State.heldOf { s with h := { s.h with tokens := v } } { s.h with tokens := v } = s.heldOf s.h := rfl

theorem popTok_eq {i : Instr} {s : State} (h : Issues i s) :
    s.popTok i.stack i.adm.queue = some (issued i s) := by
  unfold State.popTok issued
  cases hp : popFifo i.stack i.adm.queue with
  | none => rfl
  | some f =>
    have ht := h.token f hp
    have ha : s.heldOf s.h = [] := h.alone
    simp only [h.afresh, h.inTurn, Option.isSome_none, List.isEmpty_nil, Bool.not_true, Bool.or_false, Bool.false_eq_true, if_false, ht]
    rw [show State.heldOf (s.modH fun h => { h with tokens := h.tokens.setIfInBounds f (h.tokens.getD f 0 - 1) })
      (s.modH fun h => { h with tokens := h.tokens.setIfInBounds f (h.tokens.getD f 0 - 1) }).h = [] from ha]
    rfl

theorem issue_thread {i : Instr} {body : State → Res} {s : State} (h : Issues i s) :
    issue i body s = .next (issueForm i body s) := by
  unfold issue Hart.group
  rw [h.thread]
  rfl

/-- A form of its turn does not wait for transfers that cannot be performed. -/
theorem free_eq {i : Instr} {s : State} (h : Issues i s) : (i.effect != .internal && s.stuck) = false := by
  rcases h.free with he | hs
  · rw [he]; rfl
  · rw [hs, Bool.and_false]

theorem retire_eq {i : Instr} {s s1 t : State} {pc : Word} (ha : s.heldOf s.h = [])
    (hp : ∀ f, pushFifo i.stack i.adm.queue = some f → t.h.hasPlace f = true) :
    retire i s s1 t pc = completed i t pc := by
  unfold retire completed
  dsimp only
  generalize pushFifo i.stack i.adm.queue = q at *
  cases q with
  | none => simp [ha]
  | some f => simp [ha, hp f rfl]

/-- A form whose body completes. -/
theorem issue_done {i : Instr} {body : State → Res} {s t : State} (h : Issues i s) (hb : body (issued i s) = .done t)
    (ht : t.h.tokens = (issued i s).h.tokens) : issue i body s = .next (completed i t (behind i s)) := by
  rw [issue_thread h]
  unfold issueForm
  simp only [popTok_eq h, h.alone, free_eq h, List.isEmpty_nil, Bool.not_true, Bool.false_and, Bool.false_eq_true, if_false, hb]
  rw [retire_eq h.alone]
  · rfl
  · intro f hf
    have := h.place f hf
    unfold Hart.hasPlace at this ⊢
    rw [ht]
    exact this

/-- A form whose body jumps. -/
theorem issue_jump {i : Instr} {body : State → Res} {s t : State} {pc : Word} (h : Issues i s)
    (hb : body (issued i s) = .jump t pc) (ht : t.h.tokens = (issued i s).h.tokens) :
    issue i body s = .next (completed i t pc) := by
  rw [issue_thread h]
  unfold issueForm
  simp only [popTok_eq h, h.alone, free_eq h, List.isEmpty_nil, Bool.not_true, Bool.false_and, Bool.false_eq_true, if_false, hb]
  rw [retire_eq h.alone]
  intro f hf
  have := h.place f hf
  unfold Hart.hasPlace at this ⊢
  rw [ht]
  exact this

/-- A form whose body traps as a whole: its token is back. -/
theorem issue_trap {i : Instr} {body : State → Res} {s t : State} {k : TrapInfo} (h : Issues i s)
    (hb : body (issued i s) = .trap t k) (hk : k.opened = none) :
    issue i body s =
      .next (takeTrap k (s.h.pc + wd k.unit) false (t.modH fun h => { h with tokens := s.h.tokens })) := by
  rw [issue_thread h]
  unfold issueForm
  simp [popTok_eq h, h.alone, free_eq h, hb, hk]

/-- A hart that has issued nothing ahead of its turn stays as it is. -/
theorem ahead_tail {h : Hart} (ha : h.ahead = []) : { h with ahead := h.ahead.tail } = h := by
  cases h; subst ha; rfl

/-- A form whose body leaves the program. -/
theorem issue_gone {i : Instr} {body : State → Res} {s t : State} (h : Issues i s)
    (hb : body (issued i s) = .gone t) (ht : t.h.ahead = []) : issue i body s = .next t := by
  rw [issue_thread h]
  unfold issueForm
  simp only [popTok_eq h, h.alone, free_eq h, List.isEmpty_nil, Bool.not_true, Bool.false_and, Bool.false_eq_true, if_false, hb]
  congr 1
  exact congrArg (fun h => { t with h := h }) (ahead_tail ht)

/-! Bodies under conditions that hold. -/

/-- Outside a block a scalar operand is the register itself. -/
theorem operand_eq {h : Hart} (hv : h.vp = none) (r : SReg) : h.operand r = h.sreg r := by
  unfold Hart.operand Hart.block; rw [hv]; rfl

theorem operandPoison_eq {h : Hart} (hv : h.vp = none) (r : SReg) : h.operandPoison r = h.sPoison r := by
  unfold Hart.operandPoison Hart.block; rw [hv]; rfl

theorem withClean_eq {rs : List SReg} {k : State → Res} {s : State} (hv : s.h.vp = none) (h : Clean rs s) :
    withClean rs k s = k s := by
  unfold withClean
  have : rs.find? s.h.operandPoison = none := by
    rw [List.find?_eq_none]
    intro r hr
    simp [operandPoison_eq hv, h r hr]
  rw [this]

theorem takeUpset_none {p : Upset → Bool} {s : State} (h : NoUpset s) : takeUpset p s = none := by
  unfold takeUpset
  rw [h]
  rfl

theorem voted_eq {x : Stack} {k : State → Res} {s : State} (h : NoUpset s) : voted x k s = k s := by
  unfold voted
  rw [takeUpset_none h]
  split <;> rfl

theorem checked_eq {i : Instr} {k : Option Split → State → Res} {s : State} (h : NoUpset s) : checked i k s = k none s := by
  unfold checked
  rw [takeUpset_none h, takeUpset_none h]
  split
  · rfl
  · split <;> rfl

@[simp] theorem issued_mem (i : Instr) (s : State) : (issued i s).mem = s.mem := by unfold issued; split <;> rfl
@[simp] theorem issued_sys (i : Instr) (s : State) : (issued i s).sys = s.sys := by unfold issued; split <;> rfl
@[simp] theorem issued_rest (i : Instr) (s : State) : (issued i s).rest = s.rest := by unfold issued; split <;> rfl
@[simp] theorem issued_upsets (i : Instr) (s : State) : (issued i s).upsets = s.upsets := by unfold issued; split <;> rfl
@[simp] theorem issued_pc (i : Instr) (s : State) : (issued i s).h.pc = s.h.pc := by unfold issued; split <;> rfl
@[simp] theorem issued_vp (i : Instr) (s : State) : (issued i s).h.vp = s.h.vp := by unfold issued; split <;> rfl
@[simp] theorem issued_ahead (i : Instr) (s : State) : (issued i s).h.ahead = s.h.ahead := by unfold issued; split <;> rfl
@[simp] theorem issued_sregs (i : Instr) (s : State) : (issued i s).h.sregs = s.h.sregs := by unfold issued; split <;> rfl
@[simp] theorem issued_poison (i : Instr) (s : State) : (issued i s).h.poison = s.h.poison := by
  unfold issued; split <;> rfl

@[simp] theorem issued_sreg (i : Instr) (s : State) (r : SReg) : (issued i s).h.sreg r = s.h.sreg r := by
  unfold Hart.sreg; rw [issued_sregs]

theorem clean_issued {i : Instr} {rs : List SReg} {s : State} (h : Clean rs s) : Clean rs (issued i s) := by
  intro r hr
  have := h r hr
  unfold Hart.sPoison at this ⊢
  rw [issued_poison]
  exact this

theorem noUpset_issued {i : Instr} {s : State} (h : NoUpset s) : NoUpset (issued i s) := by
  unfold NoUpset; rw [issued_upsets]; exact h

/-- A scalar register operation completes (R272). -/
theorem alu_eq {i : Instr} {d : SReg} {rs : List SReg} {f : Hart → Word} {s : State} (h : Issues i s)
    (hc : Clean rs s) (hu : NoUpset s) : alu i d rs f s = passes i s fun t => t.writeS d (f t.h) := by
  unfold alu
  rw [issue_done h (t := (issued i s).writeS d (f (issued i s).h))]
  · rfl
  · split
    · next hd => subst hd; rfl
    · rw [voted_eq (noUpset_issued hu), withClean_eq (by rw [issued_vp]; exact h.thread) (clean_issued hc)]
  · simp

/-- A branch completes (R283). -/
theorem branch_eq {i : Instr} {rs : List SReg} {c : Hart → Bool} {off : Word} {s : State} (h : Issues i s)
    (hc : Clean rs s) :
    branch i rs c off s = jumpsTo i s id (if c (issued i s).h then s.h.pc + off else behind i s) := by
  unfold branch
  cases hcond : c (issued i s).h with
  | true =>
    rw [issue_jump h (t := issued i s) (pc := s.h.pc + off)]
    · rfl
    · rw [withClean_eq (by rw [issued_vp]; exact h.thread) (clean_issued hc), hcond]; simp
    · rfl
  | false =>
    rw [issue_done h (t := issued i s)]
    · rfl
    · rw [withClean_eq (by rw [issued_vp]; exact h.thread) (clean_issued hc), hcond]; rfl
    · rfl

end Sys2Proof.Machine
end

