-- ==== Sys2Proof/Laws/Calm.lean ====
section
/-! SUPPORT. What writes and engine transfers leave of the harts: the hart in focus, when it runs, keeps all but its vector
registers (R104), its transfers, its PT stores and its lost writes; the others stay where they stand. -/

namespace Sys2Proof
namespace Machine

/-- A hart keeps its place, its gang, its context and its backing area, and stays placed or absent. -/
structure Hart.Stays (h k : Hart) : Prop where
  core : k.core = h.core
  ctx : k.ctx = h.ctx
  gang : k.gang = h.gang
  index : k.index = h.index
  cid : k.cid = h.cid
  vbase : k.vbase = h.vbase
  backing : k.backing = h.backing
  placed : k.status = .absent ↔ h.status = .absent

theorem Hart.Stays.refl (h : Hart) : h.Stays h := ⟨rfl, rfl, rfl, rfl, rfl, rfl, rfl, Iff.rfl⟩

theorem Hart.Stays.trans {a b c : Hart} (p : a.Stays b) (q : b.Stays c) : a.Stays c :=
  ⟨q.core.trans p.core, q.ctx.trans p.ctx, q.gang.trans p.gang, q.index.trans p.index, q.cid.trans p.cid,
    q.vbase.trans p.vbase, q.backing.trans p.backing, q.placed.trans p.placed⟩

/-- All of a hart but what writes and transfers may change. -/
def Hart.Kept (h k : Hart) : Prop :=
  k = { h with vregs := k.vregs, vgen := k.vgen, xfers := k.xfers, ptStores := k.ptStores, lost := k.lost, fst := k.fst }

theorem Hart.Kept.trans {a b c : Hart} (p : a.Kept b) (q : b.Kept c) : a.Kept c := by
  unfold Hart.Kept at *
  exact q.trans (by rw [p])

/-- Writes and transfers lead from `s` to `t`. -/
structure Calm (s t : State) : Prop where
  focus : s.h.status = .running → s.h.Kept t.h
  others : List.Forall₂ Hart.Stays s.rest t.rest
  sys : t.sys = s.sys
  cores : t.cores = s.cores
  upsets : t.upsets = s.upsets
  tick : t.tick = s.tick

theorem Calm.refl (s : State) : Calm s s :=
  ⟨fun _ => rfl, List.forall₂_same.2 fun h _ => Hart.Stays.refl h, rfl, rfl, rfl, rfl⟩

theorem Hart.Kept.status {h k : Hart} (p : h.Kept k) : k.status = h.status := by rw [p]
theorem Hart.Kept.tokens {h k : Hart} (p : h.Kept k) : k.tokens = h.tokens := by rw [p]
theorem Hart.Kept.core {h k : Hart} (p : h.Kept k) : k.core = h.core := by rw [p]
theorem Hart.Kept.cid {h k : Hart} (p : h.Kept k) : k.cid = h.cid := by rw [p]
theorem Hart.Kept.sregs {h k : Hart} (p : h.Kept k) : k.sregs = h.sregs := by rw [p]
theorem Hart.Kept.poison {h k : Hart} (p : h.Kept k) : k.poison = h.poison := by rw [p]
theorem Hart.Kept.vbase {h k : Hart} (p : h.Kept k) : k.vbase = h.vbase := by rw [p]
theorem Hart.Kept.backing {h k : Hart} (p : h.Kept k) : k.backing = h.backing := by rw [p]

theorem Calm.trans {s t u : State} (p : Calm s t) (q : Calm t u) : Calm s u where
  focus hr := (p.focus hr).trans (q.focus ((p.focus hr).status.trans hr))
  others := by
    refine List.forall₂_iff_get.2 ⟨(p.others.length_eq).trans q.others.length_eq, fun i h1 h3 => ?_⟩
    have h2 : i < t.rest.length := p.others.length_eq ▸ h1
    exact (p.others.get h1 h2).trans (q.others.get h2 h3)
  sys := q.sys.trans p.sys
  cores := q.cores.trans p.cores
  upsets := q.upsets.trans p.upsets
  tick := q.tick.trans p.tick

theorem Calm.foldl {α : Type} {f : State → α → State} (hf : ∀ s x, Calm s (f s x)) : ∀ (l : List α) (s : State), Calm s (l.foldl f s)
  | [], s => Calm.refl s
  | x :: l, s => (hf s x).trans (Calm.foldl hf l _)

/-- Changes of memory, and steps posted, change no hart. -/
theorem calm_modMem (s : State) (f : Mem → Mem) : Calm s (s.modMem f) := ⟨(Calm.refl s).focus, (Calm.refl s).others, rfl, rfl, rfl, rfl⟩

theorem calm_post (s : State) (i : Instr) : Calm s (s.post i) := ⟨(Calm.refl s).focus, (Calm.refl s).others, rfl, rfl, rfl, rfl⟩

/-- A change made to harts alike, which keeps what a hart keeps. -/
theorem calm_map (s : State) (f : Hart → Hart) (hk : ∀ h : Hart, h.Kept (f h)) :
    Calm s { s with h := f s.h, rest := s.rest.map f } :=
  ⟨fun _ => hk _, List.forall₂_map_right_iff.2 (List.forall₂_same.2 fun h _ => by
    have := hk h
    unfold Hart.Kept at this
    rw [this]
    exact ⟨rfl, rfl, rfl, rfl, rfl, rfl, rfl, Iff.rfl⟩), rfl, rfl, rfl, rfl⟩

theorem calm_updH (s : State) (h : Hart) (f : Hart → Hart) (hk : ∀ k : Hart, k.Kept (f k)) : Calm s (s.updH h f) :=
  calm_map s (fun k => if k.at h.core h.ctx then f k else k) fun k => by
    split
    · exact hk k
    · rfl

theorem calm_spoil (s : State) (p : Hart → Bool) : Calm s (s.spoil p) :=
  calm_map s (fun h => if p h then { h with vregs := [], vgen := h.vgen + 1 } else h) fun h => by
    split <;> rfl

theorem calm_intoBacking {s : State} {pa : Nat} {bs : List Byte} {k : State → List Byte → State}
    (hk : ∀ t b, Calm t (k t b)) : Calm s (s.intoBacking pa bs k) := by
  unfold State.intoBacking
  split
  · exact (calm_spoil ..).trans (hk ..)
  · exact hk ..

theorem finishHart_stays (h : Hart) (x : Stack) (q : Fin 5) (hs : h.status ≠ .absent) : h.Stays (finishHart h x q).1 := by
  have hr : Status.running = .absent ↔ h.status = .absent := by simp [hs]
  unfold finishHart
  cases pushFifo x q with
  | none => exact ⟨rfl, rfl, rfl, rfl, rfl, rfl, rfl, hr⟩
  | some f =>
    dsimp only
    generalize Hart.hasPlace _ f = b
    cases b <;> exact ⟨rfl, rfl, rfl, rfl, rfl, rfl, rfl, hr⟩

theorem wakeHart_stays (h : Hart) : h.Stays (wakeHart h).1 := by
  unfold wakeHart
  split
  · rename_i hs; exact finishHart_stays _ _ _ (by rw [hs]; simp)
  · exact Hart.Stays.refl h

theorem calm_noteWrite (s : State) (pa n : Nat) : Calm s (s.noteWrite pa n) where
  focus hr := by
    have hm : s.h.monitors pa n = false := by simp [Hart.monitors, hr]
    unfold State.noteWrite State.finishWhere
    simp only [hm, Bool.false_eq_true, if_false]
    rfl
  others := by
    unfold State.noteWrite State.finishWhere
    refine List.forall₂_map_right_iff.2 (List.forall₂_same.2 fun h _ => ?_)
    dsimp only; split
    · exact wakeHart_stays h
    · exact Hart.Stays.refl h
  sys := rfl
  cores := rfl
  upsets := rfl
  tick := rfl

theorem calm_writePhys (s : State) (h : Hart) (p : Phys) (bs : List Byte) (q : Bool) : Calm s (s.writePhys h p bs q) := by
  unfold State.writePhys
  refine Calm.trans ?_ (calm_noteWrite ..)
  split
  · exact calm_modMem ..
  · split
    · exact calm_post ..
    · split
      · exact calm_updH _ _ _ fun _ => rfl
      · refine calm_intoBacking fun t b => ?_
        split
        · refine Calm.trans (calm_updH t _ _ fun k => ?_) (calm_modMem ..)
          rfl
        · split <;> exact calm_modMem ..

theorem calm_atHome (s : State) (h : Hart) (p : Phys) (n : Nat) : Calm s (s.atHome h p n) := by
  unfold State.atHome
  split
  · exact Calm.refl s
  · exact calm_modMem ..

theorem calm_writeHome (s : State) (h : Hart) (p : Phys) (bs : List Byte) (q : Bool) : Calm s (s.writeHome h p bs q) := by
  unfold State.writeHome
  dsimp only
  refine (calm_atHome s h p bs.length).trans ?_
  split
  · exact calm_writePhys ..
  · exact (calm_intoBacking fun t b => calm_modMem ..).trans (calm_noteWrite ..)

/-- Performing an element of a transfer. -/
theorem calm_performElem (h : Hart) (s : State) (e : XElem) : Calm s (performElem h s e) := by
  cases e
  · unfold performElem
    dsimp only
    split
    · exact (calm_writePhys ..).trans (calm_writePhys ..)
    · exact calm_writePhys ..
  · exact calm_writePhys ..
  · exact calm_writeHome ..
  · exact Calm.refl s

theorem calm_addProgress (h : Hart) (s : State) (p : Phys) (n : Nat) : Calm s (addProgress h s p n) := by
  unfold addProgress
  split
  · exact Calm.refl s
  · exact calm_writeHome ..

theorem recordLoss_kept (h : Hart) : h.Kept h.recordLoss := by
  unfold Hart.recordLoss
  split <;> rfl

theorem calm_notifyXfer (h : Hart) (s : State) (n : Notify) (k : Nat) : Calm s (notifyXfer h s n k) := by
  unfold notifyXfer
  dsimp only
  refine Calm.trans ?_ (calm_addProgress ..)
  split
  · exact (calm_modMem ..).trans (calm_updH _ _ _ recordLoss_kept)
  · exact Calm.refl _

/-- Performing a transfer, and its progress add. -/
theorem calm_performXfer (h : Hart) (s : State) (x : Xfer) : Calm s (performXfer h s x) := by
  unfold performXfer
  refine (Calm.foldl (calm_performElem h) x.elems s).trans ?_
  dsimp only
  split
  · exact Calm.refl _
  · exact calm_notifyXfer ..

/-- The writes to tables have completed. -/
theorem calm_settle (s : State) : Calm s s.settle :=
  (calm_modMem _ _).trans (calm_map _ (fun h => { h with ptStores := 0 }) fun _ => rfl)

theorem calm_performOf (s : State) (h : Hart) : Calm s (s.performOf h) := by
  unfold State.performOf
  split
  · exact Calm.refl s
  · exact (Calm.foldl (fun t x => Calm.foldl (calm_performElem h) (Xfer.elems x) t) _ s).trans (calm_updH _ _ _ fun _ => rfl)

theorem calm_payOf (s : State) (h : Hart) : Calm s (s.payOf h) := by
  unfold State.payOf
  split
  · exact Calm.refl s
  · refine (Calm.foldl (fun t x => ?_) _ s).trans (calm_updH _ _ _ fun _ => rfl)
    split
    · exact Calm.refl _
    · refine Calm.trans ?_ (calm_notifyXfer ..)
      split
      · exact calm_settle t
      · exact Calm.refl t

/-- Completing every access. -/
theorem calm_completeAll (s : State) : Calm s s.completeAll := by
  unfold State.completeAll
  dsimp only
  refine ((Calm.foldl calm_performOf s.harts s).trans (calm_settle _)).trans ?_
  split
  · exact (Calm.foldl calm_payOf _ _).trans (calm_settle _)
  · exact Calm.refl _

theorem calm_drainOf (s : State) (h : Hart) : Calm s (s.drainOf h) := by
  unfold State.drainOf
  split
  · exact Calm.refl s
  · split
    · exact calm_completeAll s
    · exact (Calm.foldl (calm_performXfer h) _ s).trans (calm_updH _ _ _ fun _ => rfl)

theorem calm_drainWhere (p : Hart → Bool) (s : State) : Calm s (s.drainWhere p) :=
  Calm.foldl (fun t h => by
    split
    · exact calm_drainOf ..
    · exact Calm.refl t) _ s

theorem calm_completePt (s : State) : Calm s s.completePt := by
  unfold State.completePt
  split
  · exact Calm.refl s
  · exact calm_completeAll s

theorem calm_drain (s : State) : Calm s s.drain := calm_drainOf ..

/-- A release. -/
theorem calm_release (s : State) (sc : Scope) : Calm s (s.release sc) := by
  unfold State.release
  dsimp only
  refine (calm_drain s).trans ?_
  split
  · refine (calm_modMem s.drain fun m => m.flush s.drain.h.core).trans ((calm_completePt _).trans ?_)
    exact ⟨fun _ => recordLoss_kept _, (Calm.refl _).others, rfl, rfl, rfl, rfl⟩
  · exact Calm.refl _

/-- The backing areas stay. -/
theorem Calm.inBacking {s t : State} (p : Calm s t) (hr : s.h.status = .running) (a n : Nat) : t.inBacking a n = s.inBacking a n := by
  have hk := p.focus hr
  have hb : ∀ {h k : Hart}, h.Stays k → ∀ c, k.backs c a n = h.backs c a n := fun {h k} q c => by
    unfold Hart.backs
    rw [q.vbase, q.cid]
    have : (k.status != .absent) = (h.status != .absent) := by
      rw [Bool.eq_iff_iff]; simp only [bne_iff_ne]; exact not_congr q.placed
    rw [this]
  have hp : ∀ {h k : Hart}, h.Stays k → ∀ c, (k.status != .absent && k.backs c a n) = (h.status != .absent && h.backs c a n) :=
    fun {h k} q c => by
      rw [hb q c]
      have : (k.status != .absent) = (h.status != .absent) := by
        rw [Bool.eq_iff_iff]; simp only [bne_iff_ne]; exact not_congr q.placed
      rw [this]
  have hs : s.h.Stays t.h := by
    rw [hk]; exact ⟨rfl, rfl, rfl, rfl, rfl, rfl, rfl, Iff.rfl⟩
  have hl : ∀ (l m : List Hart), List.Forall₂ Hart.Stays l m → ∀ c, m.any (fun h => h.status != .absent && h.backs c a n)
      = l.any fun h => h.status != .absent && h.backs c a n := by
    intro l m h c
    induction h with
    | nil => rfl
    | cons q _ ih => simp only [List.any_cons, hp q, ih]
  unfold State.inBacking State.harts
  simp only [List.any_filter]
  rw [hl _ _ (List.Forall₂.cons hs p.others), hk.cid]

end Machine
end Sys2Proof
end

