-- ==== Sys2Proof/Laws/Bodies.lean ====
section
/-! SUPPORT. What the shared bodies come to where nothing stands in the way: scalar accesses, acquire and release, writes
at a place. -/

namespace Sys2Proof
namespace Machine

/-! A translation, and with it a probe, depends on memory and the module alone. -/

theorem walkFrom_congr {s t : State} (hm : s.mem = t.mem) (hs : s.sys = t.sys) (va : Nat) : ∀ (ls : List Nat) (b : Nat) (ps : List Nat),
    walkFrom s va ls b ps = walkFrom t va ls b ps
  | [], _, _ => rfl
  | l :: ls, b, ps => by
    have ih := walkFrom_congr hm hs va ls
    unfold walkFrom State.entryPoisoned
    simp only [hm, hs, ih]

theorem walk_congr {s t : State} (hm : s.mem = t.mem) (hs : s.sys = t.sys) (cid : BitVec 12) (va : Nat) :
    walk s cid va = walk t cid va := by
  unfold walk State.rootOf State.entryPoisoned State.contextAt
  simp only [hm, hs, walkFrom_congr hm hs]

theorem translateBy_congr {s t : State} (hm : s.mem = t.mem) (hs : s.sys = t.sys) (a : TAgent) (c : CoreId) (cid : BitVec 12)
    (va : Nat) : translateBy s a c cid va = translateBy t a c cid va := by
  unfold translateBy walkBy
  simp only [hm, walk_congr hm hs, walkFrom_congr hm hs]

theorem probeAt_congr {s t : State} (hm : s.mem = t.mem) (hs : s.sys = t.sys) (need : Need) (g : TAgent) (c : CoreId)
    (cid : BitVec 12) (q : BitVec 8) (a : Int) (n k : Nat) : probeAt s need g c cid q a n k = probeAt t need g c cid q a n k := by
  unfold probeAt probeByte checkLeaf
  simp only [translateBy_congr hm hs, hs]

theorem spqOf_congr {s t : State} (hs : s.sys = t.sys) (g : BitVec 8) : s.spqOf g = t.spqOf g := by
  unfold State.spqOf; rw [hs]

/-- Two states with one memory, one module, and harts in focus that stand at one place, probe alike. -/
theorem probe_congr {s t : State} (hm : s.mem = t.mem) (hs : s.sys = t.sys) (hc : s.h.core = t.h.core) (hi : s.h.cid = t.h.cid)
    (hg : s.h.gang = t.h.gang) (need : Need) (a : Int) (n k : Nat) : probe s need a n k = probe t need a n k := by
  unfold probe
  rw [probeAt_congr hm hs, hc, hi, hg, spqOf_congr hs]

theorem issued_probe (i : Instr) (s : State) (need : Need) (a : Int) (n k : Nat) :
    probe (issued i s) need a n k = probe s need a n k := by
  apply probe_congr <;> (unfold issued; split <;> rfl)

theorem issued_inBacking (i : Instr) (s : State) (a n : Nat) : (issued i s).inBacking a n = s.inBacking a n := by
  unfold issued
  split
  · rfl
  · unfold State.inBacking State.harts
    simp [State.modH, Hart.backs]

theorem issued_xfers (i : Instr) (s : State) : (issued i s).h.xfers = s.h.xfers := by
  unfold issued; split <;> rfl

theorem reaches_issued {need : Need} {va : Int} {n : Nat} {p : Phys} {s : State} (i : Instr)
    (h : Reaches need va n p s) : Reaches need va n p (issued i s) :=
  ⟨(issued_probe ..).trans h.place, (issued_xfers ..).trans h.idle, (issued_inBacking ..).trans h.plainly⟩

/-- A probe that finds a place has found the address aligned. -/
theorem probe_aligned {s : State} {need : Need} {a : Int} {n k : Nat} {p : Phys} (h : probe s need a n k = .ok p) :
    a.toNat % k = 0 := by
  unfold probe probeAt at h
  by_cases hm : (a.toNat % k != 0) = true
  · simp only [hm] at h
    split at h
    · cases h
    · split at h <;> simp at h
  · simpa using hm

theorem scalarAt_eq {need : Need} {va : Int} {n : Nat} {p : Phys} {k : Phys → State → Res} {s : State}
    (h : Reaches need va n p s) : scalarAt need va n n k s = k p s := by
  unfold scalarAt State.interlock
  rw [h.place, h.idle]
  simp

theorem szBytes_mem (z : Sz) : szBytes z = 1 ∨ szBytes z = 2 ∨ szBytes z = 4 ∨ szBytes z = 8 := by
  cases z <;> simp [szBytes]

theorem in_page {a n : Nat} (hn : n = 1 ∨ n = 2 ∨ n = 4 ∨ n = 8) (h : a % n = 0) : n ≤ 4096 - a % 4096 := by
  rcases hn with rfl | rfl | rfl | rfl <;> omega

theorem loadBytes_eq {s : State} {va : Nat} {p : Phys} {n : Nat} (hb : s.inBacking va n = false)
    (hn : n ≤ 4096 - va % 4096) : s.loadBytes va p n = s.readPhys s.h.core p n := by
  unfold State.loadBytes
  simp [hb, hn]

theorem storeBytes_eq {s : State} {va : Nat} {p : Phys} {bs : List Byte} {q : Bool}
    (hb : s.inBacking va bs.length = false) (hn : bs.length ≤ 4096 - va % 4096) :
    s.storeBytes va p bs q = s.writePhys s.h p bs q := by
  unfold State.storeBytes
  simp [hb, hn]

theorem natToBytes_length (n v : Nat) : (natToBytes n v).length = n := by
  induction n generalizing v with
  | zero => rfl
  | succ n ih => simp [natToBytes, ih]

/-- A scalar load completes (R296). -/
theorem load_eq {i : Instr} {pre : State → State} {d a : SReg} {off : Int} {n : Nat} {s : State} {p : Phys}
    (hpre : (pre (issued i s)).h.tokens = (issued i s).h.tokens ∧
      ∀ x k, (pre (issued i s)).inBacking x k = (issued i s).inBacking x k)
    (hn : n = 1 ∨ n = 2 ∨ n = 4 ∨ n = 8) (h : Issues i s) (hc : Clean [a] s)
    (hr : Reaches needLd (s.readN a + off) n p s) :
    issue i (loadBody pre d a off n) s = passes i s fun t =>
      let b := (pre t).readPhys (pre t).h.core p n
      (pre t).writeSP d (sextBytes b.1) b.2.isSome := by
  have hr' := reaches_issued i hr
  have ha : (issued i s).readN a = s.readN a := by simp [State.readN]
  refine issue_done h ?_ ?_
  · unfold loadBody
    rw [withClean_eq (by rw [issued_vp]; exact h.thread) (clean_issued hc)]
    simp only [ha]
    rw [scalarAt_eq hr']
    rw [loadBytes_eq]
    · rw [hpre.2]; exact hr'.plainly
    · exact in_page hn (probe_aligned hr.place)
  · simp only [State.writeSP, State.modH, Hart.setSreg]
    split <;> simp [hpre.1]


theorem issued_status (i : Instr) (s : State) : (issued i s).h.status = s.h.status := by
  unfold issued; split <;> rfl

theorem monitors_running {h : Hart} (hr : h.status = .running) (pa n : Nat) : h.monitors pa n = false := by
  unfold Hart.monitors; rw [hr]

/-- A write sets nothing off on a hart that runs. -/
theorem noteWrite_h {s : State} (hr : s.h.status = .running) (pa n : Nat) : (s.noteWrite pa n).h = s.h := by
  unfold State.noteWrite State.finishWhere
  simp [monitors_running hr]

theorem writePhys_tokens {s : State} {h : Hart} {p : Phys} {bs : List Byte} {q : Bool} (hr : s.h.status = .running) :
    (s.writePhys h p bs q).h.tokens = s.h.tokens := ((calm_writePhys s h p bs q).focus hr).tokens

/-- A scalar store completes (R309). -/
theorem store_eq {i : Instr} {pre : State → State} {d a : SReg} {off : Int} {n : Nat} {s : State} {p : Phys}
    (hpre : (pre (issued i s)).h.tokens = (issued i s).h.tokens ∧ (pre (issued i s)).h.status = s.h.status ∧
      ∀ x k, (pre (issued i s)).inBacking x k = (issued i s).inBacking x k)
    (hn : n = 1 ∨ n = 2 ∨ n = 4 ∨ n = 8) (h : Issues i s) (hc : Clean [a] s)
    (hr : Reaches needSt (s.readN a + off) n p s) :
    issue i (storeBody pre d a off n) s = passes i s fun t =>
      (pre t).writePhys (pre t).h p (natToBytes n (s.readN d)) (s.h.sPoison d) := by
  have hr' := reaches_issued i hr
  have ha : (issued i s).readN a = s.readN a := by simp [State.readN]
  have hd : (issued i s).readN d = s.readN d := by simp [State.readN]
  have hp : (issued i s).h.sPoison d = s.h.sPoison d := by simp [Hart.sPoison]
  refine issue_done h ?_ ?_
  · unfold storeBody
    rw [withClean_eq (by rw [issued_vp]; exact h.thread) (clean_issued hc)]
    simp only [ha]
    rw [scalarAt_eq hr']
    rw [storeBytes_eq]
    · rw [hd, hp]
    · rw [hpre.2.2, natToBytes_length]; exact hr'.plainly
    · rw [natToBytes_length]; exact in_page hn (probe_aligned hr.place)
  · rw [writePhys_tokens, hpre.1]
    rw [hpre.2.1]
    exact h.runs

theorem acquire_h (s : State) (sc : Scope) : (s.acquire sc).h = s.h := by
  unfold State.acquire; split <;> rfl

theorem acquire_inBacking (s : State) (sc : Scope) (a n : Nat) : (s.acquire sc).inBacking a n = s.inBacking a n := by
  unfold State.acquire; split <;> rfl

theorem atHome_h (s : State) (h : Hart) (p : Phys) (n : Nat) : (s.atHome h p n).h = s.h := by
  unfold State.atHome; split <;> rfl

theorem atHome_inBacking (s : State) (h : Hart) (p : Phys) (n a k : Nat) :
    (s.atHome h p n).inBacking a k = s.inBacking a k := by
  unfold State.atHome; split <;> rfl

/-- What a form's release, if it carries one, leaves. -/
theorem calm_relOf (x : Stack) (s : State) : Calm s (relOf x s) := by
  unfold relOf
  split
  · split
    · exact calm_release ..
    · exact Calm.refl s
  · exact Calm.refl s

theorem acqOf_h (x : Stack) (s : State) : (acqOf x s).h = s.h := by
  unfold acqOf
  split
  · split
    · exact acquire_h ..
    · rfl
  · rfl

/-- A scalar atomic completes at the home of its address (R161). -/
theorem atomic_eq {i : Instr} {x : Stack} {d a : SReg} {rs : List SReg} {n : Nat} {f : Hart → Nat → Option Nat}
    {s : State} {p : Phys} (h : Issues i s) (hc : Clean (a :: rs) s) (hr : Reaches needAtomic (s.readN a) n p s) :
    issue i (atomicBody x d a rs n f) s = passes i s fun t =>
      let t := (relOf x t).atHome t.h p n
      let old := t.curPhys t.h.core p n
      let u := match f t.h (bytesNat old.1) with
        | none => t
        | some v => t.writeHome t.h p (natToBytes n v) old.2.isSome
      acqOf x (u.writeSP d (sextBytes old.1) old.2.isSome) := by
  have hr' := reaches_issued i hr
  have ha : (issued i s).readN a = s.readN a := by simp [State.readN]
  have hrun : (issued i s).h.status = .running := by rw [issued_status]; exact h.runs
  have hf := calm_relOf x (issued i s)
  have hk := hf.focus hrun
  have hb : ((relOf x (issued i s)).atHome (issued i s).h p n).inBacking (s.readN a) n = false := by
    rw [atHome_inBacking, hf.inBacking hrun]; simpa using hr'.plainly
  refine issue_done h ?_ ?_
  · unfold atomicBody
    rw [withClean_eq (by rw [issued_vp]; exact h.thread) (clean_issued hc)]
    simp only [ha]
    rw [scalarAt_eq hr']
    rw [hb]
    rfl
  · dsimp only
    rw [acqOf_h]
    have key : ∀ o : Option Nat, (match o with
        | none => (relOf x (issued i s)).atHome (issued i s).h p n
        | some v => ((relOf x (issued i s)).atHome (issued i s).h p n).writeHome
            ((relOf x (issued i s)).atHome (issued i s).h p n).h p (natToBytes n v)
            (((relOf x (issued i s)).atHome (issued i s).h p n).curPhys
              ((relOf x (issued i s)).atHome (issued i s).h p n).h.core p n).2.isSome).h.tokens
        = (issued i s).h.tokens := by
      intro o
      cases o with
      | none => rw [atHome_h]; exact hk.tokens
      | some v =>
        refine ((calm_writeHome _ _ _ _ _).focus ?_).tokens.trans ?_
        · rw [atHome_h, hk.status]; exact hrun
        · rw [atHome_h]; exact hk.tokens
    unfold State.writeSP State.modH Hart.setSreg
    dsimp only
    split
    · exact key _
    · exact key _

/-- A scalar register operation writes what its function gives. -/
theorem writesScalar_of {i : Instr} {d : SReg} {rs : List SReg} {f : Hart → Word} {v : State → Word}
    (he : ∀ s, exec i s = alu i d rs f s) (hv : ∀ s, f (issued i s).h = v s) : WritesScalar i d rs v := by
  intro s hi hc
  rw [he]
  rcases hc with rfl | ⟨hc, hu⟩
  · unfold alu
    rw [issue_done hi (t := issued i s)]
    · unfold passes
      congr 2
    · simp
    · rfl
  · rw [alu_eq hi hc hu]
    unfold passes
    dsimp only
    rw [hv]

/-! Lengths of what is read. -/

theorem bytesNat_lt (l : List Byte) : bytesNat l < 2 ^ (8 * l.length) := by
  induction l with
  | nil => decide
  | cons b l ih => simp only [bytesNat, List.length_cons, Nat.mul_add, pow_add]; have := b.isLt; omega

theorem getN_length (l d : _) : ∀ (n a : Nat), (Store.getN d l a n).length = n := by
  intro n
  induction n with
  | zero => intro a; simp [Store.getN]
  | succ n ih => intro a; simp [Store.getN, ih]

theorem curBytes_length (m : Mem) : ∀ (n a : Nat), (m.curBytes a n).length = n := by
  intro n
  induction n with
  | zero => intro a; rfl
  | succ n ih => intro a; simp [Mem.curBytes, ih]

theorem readBytes_length (m : Mem) (c : CoreId) : ∀ (n a : Nat), (m.readBytes c a n).length = n := by
  intro n
  induction n with
  | zero => intro a; rfl
  | succ n ih => intro a; simp [Mem.readBytes, ih]

theorem freeBytes_length (s : State) (a n : Nat) : (s.freeBytes a n).length = n := by simp [State.freeBytes]

theorem readPhys_length (s : State) (c : CoreId) (p : Phys) (n : Nat) : (s.readPhys c p n).1.length = n := by
  unfold State.readPhys
  split
  · simp [getN_length]
  · split
    · simp [natToBytes_length]
    · split
      · simp [freeBytes_length]
      · split
        · simp [freeBytes_length]
        · split <;> simp [curBytes_length, readBytes_length]

theorem curPhys_length (s : State) (c : CoreId) (p : Phys) (n : Nat) : (s.curPhys c p n).1.length = n := by
  unfold State.curPhys
  split
  · exact readPhys_length ..
  · split
    · simp [freeBytes_length]
    · split <;> simp [curBytes_length, freeBytes_length]

end Machine
end Sys2Proof
end

