-- ==== Sys2Proof/Laws/Memory.lean ====
section
/-! SUPPORT. Stores and memory: a byte read after a write, and the canonical form that every memory operation keeps. -/

namespace Sys2Proof.Machine

/-! Reading after writing. -/

/-- Raising the bound that addresses must pass keeps the form. -/
theorem Store.wfFrom_weaken {d : Byte} {k j : Nat} (hkj : k ≤ j) : ∀ {st : Store},
    Store.wfFrom d (some j) st = true → Store.wfFrom d (some k) st = true
  | [], _ => rfl
  | (a, v) :: l, h => by
    simp only [Store.wfFrom, Bool.and_eq_true, decide_eq_true_eq] at h ⊢
    exact ⟨⟨by omega, h.1.2⟩, h.2⟩

theorem Store.wfFrom_none {d : Byte} {k : Nat} : ∀ {st : Store}, Store.wfFrom d (some k) st = true → st.wf d = true
  | [], _ => rfl
  | (a, v) :: l, h => by
    simp only [Store.wf, Store.wfFrom, Bool.and_eq_true, decide_eq_true_eq] at h ⊢
    exact ⟨⟨trivial, h.1.2⟩, h.2⟩

/-- The byte just written reads back. -/
theorem Store.get_set_same {d : Byte} {a : Nat} {v : Byte} : ∀ {lo : Option Nat} {st : Store},
    Store.wfFrom d lo st = true → (st.set d a v).get d a = v
  | _, [], _ => by
    simp only [Store.set]; split <;> simp_all [Store.get]
  | lo, (k, x) :: l, h => by
    simp only [Store.wfFrom, Bool.and_eq_true] at h
    have below : ∀ {st : Store} {j : Nat}, Store.wfFrom d (some j) st = true → a ≤ j → st.get d a = d := by
      intro st
      induction st with
      | nil => intros; rfl
      | cons p st ih =>
        intro j hw hj
        obtain ⟨b, y⟩ := p
        simp only [Store.wfFrom, Bool.and_eq_true, decide_eq_true_eq] at hw
        rw [Store.get, if_neg (by omega)]
        exact ih hw.2 (by omega)
    simp only [Store.set]
    split
    · split
      · rename_i hlt hv
        rw [Store.get, if_neg (by omega), hv]
        exact below h.2 (by omega)
      · simp [Store.get]
    · split
      · split
        · rename_i heq hv
          rw [hv]; exact below h.2 (by omega)
        · simp [Store.get]
      · rw [Store.get, if_neg (by assumption)]
        exact Store.get_set_same h.2

/-- A write to one address leaves every other. -/
theorem Store.get_set_other {d : Byte} {a b : Nat} {v : Byte} (hb : b ≠ a) : ∀ {st : Store},
    (st.set d a v).get d b = st.get d b
  | [] => by simp only [Store.set]; split <;> simp [Store.get, hb]
  | (k, x) :: l => by
    simp only [Store.set]
    split
    · split <;> simp [Store.get, hb]
    · split
      · split <;> simp_all [Store.get]
      · simp only [Store.get]
        split
        · rfl
        · exact Store.get_set_other hb

/-! The canonical form. -/

theorem Store.wfFrom_set {d : Byte} {a : Nat} {v : Byte} : ∀ {lo : Option Nat} {st : Store},
    Store.wfFrom d lo st = true → (∀ b, lo = some b → b < a) → Store.wfFrom d lo (st.set d a v) = true
  | lo, [], _, hlo => by
    simp only [Store.set]
    split
    · rfl
    · cases lo with
      | none => simp_all [Store.wfFrom]
      | some b => have := hlo b rfl; simp_all [Store.wfFrom]
  | lo, (k, x) :: l, h, hlo => by
    have h' := h
    simp only [Store.wfFrom, Bool.and_eq_true] at h'
    simp only [Store.set]
    split
    · split
      · exact h
      · simp only [Store.wfFrom, Bool.and_eq_true]
        refine ⟨⟨?_, by simp_all⟩, ⟨by simp_all, h'.1.2⟩, h'.2⟩
        cases lo with
        | none => rfl
        | some b => simpa using hlo b rfl
    · split
      · split
        · rename_i heq _
          cases lo with
          | none => exact Store.wfFrom_none h'.2
          | some b => exact Store.wfFrom_weaken (by have := hlo b rfl; omega) h'.2
        · rename_i heq hv
          simp only [Store.wfFrom, Bool.and_eq_true]
          refine ⟨⟨?_, by simp_all⟩, by rw [heq]; exact h'.2⟩
          cases lo with
          | none => rfl
          | some b => simpa using hlo b rfl
      · simp only [Store.wfFrom, Bool.and_eq_true]
        refine ⟨h'.1, Store.wfFrom_set h'.2 ?_⟩
        intro b hb
        cases hb
        omega

/-- A byte written keeps the canonical form. -/
theorem Store.wf_set {d : Byte} {a : Nat} {v : Byte} {st : Store} (h : st.wf d = true) : (st.set d a v).wf d = true :=
  Store.wfFrom_set h (by simp)

/-- Bytes written keep it. -/
theorem Store.wf_setN {d : Byte} : ∀ {bs : List Byte} {a : Nat} {st : Store}, st.wf d = true →
    (Store.setN d a bs st).wf d = true
  | [], _, _, h => h
  | b :: bs, a, _, h => Store.wf_setN (bs := bs) (a := a + 1) (Store.wf_set (a := a) (v := b) h)

/-- A store with some of its entries keeps it. -/
theorem Store.wfFrom_filter {d : Byte} {p : Host.Cell → Bool} : ∀ {lo : Option Nat} {st : Store},
    Store.wfFrom d lo st = true → Store.wfFrom d lo (st.filter p) = true
  | _, [], _ => rfl
  | lo, (k, x) :: l, h => by
    simp only [Store.wfFrom, Bool.and_eq_true] at h
    rw [List.filter_cons]
    split
    · simp only [Store.wfFrom, Bool.and_eq_true]
      exact ⟨h.1, Store.wfFrom_filter h.2⟩
    · have hl := Store.wfFrom_filter (p := p) h.2
      cases lo with
      | none => exact Store.wfFrom_none hl
      | some b => exact Store.wfFrom_weaken (by have := h.1.1; simp at this; omega) hl

theorem Store.wf_filter {d : Byte} {p : Host.Cell → Bool} {st : Store} (h : st.wf d = true) :
    Store.wf d (st.filter p) = true := Store.wfFrom_filter h

/-- Two stores in the form, the second above the first, make one. -/
theorem Store.wfFrom_append {d : Byte} {m : Nat} : ∀ {lo : Option Nat} {st rt : Store},
    Store.wfFrom d lo st = true → (∀ p ∈ st, p.1 < m) → (∀ p ∈ rt, m ≤ p.1) → (∀ b, lo = some b → b < m) →
    rt.wf d = true → Store.wfFrom d lo (st ++ rt) = true
  | lo, [], rt, _, _, hr, hlo, hw => by
    cases rt with
    | nil => rfl
    | cons p rt =>
      obtain ⟨k, v⟩ := p
      simp only [Store.wf, Store.wfFrom, Bool.and_eq_true] at hw
      simp only [List.nil_append, Store.wfFrom, Bool.and_eq_true]
      refine ⟨⟨?_, hw.1.2⟩, hw.2⟩
      cases lo with
      | none => rfl
      | some b =>
        have h1 := hlo b rfl
        have h2 := hr (k, v) (by simp)
        simpa using lt_of_lt_of_le h1 h2
  | lo, (k, v) :: st, rt, h, hs, hr, _, hw => by
    simp only [Store.wfFrom, Bool.and_eq_true] at h
    simp only [List.cons_append, Store.wfFrom, Bool.and_eq_true]
    refine ⟨h.1, Store.wfFrom_append h.2 (fun p hp => hs p (by simp [hp])) hr ?_ hw⟩
    intro b hb
    cases hb
    exact hs (k, v) (by simp)

/-- The entries that a run of bytes lists. -/
theorem Store.wfFrom_run : ∀ {bs : List Byte} {n lo : Nat} {b : Option Nat}, (∀ x, b = some x → x < lo + n) →
    Store.wfFrom unlisted b
      ((((List.range' n bs.length).zip bs).filterMap fun p => if p.2 = unlisted then none else some (lo + p.1, p.2)) :
        Store) = true
  | [], _, _, _, _ => rfl
  | v :: bs, n, lo, b, hb => by
    simp only [List.length_cons, List.range'_succ, List.zip_cons_cons, List.filterMap_cons]
    split
    · apply Store.wfFrom_run
      intro x hx
      have := hb x hx
      omega
    · rename_i heq
      split at heq
      · cases heq
      · cases heq
        simp only [Store.wfFrom, Bool.and_eq_true]
        refine ⟨⟨?_, by simpa⟩, Store.wfFrom_run (by intro x hx; cases hx; omega)⟩
        cases b with
        | none => rfl
        | some x => simpa using hb x rfl

/-- A range replaced keeps the canonical form. -/
theorem Store.wf_splice {lo : Nat} {bs : List Byte} {st : Store} (h : st.wf unlisted = true) :
    (Store.splice lo bs st).wf unlisted = true := by
  unfold Store.splice
  rw [List.append_assoc]
  refine Store.wfFrom_append (m := lo) (Store.wfFrom_filter h) (by simp) ?_ (by simp) ?_
  · intro p hp
    rw [List.mem_append, List.mem_filterMap, List.mem_filter] at hp
    rcases hp with ⟨q, _, hq⟩ | hp
    · split at hq
      · cases hq
      · cases hq; exact Nat.le_add_right _ _
    · have := hp.2
      simp at this
      omega
  · refine Store.wfFrom_append (m := lo + bs.length) ?_ ?_ (by simp) (by simp) (Store.wf_filter h)
    · rw [List.range_eq_range']
      exact Store.wfFrom_run (by simp)
    · intro p hp
      rw [List.mem_filterMap] at hp
      obtain ⟨q, hq, he⟩ := hp
      split at he
      · cases he
      · cases he
        have := (List.of_mem_zip hq).1
        simp at this
        dsimp only
        omega

/-! Memory operations that leave the home copies and the scratchpads, and those that keep their form. -/

@[simp] theorem Mem.setPoison_home (m : Mem) (a : Nat) (b : Bool) : (m.setPoison a b).home = m.home := rfl
@[simp] theorem Mem.setPoison_spad (m : Mem) (a : Nat) (b : Bool) : (m.setPoison a b).spad = m.spad := rfl
@[simp] theorem Mem.setSpadPoison_home (m : Mem) (a : Nat) (b : Bool) : (m.setSpadPoison a b).home = m.home := rfl
@[simp] theorem Mem.setSpadPoison_spad (m : Mem) (a : Nat) (b : Bool) : (m.setSpadPoison a b).spad = m.spad := rfl
@[simp] theorem Mem.invalidate_home (m : Mem) (w : Option Agent) (p : Bool) (a n : Nat) :
    (m.invalidate w p a n).home = m.home := rfl
@[simp] theorem Mem.invalidate_spad (m : Mem) (w : Option Agent) (p : Bool) (a n : Nat) :
    (m.invalidate w p a n).spad = m.spad := rfl
@[simp] theorem Mem.unregister_home (m : Mem) (a : Nat) : (m.unregister a).home = m.home := rfl
@[simp] theorem Mem.unregister_spad (m : Mem) (a : Nat) : (m.unregister a).spad = m.spad := rfl
@[simp] theorem Mem.dropPiece_home (m : Mem) (c : CoreId) (a : Nat) : (m.dropPiece c a).home = m.home := rfl
@[simp] theorem Mem.dropPiece_spad (m : Mem) (c : CoreId) (a : Nat) : (m.dropPiece c a).spad = m.spad := rfl
@[simp] theorem Mem.selfInvalidate_home (m : Mem) (c : CoreId) : (m.selfInvalidate c).home = m.home := rfl
@[simp] theorem Mem.selfInvalidate_spad (m : Mem) (c : CoreId) : (m.selfInvalidate c).spad = m.spad := rfl
@[simp] theorem Mem.registerByte_home (m : Mem) (c : CoreId) (i : BitVec 12) (n : BitVec 8) (k : Fin 3) (p : Bool)
    (a : Nat) (b : Byte) : (m.registerByte c i n k p a b).home = m.home := rfl
@[simp] theorem Mem.registerByte_spad (m : Mem) (c : CoreId) (i : BitVec 12) (n : BitVec 8) (k : Fin 3) (p : Bool)
    (a : Nat) (b : Byte) : (m.registerByte c i n k p a b).spad = m.spad := rfl

/-- Memory is in its form when its two stores are. -/
theorem Mem.wf_of {m n : Mem} (hm : m.wf = true) (hh : n.home = m.home) (hs : n.spad = m.spad) : n.wf = true := by
  unfold Mem.wf at hm ⊢
  rw [hh, hs]; exact hm

theorem Mem.wf_homePut {m : Mem} {a : Nat} {b : Byte} (h : m.wf = true) : (m.homePut a b).wf = true := by
  simp only [Mem.wf, Bool.and_eq_true, Mem.homePut] at h ⊢
  exact ⟨Store.wf_set h.1, h.2⟩

theorem Mem.wf_homePutAll {p : Bool} : ∀ {bs : List Byte} {m : Mem} {a : Nat}, m.wf = true →
    (m.homePutAll p a bs).wf = true
  | [], _, _, h => h
  | b :: bs, m, a, h => by
    refine Mem.wf_homePutAll (bs := bs) ?_
    split
    · exact Mem.wf_of (Mem.wf_homePut h) rfl rfl
    · split
      · exact Mem.wf_of (Mem.wf_homePut h) rfl rfl
      · exact Mem.wf_homePut h

theorem Mem.wf_homeApply {m : Mem} {w : Option Agent} {p q : Bool} {a : Nat} {bs : List Byte} (h : m.wf = true) :
    (m.homeApply w p a bs q).wf = true := Mem.wf_of (Mem.wf_homePutAll h) rfl rfl

theorem Mem.wf_takeBack {m : Mem} {a : Nat} (h : m.wf = true) : (m.takeBack a).wf = true := by
  unfold Mem.takeBack
  split
  · rename_i r _
    exact Mem.wf_of (Mem.wf_homeApply (w := writerOf r.core) (p := false) (q := r.poison) (a := r.pa) (bs := natToBytes 4 r.val.toNat) h) rfl rfl
  · exact h

theorem Mem.wf_takeBackN : ∀ {n : Nat} {m : Mem} {a : Nat}, m.wf = true → (m.takeBackN a n).wf = true
  | 0, _, _, h => h
  | n + 1, _, a, h => Mem.wf_takeBackN (n := n) (a := a + 1) (Mem.wf_takeBack (a := a) h)

/-- A write by an agent that is no hart keeps the form. -/
theorem Mem.wf_agentWrite {m : Mem} {w : Option Agent} {p q : Bool} {a : Nat} {bs : List Byte} (h : m.wf = true) :
    (m.agentWrite p a bs q w).wf = true := Mem.wf_homeApply (Mem.wf_takeBackN h)

theorem Mem.registerBytes_stores {c : CoreId} {i : BitVec 12} {n : BitVec 8} {k : Fin 3} {p : Bool} :
    ∀ {bs : List Byte} {m : Mem} {a : Nat},
      (m.registerBytes c i n k p a bs).home = m.home ∧ (m.registerBytes c i n k p a bs).spad = m.spad
  | [], _, _ => ⟨rfl, rfl⟩
  | b :: bs, m, a => by
    have ih := Mem.registerBytes_stores (c := c) (i := i) (n := n) (k := k) (p := p) (bs := bs)
      (m := m.registerByte c i n k (p || (m.curPoison a && !(a % 4 = 0 && 3 ≤ bs.length))) a b) (a := a + 1)
    exact ⟨ih.1, ih.2⟩

/-- A store of a core keeps the form. -/
theorem Mem.wf_store {m : Mem} {c : CoreId} {i : BitVec 12} {n : BitVec 8} {k : Fin 3} {a : Nat} {bs : List Byte}
    {p : Bool} (h : m.wf = true) : (m.store c i n k a bs p).wf = true := by
  have hr : (m.registerBytes c i n k p a bs).wf = true :=
    Mem.wf_of h Mem.registerBytes_stores.1 Mem.registerBytes_stores.2
  unfold Mem.store
  split
  · exact hr
  · exact Mem.wf_homeApply hr

theorem Mem.wf_foldl {α : Type} {f : Mem → α → Mem} (hf : ∀ m x, m.wf = true → (f m x).wf = true) :
    ∀ {l : List α} {m : Mem}, m.wf = true → (l.foldl f m).wf = true
  | [], _, h => h
  | x :: l, _, h => Mem.wf_foldl hf (l := l) (hf _ x h)

/-- Writing back what a core has registered keeps the form. -/
theorem Mem.wf_flush {m : Mem} {c : CoreId} (h : m.wf = true) : (m.flush c).wf = true := by
  refine Mem.wf_foldl ?_ h
  intro m r hm
  split
  · exact Mem.wf_homeApply hm
  · exact hm

theorem Mem.wf_spadPutAll {p : Bool} : ∀ {bs : List Byte} {m : Mem} {a : Nat}, m.wf = true →
    (m.spadPutAll p a bs).wf = true
  | [], _, _, h => h
  | b :: bs, m, a, h => by
    have hput : Mem.wf { m with spad := m.spad.set unlisted a b } = true := by
      simp only [Mem.wf, Bool.and_eq_true] at h ⊢
      exact ⟨h.1, Store.wf_set h.2⟩
    refine Mem.wf_spadPutAll (bs := bs) ?_
    split
    · exact Mem.wf_of hput rfl rfl
    · split
      · exact Mem.wf_of hput rfl rfl
      · exact hput

/-- Memory at reset is in its form. -/
theorem Mem.wf_reset : Mem.reset.wf = true := rfl

end Sys2Proof.Machine
end

