-- ==== Sys2Proof/Laws/Latest.lean ====
section
/-! SUPPORT. The latest value of a byte (R126, R127) after each operation of memory: what a write stores, and that every
other byte keeps its latest value. -/

namespace Sys2Proof.Machine

/-! Bytes of words. -/

theorem byteOf_merge (old : BitVec 32) (b : Byte) (i j : Nat) (hi : i < 4) (hj : j < 4) :
    ((old &&& ~~~(BitVec.ofNat 32 0xFF <<< (8 * i))) ||| (b.setWidth 32 <<< (8 * i))).extractLsb' (8 * j) 8
      = if j = i then b else old.extractLsb' (8 * j) 8 := by
  have hi' : i = 0 ∨ i = 1 ∨ i = 2 ∨ i = 3 := by omega
  have hj' : j = 0 ∨ j = 1 ∨ j = 2 ∨ j = 3 := by omega
  apply BitVec.eq_of_getLsbD_eq
  intro k hk
  have hk' : k = 0 ∨ k = 1 ∨ k = 2 ∨ k = 3 ∨ k = 4 ∨ k = 5 ∨ k = 6 ∨ k = 7 := by omega
  rcases hi' with rfl | rfl | rfl | rfl <;> rcases hj' with rfl | rfl | rfl | rfl <;>
    rcases hk' with rfl | rfl | rfl | rfl | rfl | rfl | rfl | rfl <;> simp

theorem wordAt_eq {x y : Nat} : wordAt x = wordAt y ↔ x / 4 = y / 4 := by unfold wordAt; omega

theorem byteOf_register (old : BitVec 32) (b : Byte) (x y : Nat) :
    byteOf ((old &&& ~~~(BitVec.ofNat 32 0xFF <<< (8 * (y % 4)))) ||| (b.setWidth 32 <<< (8 * (y % 4)))) x
      = if x % 4 = y % 4 then b else byteOf old x :=
  byteOf_merge old b (y % 4) (x % 4) (Nat.mod_lt _ (by decide)) (Nat.mod_lt _ (by decide))

theorem byteOf_homeWord (m : Mem) {x y : Nat} (h : wordAt x = wordAt y) :
    byteOf (m.homeWord y) x = m.home.get unlisted x := by
  have hx : x = wordAt y + x % 4 := by unfold wordAt at *; omega
  have hm : x % 4 = 0 ∨ x % 4 = 1 ∨ x % 4 = 2 ∨ x % 4 = 3 := by omega
  unfold byteOf Mem.homeWord
  generalize hw : wordAt y = w at *
  simp only [Store.getN, bytesNat]
  rcases hm with h0 | h0 | h0 | h0 <;> rw [h0] at hx ⊢ <;> rw [hx] <;> apply BitVec.eq_of_toNat_eq <;>
    simp only [BitVec.extractLsb'_toNat, BitVec.toNat_ofNat, Nat.shiftRight_eq_div_pow, Nat.add_zero] <;>
    generalize Store.get unlisted m.home w = b0 <;> generalize Store.get unlisted m.home (w + 1) = b1 <;>
    generalize Store.get unlisted m.home (w + 1 + 1) = b2 <;> generalize Store.get unlisted m.home (w + 1 + 1 + 1) = b3 <;>
    have := b0.isLt <;> have := b1.isLt <;> have := b2.isLt <;> have := b3.isLt <;> omega

theorem byteOf_curWord (m : Mem) {x y : Nat} (h : wordAt x = wordAt y) : byteOf (m.curWord y) x = m.curByte x := by
  unfold Mem.curWord Mem.curByte Mem.reg
  rw [h]
  split
  · rfl
  · exact byteOf_homeWord m h

/-! Registrations. -/

theorem find_filter_ne (l : List RegWord) (w v : Nat) :
    (l.filter fun r => r.pa != w).find? (fun r => r.pa == v) = if v = w then none else l.find? fun r => r.pa == v := by
  induction l with
  | nil => simp
  | cons r l ih =>
    by_cases hr : r.pa = w
    · simp only [List.filter_cons, hr, bne_self_eq_false, Bool.false_eq_true, if_false, ih, List.find?_cons]
      by_cases hv : v = w
      · simp [hv]
      · have : (w == v) = false := by simp; exact fun h => hv h.symm
        simp [hv, this]
    · have hb : (r.pa != w) = true := by simpa using hr
      simp only [List.filter_cons, hb, if_true, List.find?_cons, ih]
      by_cases hv : v = w
      · subst hv; simp [show (r.pa == v) = false by simpa using hr]
      · simp [hv]

/-- A byte registered: it alone changes. -/
theorem Mem.registerByte_cur (m : Mem) (c : CoreId) (i : BitVec 12) (n : BitVec 8) (k : Fin 3) (p : Bool) (a x : Nat) (b : Byte) :
    (m.registerByte c i n k p a b).curByte x = if x = a then b else m.curByte x := by
  by_cases hw : wordAt x = wordAt a
  · have h1 : (m.registerByte c i n k p a b).curByte x
        = byteOf ((m.curWord a &&& ~~~(BitVec.ofNat 32 0xFF <<< (8 * (a % 4)))) ||| (b.setWidth 32 <<< (8 * (a % 4)))) x := by
      unfold Mem.curByte Mem.reg Mem.registerByte
      simp [hw]
    rw [h1, byteOf_register, byteOf_curWord m hw]
    have : x % 4 = a % 4 ↔ x = a := by unfold wordAt at hw; omega
    simp only [this]
  · have hx : x ≠ a := fun h => hw (by rw [h])
    have hn : (wordAt a == wordAt x) = false := by simp; exact fun h => hw h.symm
    unfold Mem.curByte Mem.reg Mem.registerByte
    simp only [List.find?_cons, hn, find_filter_ne, if_neg hw, if_neg hx]

theorem Mem.registerBytes_cur (c : CoreId) (i : BitVec 12) (n : BitVec 8) (k : Fin 3) (p : Bool) (x : Nat) :
    ∀ (bs : List Byte) (m : Mem) (a : Nat), (m.registerBytes c i n k p a bs).curByte x
      = if a ≤ x ∧ x < a + bs.length then bs.getD (x - a) 0 else m.curByte x
  | [], m, a => by
    have : ¬(a ≤ x ∧ x < a + 0) := by omega
    rw [List.length_nil, if_neg this]; rfl
  | b :: bs, m, a => by
    rw [Mem.registerBytes]
    rw [Mem.registerBytes_cur c i n k p x bs, Mem.registerByte_cur]
    by_cases h1 : x = a
    · subst h1
      have : ¬(x + 1 ≤ x ∧ x < x + 1 + bs.length) := by omega
      simp [this]
    · by_cases h2 : a + 1 ≤ x ∧ x < a + 1 + bs.length
      · have h3 : a ≤ x ∧ x < a + (b :: bs).length := by simp; omega
        rw [if_pos h2, if_pos h3]
        obtain ⟨j, rfl⟩ : ∃ k, x = a + 1 + k := ⟨x - (a + 1), by omega⟩
        have e1 : a + 1 + j - (a + 1) = j := by omega
        have e2 : a + 1 + j - a = j + 1 := by omega
        rw [e1, e2, List.getD_cons_succ]
      · have h3 : ¬(a ≤ x ∧ x < a + (b :: bs).length) := by simp; omega
        rw [if_neg h2, if_neg h3, if_neg h1]

/-! The home. -/

@[simp] theorem Mem.setPoison_reg (m : Mem) (a x : Nat) (b : Bool) : (m.setPoison a b).reg x = m.reg x := rfl
@[simp] theorem Mem.homePut_reg (m : Mem) (a x : Nat) (b : Byte) : (m.homePut a b).reg x = m.reg x := rfl

theorem Mem.homePutAll_reg (p : Bool) (x : Nat) : ∀ (bs : List Byte) (m : Mem) (a : Nat),
    (m.homePutAll p a bs).reg x = m.reg x
  | [], _, _ => rfl
  | b :: bs, m, a => by
    rw [Mem.homePutAll, Mem.homePutAll_reg p x bs]
    split
    · rfl
    · split <;> rfl

@[simp] theorem Mem.homeApply_reg (m : Mem) (w : Option Agent) (p q : Bool) (a x : Nat) (bs : List Byte) :
    (m.homeApply w q a bs p).reg x = m.reg x := Mem.homePutAll_reg p x bs m a

/-- What the home holds outside the bytes written. -/
theorem Mem.homePutAll_other (p : Bool) {x : Nat} : ∀ (bs : List Byte) (m : Mem) (a : Nat),
    ¬(a ≤ x ∧ x < a + bs.length) → (m.homePutAll p a bs).home.get unlisted x = m.home.get unlisted x
  | [], _, _, _ => rfl
  | b :: bs, m, a, h => by
    simp only [List.length_cons] at h
    rw [Mem.homePutAll, Mem.homePutAll_other p bs _ _ (by omega)]
    have hx : x ≠ a := by omega
    have key : (m.homePut a b).home.get unlisted x = m.home.get unlisted x := Store.get_set_other hx
    split
    · exact key
    · split
      · exact key
      · exact key

/-- What the home holds where bytes were written, in memory of the canonical form. -/
theorem Mem.homePutAll_same (p : Bool) {x : Nat} : ∀ (bs : List Byte) (m : Mem) (a : Nat), m.wf = true →
    a ≤ x ∧ x < a + bs.length → (m.homePutAll p a bs).home.get unlisted x = bs.getD (x - a) 0
  | [], _, a, _, h => by simp only [List.length_nil] at h; omega
  | b :: bs, m, a, hm, h => by
    have hput : (m.homePut a b).wf = true := Mem.wf_homePut hm
    have hw : ∀ m' : Mem, m' = (if p then (m.homePut a b).setPoison a true
        else if a % 4 = 0 ∧ 3 ≤ bs.length then (m.homePut a b).setPoison a false else m.homePut a b) →
        m'.wf = true ∧ m'.home = (m.homePut a b).home := by
      rintro _ rfl
      split
      · exact ⟨Mem.wf_of hput rfl rfl, rfl⟩
      · split
        · exact ⟨Mem.wf_of hput rfl rfl, rfl⟩
        · exact ⟨hput, rfl⟩
    obtain ⟨h1, h2⟩ := hw _ rfl
    rw [Mem.homePutAll]
    by_cases hx : x = a
    · subst hx
      rw [Mem.homePutAll_other p bs _ _ (by omega)]
      simp only [h2, Nat.sub_self, List.getD_cons_zero]
      simp only [Mem.wf, Bool.and_eq_true] at hm
      exact Store.get_set_same hm.1
    · simp only [List.length_cons] at h
      rw [Mem.homePutAll_same p bs _ _ h1 (by omega)]
      obtain ⟨j, rfl⟩ : ∃ k, x = a + 1 + k := ⟨x - (a + 1), by omega⟩
      rw [show a + 1 + j - (a + 1) = j by omega, show a + 1 + j - a = j + 1 by omega, List.getD_cons_succ]

/-- A write at the home changes no latest byte outside it. -/
theorem Mem.homeApply_other (m : Mem) (w : Option Agent) (p q : Bool) {a x : Nat} {bs : List Byte} (h : ¬(a ≤ x ∧ x < a + bs.length)) :
    (m.homeApply w q a bs p).curByte x = m.curByte x := by
  unfold Mem.curByte
  rw [Mem.homeApply_reg]
  split
  · rfl
  · exact Mem.homePutAll_other p bs m a h

theorem getD_natToBytes (v k : Nat) : ∀ n, k < n → (natToBytes n v).getD k 0 = BitVec.ofNat 8 (v / 256 ^ k) := by
  intro n
  induction n generalizing v k with
  | zero => intro h; omega
  | succ n ih =>
    intro h
    cases k with
    | zero => simp [natToBytes]
    | succ k =>
      rw [natToBytes, List.getD_cons_succ, ih _ _ (by omega), Nat.div_div_eq_div_mul, Nat.pow_succ']

/-- The byte of a word among the word's bytes. -/
theorem getD_word (v : BitVec 32) {x w : Nat} (h : wordAt x = w) (hw : wordAt w = w) :
    (natToBytes 4 v.toNat).getD (x - w) 0 = byteOf v x := by
  have hx : x - w = x % 4 := by unfold wordAt at *; omega
  rw [hx, getD_natToBytes _ _ _ (by omega)]
  unfold byteOf
  apply BitVec.eq_of_toNat_eq
  rw [BitVec.extractLsb'_toNat, BitVec.toNat_ofNat, Nat.shiftRight_eq_div_pow]
  rw [show (256 : Nat) ^ (x % 4) = 2 ^ (8 * (x % 4)) by rw [Nat.pow_mul]]

/-- Taking back a registration changes no latest byte. -/
theorem Mem.takeBack_cur {m : Mem} (hm : m.wf = true) (a x : Nat) : (m.takeBack a).curByte x = m.curByte x := by
  unfold Mem.takeBack
  split
  · rename_i r hr
    have hpa : r.pa = wordAt a := by
      have := List.find?_some hr
      simpa using this
    have hreg : ∀ y, ((m.homeApply (writerOf r.core) false r.pa (natToBytes 4 r.val.toNat) r.poison).unregister a).reg y
        = if wordAt y = wordAt a then none else m.reg y := by
      intro y
      show List.find? _ (List.filter _ _) = _
      rw [find_filter_ne]
      split
      · rfl
      · exact Mem.homeApply_reg ..
    by_cases hw : wordAt x = wordAt a
    · have h1 : ((m.homeApply (writerOf r.core) false r.pa (natToBytes 4 r.val.toNat) r.poison).unregister a).curByte x
          = (m.homeApply (writerOf r.core) false r.pa (natToBytes 4 r.val.toNat) r.poison).home.get unlisted x := by
        unfold Mem.curByte; rw [hreg, if_pos hw]; rfl
      rw [h1]
      have h2 : m.curByte x = byteOf r.val x := by
        unfold Mem.curByte
        have : m.reg x = some r := by unfold Mem.reg at *; rw [hw]; exact hr
        rw [this]
      rw [h2]
      show (m.homePutAll _ _ _).home.get unlisted x = _
      rw [Mem.homePutAll_same _ _ _ _ hm]
      · rw [hpa]; exact getD_word _ hw (by unfold wordAt; omega)
      · simp only [natToBytes, List.length_cons, List.length_nil]
        unfold wordAt at *; omega
    · have h1 : ((m.homeApply (writerOf r.core) false r.pa (natToBytes 4 r.val.toNat) r.poison).unregister a).curByte x
          = (m.homeApply (writerOf r.core) false r.pa (natToBytes 4 r.val.toNat) r.poison).curByte x := by
        unfold Mem.curByte; rw [hreg, if_neg hw, Mem.homeApply_reg]; rfl
      rw [h1, Mem.homeApply_other]
      simp only [natToBytes, List.length_cons, List.length_nil]
      unfold wordAt at *; omega
  · rfl

theorem Mem.takeBackN_cur (x : Nat) : ∀ (n : Nat) {m : Mem} (a : Nat), m.wf = true →
    (m.takeBackN a n).curByte x = m.curByte x
  | 0, _, _, _ => rfl
  | n + 1, m, a, hm => by
    rw [Mem.takeBackN, Mem.takeBackN_cur x n _ (Mem.wf_takeBack hm), Mem.takeBack_cur hm]

/-- What a core drops of its copies changes no latest byte. -/
@[simp] theorem Mem.dropPiece_cur (m : Mem) (c : CoreId) (a x : Nat) : (m.dropPiece c a).curByte x = m.curByte x := rfl
@[simp] theorem Mem.selfInvalidate_cur (m : Mem) (c : CoreId) (x : Nat) :
    (m.selfInvalidate c).curByte x = m.curByte x := rfl

/-- A write by an agent that is no hart changes no latest byte outside it. -/
theorem Mem.agentWrite_other {m : Mem} (hm : m.wf = true) (w : Option Agent) (p q : Bool) {a x : Nat} {bs : List Byte}
    (h : ¬(a ≤ x ∧ x < a + bs.length)) : (m.agentWrite p a bs q w).curByte x = m.curByte x := by
  unfold Mem.agentWrite
  rw [Mem.homeApply_other _ _ _ _ h, Mem.takeBackN_cur _ _ _ hm]

theorem Mem.registerByte_keeps (m : Mem) (c : CoreId) (i : BitVec 12) (n : BitVec 8) (k : Fin 3) (p : Bool) (a x : Nat) (b : Byte)
    (h : ∃ r, m.reg x = some r) : ∃ r, (m.registerByte c i n k p a b).reg x = some r := by
  obtain ⟨r, hr⟩ := h
  unfold Mem.reg Mem.registerByte at *
  by_cases hw : wordAt a = wordAt x
  · simp [hw]
  · have hb : (wordAt a == wordAt x) = false := by simpa using hw
    simp only [List.find?_cons, hb, find_filter_ne, if_neg (Ne.symm hw)]
    exact ⟨r, hr⟩

theorem Mem.registerBytes_keeps (c : CoreId) (i : BitVec 12) (n : BitVec 8) (k : Fin 3) (p : Bool) (x : Nat) :
    ∀ (bs : List Byte) (m : Mem) (a : Nat), (∃ r, m.reg x = some r) → ∃ r, (m.registerBytes c i n k p a bs).reg x = some r
  | [], _, _, h => h
  | _ :: bs, _, _, h => Mem.registerBytes_keeps c i n k p x bs _ _ (Mem.registerByte_keeps _ c i n _ _ _ x _ h)

/-- The words of bytes that a core stores are registered. -/
theorem Mem.registerBytes_reg (c : CoreId) (i : BitVec 12) (n : BitVec 8) (k : Fin 3) (p : Bool) (x : Nat) :
    ∀ (bs : List Byte) (m : Mem) (a : Nat), a ≤ x ∧ x < a + bs.length →
      ∃ r, (m.registerBytes c i n k p a bs).reg x = some r
  | [], _, a, h => by simp only [List.length_nil] at h; omega
  | b :: bs, m, a, h => by
    rw [Mem.registerBytes]
    by_cases hn : a + 1 ≤ x ∧ x < a + 1 + bs.length
    · exact Mem.registerBytes_reg c i n k p x bs _ _ hn
    · have hxa : x = a := by simp only [List.length_cons] at h; omega
      subst hxa
      refine Mem.registerBytes_keeps c i n k p x bs _ _ ?_
      unfold Mem.reg Mem.registerByte
      simp

/-- A store of a core: the latest bytes become those stored, and no other changes. -/
theorem Mem.store_cur (m : Mem) (c : CoreId) (i : BitVec 12) (n : BitVec 8) (k : Fin 3) (a x : Nat) (bs : List Byte) (p : Bool) :
    (m.store c i n k a bs p).curByte x
      = if a ≤ x ∧ x < a + bs.length then bs.getD (x - a) 0 else m.curByte x := by
  unfold Mem.store
  dsimp only
  split
  · exact Mem.registerBytes_cur ..
  · by_cases hx : a ≤ x ∧ x < a + bs.length
    · have hr := Mem.registerBytes_reg c i n k p x bs m a hx
      obtain ⟨r, hr⟩ := hr
      have := Mem.registerBytes_cur c i n k p x bs m a
      unfold Mem.curByte at this ⊢
      rw [Mem.homeApply_reg]
      rw [hr] at this ⊢
      exact this
    · rw [Mem.homeApply_other _ _ _ _ hx, Mem.registerBytes_cur]

/-- Applying at the homes what a core has registered changes no latest byte, as long as each registration stands at a
word. -/
theorem Mem.flush_cur (m : Mem) (c : CoreId) (x : Nat) (h : m.reg x ≠ none ∨ ∀ r ∈ m.regd, wordAt r.pa = r.pa) :
    (m.flush c).curByte x = m.curByte x := by
  have key : ∀ (l : List RegWord) (m' : Mem), (∀ r ∈ l, r ∈ m.regd) → m'.reg x = m.reg x →
      (l.foldl (fun m r => if r.core = c then m.homeApply (writerOf c) false r.pa (natToBytes 4 r.val.toNat) r.poison else m)
        m').curByte x = m'.curByte x := by
    intro l
    induction l with
    | nil => intros; rfl
    | cons r l ih =>
      intro m' hl hm
      rw [List.foldl_cons]
      have hstep : (if r.core = c then m'.homeApply (writerOf c) false r.pa (natToBytes 4 r.val.toNat) r.poison else m').curByte x
          = m'.curByte x := by
        split
        · cases hx : m.reg x with
          | some q =>
            unfold Mem.curByte
            rw [Mem.homeApply_reg, hm, hx]
          | none =>
            refine Mem.homeApply_other _ _ _ _ ?_
            have hw : wordAt r.pa = r.pa := (h.resolve_left (by simp [hx])) r (hl r (by simp))
            have hne : r.pa ≠ wordAt x := by
              have := List.find?_eq_none.1 hx r (hl r (by simp))
              simpa using this
            simp only [natToBytes, List.length_cons, List.length_nil]
            unfold wordAt at *; omega
        · rfl
      rw [ih, hstep]
      · exact fun q hq => hl q (by simp [hq])
      · split
        · rw [Mem.homeApply_reg]; exact hm
        · exact hm
  exact key m.regd m (fun _ h => h) rfl

end Sys2Proof.Machine
end

