-- ==== Sys2Proof/Laws/Frames.lean ====
section
/-! SUPPORT. What a write of a hart leaves in memory, byte by byte, and the parts of the state that issuing and completing
a form change. -/

namespace Sys2Proof.Machine

theorem noteWrite_rest (s : State) (a n : Nat) : (s.noteWrite a n).rest.length = s.rest.length := by
  simp [State.noteWrite, State.finishWhere]

theorem noteWrite_mem (s : State) (a n : Nat) : (s.noteWrite a n).mem = s.mem := rfl

theorem completed_mem (i : Instr) (t : State) (pc : Word) : (completed i t pc).mem = t.mem := by
  unfold completed; dsimp only; split <;> rfl

theorem post_mem (s : State) (i : Instr) : (s.post i).mem = s.mem := rfl

theorem spadPutAll_regd (p : Bool) : ∀ (bs : List Byte) (m : Mem) (a : Nat), (m.spadPutAll p a bs).regd = m.regd ∧ (m.spadPutAll p a bs).home = m.home
  | [], _, _ => ⟨rfl, rfl⟩
  | b :: bs, m, a => by
    rw [Mem.spadPutAll]
    have ih := spadPutAll_regd p bs
    split
    · exact ih _ _
    · split <;> exact ih _ _

theorem curByte_congr {m m' : Mem} (h1 : m.regd = m'.regd) (h2 : m.home = m'.home) (x : Nat) : m.curByte x = m'.curByte x := by
  unfold Mem.curByte Mem.reg; rw [h1, h2]

/-- A write of main memory that meets no backing area stores its bytes. -/
theorem intoBacking_clear {s : State} {pa : Nat} {bs : List Byte} {k : State → List Byte → State}
    (hb : s.backed pa bs.length = false) : s.intoBacking pa bs k = k s bs := by
  unfold State.intoBacking; rw [hb]; rfl

theorem writePhys_other {s : State} (hm : s.mem.wf = true) (h : Hart) (p : Phys) (bs : List Byte) (q : Bool) {x : Nat}
    (hb : p.spad = false → s.backed p.pa bs.length = false) (hx : ¬(p.pa ≤ x ∧ x < p.pa + bs.length)) :
    (s.writePhys h p bs q).mem.curByte x = s.mem.curByte x := by
  unfold State.writePhys
  dsimp only
  rw [noteWrite_mem]
  split
  · exact curByte_congr (spadPutAll_regd ..).1 (spadPutAll_regd ..).2 x
  · rename_i hs
    split
    · rfl
    · split
      · rfl
      · rw [intoBacking_clear (hb (by simpa using hs))]
        split
        · show (((s.mem.takeBackN p.pa bs.length).homeApply (writerOf h.core) true p.pa bs q).dropPiece h.core p.pa).curByte x = _
          rw [Mem.dropPiece_cur, Mem.homeApply_other _ _ _ _ hx, Mem.takeBackN_cur _ _ _ hm]
        · split
          · exact Mem.agentWrite_other hm _ _ _ hx
          · show (s.mem.store _ _ _ _ _ _ _).curByte x = _
            rw [Mem.store_cur, if_neg hx]

theorem takeBackN_reg (x : Nat) : ∀ (n a : Nat) (m : Mem), m.wf = true → a ≤ x ∧ x < a + n → (m.takeBackN a n).reg x = none := by
  have tb : ∀ (m : Mem) (a : Nat), (m.takeBack a).reg x = if wordAt x = wordAt a then none else m.reg x := by
    intro m a
    unfold Mem.takeBack
    split
    · show List.find? _ (List.filter _ _) = _
      rw [find_filter_ne]
      split
      · rfl
      · exact Mem.homeApply_reg ..
    · rename_i hr
      split
      · rename_i hw; unfold Mem.reg at *; rw [hw]; exact hr
      · rfl
  have keep : ∀ (n a : Nat) (m : Mem), m.reg x = none → (m.takeBackN a n).reg x = none := by
    intro n
    induction n with
    | zero => intro a m h; exact h
    | succ n ih => intro a m h; rw [Mem.takeBackN]; refine ih _ _ ?_; rw [tb, h]; split <;> rfl
  intro n
  induction n with
  | zero => intro a m _ h; omega
  | succ n ih =>
    intro a m hm h
    rw [Mem.takeBackN]
    by_cases hx : x = a
    · refine keep _ _ _ ?_; rw [tb, if_pos (by rw [hx])]
    · exact ih _ _ (Mem.wf_takeBack hm) (by omega)

theorem agentWrite_same {m : Mem} (hm : m.wf = true) (w : Option Agent) (p q : Bool) {a x : Nat} {bs : List Byte}
    (h : a ≤ x ∧ x < a + bs.length) : (m.agentWrite p a bs q w).curByte x = bs.getD (x - a) 0 := by
  unfold Mem.curByte
  have : (m.agentWrite p a bs q w).reg x = none := by
    unfold Mem.agentWrite; rw [Mem.homeApply_reg]; exact takeBackN_reg x _ _ _ hm h
  rw [this]
  exact Mem.homePutAll_same q bs _ a (Mem.wf_takeBackN hm) h

theorem writePhys_same {s : State} (hm : s.mem.wf = true) (h : Hart) (p : Phys) (bs : List Byte) (q : Bool) {x : Nat}
    (hp : s.holds p) (hb : s.backed p.pa bs.length = false) (hx : p.pa ≤ x ∧ x < p.pa + bs.length) :
    (s.writePhys h p bs q).mem.curByte x = bs.getD (x - p.pa) 0 := by
  obtain ⟨h1, h2, h3⟩ := hp
  unfold State.writePhys
  dsimp only
  rw [noteWrite_mem, h1, h3]
  have h2' : (homeAgent p.pa == some HomeAgent.device) = false := by simpa using h2
  rw [h2']
  simp only [Bool.false_eq_true, if_false]
  rw [intoBacking_clear hb]
  split
  · exact agentWrite_same hm none true q hx
  · split
    · exact agentWrite_same hm _ _ _ hx
    · show (s.mem.store _ _ _ _ _ _ _).curByte x = _
      rw [Mem.store_cur, if_pos hx]

theorem issued_shape (i : Instr) (s : State) : ∃ toks, issued i s = { s with h := { s.h with tokens := toks } } := by
  unfold issued; split
  · exact ⟨s.h.tokens, rfl⟩
  · exact ⟨_, rfl⟩

theorem completed_shape (i : Instr) (t : State) (pc : Word) : ∃ toks, completed i t pc =
    { t with h := { t.h with pc := pc, status := .running, resume := none, tokens := toks, ahead := t.h.ahead.tail } } := by
  unfold completed; dsimp only; split
  · exact ⟨t.h.tokens, rfl⟩
  · exact ⟨_, rfl⟩

theorem sreg_setSreg (h : Hart) (d r : SReg) (v : Word) (p : Bool) (hr : r ≠ d) : (h.setSreg d v p).sreg r = h.sreg r := by
  simp only [Hart.sreg, Hart.setSreg]
  split
  · rfl
  · split
    · rfl
    · have : d.val ≠ r.val := fun h => hr (Fin.ext h.symm)
      simp [Vector.getElem_set, this]

theorem poison_setSreg (h : Hart) (d : SReg) (v : Word) (l : PLoc) (hl : l ≠ .sreg d) : l ∈ (h.setSreg d v).poison ↔ l ∈ h.poison := by
  simp only [Hart.setSreg]
  split
  · rfl
  · simp [hl]

end Sys2Proof.Machine
end

