-- ==== Sys2Proof/Laws/Csrs.lean ====
section
/-! SUPPORT. Reads after writes of the control registers. -/

namespace Sys2Proof.Machine

/-- bits of a masked merge -/
theorem mask_merge {a a' v r : Word} {p : Nat → Bool} (hr : ∀ i < 64, r.getLsbD i = p i)
    (h : ∀ i < 64, a'.getLsbD i = if p i then v.getLsbD i else a.getLsbD i) : a' = a &&& ~~~r ||| v &&& r := by
  apply BitVec.eq_of_getLsbD_eq
  intro i hi
  rw [h i hi, BitVec.getLsbD_or, BitVec.getLsbD_and, BitVec.getLsbD_and, BitVec.getLsbD_not, hr i hi]
  cases p i <;> simp [hi]

theorem vt_bits (f : Fmt) (n : NregC) (sa b : Bool) : ∀ i < 64,
    (wd (f.code + (if sa then 64 else 0) + (if b then 128 else 0) + 256 * n.code)).getLsbD i =
      if i = 6 then sa else if i = 7 then b else (wd (f.code + 256 * n.code)).getLsbD i := by
  cases f <;> cases n <;> cases sa <;> cases b <;> first | decide +kernel | (rename_i k; revert k; decide +kernel)

theorem ck_bits (e p : Bool) (l : Fin 8) (m : BitVec 16) : ∀ i < 64,
    (wd ((if e then 1 else 0) + (if p then 256 else 0) + 512 * l.val + 65536 * m.toNat)).getLsbD i =
      if i = 0 then e else if 16 ≤ i ∧ i < 32 then m.getLsbD (i - 16) else
        (wd ((if p then 256 else 0) + 512 * l.val)).getLsbD i := by
  intro i hi
  have hq : ∀ (e p : Bool) (l : Fin 8), (if e then 1 else 0) + (if p then 256 else 0) + 512 * l.val < 2 ^ 16 := by decide
  have hw : wd ((if e then 1 else 0) + (if p then 256 else 0) + 512 * l.val + 65536 * m.toNat) =
      (m.setWidth 64 <<< 16) ||| wd ((if e then 1 else 0) + (if p then 256 else 0) + 512 * l.val) := by
    have h1 := hq e p l
    generalize (if e then 1 else 0) + (if p then 256 else 0) + 512 * l.val = z at *
    apply BitVec.eq_of_toNat_eq
    have hm := m.isLt
    unfold wd
    simp only [BitVec.toNat_ofNat, BitVec.toNat_or, BitVec.toNat_shiftLeft, BitVec.toNat_setWidth]
    rw [Nat.mod_eq_of_lt (by omega : m.toNat < 2 ^ 64), Nat.shiftLeft_eq, Nat.mod_eq_of_lt (by omega : m.toNat * 2 ^ 16 < 2 ^ 64),
      Nat.mod_eq_of_lt (by omega : z < 2 ^ 64), Nat.mod_eq_of_lt (by omega), ← Nat.shiftLeft_eq, ← Nat.shiftLeft_add_eq_or_of_lt h1, Nat.shiftLeft_eq]
    omega
  rw [hw, BitVec.getLsbD_or, BitVec.getLsbD_shiftLeft, BitVec.getLsbD_setWidth]
  have hl : ∀ (e p : Bool) (l : Fin 8) (i : Fin 64), (wd ((if e then 1 else 0) + (if p then 256 else 0) + 512 * l.val)).getLsbD i.val =
      if i.val = 0 then e else if 16 ≤ i.val ∧ i.val < 32 then false else (wd ((if p then 256 else 0) + 512 * l.val)).getLsbD i.val := by
    decide +kernel
  rw [hl e p l ⟨i, hi⟩]
  dsimp only
  by_cases h0 : i = 0
  · simp [h0]
  · by_cases h1 : 16 ≤ i ∧ i < 32
    · simp [h0, h1, show ¬ i < 16 by omega, hi]; intro h; omega
    · simp only [if_neg h0, if_neg h1]
      by_cases h2 : i < 16
      · simp [h2]
      · have : m.getLsbD (i - 16) = false := BitVec.getLsbD_of_ge _ _ (by omega)
        simp [this]

theorem rw_vtype : ∀ i < 64, (Spec.csrRw .vtype).getLsbD i = decide (i = 6 ∨ i = 7) := by decide
theorem rw_chk : ∀ i < 64, (Spec.csrRw .chk).getLsbD i = decide (i = 0 ∨ 16 ≤ i ∧ i < 32) := by decide

/-- What a control register reads after a new value is stored: its RW fields take it. The value must agree outside them. -/
theorem read_put (s : State) (c : Csr) (hc : c ≠ .frm) (w : Word) (hw : w &&& ~~~(Spec.csrRw c ||| Spec.csrW1c c) = csrRead s c &&& ~~~(Spec.csrRw c ||| Spec.csrW1c c)) :
    csrRead (s.modH (csrPut c w)) c = w := by
  have ro : Spec.csrRw c = 0 → Spec.csrW1c c = 0 → csrRead s c = w := by
    intro h1 h2
    rw [h1, h2] at hw
    have e : ∀ x : Word, x &&& ~~~(0 ||| 0) = x := by intro x; rw [show ~~~(0 ||| 0 : Word) = BitVec.allOnes 64 from rfl, BitVec.and_allOnes]
    rw [e, e] at hw
    exact hw.symm
  cases c
  case frm => exact absurd rfl hc
  case vtype =>
    show wd (s.h.fmt.code + (if w.getLsbD 6 then 64 else 0) + (if w.getLsbD 7 then 128 else 0) + 256 * s.h.nregc.code) = w
    apply BitVec.eq_of_getLsbD_eq
    intro i hi
    rw [vt_bits _ _ _ _ i hi]
    have := congrArg (fun a => BitVec.getLsbD a i) hw
    simp only [BitVec.getLsbD_and, BitVec.getLsbD_not, BitVec.getLsbD_or, hi, decide_true, Bool.true_and, rw_vtype i hi, show Spec.csrW1c .vtype = 0#64 from rfl, BitVec.getLsbD_zero, Bool.or_false] at this
    have hr : (csrRead s .vtype).getLsbD i = if i = 6 then s.h.sat else if i = 7 then s.h.bs else (wd (s.h.fmt.code + 256 * s.h.nregc.code)).getLsbD i := vt_bits _ _ _ _ i hi
    rw [hr] at this
    by_cases h6 : i = 6
    · simp [h6]
    · by_cases h7 : i = 7
      · simp [h7]
      · simp [h6, h7] at this ⊢; exact this.symm
  case chk =>
    show wd ((if w.getLsbD 0 then 1 else 0) + (if (s.coreOf s.h.core).spUsed then 256 else 0) + 512 * (s.coreOf s.h.core).retLc.val + 65536 * (w.extractLsb' 16 16).toNat) = w
    apply BitVec.eq_of_getLsbD_eq
    intro i hi
    rw [ck_bits _ _ _ _ i hi]
    have := congrArg (fun a => BitVec.getLsbD a i) hw
    simp only [BitVec.getLsbD_and, BitVec.getLsbD_not, BitVec.getLsbD_or, hi, decide_true, Bool.true_and, rw_chk i hi, show Spec.csrW1c .chk = 0#64 from rfl, BitVec.getLsbD_zero, Bool.or_false] at this
    have hr : (csrRead s .chk).getLsbD i = _ := ck_bits s.h.chkEn (s.coreOf s.h.core).spUsed (s.coreOf s.h.core).retLc s.h.mcnt i hi
    rw [hr] at this
    by_cases h6 : i = 0
    · simp [h6]
    · by_cases h7 : 16 ≤ i ∧ i < 32
      · simp [h6, h7]; intro _; omega
      · simp only [h6, h7, if_false, or_self, decide_false, Bool.not_false, Bool.and_true] at this ⊢; exact this.symm
  case vl => exact ro rfl rfl
  case bgeo => exact ro rfl rfl
  case vbase => exact ro rfl rfl
  case cid => exact ro rfl rfl
  case inc => exact ro rfl rfl
  case hmask => exact ro rfl rfl
  case cyc => exact ro rfl rfl
  all_goals rfl

theorem put_other (s : State) (c k : Csr) (hk : k ≠ c) (w : Word) : csrRead (s.modH (csrPut c w)) k = csrRead s k := by
  cases c <;> cases k <;> first | rfl | exact absurd rfl hk

theorem put_frame (s : State) (c : Csr) (w : Word) : (csrPut c w s.h).sregs = s.h.sregs ∧ (csrPut c w s.h).poison = s.h.poison ∧ (csrPut c w s.h).vregs = s.h.vregs ∧ (csrPut c w s.h).masks = s.h.masks ∧ (csrPut c w s.h).tokens = s.h.tokens := by
  cases c <;> exact ⟨rfl, rfl, rfl, rfl, rfl⟩

theorem rw_eq (c : Csr) : csrRw c = Spec.csrRw c ∧ csrW1c c = Spec.csrW1c c := by cases c <;> exact ⟨by decide, by decide⟩

theorem outside1 (o v r w : Word) : ((o &&& ~~~r ||| v &&& r) &&& ~~~(v &&& w)) &&& ~~~(r ||| w) = o &&& ~~~(r ||| w) := by
  apply BitVec.eq_of_getLsbD_eq; intro i hi
  simp only [BitVec.getLsbD_and, BitVec.getLsbD_or, BitVec.getLsbD_not, hi, decide_true, Bool.true_and]
  cases o.getLsbD i <;> cases v.getLsbD i <;> cases r.getLsbD i <;> cases w.getLsbD i <;> rfl
theorem outside2 (o v r w : Word) : ((o ||| v &&& r) &&& ~~~(v &&& w)) &&& ~~~(r ||| w) = o &&& ~~~(r ||| w) := by
  apply BitVec.eq_of_getLsbD_eq; intro i hi
  simp only [BitVec.getLsbD_and, BitVec.getLsbD_or, BitVec.getLsbD_not, hi, decide_true, Bool.true_and]
  cases o.getLsbD i <;> cases v.getLsbD i <;> cases r.getLsbD i <;> cases w.getLsbD i <;> rfl
theorem outside3 (o v r w : Word) : (o &&& ~~~(v &&& r)) &&& ~~~(r ||| w) = o &&& ~~~(r ||| w) := by
  apply BitVec.eq_of_getLsbD_eq; intro i hi
  simp only [BitVec.getLsbD_and, BitVec.getLsbD_or, BitVec.getLsbD_not, hi, decide_true, Bool.true_and]
  cases o.getLsbD i <;> cases v.getLsbD i <;> cases r.getLsbD i <;> cases w.getLsbD i <;> rfl

theorem csrw_of {i : Instr} {c : Csr} {a : SReg} {f : Csr → Word → Word → Word} {g : Word} {s : State}
    (he : exec i s = issue i (csrWriteBody c a f) s) (h : Issues i s) (hcl : Clean [a] s) (hg : f c (csrRead s c) (s.h.sreg a) = g)
    (ho : g &&& ~~~(Spec.csrRw c ||| Spec.csrW1c c) = csrRead s c &&& ~~~(Spec.csrRw c ||| Spec.csrW1c c)) :
    ∃ t, exec i s = passes i s (fun _ => t) ∧ csrRead t c = Spec.csrStored c (csrRead s c) g ∧ (∀ k, k ≠ c → csrRead t k = csrRead s k) ∧ t.h.sregs = s.h.sregs ∧ t.h.poison = s.h.poison ∧
      t.mem = s.mem ∧ t.sys = s.sys ∧ t.rest = s.rest ∧ t.h.vregs = s.h.vregs ∧ t.h.masks = s.h.masks := by
  have ri : ∀ k, csrRead (issued i s) k = csrRead s k := by
    intro k
    obtain ⟨tk, e⟩ := issued_shape i s
    rw [e]; cases k <;> rfl
  have hf := put_frame (issued i s) c g
  refine ⟨(issued i s).modH (csrPut c g), ?_, ?_, ?_, ?_⟩
  · rw [he, issue_done h (t := (issued i s).modH (csrPut c g))]
    · rfl
    · unfold csrWriteBody
      rw [withClean_eq (by rw [issued_vp]; exact h.thread) (clean_issued hcl)]
      simp only [ri, State.readS, issued_sreg, hg]
    · exact hf.2.2.2.2
  · unfold Spec.csrStored
    by_cases hc : c = .frm
    · subst hc
      have e : csrRead ((issued i s).modH (csrPut Csr.frm g)) Csr.frm = if g.getLsbD 2 then (g &&& ~~~7) ||| ((issued i s).h.frm &&& 7) else g := rfl
      rw [e]
      have : (issued i s).h.frm = csrRead s .frm := ri .frm
      rw [this]
      simp
    · rw [if_neg (fun h => hc h.1)]
      exact read_put _ c hc _ (by rw [ri]; exact ho)
  · intro k hk; rw [put_other _ _ _ hk, ri]
  · obtain ⟨tk, e⟩ := issued_shape i s
    rw [e] at hf ⊢
    exact ⟨hf.1, hf.2.1, rfl, rfl, rfl, hf.2.2.1, hf.2.2.2.1⟩

end Sys2Proof.Machine
end

