-- ==== Sys2Proof/Laws/Devices.lean ====
section
/-! SUPPORT. Reads after writes of the device registers and of the measurement registers; what a command comes to. -/

namespace Sys2Proof.Machine

theorem lookupD_insertKey {α : Type} (d : α) (k j : Nat) (v : α) : ∀ l : List (Nat × α),
    lookupD d j (insertKey k v l) = if j = k then v else lookupD d j l
  | [] => by
    by_cases h : k = j
    · simp [insertKey, lookupD, h]
    · simp [insertKey, lookupD, h, Ne.symm h]
  | (a, x) :: l => by
    have ih := lookupD_insertKey d k j v l
    unfold insertKey
    split
    · by_cases h : j = k
      · simp [lookupD, h]
      · simp [lookupD, h, Ne.symm h]
    · split
      · rename_i h
        by_cases hj : j = k
        · simp [lookupD, hj]
        · have : a ≠ j := by omega
          simp [lookupD, hj, Ne.symm hj, this]
      · by_cases hj : j = k
        · have : a ≠ k := by omega
          simp [lookupD, hj, this] at ih ⊢
          exact ih
        · simp only [lookupD, ih, hj, if_false]

theorem lookupD_removeKey {α : Type} (d : α) (k j : Nat) : ∀ l : List (Nat × α),
    lookupD d j (removeKey k l) = if j = k then d else lookupD d j l
  | [] => by simp [removeKey, lookupD]
  | (a, x) :: l => by
    have ih := lookupD_removeKey d k j l
    unfold removeKey at ih ⊢
    by_cases h : a = k
    · have : ((a != k) = false) := by simp [h]
      rw [List.filter_cons_of_neg (by simp [h]), ih]
      by_cases hj : j = k
      · simp [hj]
      · have : a ≠ j := by omega
        simp [lookupD, hj, this]
    · rw [List.filter_cons_of_pos (by simp [h])]
      by_cases hj : j = k
      · simp [lookupD, hj, h] at ih ⊢
        exact ih
      · simp only [lookupD, ih, hj, if_false]

/-- A device register reads as it was set, and every other as before. -/
theorem dev_setDev (y : Sys) (off o : Nat) (v : Word) : (y.setDev off v).dev o = if o = off then v else y.dev o := by
  unfold Sys.setDev Sys.dev
  dsimp only
  split
  · rename_i h
    rw [lookupD_removeKey, h.1]
  · rw [lookupD_insertKey]

@[simp] theorem setDev_cmds (y : Sys) (off : Nat) (v : Word) : (y.setDev off v).cmds = y.cmds := rfl
@[simp] theorem setDev_mregs (y : Sys) (off : Nat) (v : Word) : (y.setDev off v).mregs = y.mregs := rfl
@[simp] theorem setDev_retraining (y : Sys) (off : Nat) (v : Word) : (y.setDev off v).retraining = y.retraining := rfl
@[simp] theorem setDev_measuring (y : Sys) (off : Nat) (v : Word) : (y.setDev off v).measuring = y.measuring := rfl

theorem natToBytes_ofBytes : ∀ l : List Byte, natToBytes l.length (bytesNat l) = l
  | [] => rfl
  | b :: l => by
    have hb := b.isLt
    have h1 : (b.toNat + 256 * bytesNat l) / 256 = bytesNat l := by omega
    have h2 : BitVec.ofNat 8 (b.toNat + 256 * bytesNat l) = b := by
      apply BitVec.eq_of_toNat_eq
      rw [BitVec.toNat_ofNat]
      omega
    rw [List.length_cons, bytesNat, natToBytes, h1, h2, natToBytes_ofBytes l]

theorem bytesNat_lt_pow : ∀ l : List Byte, bytesNat l < 256 ^ l.length
  | [] => by simp [bytesNat]
  | b :: l => by
    have hb := b.isLt
    have := bytesNat_lt_pow l
    rw [bytesNat, List.length_cons, pow_succ]
    omega

theorem shaRounds_length : ∀ (ks w v : List (BitVec 64)), v.length = 8 → (shaRounds ks w v).length = 8
  | [], _, _, h => h
  | k :: ks, w, v, h => by
    rw [shaRounds]
    refine shaRounds_length ks _ _ ?_
    unfold shaRound
    split <;> simp_all

theorem shaBlocks_length : ∀ (n : Nat) (bs : List Byte) (v : List (BitVec 64)), v.length = 8 → (shaBlocks n bs v).length = 8
  | 0, _, _, h => h
  | n + 1, bs, v, h => by
    rw [shaBlocks]
    refine shaBlocks_length n _ _ ?_
    simp [shaBlock, h, shaRounds_length]

theorem shaInit_length : shaInit.length = 8 := by decide +kernel

/-- A digest has 48 bytes. -/
theorem sha384_length (m : List Byte) : (sha384 m).length = 48 := by
  unfold sha384
  dsimp only
  generalize hv : shaBlocks _ _ shaInit = v
  have h8 : v.length = 8 := hv ▸ shaBlocks_length _ _ _ shaInit_length
  have : ∀ l : List (BitVec 64), (l.flatMap fun x => bigBytes 8 x.toNat).length = 8 * l.length := by
    intro l
    induction l with
    | nil => rfl
    | cons a l ih => simp [bigBytes, natToBytes_length]; omega
  simp [this, h8]

theorem mreg_measure (y : Sys) (i j : Nat) (m : List Byte) :
    (y.measure i m).mreg j = if j = i then sha384 (y.mreg i ++ m) else y.mreg j := by
  unfold Sys.measure
  generalize hb : sha384 (y.mreg i ++ m) = bs
  have h48 : bs.length = 48 := hb ▸ sha384_length _
  have hlt := bytesNat_lt_pow bs
  unfold Sys.mreg
  dsimp only
  rw [lookupD_insertKey]
  split
  · rw [BitVec.toNat_ofNat, Nat.mod_eq_of_lt (by rw [h48] at hlt; exact lt_of_lt_of_le hlt (by decide)), ← h48,
      natToBytes_ofBytes]
  · rfl

/-- One command of a code that is in progress is answered as `f` says, or waits. -/
theorem command_eq {op : Nat} {f : CmdRun → State → Option (State × Word)} {s : State} {k : CmdRun} (h : s.sys.pendingCmds (fun c => c == op) = [k]) :
    command op f s = match f k s with
      | none => .next s
      | some r => .next (r.1.answerCmd k r.2) := by
  unfold command
  rw [h]
  cases hf : f k s <;> simp [hf, List.findSome?]

end Sys2Proof.Machine
end

