-- ==== Sys2Proof/Laws/PerInstr.lean ====
section
/-! SUPPORT. Statements about every instruction as syntax, one lemma per constructor: the word that the encoder writes is
the one that the decoder reads as the same instruction (R244 to R257, R266). -/

namespace Sys2Proof.Laws.WordRoundTrip

/-- An instruction whose fields the encoding can write reads back from its word (R245 to R257), a compressed one from its
half-word (R266). -/
def Statement (i : Instr) : Prop :=
  i.isStep = false → i.fieldsOk = true →
    if i.compressed then decodeHalf i.word = some i else decodeWord i.stack i.word = some i

/-! Fields. -/

theorem r6_val (x : Fin 64) : r6 x.val = x := by apply Fin.ext; simp [r6, Fin.ofNat]
theorem r3_val (x : Fin 8) : r3 x.val = x := by apply Fin.ext; simp [r3, Fin.ofNat]
theorem r2_val (x : Fin 4) : r2 x.val = x := by apply Fin.ext; simp [r2, Fin.ofNat]
theorem r5_val (x : Fin 5) : Fin.ofNat 5 x.val = x := by apply Fin.ext; simp [Fin.ofNat]
theorem r32_val (x : Fin 32) : Fin.ofNat 32 x.val = x := by apply Fin.ext; simp [Fin.ofNat]
theorem bits_val (n : Nat) (x : BitVec n) : BitVec.ofNat n x.toNat = x := by simp
theorem fmtOf_code (f : Fmt) : fmtOf f.code = f := by
  cases f <;> first | rfl | (rename_i n; revert n; decide)
theorem scopeOf_code (s : Scope) : scopeOf s.code = s := by cases s <;> rfl
theorem sz_code (z : Sz) : Sz.ofCode z.code = z := by cases z <;> rfl
theorem nreg_code (n : NregC) : NregC.ofCode n.code = n := by cases n <;> rfl
theorem mvl_code (l : MvlC) : MvlC.ofCode l.code = some l := by cases l <;> rfl
theorem amo_code (o : AmoOp) : AmoOp.ofCode o.code = some o := by cases o <;> rfl
theorem cond_code (c : VCond) : VCond.ofCode c.code = some c := by cases c <;> rfl
theorem kind_code (k : ShKind) : ShKind.ofCode k.code = k := by cases k <;> rfl
theorem face_code (f : ShFace) : ShFace.ofCode f.code = f := by cases f <;> rfl
theorem csr_num (c : Csr) : Csr.ofNum c.num = c := by cases c <;> rfl
theorem rm_code (r : RmField) : RmField.ofCode r.code = r := by
  cases r with
  | stat m => cases m <;> rfl
  | dyn => rfl
theorem fmt_lt (f : Fmt) : f.code < 64 := by cases f <;> simp [Fmt.code] <;> omega
theorem scope_lt (s : Scope) : s.code < 6 := by cases s <;> decide
theorem sz_lt (z : Sz) : z.code < 4 := by cases z <;> decide
theorem nreg_lt (n : NregC) : n.code < 5 := by cases n <;> decide
theorem mvl_lt (l : MvlC) : l.code < 7 := by cases l <;> decide
theorem amo_lt (o : AmoOp) : o.code < 9 := by cases o <;> decide
theorem cond_lt (c : VCond) : c.code < 7 := by cases c <;> decide
theorem kind_lt (k : ShKind) : k.code < 5 := by cases k <;> decide
theorem face_lt (f : ShFace) : f.code < 8 := by cases f <;> decide
theorem csr_lt (c : Csr) : c.num < 65 := by cases c <;> decide
theorem rm_lt (r : RmField) : r.code < 8 := by
  cases r with
  | stat m => cases m <;> decide
  | dyn => decide

/-- An immediate read from a word whose low bits, shifted, are those of the immediate. -/
theorem imm_eq (n v : Nat) (i : BitVec n) (h : v % 2 ^ n = i.toNat) : BitVec.ofNat n v = i := by
  apply BitVec.eq_of_toNat_eq
  rw [BitVec.toNat_ofNat, h]

/-! Formats. -/

/-- How a lemma follows from the word. -/
theorem via {i : Instr} {x : Stack} {w : Nat} (hs : i.stack = x) (hw : i.word = w) (hm : w % 4 = 3)
    (h : decodeWord x w = some i) : Statement i := by
  intro _ _
  simp [Instr.compressed, hs, hw, hm, h]

/-- The same for a half-word. -/
theorem viaHalf {i : Instr} {w : Nat} (hw : i.word = w) (hm : w % 4 ≠ 3) (h : decodeHalf w = some i) : Statement i := by
  intro _ _
  simp [Instr.compressed, hw, hm, h]

theorem mod_wV (c f d a b m : Nat) : wV c f d a b m % 4 = 3 := by unfold wV; omega
theorem mod_wS (c f k d a b : Nat) : wS c f k d a b % 4 = 3 := by unfold wS; omega
theorem mod_wI (c k d a i : Nat) : wI c k d a i % 4 = 3 := by unfold wI; omega
theorem mod_wJ (c k d i : Nat) : wJ c k d i % 4 = 3 := by unfold wJ; omega
theorem mod_wM (d a i o : Nat) : wM d a i o % 4 = 3 := by unfold wM; omega

theorem fields_wV {c f d a b m : Nat} (hc : c < 8) (hf : f < 64) (hd : d < 64) (ha : a < 64) (hb : b < 64) (hm : m < 8) :
    wV c f d a b m / 536870912 % 8 = c ∧ wV c f d a b m / 8388608 % 64 = d ∧ wV c f d a b m / 131072 % 64 = a ∧
    wV c f d a b m / 2048 % 64 = b ∧ wV c f d a b m / 256 % 8 = m ∧ wV c f d a b m / 4 % 64 = f ∧
    wV c f d a b m / 4 % 8 = f % 8 ∧ wV c f d a b m / 32 % 8 = f / 8 := by
  unfold wV; omega

theorem fields_wS {c f k d a b : Nat} (hc : c < 8) (hf : f < 64) (hk : k < 8) (hd : d < 64) (ha : a < 64) (hb : b < 64) :
    wS c f k d a b / 536870912 % 8 = c ∧ wS c f k d a b / 8388608 % 64 = d ∧ wS c f k d a b / 131072 % 64 = a ∧
    wS c f k d a b / 2048 % 64 = b ∧ wS c f k d a b / 32 % 64 = f ∧ wS c f k d a b / 4 % 8 = k ∧
    wS c f k d a b / 32 % 4 = f % 4 ∧ wS c f k d a b / 128 % 16 = f / 4 := by
  unfold wS; omega

theorem fields_wI {c k d a i : Nat} (hc : c < 8) (hk : k < 8) (hd : d < 64) (ha : a < 64) (hi : i < 4096) :
    wI c k d a i / 536870912 % 8 = c ∧ wI c k d a i / 8388608 % 64 = d ∧ wI c k d a i / 131072 % 64 = a ∧
    wI c k d a i / 32 % 4096 = i ∧ wI c k d a i / 4 % 8 = k := by
  unfold wI; omega

theorem fields_wJ {c k d i : Nat} (hc : c < 8) (hk : k < 8) (hd : d < 64) (hi : i < 262144) :
    wJ c k d i / 536870912 % 8 = c ∧ wJ c k d i / 8388608 % 64 = d ∧ wJ c k d i / 32 % 262144 = i ∧
    wJ c k d i / 4 % 8 = k := by
  unfold wJ; omega

theorem fields_wM {d a i o : Nat} (hd : d < 64) (ha : a < 64) (hi : i < 256) (ho : o < 16) :
    wM d a i o / 536870912 % 8 = 1 ∧ wM d a i o / 8388608 % 64 = d ∧ wM d a i o / 131072 % 64 = a ∧
    wM d a i o / 512 % 256 = i ∧ wM d a i o / 4 % 8 = 0 ∧ wM d a i o / 32 % 16 = o := by
  unfold wM; omega

/-! Classes. -/

variable {x : Stack} {f k d a b m i o : Nat}

theorem clsAlu (hf : f < 64) (hd : d < 64) (ha : a < 64) (hb : b < 64) :
    decodeWord x (wS 0 f 7 d a b) = decodeAlu x f d a b := by
  obtain ⟨h1, h2, h3, h4, h5, h6, h7, h8⟩ := fields_wS (c := 0) (k := 7) (by omega) hf (by omega) hd ha hb
  have h9 : wS 0 f 7 d a b / 32 % 64 = f := h5
  simp only [decodeWord, h1, h2, h3, h4, decode0, h6, h9]

theorem clsI0 (hk : k < 8) (hd : d < 64) (ha : a < 64) (hi : i < 4096) :
    decodeWord x (wI 0 k d a i) = decode0 x (wI 0 k d a i) d a (wI 0 k d a i / 2048 % 64) := by
  obtain ⟨h1, h2, h3, h4, h5⟩ := fields_wI (c := 0) (by omega) hk hd ha hi
  simp only [decodeWord, h1, h2, h3]

theorem clsI1 (hk : k < 8) (hd : d < 64) (ha : a < 64) (hi : i < 4096) :
    decodeWord x (wI 1 k d a i) = decode1 x (wI 1 k d a i) d a := by
  obtain ⟨h1, h2, h3, h4, h5⟩ := fields_wI (c := 1) (by omega) hk hd ha hi
  simp only [decodeWord, h1, h2, h3]

theorem clsJ0 (hk : k < 8) (hd : d < 64) (hi : i < 262144) :
    decodeWord x (wJ 0 k d i)
      = decode0 x (wJ 0 k d i) d (wJ 0 k d i / 131072 % 64) (wJ 0 k d i / 2048 % 64) := by
  obtain ⟨h1, h2, h3, h4⟩ := fields_wJ (c := 0) (by omega) hk hd hi
  simp only [decodeWord, h1, h2]

theorem clsJ1 (hk : k < 8) (hd : d < 64) (hi : i < 262144) :
    decodeWord x (wJ 1 k d i) = decode1 x (wJ 1 k d i) d (wJ 1 k d i / 131072 % 64) := by
  obtain ⟨h1, h2, h3, h4⟩ := fields_wJ (c := 1) (by omega) hk hd hi
  simp only [decodeWord, h1, h2]

theorem clsM (hd : d < 64) (ha : a < 64) (hi : i < 256) (ho : o < 16) :
    decodeWord x (wM d a i o) = decode1 x (wM d a i o) d a := by
  obtain ⟨h1, h2, h3, h4, h5, h6⟩ := fields_wM hd ha hi ho
  simp only [decodeWord, h1, h2, h3]

theorem cls2 (s : Bool) (ho : o < 32) (hd : d < 64) (ha : a < 64) (hb : b < 64) (hm : m < 8) :
    decodeWord x (wV 2 (2 * o + s.toNat) d a b m) = decode2 x o s d a b m := by
  have hs : s.toNat < 2 := by cases s <;> decide
  obtain ⟨h1, h2, h3, h4, h5, h6, h7, h8⟩ := fields_wV (c := 2) (f := 2 * o + s.toNat) (by omega) (by omega) hd ha hb hm
  have h9 : (2 * o + s.toNat) / 2 = o := by omega
  have h10 : ((2 * o + s.toNat) % 2 == 1) = s := by cases s <;> simp
  simp only [decodeWord, h1, h2, h3, h4, h5, h6, h9, h10]

theorem cls3 (hf : f < 64) (h : f % 8 < 5) (hd : d < 64) (ha : a < 64) (hb : b < 64) (hm : m < 8) :
    decodeWord x (wV 3 f d a b m) = decodePerm x f d a b m := by
  obtain ⟨h1, h2, h3, h4, h5, h6, h7, h8⟩ := fields_wV (c := 3) (by omega) hf hd ha hb hm
  have h9 : ∀ n : Nat, n < 5 → (match n with
      | 5 => some (Instr.vscl x (r3 d) (r6 a) (fmtOf b) (r3 m) (.ofCode (f / 8)))
      | 6 => some (.vcvt x (r6 d) (r6 a) (fmtOf b) (r3 m) (.ofCode (f / 8)))
      | 7 => some (.vidx x (r6 d) (.ofNat 10 (wV 3 f d a b m / 8192)) (.ofNat 8 (wV 3 f d a b m / 32)))
      | _ => decodePerm x f d a b m) = decodePerm x f d a b m := by
    intro n hn
    match n, hn with
    | 0, _ => rfl
    | 1, _ => rfl
    | 2, _ => rfl
    | 3, _ => rfl
    | 4, _ => rfl
  simp only [decodeWord, h1, h2, h3, h4, h5, h6, decode3, h7, h8]
  exact h9 _ h

theorem cls3x (hf : f < 64) (hd : d < 64) (ha : a < 64) (hb : b < 64) (hm : m < 8) :
    decodeWord x (wV 3 f d a b m) = decode3 x (wV 3 f d a b m) d a b m := by
  obtain ⟨h1, h2, h3, h4, h5, h6, h7, h8⟩ := fields_wV (c := 3) (by omega) hf hd ha hb hm
  simp only [decodeWord, h1, h2, h3, h4, h5]

theorem cls4 (hf : f < 64) (hd : d < 64) (ha : a < 64) (hb : b < 64) (hm : m < 8) :
    decodeWord x (wV 4 f d a b m) = decode4 x f d a b m := by
  obtain ⟨h1, h2, h3, h4, h5, h6, h7, h8⟩ := fields_wV (c := 4) (by omega) hf hd ha hb hm
  simp only [decodeWord, h1, h2, h3, h4, h5, h6]

theorem cls5 (hf : f < 64) (hd : d < 64) (ha : a < 64) (hb : b < 64) (hm : m < 8) :
    decodeWord x (wV 5 f d a b m) = decode5 x f d a b m := by
  obtain ⟨h1, h2, h3, h4, h5, h6, h7, h8⟩ := fields_wV (c := 5) (by omega) hf hd ha hb hm
  simp only [decodeWord, h1, h2, h3, h4, h5, h6]

theorem clsS6 (hk : k < 8) (hf : f < 64) (hd : d < 64) (ha : a < 64) (hb : b < 64) :
    decodeWord x (wS 6 f k d a b) = decode6 x (wS 6 f k d a b) d a b := by
  obtain ⟨h1, h2, h3, h4, h5, h6, h7, h8⟩ := fields_wS (c := 6) (by omega) hf hk hd ha hb
  simp only [decodeWord, h1, h2, h3, h4]

theorem clsSys (hf : f < 64) (hd : d < 64) (ha : a < 64) (hb : b < 64) :
    decodeWord x (wS 6 f 7 d a b) = decodeSys x f d a b := by
  obtain ⟨h1, h2, h3, h4, h5, h6, h7, h8⟩ := fields_wS (c := 6) (k := 7) (by omega) hf (by omega) hd ha hb
  rw [clsS6 (by omega) hf hd ha hb]
  simp only [decode6, h6, h5]

/-- A word of class 110 that is given by its fields. -/
theorem clsW6 (w : Nat) (h : w / 536870912 % 8 = 6) :
    decodeWord x w = decode6 x w (w / 8388608 % 64) (w / 131072 % 64) (w / 2048 % 64) := by
  simp only [decodeWord, h]

/-! One lemma per constructor. -/

theorem add (x : Stack) (d : SReg) (a : SReg) (b : SReg) : Statement (.add x d a b) :=
  via (x := x) (w := wS 0 0 7 d a b) rfl rfl (mod_wS ..)
    ((clsAlu (by decide) d.isLt a.isLt b.isLt).trans (show some (Instr.add x (r6 d.val) (r6 a.val) (r6 b.val)) = _ by simp only [r6_val]))

theorem sub (x : Stack) (d : SReg) (a : SReg) (b : SReg) : Statement (.sub x d a b) :=
  via (x := x) (w := wS 0 1 7 d a b) rfl rfl (mod_wS ..)
    ((clsAlu (by decide) d.isLt a.isLt b.isLt).trans (show some (Instr.sub x (r6 d.val) (r6 a.val) (r6 b.val)) = _ by simp only [r6_val]))

theorem and (x : Stack) (d : SReg) (a : SReg) (b : SReg) : Statement (.and x d a b) :=
  via (x := x) (w := wS 0 2 7 d a b) rfl rfl (mod_wS ..)
    ((clsAlu (by decide) d.isLt a.isLt b.isLt).trans (show some (Instr.and x (r6 d.val) (r6 a.val) (r6 b.val)) = _ by simp only [r6_val]))

theorem or (x : Stack) (d : SReg) (a : SReg) (b : SReg) : Statement (.or x d a b) :=
  via (x := x) (w := wS 0 3 7 d a b) rfl rfl (mod_wS ..)
    ((clsAlu (by decide) d.isLt a.isLt b.isLt).trans (show some (Instr.or x (r6 d.val) (r6 a.val) (r6 b.val)) = _ by simp only [r6_val]))

theorem xor (x : Stack) (d : SReg) (a : SReg) (b : SReg) : Statement (.xor x d a b) :=
  via (x := x) (w := wS 0 4 7 d a b) rfl rfl (mod_wS ..)
    ((clsAlu (by decide) d.isLt a.isLt b.isLt).trans (show some (Instr.xor x (r6 d.val) (r6 a.val) (r6 b.val)) = _ by simp only [r6_val]))

theorem shl (x : Stack) (d : SReg) (a : SReg) (b : SReg) : Statement (.shl x d a b) :=
  via (x := x) (w := wS 0 5 7 d a b) rfl rfl (mod_wS ..)
    ((clsAlu (by decide) d.isLt a.isLt b.isLt).trans (show some (Instr.shl x (r6 d.val) (r6 a.val) (r6 b.val)) = _ by simp only [r6_val]))

theorem shr (x : Stack) (d : SReg) (a : SReg) (b : SReg) : Statement (.shr x d a b) :=
  via (x := x) (w := wS 0 6 7 d a b) rfl rfl (mod_wS ..)
    ((clsAlu (by decide) d.isLt a.isLt b.isLt).trans (show some (Instr.shr x (r6 d.val) (r6 a.val) (r6 b.val)) = _ by simp only [r6_val]))

theorem sra (x : Stack) (d : SReg) (a : SReg) (b : SReg) : Statement (.sra x d a b) :=
  via (x := x) (w := wS 0 7 7 d a b) rfl rfl (mod_wS ..)
    ((clsAlu (by decide) d.isLt a.isLt b.isLt).trans (show some (Instr.sra x (r6 d.val) (r6 a.val) (r6 b.val)) = _ by simp only [r6_val]))

theorem mul (x : Stack) (d : SReg) (a : SReg) (b : SReg) : Statement (.mul x d a b) :=
  via (x := x) (w := wS 0 8 7 d a b) rfl rfl (mod_wS ..)
    ((clsAlu (by decide) d.isLt a.isLt b.isLt).trans (show some (Instr.mul x (r6 d.val) (r6 a.val) (r6 b.val)) = _ by simp only [r6_val]))

theorem mulh (x : Stack) (d : SReg) (a : SReg) (b : SReg) : Statement (.mulh x d a b) :=
  via (x := x) (w := wS 0 9 7 d a b) rfl rfl (mod_wS ..)
    ((clsAlu (by decide) d.isLt a.isLt b.isLt).trans (show some (Instr.mulh x (r6 d.val) (r6 a.val) (r6 b.val)) = _ by simp only [r6_val]))

theorem mulhn (x : Stack) (d : SReg) (a : SReg) (b : SReg) : Statement (.mulhn x d a b) :=
  via (x := x) (w := wS 0 10 7 d a b) rfl rfl (mod_wS ..)
    ((clsAlu (by decide) d.isLt a.isLt b.isLt).trans (show some (Instr.mulhn x (r6 d.val) (r6 a.val) (r6 b.val)) = _ by simp only [r6_val]))

theorem div (x : Stack) (d : SReg) (a : SReg) (b : SReg) : Statement (.div x d a b) :=
  via (x := x) (w := wS 0 11 7 d a b) rfl rfl (mod_wS ..)
    ((clsAlu (by decide) d.isLt a.isLt b.isLt).trans (show some (Instr.div x (r6 d.val) (r6 a.val) (r6 b.val)) = _ by simp only [r6_val]))

theorem divn (x : Stack) (d : SReg) (a : SReg) (b : SReg) : Statement (.divn x d a b) :=
  via (x := x) (w := wS 0 12 7 d a b) rfl rfl (mod_wS ..)
    ((clsAlu (by decide) d.isLt a.isLt b.isLt).trans (show some (Instr.divn x (r6 d.val) (r6 a.val) (r6 b.val)) = _ by simp only [r6_val]))

theorem rem (x : Stack) (d : SReg) (a : SReg) (b : SReg) : Statement (.rem x d a b) :=
  via (x := x) (w := wS 0 13 7 d a b) rfl rfl (mod_wS ..)
    ((clsAlu (by decide) d.isLt a.isLt b.isLt).trans (show some (Instr.rem x (r6 d.val) (r6 a.val) (r6 b.val)) = _ by simp only [r6_val]))

theorem remn (x : Stack) (d : SReg) (a : SReg) (b : SReg) : Statement (.remn x d a b) :=
  via (x := x) (w := wS 0 14 7 d a b) rfl rfl (mod_wS ..)
    ((clsAlu (by decide) d.isLt a.isLt b.isLt).trans (show some (Instr.remn x (r6 d.val) (r6 a.val) (r6 b.val)) = _ by simp only [r6_val]))

theorem min (x : Stack) (d : SReg) (a : SReg) (b : SReg) : Statement (.min x d a b) :=
  via (x := x) (w := wS 0 15 7 d a b) rfl rfl (mod_wS ..)
    ((clsAlu (by decide) d.isLt a.isLt b.isLt).trans (show some (Instr.min x (r6 d.val) (r6 a.val) (r6 b.val)) = _ by simp only [r6_val]))

theorem max (x : Stack) (d : SReg) (a : SReg) (b : SReg) : Statement (.max x d a b) :=
  via (x := x) (w := wS 0 16 7 d a b) rfl rfl (mod_wS ..)
    ((clsAlu (by decide) d.isLt a.isLt b.isLt).trans (show some (Instr.max x (r6 d.val) (r6 a.val) (r6 b.val)) = _ by simp only [r6_val]))

theorem minn (x : Stack) (d : SReg) (a : SReg) (b : SReg) : Statement (.minn x d a b) :=
  via (x := x) (w := wS 0 17 7 d a b) rfl rfl (mod_wS ..)
    ((clsAlu (by decide) d.isLt a.isLt b.isLt).trans (show some (Instr.minn x (r6 d.val) (r6 a.val) (r6 b.val)) = _ by simp only [r6_val]))

theorem maxn (x : Stack) (d : SReg) (a : SReg) (b : SReg) : Statement (.maxn x d a b) :=
  via (x := x) (w := wS 0 18 7 d a b) rfl rfl (mod_wS ..)
    ((clsAlu (by decide) d.isLt a.isLt b.isLt).trans (show some (Instr.maxn x (r6 d.val) (r6 a.val) (r6 b.val)) = _ by simp only [r6_val]))

theorem slt (x : Stack) (d : SReg) (a : SReg) (b : SReg) : Statement (.slt x d a b) :=
  via (x := x) (w := wS 0 19 7 d a b) rfl rfl (mod_wS ..)
    ((clsAlu (by decide) d.isLt a.isLt b.isLt).trans (show some (Instr.slt x (r6 d.val) (r6 a.val) (r6 b.val)) = _ by simp only [r6_val]))

theorem sltn (x : Stack) (d : SReg) (a : SReg) (b : SReg) : Statement (.sltn x d a b) :=
  via (x := x) (w := wS 0 20 7 d a b) rfl rfl (mod_wS ..)
    ((clsAlu (by decide) d.isLt a.isLt b.isLt).trans (show some (Instr.sltn x (r6 d.val) (r6 a.val) (r6 b.val)) = _ by simp only [r6_val]))

theorem clz (x : Stack) (d : SReg) (a : SReg) : Statement (.clz x d a) :=
  via (x := x) (w := wS 0 21 7 d a 0) rfl rfl (mod_wS ..)
    ((clsAlu (by decide) d.isLt a.isLt (by decide)).trans (show some (Instr.clz x (r6 d.val) (r6 a.val)) = _ by simp only [r6_val]))

theorem popc (x : Stack) (d : SReg) (a : SReg) : Statement (.popc x d a) :=
  via (x := x) (w := wS 0 22 7 d a 0) rfl rfl (mod_wS ..)
    ((clsAlu (by decide) d.isLt a.isLt (by decide)).trans (show some (Instr.popc x (r6 d.val) (r6 a.val)) = _ by simp only [r6_val]))

theorem shli (x : Stack) (d : SReg) (a : SReg) (n : BitVec 6) : Statement (.shli x d a n) :=
  via (x := x) (w := wS 0 24 7 d a n.toNat) rfl rfl (mod_wS ..)
    ((clsAlu (by decide) d.isLt a.isLt (by have := n.isLt; omega)).trans (show some (Instr.shli x (r6 d.val) (r6 a.val) (.ofNat 6 n.toNat)) = _ by simp only [r6_val, bits_val]))

theorem shri (x : Stack) (d : SReg) (a : SReg) (n : BitVec 6) : Statement (.shri x d a n) :=
  via (x := x) (w := wS 0 25 7 d a n.toNat) rfl rfl (mod_wS ..)
    ((clsAlu (by decide) d.isLt a.isLt (by have := n.isLt; omega)).trans (show some (Instr.shri x (r6 d.val) (r6 a.val) (.ofNat 6 n.toNat)) = _ by simp only [r6_val, bits_val]))

theorem srai (x : Stack) (d : SReg) (a : SReg) (n : BitVec 6) : Statement (.srai x d a n) :=
  via (x := x) (w := wS 0 26 7 d a n.toNat) rfl rfl (mod_wS ..)
    ((clsAlu (by decide) d.isLt a.isLt (by have := n.isLt; omega)).trans (show some (Instr.srai x (r6 d.val) (r6 a.val) (.ofNat 6 n.toNat)) = _ by simp only [r6_val, bits_val]))

theorem addi (x : Stack) (d : SReg) (a : SReg) (i : BitVec 12) : Statement (.addi x d a i) := by
  intro _ hf
  have hn : ¬(d.val = 0 ∧ a.val = 0) := by
    intro h
    have h1 : d = 0 := Fin.ext h.1
    have h2 : a = 0 := Fin.ext h.2
    subst h1; subst h2
    exact Bool.noConfusion hf
  refine via (x := x) (w := wI 0 0 d a i.toNat) rfl rfl (mod_wI ..)
    ((clsI0 (by decide) d.isLt a.isLt i.isLt).trans ?_) rfl hf
  have h := (fields_wI (c := 0) (k := 0) (by decide) (by decide) d.isLt a.isLt i.isLt).2.2.2
  simp only [decode0, h.2, imm_eq 12 _ _ h.1, r6_val, hn, if_false]

theorem andi (x : Stack) (d : SReg) (a : SReg) (i : BitVec 12) : Statement (.andi x d a i) :=
  via (x := x) (w := wI 0 1 d a i.toNat) rfl rfl (mod_wI ..)
    ((clsI0 (by decide) d.isLt a.isLt i.isLt).trans (by
    have h := (fields_wI (c := 0) (k := 1) (by decide) (by decide) d.isLt a.isLt i.isLt).2.2.2
    simp only [decode0, h.2, imm_eq 12 _ _ h.1, r6_val]))

theorem ori (x : Stack) (d : SReg) (a : SReg) (i : BitVec 12) : Statement (.ori x d a i) :=
  via (x := x) (w := wI 0 2 d a i.toNat) rfl rfl (mod_wI ..)
    ((clsI0 (by decide) d.isLt a.isLt i.isLt).trans (by
    have h := (fields_wI (c := 0) (k := 2) (by decide) (by decide) d.isLt a.isLt i.isLt).2.2.2
    simp only [decode0, h.2, imm_eq 12 _ _ h.1, r6_val]))

theorem xori (x : Stack) (d : SReg) (a : SReg) (i : BitVec 12) : Statement (.xori x d a i) :=
  via (x := x) (w := wI 0 3 d a i.toNat) rfl rfl (mod_wI ..)
    ((clsI0 (by decide) d.isLt a.isLt i.isLt).trans (by
    have h := (fields_wI (c := 0) (k := 3) (by decide) (by decide) d.isLt a.isLt i.isLt).2.2.2
    simp only [decode0, h.2, imm_eq 12 _ _ h.1, r6_val]))

theorem slti (x : Stack) (d : SReg) (a : SReg) (i : BitVec 12) : Statement (.slti x d a i) :=
  via (x := x) (w := wI 0 4 d a i.toNat) rfl rfl (mod_wI ..)
    ((clsI0 (by decide) d.isLt a.isLt i.isLt).trans (by
    have h := (fields_wI (c := 0) (k := 4) (by decide) (by decide) d.isLt a.isLt i.isLt).2.2.2
    simp only [decode0, h.2, imm_eq 12 _ _ h.1, r6_val]))

theorem lih (x : Stack) (d : SReg) (i : BitVec 18) : Statement (.lih x d i) :=
  via (x := x) (w := wJ 0 5 d i.toNat) rfl rfl (mod_wJ ..)
    ((clsJ0 (by decide) d.isLt i.isLt).trans (by
    have h := (fields_wJ (c := 0) (k := 5) (by decide) (by decide) d.isLt i.isLt).2.2
    simp only [decode0, h.2, imm_eq 18 _ _ h.1, r6_val]))

theorem adpc (x : Stack) (d : SReg) (i : BitVec 18) : Statement (.adpc x d i) :=
  via (x := x) (w := wJ 0 6 d i.toNat) rfl rfl (mod_wJ ..)
    ((clsJ0 (by decide) d.isLt i.isLt).trans (by
    have h := (fields_wJ (c := 0) (k := 6) (by decide) (by decide) d.isLt i.isLt).2.2
    simp only [decode0, h.2, imm_eq 18 _ _ h.1, r6_val]))

theorem hint (x : Stack) (e : BitVec 12) : Statement (.hint x e) := by
  intro _ hf
  have hn : ¬(e.toNat = 0) := by
    intro h
    have h1 : e = 0 := BitVec.eq_of_toNat_eq h
    subst h1
    exact Bool.noConfusion hf
  refine via (x := x) (w := wI 0 0 0 0 e.toNat) rfl rfl (mod_wI ..)
    ((clsI0 (by decide) (by decide) (by decide) e.isLt).trans ?_) rfl hf
  have h := (fields_wI (c := 0) (k := 0) (d := 0) (a := 0) (by decide) (by decide) (by decide) (by decide) e.isLt).2.2.2
  simp only [decode0, h.2, h.1, imm_eq 12 _ _ h.1, hn, and_self, if_true, if_false]

theorem nop (x : Stack) : Statement (.nop x) :=
  via (x := x) (w := wI 0 0 0 0 0) rfl rfl (by decide) rfl

theorem ld (x : Stack) (d : SReg) (a : SReg) (i : BitVec 8) (z : Sz) : Statement (.ld x d a i z) :=
  via (x := x) (w := wM d a i.toNat z.code) rfl rfl (mod_wM ..)
    ((clsM d.isLt a.isLt i.isLt (Nat.lt_trans (sz_lt z) (by decide))).trans (by
    have h := (fields_wM (o := z.code) d.isLt a.isLt i.isLt (Nat.lt_trans (sz_lt z) (by decide))).2.2.2
    have hz := sz_lt z
    simp only [decode1, h.2.1, h.2.2, imm_eq 8 _ _ h.1, r6_val, hz, if_true, sz_code]))

theorem st (x : Stack) (d : SReg) (a : SReg) (i : BitVec 8) (z : Sz) : Statement (.st x d a i z) :=
  via (x := x) (w := wM d a i.toNat (4 + z.code)) rfl rfl (mod_wM ..)
    ((clsM d.isLt a.isLt i.isLt (by have := sz_lt z; omega)).trans (by
    have hz := sz_lt z
    have h := (fields_wM (o := 4 + z.code) d.isLt a.isLt i.isLt (by omega)).2.2.2
    have h1 : ¬(4 + z.code < 4) := by omega
    have h2 : 4 + z.code < 8 := by omega
    have h3 : 4 + z.code - 4 = z.code := by omega
    simp only [decode1, h.2.1, h.2.2, imm_eq 8 _ _ h.1, r6_val, h1, h2, h3, if_true, if_false, sz_code]))

theorem jalr (x : Stack) (d : SReg) (a : SReg) (i : BitVec 8) : Statement (.jalr x d a i) :=
  via (x := x) (w := wM d a i.toNat 8) rfl rfl (mod_wM ..)
    ((clsM d.isLt a.isLt i.isLt (by decide)).trans (by
    have h := (fields_wM (o := 8) d.isLt a.isLt i.isLt (by decide)).2.2.2
    have h1 : ¬(8 < 4) := by omega
    simp only [decode1, h.2.1, h.2.2, imm_eq 8 _ _ h.1, r6_val, h1, if_false, Nat.lt_irrefl, if_true]))

theorem jal (x : Stack) (d : SReg) (i : BitVec 18) : Statement (.jal x d i) :=
  via (x := x) (w := wJ 1 1 d i.toNat) rfl rfl (mod_wJ ..)
    ((clsJ1 (by decide) d.isLt i.isLt).trans (by
    have h := (fields_wJ (c := 1) (k := 1) (by decide) (by decide) d.isLt i.isLt).2.2
    simp only [decode1, h.2, imm_eq 18 _ _ h.1, r6_val]))

theorem beq (x : Stack) (a : SReg) (b : SReg) (i : BitVec 12) : Statement (.beq x a b i) :=
  via (x := x) (w := wI 1 2 a b i.toNat) rfl rfl (mod_wI ..)
    ((clsI1 (by decide) a.isLt b.isLt i.isLt).trans (by
    have h := (fields_wI (c := 1) (k := 2) (by decide) (by decide) a.isLt b.isLt i.isLt).2.2.2
    simp only [decode1, h.2, imm_eq 12 _ _ h.1, r6_val]))

theorem bne (x : Stack) (a : SReg) (b : SReg) (i : BitVec 12) : Statement (.bne x a b i) :=
  via (x := x) (w := wI 1 3 a b i.toNat) rfl rfl (mod_wI ..)
    ((clsI1 (by decide) a.isLt b.isLt i.isLt).trans (by
    have h := (fields_wI (c := 1) (k := 3) (by decide) (by decide) a.isLt b.isLt i.isLt).2.2.2
    simp only [decode1, h.2, imm_eq 12 _ _ h.1, r6_val]))

theorem blt (x : Stack) (a : SReg) (b : SReg) (i : BitVec 12) : Statement (.blt x a b i) :=
  via (x := x) (w := wI 1 4 a b i.toNat) rfl rfl (mod_wI ..)
    ((clsI1 (by decide) a.isLt b.isLt i.isLt).trans (by
    have h := (fields_wI (c := 1) (k := 4) (by decide) (by decide) a.isLt b.isLt i.isLt).2.2.2
    simp only [decode1, h.2, imm_eq 12 _ _ h.1, r6_val]))

theorem bge (x : Stack) (a : SReg) (b : SReg) (i : BitVec 12) : Statement (.bge x a b i) :=
  via (x := x) (w := wI 1 5 a b i.toNat) rfl rfl (mod_wI ..)
    ((clsI1 (by decide) a.isLt b.isLt i.isLt).trans (by
    have h := (fields_wI (c := 1) (k := 5) (by decide) (by decide) a.isLt b.isLt i.isLt).2.2.2
    simp only [decode1, h.2, imm_eq 12 _ _ h.1, r6_val]))

theorem bltn (x : Stack) (a : SReg) (b : SReg) (i : BitVec 12) : Statement (.bltn x a b i) :=
  via (x := x) (w := wI 1 6 a b i.toNat) rfl rfl (mod_wI ..)
    ((clsI1 (by decide) a.isLt b.isLt i.isLt).trans (by
    have h := (fields_wI (c := 1) (k := 6) (by decide) (by decide) a.isLt b.isLt i.isLt).2.2.2
    simp only [decode1, h.2, imm_eq 12 _ _ h.1, r6_val]))

theorem bgen (x : Stack) (a : SReg) (b : SReg) (i : BitVec 12) : Statement (.bgen x a b i) :=
  via (x := x) (w := wI 1 7 a b i.toNat) rfl rfl (mod_wI ..)
    ((clsI1 (by decide) a.isLt b.isLt i.isLt).trans (by
    have h := (fields_wI (c := 1) (k := 7) (by decide) (by decide) a.isLt b.isLt i.isLt).2.2.2
    simp only [decode1, h.2, imm_eq 12 _ _ h.1, r6_val]))

theorem caddi (d : Fin 32) (i : BitVec 6) : Statement (.caddi d i) :=
  viaHalf (w := d * 256 + i.toNat * 4 + 1) rfl (by omega) (by
    have h_d := d.isLt
    have h_i := i.isLt
    have e0 : Fin.ofNat 32 ((d.val * 256 + i.toNat * 4 + 1) / 256) = d := by
      apply Fin.ext; simp only [Fin.ofNat]; omega
    have e1 : BitVec.ofNat 6 ((d.val * 256 + i.toNat * 4 + 1) / 4) = i := by
      apply imm_eq; omega
    have c : (d.val * 256 + i.toNat * 4 + 1) % 4 = 1 := by omega
    have g : (d.val * 256 + i.toNat * 4 + 1) / 8192 % 8 = 0 := by omega
    simp only [decodeHalf, c, g, e0, e1]; rfl)

theorem cli (d : Fin 32) (i : BitVec 6) : Statement (.cli d i) :=
  viaHalf (w := 8192 + d * 256 + i.toNat * 4 + 1) rfl (by omega) (by
    have h_d := d.isLt
    have h_i := i.isLt
    have e0 : Fin.ofNat 32 ((8192 + d.val * 256 + i.toNat * 4 + 1) / 256) = d := by
      apply Fin.ext; simp only [Fin.ofNat]; omega
    have e1 : BitVec.ofNat 6 ((8192 + d.val * 256 + i.toNat * 4 + 1) / 4) = i := by
      apply imm_eq; omega
    have c : (8192 + d.val * 256 + i.toNat * 4 + 1) % 4 = 1 := by omega
    have g : (8192 + d.val * 256 + i.toNat * 4 + 1) / 8192 % 8 = 1 := by omega
    simp only [decodeHalf, c, g, e0, e1]; rfl)

theorem cmov (d : Fin 32) (a : Fin 32) : Statement (.cmov d a) :=
  viaHalf (w := 16384 + d * 256 + a * 8 + 1) rfl (by omega) (by
    have h_d := d.isLt
    have h_a := a.isLt
    have e0 : Fin.ofNat 32 ((16384 + d.val * 256 + a.val * 8 + 1) / 256) = d := by
      apply Fin.ext; simp only [Fin.ofNat]; omega
    have e1 : Fin.ofNat 32 ((16384 + d.val * 256 + a.val * 8 + 1) / 8) = a := by
      apply Fin.ext; simp only [Fin.ofNat]; omega
    have c : (16384 + d.val * 256 + a.val * 8 + 1) % 4 = 1 := by omega
    have g : (16384 + d.val * 256 + a.val * 8 + 1) / 8192 % 8 = 2 := by omega
    simp only [decodeHalf, c, g, e0, e1]; rfl)

theorem cadd (d : Fin 32) (a : Fin 32) : Statement (.cadd d a) :=
  viaHalf (w := 24576 + d * 256 + a * 8 + 1) rfl (by omega) (by
    have h_d := d.isLt
    have h_a := a.isLt
    have e0 : Fin.ofNat 32 ((24576 + d.val * 256 + a.val * 8 + 1) / 256) = d := by
      apply Fin.ext; simp only [Fin.ofNat]; omega
    have e1 : Fin.ofNat 32 ((24576 + d.val * 256 + a.val * 8 + 1) / 8) = a := by
      apply Fin.ext; simp only [Fin.ofNat]; omega
    have c : (24576 + d.val * 256 + a.val * 8 + 1) % 4 = 1 := by omega
    have g : (24576 + d.val * 256 + a.val * 8 + 1) / 8192 % 8 = 3 := by omega
    simp only [decodeHalf, c, g, e0, e1]; rfl)

theorem csub (d : Fin 32) (a : Fin 32) : Statement (.csub d a) :=
  viaHalf (w := 32768 + d * 256 + a * 8 + 1) rfl (by omega) (by
    have h_d := d.isLt
    have h_a := a.isLt
    have e0 : Fin.ofNat 32 ((32768 + d.val * 256 + a.val * 8 + 1) / 256) = d := by
      apply Fin.ext; simp only [Fin.ofNat]; omega
    have e1 : Fin.ofNat 32 ((32768 + d.val * 256 + a.val * 8 + 1) / 8) = a := by
      apply Fin.ext; simp only [Fin.ofNat]; omega
    have c : (32768 + d.val * 256 + a.val * 8 + 1) % 4 = 1 := by omega
    have g : (32768 + d.val * 256 + a.val * 8 + 1) / 8192 % 8 = 4 := by omega
    simp only [decodeHalf, c, g, e0, e1]; rfl)

theorem cbeqz (a : Fin 32) (i : BitVec 6) : Statement (.cbeqz a i) :=
  viaHalf (w := 40960 + a * 256 + i.toNat * 4 + 1) rfl (by omega) (by
    have h_a := a.isLt
    have h_i := i.isLt
    have e0 : Fin.ofNat 32 ((40960 + a.val * 256 + i.toNat * 4 + 1) / 256) = a := by
      apply Fin.ext; simp only [Fin.ofNat]; omega
    have e1 : BitVec.ofNat 6 ((40960 + a.val * 256 + i.toNat * 4 + 1) / 4) = i := by
      apply imm_eq; omega
    have c : (40960 + a.val * 256 + i.toNat * 4 + 1) % 4 = 1 := by omega
    have g : (40960 + a.val * 256 + i.toNat * 4 + 1) / 8192 % 8 = 5 := by omega
    simp only [decodeHalf, c, g, e0, e1]; rfl)

theorem cbnez (a : Fin 32) (i : BitVec 6) : Statement (.cbnez a i) :=
  viaHalf (w := 49152 + a * 256 + i.toNat * 4 + 1) rfl (by omega) (by
    have h_a := a.isLt
    have h_i := i.isLt
    have e0 : Fin.ofNat 32 ((49152 + a.val * 256 + i.toNat * 4 + 1) / 256) = a := by
      apply Fin.ext; simp only [Fin.ofNat]; omega
    have e1 : BitVec.ofNat 6 ((49152 + a.val * 256 + i.toNat * 4 + 1) / 4) = i := by
      apply imm_eq; omega
    have c : (49152 + a.val * 256 + i.toNat * 4 + 1) % 4 = 1 := by omega
    have g : (49152 + a.val * 256 + i.toNat * 4 + 1) / 8192 % 8 = 6 := by omega
    simp only [decodeHalf, c, g, e0, e1]; rfl)

theorem cj (i : BitVec 11) : Statement (.cj i) :=
  viaHalf (w := 57344 + i.toNat * 4 + 1) rfl (by omega) (by
    have h_i := i.isLt
    have e0 : BitVec.ofNat 11 ((57344 + i.toNat * 4 + 1) / 4) = i := by
      apply imm_eq; omega
    have c : (57344 + i.toNat * 4 + 1) % 4 = 1 := by omega
    have g : (57344 + i.toNat * 4 + 1) / 8192 % 8 = 7 := by omega
    simp only [decodeHalf, c, g, e0]; rfl)

theorem cldw (d : Fin 8) (a : Fin 8) (u : BitVec 5) : Statement (.cldw d a u) :=
  viaHalf (w := 8192 + d * 1024 + a * 128 + u.toNat * 4) rfl (by omega) (by
    have h_d := d.isLt
    have h_a := a.isLt
    have h_u := u.isLt
    have e0 : Fin.ofNat 8 ((8192 + d.val * 1024 + a.val * 128 + u.toNat * 4) / 1024) = d := by
      apply Fin.ext; simp only [Fin.ofNat]; omega
    have e1 : Fin.ofNat 8 ((8192 + d.val * 1024 + a.val * 128 + u.toNat * 4) / 128) = a := by
      apply Fin.ext; simp only [Fin.ofNat]; omega
    have e2 : BitVec.ofNat 5 ((8192 + d.val * 1024 + a.val * 128 + u.toNat * 4) / 4) = u := by
      apply imm_eq; omega
    have c : (8192 + d.val * 1024 + a.val * 128 + u.toNat * 4) % 4 = 0 := by omega
    have g : (8192 + d.val * 1024 + a.val * 128 + u.toNat * 4) / 8192 % 8 = 1 := by omega
    simp only [decodeHalf, c, g, e0, e1, e2]; rfl)

theorem cldd (d : Fin 8) (a : Fin 8) (u : BitVec 5) : Statement (.cldd d a u) :=
  viaHalf (w := 16384 + d * 1024 + a * 128 + u.toNat * 4) rfl (by omega) (by
    have h_d := d.isLt
    have h_a := a.isLt
    have h_u := u.isLt
    have e0 : Fin.ofNat 8 ((16384 + d.val * 1024 + a.val * 128 + u.toNat * 4) / 1024) = d := by
      apply Fin.ext; simp only [Fin.ofNat]; omega
    have e1 : Fin.ofNat 8 ((16384 + d.val * 1024 + a.val * 128 + u.toNat * 4) / 128) = a := by
      apply Fin.ext; simp only [Fin.ofNat]; omega
    have e2 : BitVec.ofNat 5 ((16384 + d.val * 1024 + a.val * 128 + u.toNat * 4) / 4) = u := by
      apply imm_eq; omega
    have c : (16384 + d.val * 1024 + a.val * 128 + u.toNat * 4) % 4 = 0 := by omega
    have g : (16384 + d.val * 1024 + a.val * 128 + u.toNat * 4) / 8192 % 8 = 2 := by omega
    simp only [decodeHalf, c, g, e0, e1, e2]; rfl)

theorem cstw (d : Fin 8) (a : Fin 8) (u : BitVec 5) : Statement (.cstw d a u) :=
  viaHalf (w := 24576 + d * 1024 + a * 128 + u.toNat * 4) rfl (by omega) (by
    have h_d := d.isLt
    have h_a := a.isLt
    have h_u := u.isLt
    have e0 : Fin.ofNat 8 ((24576 + d.val * 1024 + a.val * 128 + u.toNat * 4) / 1024) = d := by
      apply Fin.ext; simp only [Fin.ofNat]; omega
    have e1 : Fin.ofNat 8 ((24576 + d.val * 1024 + a.val * 128 + u.toNat * 4) / 128) = a := by
      apply Fin.ext; simp only [Fin.ofNat]; omega
    have e2 : BitVec.ofNat 5 ((24576 + d.val * 1024 + a.val * 128 + u.toNat * 4) / 4) = u := by
      apply imm_eq; omega
    have c : (24576 + d.val * 1024 + a.val * 128 + u.toNat * 4) % 4 = 0 := by omega
    have g : (24576 + d.val * 1024 + a.val * 128 + u.toNat * 4) / 8192 % 8 = 3 := by omega
    simp only [decodeHalf, c, g, e0, e1, e2]; rfl)

theorem cstd (d : Fin 8) (a : Fin 8) (u : BitVec 5) : Statement (.cstd d a u) :=
  viaHalf (w := 32768 + d * 1024 + a * 128 + u.toNat * 4) rfl (by omega) (by
    have h_d := d.isLt
    have h_a := a.isLt
    have h_u := u.isLt
    have e0 : Fin.ofNat 8 ((32768 + d.val * 1024 + a.val * 128 + u.toNat * 4) / 1024) = d := by
      apply Fin.ext; simp only [Fin.ofNat]; omega
    have e1 : Fin.ofNat 8 ((32768 + d.val * 1024 + a.val * 128 + u.toNat * 4) / 128) = a := by
      apply Fin.ext; simp only [Fin.ofNat]; omega
    have e2 : BitVec.ofNat 5 ((32768 + d.val * 1024 + a.val * 128 + u.toNat * 4) / 4) = u := by
      apply imm_eq; omega
    have c : (32768 + d.val * 1024 + a.val * 128 + u.toNat * 4) % 4 = 0 := by omega
    have g : (32768 + d.val * 1024 + a.val * 128 + u.toNat * 4) / 8192 % 8 = 4 := by omega
    simp only [decodeHalf, c, g, e0, e1, e2]; rfl)

theorem vadd (x : Stack) (d : VReg) (a : VReg) (b : Fin 64) (m : MReg) (s : Bool) : Statement (.vadd x d a b m s) :=
  via (x := x) (w := wV 2 (2 * 0 + s.toNat) d a b m) rfl rfl (mod_wV ..)
    ((cls2 (o := 0) s (by decide) d.isLt a.isLt b.isLt m.isLt).trans
    (show some (Instr.vadd x (r6 d) (r6 a) (r6 b) (r3 m) s) = _ by simp only [r6_val, r3_val]))

theorem vsub (x : Stack) (d : VReg) (a : VReg) (b : Fin 64) (m : MReg) (s : Bool) : Statement (.vsub x d a b m s) :=
  via (x := x) (w := wV 2 (2 * 1 + s.toNat) d a b m) rfl rfl (mod_wV ..)
    ((cls2 (o := 1) s (by decide) d.isLt a.isLt b.isLt m.isLt).trans
    (show some (Instr.vsub x (r6 d) (r6 a) (r6 b) (r3 m) s) = _ by simp only [r6_val, r3_val]))

theorem vmul (x : Stack) (d : VReg) (a : VReg) (b : Fin 64) (m : MReg) (s : Bool) : Statement (.vmul x d a b m s) :=
  via (x := x) (w := wV 2 (2 * 2 + s.toNat) d a b m) rfl rfl (mod_wV ..)
    ((cls2 (o := 2) s (by decide) d.isLt a.isLt b.isLt m.isLt).trans
    (show some (Instr.vmul x (r6 d) (r6 a) (r6 b) (r3 m) s) = _ by simp only [r6_val, r3_val]))

theorem vmulh (x : Stack) (d : VReg) (a : VReg) (b : Fin 64) (m : MReg) (s : Bool) : Statement (.vmulh x d a b m s) :=
  via (x := x) (w := wV 2 (2 * 3 + s.toNat) d a b m) rfl rfl (mod_wV ..)
    ((cls2 (o := 3) s (by decide) d.isLt a.isLt b.isLt m.isLt).trans
    (show some (Instr.vmulh x (r6 d) (r6 a) (r6 b) (r3 m) s) = _ by simp only [r6_val, r3_val]))

theorem vdiv (x : Stack) (d : VReg) (a : VReg) (b : Fin 64) (m : MReg) (s : Bool) : Statement (.vdiv x d a b m s) :=
  via (x := x) (w := wV 2 (2 * 4 + s.toNat) d a b m) rfl rfl (mod_wV ..)
    ((cls2 (o := 4) s (by decide) d.isLt a.isLt b.isLt m.isLt).trans
    (show some (Instr.vdiv x (r6 d) (r6 a) (r6 b) (r3 m) s) = _ by simp only [r6_val, r3_val]))

theorem vmin (x : Stack) (d : VReg) (a : VReg) (b : Fin 64) (m : MReg) (s : Bool) : Statement (.vmin x d a b m s) :=
  via (x := x) (w := wV 2 (2 * 5 + s.toNat) d a b m) rfl rfl (mod_wV ..)
    ((cls2 (o := 5) s (by decide) d.isLt a.isLt b.isLt m.isLt).trans
    (show some (Instr.vmin x (r6 d) (r6 a) (r6 b) (r3 m) s) = _ by simp only [r6_val, r3_val]))

theorem vmax (x : Stack) (d : VReg) (a : VReg) (b : Fin 64) (m : MReg) (s : Bool) : Statement (.vmax x d a b m s) :=
  via (x := x) (w := wV 2 (2 * 6 + s.toNat) d a b m) rfl rfl (mod_wV ..)
    ((cls2 (o := 6) s (by decide) d.isLt a.isLt b.isLt m.isLt).trans
    (show some (Instr.vmax x (r6 d) (r6 a) (r6 b) (r3 m) s) = _ by simp only [r6_val, r3_val]))

theorem vand (x : Stack) (d : VReg) (a : VReg) (b : Fin 64) (m : MReg) (s : Bool) : Statement (.vand x d a b m s) :=
  via (x := x) (w := wV 2 (2 * 7 + s.toNat) d a b m) rfl rfl (mod_wV ..)
    ((cls2 (o := 7) s (by decide) d.isLt a.isLt b.isLt m.isLt).trans
    (show some (Instr.vand x (r6 d) (r6 a) (r6 b) (r3 m) s) = _ by simp only [r6_val, r3_val]))

theorem vor (x : Stack) (d : VReg) (a : VReg) (b : Fin 64) (m : MReg) (s : Bool) : Statement (.vor x d a b m s) :=
  via (x := x) (w := wV 2 (2 * 8 + s.toNat) d a b m) rfl rfl (mod_wV ..)
    ((cls2 (o := 8) s (by decide) d.isLt a.isLt b.isLt m.isLt).trans
    (show some (Instr.vor x (r6 d) (r6 a) (r6 b) (r3 m) s) = _ by simp only [r6_val, r3_val]))

theorem vxor (x : Stack) (d : VReg) (a : VReg) (b : Fin 64) (m : MReg) (s : Bool) : Statement (.vxor x d a b m s) :=
  via (x := x) (w := wV 2 (2 * 9 + s.toNat) d a b m) rfl rfl (mod_wV ..)
    ((cls2 (o := 9) s (by decide) d.isLt a.isLt b.isLt m.isLt).trans
    (show some (Instr.vxor x (r6 d) (r6 a) (r6 b) (r3 m) s) = _ by simp only [r6_val, r3_val]))

theorem vshl (x : Stack) (d : VReg) (a : VReg) (b : Fin 64) (m : MReg) (s : Bool) : Statement (.vshl x d a b m s) :=
  via (x := x) (w := wV 2 (2 * 10 + s.toNat) d a b m) rfl rfl (mod_wV ..)
    ((cls2 (o := 10) s (by decide) d.isLt a.isLt b.isLt m.isLt).trans
    (show some (Instr.vshl x (r6 d) (r6 a) (r6 b) (r3 m) s) = _ by simp only [r6_val, r3_val]))

theorem vshr (x : Stack) (d : VReg) (a : VReg) (b : Fin 64) (m : MReg) (s : Bool) : Statement (.vshr x d a b m s) :=
  via (x := x) (w := wV 2 (2 * 11 + s.toNat) d a b m) rfl rfl (mod_wV ..)
    ((cls2 (o := 11) s (by decide) d.isLt a.isLt b.isLt m.isLt).trans
    (show some (Instr.vshr x (r6 d) (r6 a) (r6 b) (r3 m) s) = _ by simp only [r6_val, r3_val]))

theorem vsra (x : Stack) (d : VReg) (a : VReg) (b : Fin 64) (m : MReg) (s : Bool) : Statement (.vsra x d a b m s) :=
  via (x := x) (w := wV 2 (2 * 12 + s.toNat) d a b m) rfl rfl (mod_wV ..)
    ((cls2 (o := 12) s (by decide) d.isLt a.isLt b.isLt m.isLt).trans
    (show some (Instr.vsra x (r6 d) (r6 a) (r6 b) (r3 m) s) = _ by simp only [r6_val, r3_val]))

theorem vadc (x : Stack) (d : VReg) (a : VReg) (b : Fin 64) (c : MReg) (s : Bool) : Statement (.vadc x d a b c s) :=
  via (x := x) (w := wV 2 (2 * 13 + s.toNat) d a b c) rfl rfl (mod_wV ..)
    ((cls2 (o := 13) s (by decide) d.isLt a.isLt b.isLt c.isLt).trans
    (show some (Instr.vadc x (r6 d) (r6 a) (r6 b) (r3 c) s) = _ by simp only [r6_val, r3_val]))

theorem vsbc (x : Stack) (d : VReg) (a : VReg) (b : Fin 64) (c : MReg) (s : Bool) : Statement (.vsbc x d a b c s) :=
  via (x := x) (w := wV 2 (2 * 14 + s.toNat) d a b c) rfl rfl (mod_wV ..)
    ((cls2 (o := 14) s (by decide) d.isLt a.isLt b.isLt c.isLt).trans
    (show some (Instr.vsbc x (r6 d) (r6 a) (r6 b) (r3 c) s) = _ by simp only [r6_val, r3_val]))

theorem vfma (x : Stack) (d : VReg) (a : VReg) (b : Fin 64) (m : MReg) (s : Bool) : Statement (.vfma x d a b m s) :=
  via (x := x) (w := wV 2 (2 * 15 + s.toNat) d a b m) rfl rfl (mod_wV ..)
    ((cls2 (o := 15) s (by decide) d.isLt a.isLt b.isLt m.isLt).trans
    (show some (Instr.vfma x (r6 d) (r6 a) (r6 b) (r3 m) s) = _ by simp only [r6_val, r3_val]))

theorem vfms (x : Stack) (d : VReg) (a : VReg) (b : Fin 64) (m : MReg) (s : Bool) : Statement (.vfms x d a b m s) :=
  via (x := x) (w := wV 2 (2 * 16 + s.toNat) d a b m) rfl rfl (mod_wV ..)
    ((cls2 (o := 16) s (by decide) d.isLt a.isLt b.isLt m.isLt).trans
    (show some (Instr.vfms x (r6 d) (r6 a) (r6 b) (r3 m) s) = _ by simp only [r6_val, r3_val]))

theorem vfnma (x : Stack) (d : VReg) (a : VReg) (b : Fin 64) (m : MReg) (s : Bool) : Statement (.vfnma x d a b m s) :=
  via (x := x) (w := wV 2 (2 * 17 + s.toNat) d a b m) rfl rfl (mod_wV ..)
    ((cls2 (o := 17) s (by decide) d.isLt a.isLt b.isLt m.isLt).trans
    (show some (Instr.vfnma x (r6 d) (r6 a) (r6 b) (r3 m) s) = _ by simp only [r6_val, r3_val]))

theorem vfnms (x : Stack) (d : VReg) (a : VReg) (b : Fin 64) (m : MReg) (s : Bool) : Statement (.vfnms x d a b m s) :=
  via (x := x) (w := wV 2 (2 * 18 + s.toNat) d a b m) rfl rfl (mod_wV ..)
    ((cls2 (o := 18) s (by decide) d.isLt a.isLt b.isLt m.isLt).trans
    (show some (Instr.vfnms x (r6 d) (r6 a) (r6 b) (r3 m) s) = _ by simp only [r6_val, r3_val]))

theorem vsel (x : Stack) (d : VReg) (a : VReg) (b : Fin 64) (c : MReg) (s : Bool) : Statement (.vsel x d a b c s) :=
  via (x := x) (w := wV 2 (2 * 19 + s.toNat) d a b c) rfl rfl (mod_wV ..)
    ((cls2 (o := 19) s (by decide) d.isLt a.isLt b.isLt c.isLt).trans
    (show some (Instr.vsel x (r6 d) (r6 a) (r6 b) (r3 c) s) = _ by simp only [r6_val, r3_val]))

theorem vcmp (x : Stack) (c : VCond) (d : MReg) (a : VReg) (b : Fin 64) (m : MReg) (s : Bool) : Statement (.vcmp x c d a b m s) :=
  via (x := x) (w := wV 2 (2 * 20 + s.toNat) (c.code * 8 + d) a b m) rfl rfl (mod_wV ..)
    ((cls2 (o := 20) s (by decide) (by have := cond_lt c; have := d.isLt; omega) a.isLt b.isLt m.isLt).trans (by
      have h1 : (c.code * 8 + d.val) / 8 = c.code := by have := d.isLt; omega
      have h2 : r3 (c.code * 8 + d.val) = d := by
        apply Fin.ext; have := d.isLt; simp only [r3, Fin.ofNat]; omega
      simp only [decode2, h1, cond_code, Option.map_some, h2, r6_val, r3_val]))

theorem vbsadd (x : Stack) (d : VReg) (a : VReg) (b : VReg) (m : MReg) : Statement (.vbsadd x d a b m) :=
  via (x := x) (w := wV 2 (2 * 21 + false.toNat) d a b m) rfl rfl (mod_wV ..)
    ((cls2 (o := 21) false (by decide) d.isLt a.isLt b.isLt m.isLt).trans
    (show some (Instr.vbsadd x (r6 d.val) (r6 a.val) (r6 b.val) (r3 m.val)) = _ by simp only [r6_val, r3_val]))

theorem vbsmul (x : Stack) (d : VReg) (a : VReg) (b : VReg) (m : MReg) : Statement (.vbsmul x d a b m) :=
  via (x := x) (w := wV 2 (2 * 22 + false.toNat) d a b m) rfl rfl (mod_wV ..)
    ((cls2 (o := 22) false (by decide) d.isLt a.isLt b.isLt m.isLt).trans
    (show some (Instr.vbsmul x (r6 d.val) (r6 a.val) (r6 b.val) (r3 m.val)) = _ by simp only [r6_val, r3_val]))

theorem vabs (x : Stack) (d : VReg) (a : VReg) (m : MReg) : Statement (.vabs x d a m) :=
  via (x := x) (w := wV 2 (2 * 23 + false.toNat) d a 0 m) rfl rfl (mod_wV ..)
    ((cls2 (o := 23) false (by decide) d.isLt a.isLt (by decide) m.isLt).trans
    (show some (Instr.vabs x (r6 d.val) (r6 a.val) (r3 m.val)) = _ by simp only [r6_val, r3_val]))

theorem vneg (x : Stack) (d : VReg) (a : VReg) (m : MReg) : Statement (.vneg x d a m) :=
  via (x := x) (w := wV 2 (2 * 23 + false.toNat) d a 1 m) rfl rfl (mod_wV ..)
    ((cls2 (o := 23) false (by decide) d.isLt a.isLt (by decide) m.isLt).trans
    (show some (Instr.vneg x (r6 d.val) (r6 a.val) (r3 m.val)) = _ by simp only [r6_val, r3_val]))

theorem vsqrt (x : Stack) (d : VReg) (a : VReg) (m : MReg) : Statement (.vsqrt x d a m) :=
  via (x := x) (w := wV 2 (2 * 23 + false.toNat) d a 2 m) rfl rfl (mod_wV ..)
    ((cls2 (o := 23) false (by decide) d.isLt a.isLt (by decide) m.isLt).trans
    (show some (Instr.vsqrt x (r6 d.val) (r6 a.val) (r3 m.val)) = _ by simp only [r6_val, r3_val]))

theorem vrcp (x : Stack) (d : VReg) (a : VReg) (m : MReg) : Statement (.vrcp x d a m) :=
  via (x := x) (w := wV 2 (2 * 23 + false.toNat) d a 3 m) rfl rfl (mod_wV ..)
    ((cls2 (o := 23) false (by decide) d.isLt a.isLt (by decide) m.isLt).trans
    (show some (Instr.vrcp x (r6 d.val) (r6 a.val) (r3 m.val)) = _ by simp only [r6_val, r3_val]))

theorem vrsq (x : Stack) (d : VReg) (a : VReg) (m : MReg) : Statement (.vrsq x d a m) :=
  via (x := x) (w := wV 2 (2 * 23 + false.toNat) d a 4 m) rfl rfl (mod_wV ..)
    ((cls2 (o := 23) false (by decide) d.isLt a.isLt (by decide) m.isLt).trans
    (show some (Instr.vrsq x (r6 d.val) (r6 a.val) (r3 m.val)) = _ by simp only [r6_val, r3_val]))

theorem vexp2 (x : Stack) (d : VReg) (a : VReg) (m : MReg) : Statement (.vexp2 x d a m) :=
  via (x := x) (w := wV 2 (2 * 23 + false.toNat) d a 5 m) rfl rfl (mod_wV ..)
    ((cls2 (o := 23) false (by decide) d.isLt a.isLt (by decide) m.isLt).trans
    (show some (Instr.vexp2 x (r6 d.val) (r6 a.val) (r3 m.val)) = _ by simp only [r6_val, r3_val]))

theorem vlog2 (x : Stack) (d : VReg) (a : VReg) (m : MReg) : Statement (.vlog2 x d a m) :=
  via (x := x) (w := wV 2 (2 * 23 + false.toNat) d a 6 m) rfl rfl (mod_wV ..)
    ((cls2 (o := 23) false (by decide) d.isLt a.isLt (by decide) m.isLt).trans
    (show some (Instr.vlog2 x (r6 d.val) (r6 a.val) (r3 m.val)) = _ by simp only [r6_val, r3_val]))

theorem vclass (x : Stack) (d : VReg) (a : VReg) (m : MReg) : Statement (.vclass x d a m) :=
  via (x := x) (w := wV 2 (2 * 23 + false.toNat) d a 7 m) rfl rfl (mod_wV ..)
    ((cls2 (o := 23) false (by decide) d.isLt a.isLt (by decide) m.isLt).trans
    (show some (Instr.vclass x (r6 d.val) (r6 a.val) (r3 m.val)) = _ by simp only [r6_val, r3_val]))

theorem vnot (x : Stack) (d : VReg) (a : VReg) (m : MReg) : Statement (.vnot x d a m) :=
  via (x := x) (w := wV 2 (2 * 23 + false.toNat) d a 8 m) rfl rfl (mod_wV ..)
    ((cls2 (o := 23) false (by decide) d.isLt a.isLt (by decide) m.isLt).trans
    (show some (Instr.vnot x (r6 d.val) (r6 a.val) (r3 m.val)) = _ by simp only [r6_val, r3_val]))

theorem vclz (x : Stack) (d : VReg) (a : VReg) (m : MReg) : Statement (.vclz x d a m) :=
  via (x := x) (w := wV 2 (2 * 23 + false.toNat) d a 9 m) rfl rfl (mod_wV ..)
    ((cls2 (o := 23) false (by decide) d.isLt a.isLt (by decide) m.isLt).trans
    (show some (Instr.vclz x (r6 d.val) (r6 a.val) (r3 m.val)) = _ by simp only [r6_val, r3_val]))

theorem vpopc (x : Stack) (d : VReg) (a : VReg) (m : MReg) : Statement (.vpopc x d a m) :=
  via (x := x) (w := wV 2 (2 * 23 + false.toNat) d a 10 m) rfl rfl (mod_wV ..)
    ((cls2 (o := 23) false (by decide) d.isLt a.isLt (by decide) m.isLt).trans
    (show some (Instr.vpopc x (r6 d.val) (r6 a.val) (r3 m.val)) = _ by simp only [r6_val, r3_val]))

theorem vfetch (x : Stack) (a : SReg) (m : MReg) : Statement (.vfetch x a m) :=
  via (x := x) (w := wV 2 (2 * 24 + false.toNat) 0 a 0 m) rfl rfl (mod_wV ..)
    ((cls2 (o := 24) false (by decide) (by decide) a.isLt (by decide) m.isLt).trans
    (show some (Instr.vfetch x (r6 a.val) (r3 m.val)) = _ by simp only [r6_val, r3_val]))

theorem vstop (x : Stack) : Statement (.vstop x) :=
  via (x := x) (w := wV 2 (2 * 24 + false.toNat) 0 0 1 0) rfl rfl (mod_wV ..)
    ((cls2 (o := 24) false (by decide) (by decide) (by decide) (by decide) (by decide)).trans
    (show some (Instr.vstop x) = _ from rfl))

theorem vnext (x : Stack) (a : VReg) : Statement (.vnext x a) := by
  refine via (x := x) (w := wV 2 48 0 a 2 0) rfl rfl (mod_wV ..) ?_
  rw [show wV 2 48 0 a 2 0 = wV 2 (2 * 24 + false.toNat) 0 a 2 0 from rfl, cls2 (o := 24) false (by decide) (by decide) a.isLt (by decide) (by decide)]
  show some (Instr.vnext x (r6 a.val)) = _
  rw [r6_val]

theorem vpbr (x : Stack) (o : BitVec 6) (a : VReg) : Statement (.vpbr x o a) :=
  via (x := x) (w := wV 2 (2 * 24 + false.toNat) o.toNat a 3 0) rfl rfl (mod_wV ..)
    ((cls2 (o := 24) false (by decide) o.isLt a.isLt (by decide) (by decide)).trans
    (show some (Instr.vpbr x (.ofNat 6 o.toNat) (r6 a.val)) = _ by simp only [r6_val, bits_val]))

theorem vmov (x : Stack) (d : VReg) (a : VReg) (m : MReg) : Statement (.vmov x d a m) :=
  via (x := x) (w := wV 3 0 d a 0 m) rfl rfl (mod_wV ..)
    ((cls3 (by decide) (by decide) d.isLt a.isLt (by decide) m.isLt).trans (show some (Instr.vmov x (r6 d.val) (r6 a.val) (r3 m.val)) = _ by simp only [r6_val, r3_val]))

theorem vmovScalar (x : Stack) (d : VReg) (a : SReg) (m : MReg) : Statement (.vmovScalar x d a m) :=
  via (x := x) (w := wV 3 1 d a 0 m) rfl rfl (mod_wV ..)
    ((cls3 (by decide) (by decide) d.isLt a.isLt (by decide) m.isLt).trans (show some (Instr.vmovScalar x (r6 d.val) (r6 a.val) (r3 m.val)) = _ by simp only [r6_val, r3_val]))

theorem vrsum (x : Stack) (d : VReg) (a : VReg) (m : MReg) : Statement (.vrsum x d a m) :=
  via (x := x) (w := wV 3 2 d a 0 m) rfl rfl (mod_wV ..)
    ((cls3 (by decide) (by decide) d.isLt a.isLt (by decide) m.isLt).trans (show some (Instr.vrsum x (r6 d.val) (r6 a.val) (r3 m.val)) = _ by simp only [r6_val, r3_val]))

theorem vrmax (x : Stack) (d : VReg) (a : VReg) (m : MReg) : Statement (.vrmax x d a m) :=
  via (x := x) (w := wV 3 10 d a 0 m) rfl rfl (mod_wV ..)
    ((cls3 (by decide) (by decide) d.isLt a.isLt (by decide) m.isLt).trans (show some (Instr.vrmax x (r6 d.val) (r6 a.val) (r3 m.val)) = _ by simp only [r6_val, r3_val]))

theorem vrmin (x : Stack) (d : VReg) (a : VReg) (m : MReg) : Statement (.vrmin x d a m) :=
  via (x := x) (w := wV 3 18 d a 0 m) rfl rfl (mod_wV ..)
    ((cls3 (by decide) (by decide) d.isLt a.isLt (by decide) m.isLt).trans (show some (Instr.vrmin x (r6 d.val) (r6 a.val) (r3 m.val)) = _ by simp only [r6_val, r3_val]))

theorem vrand (x : Stack) (d : VReg) (a : VReg) (m : MReg) : Statement (.vrand x d a m) :=
  via (x := x) (w := wV 3 26 d a 0 m) rfl rfl (mod_wV ..)
    ((cls3 (by decide) (by decide) d.isLt a.isLt (by decide) m.isLt).trans (show some (Instr.vrand x (r6 d.val) (r6 a.val) (r3 m.val)) = _ by simp only [r6_val, r3_val]))

theorem vror (x : Stack) (d : VReg) (a : VReg) (m : MReg) : Statement (.vror x d a m) :=
  via (x := x) (w := wV 3 34 d a 0 m) rfl rfl (mod_wV ..)
    ((cls3 (by decide) (by decide) d.isLt a.isLt (by decide) m.isLt).trans (show some (Instr.vror x (r6 d.val) (r6 a.val) (r3 m.val)) = _ by simp only [r6_val, r3_val]))

theorem mand (x : Stack) (d : MReg) (a : MReg) (b : MReg) : Statement (.mand x d a b) :=
  via (x := x) (w := wV 3 3 d a b 0) rfl rfl (mod_wV ..)
    ((cls3 (by decide) (by decide) (Nat.lt_trans d.isLt (by decide)) (Nat.lt_trans a.isLt (by decide)) (Nat.lt_trans b.isLt (by decide)) (by decide)).trans (show some (Instr.mand x (r3 d.val) (r3 a.val) (r3 b.val)) = _ by simp only [r3_val]))

theorem mor (x : Stack) (d : MReg) (a : MReg) (b : MReg) : Statement (.mor x d a b) :=
  via (x := x) (w := wV 3 11 d a b 0) rfl rfl (mod_wV ..)
    ((cls3 (by decide) (by decide) (Nat.lt_trans d.isLt (by decide)) (Nat.lt_trans a.isLt (by decide)) (Nat.lt_trans b.isLt (by decide)) (by decide)).trans (show some (Instr.mor x (r3 d.val) (r3 a.val) (r3 b.val)) = _ by simp only [r3_val]))

theorem mxor (x : Stack) (d : MReg) (a : MReg) (b : MReg) : Statement (.mxor x d a b) :=
  via (x := x) (w := wV 3 19 d a b 0) rfl rfl (mod_wV ..)
    ((cls3 (by decide) (by decide) (Nat.lt_trans d.isLt (by decide)) (Nat.lt_trans a.isLt (by decide)) (Nat.lt_trans b.isLt (by decide)) (by decide)).trans (show some (Instr.mxor x (r3 d.val) (r3 a.val) (r3 b.val)) = _ by simp only [r3_val]))

theorem mandn (x : Stack) (d : MReg) (a : MReg) (b : MReg) : Statement (.mandn x d a b) :=
  via (x := x) (w := wV 3 27 d a b 0) rfl rfl (mod_wV ..)
    ((cls3 (by decide) (by decide) (Nat.lt_trans d.isLt (by decide)) (Nat.lt_trans a.isLt (by decide)) (Nat.lt_trans b.isLt (by decide)) (by decide)).trans (show some (Instr.mandn x (r3 d.val) (r3 a.val) (r3 b.val)) = _ by simp only [r3_val]))

theorem mnot (x : Stack) (d : MReg) (a : MReg) : Statement (.mnot x d a) :=
  via (x := x) (w := wV 3 35 d a 0 0) rfl rfl (mod_wV ..)
    ((cls3 (by decide) (by decide) (Nat.lt_trans d.isLt (by decide)) (Nat.lt_trans a.isLt (by decide)) (by decide) (by decide)).trans (show some (Instr.mnot x (r3 d.val) (r3 a.val)) = _ by simp only [r3_val]))

theorem mshl (x : Stack) (d : MReg) (a : MReg) (b : SReg) : Statement (.mshl x d a b) :=
  via (x := x) (w := wV 3 43 d a b 0) rfl rfl (mod_wV ..)
    ((cls3 (by decide) (by decide) (Nat.lt_trans d.isLt (by decide)) (Nat.lt_trans a.isLt (by decide)) b.isLt (by decide)).trans (show some (Instr.mshl x (r3 d.val) (r3 a.val) (r6 b.val)) = _ by simp only [r6_val, r3_val]))

theorem mpopc (x : Stack) (d : SReg) (a : MReg) : Statement (.mpopc x d a) :=
  via (x := x) (w := wV 3 51 d a 0 0) rfl rfl (mod_wV ..)
    ((cls3 (by decide) (by decide) d.isLt (Nat.lt_trans a.isLt (by decide)) (by decide) (by decide)).trans (show some (Instr.mpopc x (r6 d.val) (r3 a.val)) = _ by simp only [r6_val, r3_val]))

theorem mfirst (x : Stack) (d : SReg) (a : MReg) : Statement (.mfirst x d a) :=
  via (x := x) (w := wV 3 59 d a 0 0) rfl rfl (mod_wV ..)
    ((cls3 (by decide) (by decide) d.isLt (Nat.lt_trans a.isLt (by decide)) (by decide) (by decide)).trans (show some (Instr.mfirst x (r6 d.val) (r3 a.val)) = _ by simp only [r6_val, r3_val]))

theorem mset (x : Stack) (d : MReg) (a : SReg) : Statement (.mset x d a) :=
  via (x := x) (w := wV 3 4 d a 0 0) rfl rfl (mod_wV ..)
    ((cls3 (by decide) (by decide) (Nat.lt_trans d.isLt (by decide)) a.isLt (by decide) (by decide)).trans (show some (Instr.mset x (r3 d.val) (r6 a.val)) = _ by simp only [r6_val, r3_val]))

theorem vscl (x : Stack) (k : KReg) (a : VReg) (f : Fmt) (m : MReg) (r : RmField) : Statement (.vscl x k a f m r) :=
  via (x := x) (w := wV 3 (r.code * 8 + 5) k a f.code m) rfl rfl (mod_wV ..)
    (by
    have hr := rm_lt r
    have h := (fields_wV (c := 3) (f := r.code * 8 + 5) (by decide) (by omega) (Nat.lt_trans k.isLt (by decide)) a.isLt (fmt_lt f) m.isLt).2.2.2.2.2.2
    have h1 : (r.code * 8 + 5) % 8 = 5 := by omega
    have h2 : (r.code * 8 + 5) / 8 = r.code := by omega
    rw [cls3x (by omega) (Nat.lt_trans k.isLt (by decide)) a.isLt (fmt_lt f) m.isLt]
    simp only [decode3, h.1, h.2, h1, h2, r6_val, r3_val, fmtOf_code, rm_code])

theorem vcvt (x : Stack) (d : VReg) (a : VReg) (f : Fmt) (m : MReg) (r : RmField) : Statement (.vcvt x d a f m r) :=
  via (x := x) (w := wV 3 (r.code * 8 + 6) d a f.code m) rfl rfl (mod_wV ..)
    (by
    have hr := rm_lt r
    have h := (fields_wV (c := 3) (f := r.code * 8 + 6) (by decide) (by omega) d.isLt a.isLt (fmt_lt f) m.isLt).2.2.2.2.2.2
    have h1 : (r.code * 8 + 6) % 8 = 6 := by omega
    have h2 : (r.code * 8 + 6) / 8 = r.code := by omega
    rw [cls3x (by omega) d.isLt a.isLt (fmt_lt f) m.isLt]
    simp only [decode3, h.1, h.2, h1, h2, r6_val, r3_val, fmtOf_code, rm_code])

theorem vperm (x : Stack) (d : VReg) (a : VReg) (i : VReg) (m : MReg) : Statement (.vperm x d a i m) :=
  via (x := x) (w := wV 3 8 d a i m) rfl rfl (mod_wV ..)
    ((cls3 (by decide) (by decide) d.isLt a.isLt i.isLt m.isLt).trans (show some (Instr.vperm x (r6 d.val) (r6 a.val) (r6 i.val) (r3 m.val)) = _ by simp only [r6_val, r3_val]))

theorem vbsj (x : Stack) (d : VReg) (a : VReg) : Statement (.vbsj x d a) :=
  via (x := x) (w := wV 3 9 d a 0 0) rfl rfl (mod_wV ..)
    ((cls3 (by decide) (by decide) d.isLt a.isLt (by decide) (by decide)).trans (show some (Instr.vbsj x (r6 d.val) (r6 a.val)) = _ by simp only [r6_val]))

theorem vresh (x : Stack) (d : VReg) (a : VReg) (f : Fmt) : Statement (.vresh x d a f) :=
  via (x := x) (w := wV 3 16 d a f.code 0) rfl rfl (mod_wV ..)
    ((cls3 (by decide) (by decide) d.isLt a.isLt (fmt_lt f) (by decide)).trans
    (show some (Instr.vresh x (r6 d.val) (r6 a.val) (fmtOf f.code)) = _ by simp only [r6_val, fmtOf_code]))

theorem vext (x : Stack) (d : SReg) (a : VReg) (b : SReg) : Statement (.vext x d a b) :=
  via (x := x) (w := wV 3 24 d a b 0) rfl rfl (mod_wV ..)
    ((cls3 (by decide) (by decide) d.isLt a.isLt b.isLt (by decide)).trans (show some (Instr.vext x (r6 d.val) (r6 a.val) (r6 b.val)) = _ by simp only [r6_val]))

theorem vins (x : Stack) (d : VReg) (a : SReg) (b : SReg) : Statement (.vins x d a b) :=
  via (x := x) (w := wV 3 32 d a b 0) rfl rfl (mod_wV ..)
    ((cls3 (by decide) (by decide) d.isLt a.isLt b.isLt (by decide)).trans (show some (Instr.vins x (r6 d.val) (r6 a.val) (r6 b.val)) = _ by simp only [r6_val]))

theorem vcomp (x : Stack) (d : VReg) (a : VReg) (m : MReg) : Statement (.vcomp x d a m) :=
  via (x := x) (w := wV 3 40 d a 0 m) rfl rfl (mod_wV ..)
    ((cls3 (by decide) (by decide) d.isLt a.isLt (by decide) m.isLt).trans (show some (Instr.vcomp x (r6 d.val) (r6 a.val) (r3 m.val)) = _ by simp only [r6_val, r3_val]))

theorem vargmax (x : Stack) (d : VReg) (a : VReg) (m : MReg) : Statement (.vargmax x d a m) :=
  via (x := x) (w := wV 3 42 d a 0 m) rfl rfl (mod_wV ..)
    ((cls3 (by decide) (by decide) d.isLt a.isLt (by decide) m.isLt).trans (show some (Instr.vargmax x (r6 d.val) (r6 a.val) (r3 m.val)) = _ by simp only [r6_val, r3_val]))

theorem vdecb (x : Stack) (d : VReg) (a : VReg) (z : Fin 4) (y : Fin 4) (w : Fin 4) : Statement (.vdecb x d a z y w) :=
  via (x := x) (w := wV 3 48 d a (z * 16 + y * 4 + w) 0) rfl rfl (mod_wV ..)
    ((cls3 (by decide) (by decide) d.isLt a.isLt (by omega) (by decide)).trans (by
    have hz := z.isLt
    have hy := y.isLt
    have hw := w.isLt
    have e1 : r2 ((z.val * 16 + y.val * 4 + w.val) / 16) = z := by apply Fin.ext; simp only [r2, Fin.ofNat]; omega
    have e2 : r2 ((z.val * 16 + y.val * 4 + w.val) / 4) = y := by apply Fin.ext; simp only [r2, Fin.ofNat]; omega
    have e3 : r2 (z.val * 16 + y.val * 4 + w.val) = w := by apply Fin.ext; simp only [r2, Fin.ofNat]; omega
    show some (Instr.vdecb x (r6 d.val) (r6 a.val) (r2 ((z.val * 16 + y.val * 4 + w.val) / 16))
      (r2 ((z.val * 16 + y.val * 4 + w.val) / 4)) (r2 (z.val * 16 + y.val * 4 + w.val))) = _
    simp only [r6_val, e1, e2, e3]))

theorem vbsl (x : Stack) (d : VReg) (a : VReg) : Statement (.vbsl x d a) :=
  via (x := x) (w := wV 3 56 d a 0 0) rfl rfl (mod_wV ..)
    ((cls3 (by decide) (by decide) d.isLt a.isLt (by decide) (by decide)).trans (show some (Instr.vbsl x (r6 d.val) (r6 a.val)) = _ by simp only [r6_val]))

theorem vidx (x : Stack) (d : VReg) (s : BitVec 10) (t : BitVec 8) : Statement (.vidx x d s t) :=
  via (x := x) (w := 3 * 536870912 + d * 8388608 + s.toNat * 8192 + t.toNat * 32 + 31) rfl rfl (by omega)
    (by
    have hd := d.isLt
    have hs := s.isLt
    have ht := t.isLt
    have c : (3 * 536870912 + d.val * 8388608 + s.toNat * 8192 + t.toNat * 32 + 31) / 536870912 % 8 = 3 := by omega
    have g : (3 * 536870912 + d.val * 8388608 + s.toNat * 8192 + t.toNat * 32 + 31) / 4 % 8 = 7 := by omega
    have e : (3 * 536870912 + d.val * 8388608 + s.toNat * 8192 + t.toNat * 32 + 31) / 8388608 % 64 = d.val := by omega
    have e1 : BitVec.ofNat 10 ((3 * 536870912 + d.val * 8388608 + s.toNat * 8192 + t.toNat * 32 + 31) / 8192) = s := by
      apply imm_eq; omega
    have e2 : BitVec.ofNat 8 ((3 * 536870912 + d.val * 8388608 + s.toNat * 8192 + t.toNat * 32 + 31) / 32) = t := by
      apply imm_eq; omega
    simp only [decodeWord, c, decode3, g, e, e1, e2, r6_val])

theorem vld (x : Stack) (d : Fin 64) (a : SReg) (m : MReg) : Statement (.vld x d a m) :=
  via (x := x) (w := wV 4 0 d a 0 m) rfl rfl (mod_wV ..)
    ((cls4 (by decide) d.isLt a.isLt (by decide) m.isLt).trans (show some (Instr.vld x (r6 d.val) (r6 a.val) (r3 m.val)) = _ by simp only [r6_val, r3_val]))

theorem vldStrided (x : Stack) (d : Fin 64) (a : SReg) (b : SReg) (m : MReg) : Statement (.vldStrided x d a b m) :=
  via (x := x) (w := wV 4 1 d a b m) rfl rfl (mod_wV ..)
    ((cls4 (by decide) d.isLt a.isLt b.isLt m.isLt).trans (show some (Instr.vldStrided x (r6 d.val) (r6 a.val) (r6 b.val) (r3 m.val)) = _ by simp only [r6_val, r3_val]))

theorem vldx (x : Stack) (d : Fin 64) (a : SReg) (i : VReg) (m : MReg) : Statement (.vldx x d a i m) :=
  via (x := x) (w := wV 4 2 d a i m) rfl rfl (mod_wV ..)
    ((cls4 (by decide) d.isLt a.isLt i.isLt m.isLt).trans (show some (Instr.vldx x (r6 d.val) (r6 a.val) (r6 i.val) (r3 m.val)) = _ by simp only [r6_val, r3_val]))

theorem vldm (x : Stack) (d : Fin 64) (a : SReg) (b : SReg) (m : MReg) : Statement (.vldm x d a b m) :=
  via (x := x) (w := wV 4 3 d a b m) rfl rfl (mod_wV ..)
    ((cls4 (by decide) d.isLt a.isLt b.isLt m.isLt).trans (show some (Instr.vldm x (r6 d.val) (r6 a.val) (r6 b.val) (r3 m.val)) = _ by simp only [r6_val, r3_val]))

theorem vldb (x : Stack) (d : Fin 64) (a : SReg) (b : SReg) (m : MReg) : Statement (.vldb x d a b m) :=
  via (x := x) (w := wV 4 4 d a b m) rfl rfl (mod_wV ..)
    ((cls4 (by decide) d.isLt a.isLt b.isLt m.isLt).trans (show some (Instr.vldb x (r6 d.val) (r6 a.val) (r6 b.val) (r3 m.val)) = _ by simp only [r6_val, r3_val]))

theorem vldbS2c (x : Stack) (d : Fin 64) (a : SReg) (b : SReg) (m : MReg) : Statement (.vldbS2c x d a b m) :=
  via (x := x) (w := wV 4 5 d a b m) rfl rfl (mod_wV ..)
    ((cls4 (by decide) d.isLt a.isLt b.isLt m.isLt).trans (show some (Instr.vldbS2c x (r6 d.val) (r6 a.val) (r6 b.val) (r3 m.val)) = _ by simp only [r6_val, r3_val]))

theorem vpref (x : Stack) (a : SReg) (m : MReg) : Statement (.vpref x a m) :=
  via (x := x) (w := wV 4 6 0 a 0 m) rfl rfl (mod_wV ..)
    ((cls4 (by decide) (by decide) a.isLt (by decide) m.isLt).trans (show some (Instr.vpref x (r6 a.val) (r3 m.val)) = _ by simp only [r6_val, r3_val]))

theorem vprefStrided (x : Stack) (a : SReg) (b : SReg) (m : MReg) : Statement (.vprefStrided x a b m) :=
  via (x := x) (w := wV 4 7 0 a b m) rfl rfl (mod_wV ..)
    ((cls4 (by decide) (by decide) a.isLt b.isLt m.isLt).trans (show some (Instr.vprefStrided x (r6 a.val) (r6 b.val) (r3 m.val)) = _ by simp only [r6_val, r3_val]))

theorem vprefIndexed (x : Stack) (a : SReg) (i : VReg) (m : MReg) : Statement (.vprefIndexed x a i m) :=
  via (x := x) (w := wV 4 8 0 a i m) rfl rfl (mod_wV ..)
    ((cls4 (by decide) (by decide) a.isLt i.isLt m.isLt).trans (show some (Instr.vprefIndexed x (r6 a.val) (r6 i.val) (r3 m.val)) = _ by simp only [r6_val, r3_val]))

theorem vkld (x : Stack) (k : KReg) (a : SReg) : Statement (.vkld x k a) :=
  via (x := x) (w := wV 4 9 k a 0 0) rfl rfl (mod_wV ..)
    ((cls4 (by decide) (Nat.lt_trans k.isLt (by decide)) a.isLt (by decide) (by decide)).trans (show some (Instr.vkld x (r3 k.val) (r6 a.val)) = _ by simp only [r6_val, r3_val]))

theorem vst (x : Stack) (v : VReg) (a : SReg) (m : MReg) : Statement (.vst x v a m) :=
  via (x := x) (w := wV 4 16 v a 0 m) rfl rfl (mod_wV ..)
    ((cls4 (by decide) v.isLt a.isLt (by decide) m.isLt).trans (show some (Instr.vst x (r6 v.val) (r6 a.val) (r3 m.val)) = _ by simp only [r6_val, r3_val]))

theorem vstStrided (x : Stack) (v : VReg) (a : SReg) (b : SReg) (m : MReg) : Statement (.vstStrided x v a b m) :=
  via (x := x) (w := wV 4 17 v a b m) rfl rfl (mod_wV ..)
    ((cls4 (by decide) v.isLt a.isLt b.isLt m.isLt).trans (show some (Instr.vstStrided x (r6 v.val) (r6 a.val) (r6 b.val) (r3 m.val)) = _ by simp only [r6_val, r3_val]))

theorem vstx (x : Stack) (v : VReg) (a : SReg) (i : VReg) (m : MReg) : Statement (.vstx x v a i m) :=
  via (x := x) (w := wV 4 18 v a i m) rfl rfl (mod_wV ..)
    ((cls4 (by decide) v.isLt a.isLt i.isLt m.isLt).trans (show some (Instr.vstx x (r6 v.val) (r6 a.val) (r6 i.val) (r3 m.val)) = _ by simp only [r6_val, r3_val]))

theorem vstb (x : Stack) (v : VReg) (a : SReg) (b : SReg) (m : MReg) : Statement (.vstb x v a b m) :=
  via (x := x) (w := wV 4 20 v a b m) rfl rfl (mod_wV ..)
    ((cls4 (by decide) v.isLt a.isLt b.isLt m.isLt).trans (show some (Instr.vstb x (r6 v.val) (r6 a.val) (r6 b.val) (r3 m.val)) = _ by simp only [r6_val, r3_val]))

theorem vstbC2s (x : Stack) (v : VReg) (a : SReg) (b : SReg) (m : MReg) : Statement (.vstbC2s x v a b m) :=
  via (x := x) (w := wV 4 21 v a b m) rfl rfl (mod_wV ..)
    ((cls4 (by decide) v.isLt a.isLt b.isLt m.isLt).trans (show some (Instr.vstbC2s x (r6 v.val) (r6 a.val) (r6 b.val) (r3 m.val)) = _ by simp only [r6_val, r3_val]))

theorem vred (x : Stack) (v : VReg) (a : SReg) (m : MReg) : Statement (.vred x v a m) :=
  via (x := x) (w := wV 4 22 v a 0 m) rfl rfl (mod_wV ..)
    ((cls4 (by decide) v.isLt a.isLt (by decide) m.isLt).trans (show some (Instr.vred x (r6 v.val) (r6 a.val) (r3 m.val)) = _ by simp only [r6_val, r3_val]))

theorem vredIndexed (x : Stack) (v : VReg) (a : SReg) (i : VReg) (m : MReg) : Statement (.vredIndexed x v a i m) :=
  via (x := x) (w := wV 4 23 v a i m) rfl rfl (mod_wV ..)
    ((cls4 (by decide) v.isLt a.isLt i.isLt m.isLt).trans (show some (Instr.vredIndexed x (r6 v.val) (r6 a.val) (r6 i.val) (r3 m.val)) = _ by simp only [r6_val, r3_val]))

theorem vkst (x : Stack) (k : KReg) (a : SReg) : Statement (.vkst x k a) :=
  via (x := x) (w := wV 4 25 k a 0 0) rfl rfl (mod_wV ..)
    ((cls4 (by decide) (Nat.lt_trans k.isLt (by decide)) a.isLt (by decide) (by decide)).trans (show some (Instr.vkst x (r3 k.val) (r6 a.val)) = _ by simp only [r6_val, r3_val]))

theorem vamo (x : Stack) (o : Fin 8) (d : VReg) (a : SReg) (i : VReg) (m : MReg) : Statement (.vamo x o d a i m) :=
  via (x := x) (w := wV 4 (32 + o) d a i m) rfl rfl (mod_wV ..)
    (by
    rw [cls4 (by have := o.isLt; omega) d.isLt a.isLt i.isLt m.isLt]
    match o with
    | 0 | 1 | 2 | 3 | 4 | 5 | 6 | 7 =>
      show some (Instr.vamo x _ (r6 d.val) (r6 a.val) (r6 i.val) (r3 m.val)) = _
      simp only [r6_val, r3_val])

theorem vamoSwap (x : Stack) (d : VReg) (a : SReg) (i : VReg) (m : MReg) : Statement (.vamoSwap x d a i m) :=
  via (x := x) (w := wV 4 40 d a i m) rfl rfl (mod_wV ..)
    ((cls4 (by decide) d.isLt a.isLt i.isLt m.isLt).trans (show some (Instr.vamoSwap x (r6 d.val) (r6 a.val) (r6 i.val) (r3 m.val)) = _ by simp only [r6_val, r3_val]))

theorem qdrop (x : Stack) (n : Fin 4) : Statement (.qdrop x n) :=
  via (x := x) (w := wV 4 48 n 0 0 0) rfl rfl (mod_wV ..)
    ((cls4 (by decide) (Nat.lt_trans n.isLt (by decide)) (by decide) (by decide) (by decide)).trans (show some (Instr.qdrop x (r2 n.val)) = _ by simp only [r2_val]))

theorem tkclr (x : Stack) : Statement (.tkclr x) :=
  via (x := x) (w := wV 4 49 0 0 0 0) rfl rfl (mod_wV ..)
    ((cls4 (by decide) (by decide) (by decide) (by decide) (by decide)).trans (show some (Instr.tkclr x) = _ from rfl))

theorem msetm (x : Stack) (l : MvlC) : Statement (.msetm x l) :=
  via (x := x) (w := wV 5 0 0 0 l.code 0) rfl rfl (mod_wV ..)
    ((cls5 (by decide) (by decide) (by decide) (Nat.lt_trans (mvl_lt l) (by decide)) (by decide)).trans
    (show some (Instr.msetm x ((MvlC.ofCode l.code).getD .m16)) = _ by simp only [mvl_code, Option.getD_some]))

theorem mzero (x : Stack) (t : Fin 4) : Statement (.mzero x t) :=
  via (x := x) (w := wV 5 1 t 0 0 0) rfl rfl (mod_wV ..)
    ((cls5 (by decide) (Nat.lt_trans t.isLt (by decide)) (by decide) (by decide) (by decide)).trans (show some (Instr.mzero x (r2 t.val)) = _ by simp only [r2_val]))

theorem mrel (x : Stack) : Statement (.mrel x) :=
  via (x := x) (w := wV 5 2 0 0 0 0) rfl rfl (mod_wV ..)
    ((cls5 (by decide) (by decide) (by decide) (by decide) (by decide)).trans (show some (Instr.mrel x) = _ from rfl))

theorem mop (x : Stack) (a : VReg) (b : VReg) : Statement (.mop x a b) :=
  via (x := x) (w := wV 5 4 0 a b 0) rfl rfl (mod_wV ..)
    ((cls5 (by decide) (by decide) a.isLt b.isLt (by decide)).trans (show some (Instr.mop x (r6 a.val) (r6 b.val)) = _ by simp only [r6_val]))

theorem mrow (x : Stack) (i : SReg) (v : VReg) (vb : VReg) : Statement (.mrow x i v vb) :=
  via (x := x) (w := wV 5 5 i v vb 0) rfl rfl (mod_wV ..)
    ((cls5 (by decide) i.isLt v.isLt vb.isLt (by decide)).trans (show some (Instr.mrow x (r6 i.val) (r6 v.val) (r6 vb.val)) = _ by simp only [r6_val]))

theorem mmovv (x : Stack) (d : VReg) (a : SReg) (b : SReg) (m : MReg) (t : Fin 4) : Statement (.mmovv x d a b m t) :=
  via (x := x) (w := wV 5 (8 + t) d a b m) rfl rfl (mod_wV ..)
    (by
    rw [cls5 (by have := t.isLt; omega) d.isLt a.isLt b.isLt m.isLt]
    match t with
    | 0 | 1 | 2 | 3 =>
      show some (Instr.mmovv x (r6 d.val) (r6 a.val) (r6 b.val) (r3 m.val) _) = _
      simp only [r6_val, r3_val])

theorem mlda (x : Stack) (v : VReg) (a : SReg) (b : SReg) (m : MReg) (t : Fin 4) : Statement (.mlda x v a b m t) :=
  via (x := x) (w := wV 5 (12 + t) v a b m) rfl rfl (mod_wV ..)
    (by
    rw [cls5 (by have := t.isLt; omega) v.isLt a.isLt b.isLt m.isLt]
    match t with
    | 0 | 1 | 2 | 3 =>
      show some (Instr.mlda x (r6 v.val) (r6 a.val) (r6 b.val) (r3 m.val) _) = _
      simp only [r6_val, r3_val])

theorem mstaStrided (x : Stack) (a : SReg) (b : SReg) (m : MReg) (t : Fin 4) : Statement (.mstaStrided x a b m t) :=
  via (x := x) (w := wV 5 (16 + t) a b 0 m) rfl rfl (mod_wV ..)
    (by
    rw [cls5 (by have := t.isLt; omega) a.isLt b.isLt (by decide) m.isLt]
    match t with
    | 0 | 1 | 2 | 3 =>
      show some (Instr.mstaStrided x (r6 a.val) (r6 b.val) (r3 m.val) _) = _
      simp only [r6_val, r3_val])

theorem mstaIndexed (x : Stack) (a : SReg) (i : VReg) (m : MReg) (t : Fin 4) : Statement (.mstaIndexed x a i m t) :=
  via (x := x) (w := wV 5 (20 + t) a i 0 m) rfl rfl (mod_wV ..)
    (by
    rw [cls5 (by have := t.isLt; omega) a.isLt i.isLt (by decide) m.isLt]
    match t with
    | 0 | 1 | 2 | 3 =>
      show some (Instr.mstaIndexed x (r6 a.val) (r6 i.val) (r3 m.val) _) = _
      simp only [r6_val, r3_val])

theorem cecopy (x : Stack) (a : SReg) (b : SReg) : Statement (.cecopy x a b) :=
  via (x := x) (w := wV 5 32 0 a b 0) rfl rfl (mod_wV ..)
    ((cls5 (by decide) (by decide) a.isLt b.isLt (by decide)).trans (show some (Instr.cecopy x (r6 a.val) (r6 b.val)) = _ by simp only [r6_val]))

theorem cefill (x : Stack) (a : SReg) (b : SReg) : Statement (.cefill x a b) :=
  via (x := x) (w := wV 5 33 0 a b 0) rfl rfl (mod_wV ..)
    ((cls5 (by decide) (by decide) a.isLt b.isLt (by decide)).trans (show some (Instr.cefill x (r6 a.val) (r6 b.val)) = _ by simp only [r6_val]))

theorem cestat (x : Stack) (d : SReg) : Statement (.cestat x d) :=
  via (x := x) (w := wV 5 34 d 0 0 0) rfl rfl (mod_wV ..)
    ((cls5 (by decide) d.isLt (by decide) (by decide) (by decide)).trans (show some (Instr.cestat x (r6 d.val)) = _ by simp only [r6_val]))

theorem launch (x : Stack) (d : SReg) (a : SReg) : Statement (.launch x d a) :=
  via (x := x) (w := wV 5 36 d a 0 0) rfl rfl (mod_wV ..)
    ((cls5 (by decide) d.isLt a.isLt (by decide) (by decide)).trans (show some (Instr.launch x (r6 d.val) (r6 a.val)) = _ by simp only [r6_val]))

theorem farm (x : Stack) (a : SReg) (b : SReg) : Statement (.farm x a b) :=
  via (x := x) (w := wV 5 37 0 a b 0) rfl rfl (mod_wV ..)
    ((cls5 (by decide) (by decide) a.isLt b.isLt (by decide)).trans (show some (Instr.farm x (r6 a.val) (r6 b.val)) = _ by simp only [r6_val]))

theorem bar (x : Stack) (a : SReg) (s : Scope) : Statement (.bar x a s) :=
  via (x := x) (w := wV 5 40 0 a 0 s.code) rfl rfl (mod_wV ..)
    ((cls5 (by decide) (by decide) a.isLt (by decide) (Nat.lt_trans (scope_lt s) (by decide))).trans
    (show some (Instr.bar x (r6 a.val) (scopeOf s.code)) = _ by simp only [r6_val, scopeOf_code]))

theorem xsend (x : Stack) (a : SReg) (v : VReg) : Statement (.xsend x a v) :=
  via (x := x) (w := wV 5 42 0 a v 0) rfl rfl (mod_wV ..)
    ((cls5 (by decide) (by decide) a.isLt v.isLt (by decide)).trans (show some (Instr.xsend x (r6 a.val) (r6 v.val)) = _ by simp only [r6_val]))

theorem xrecv (x : Stack) (d : VReg) (a : SReg) : Statement (.xrecv x d a) :=
  via (x := x) (w := wV 5 43 d a 0 0) rfl rfl (mod_wV ..)
    ((cls5 (by decide) d.isLt a.isLt (by decide) (by decide)).trans (show some (Instr.xrecv x (r6 d.val) (r6 a.val)) = _ by simp only [r6_val]))

theorem amsg (x : Stack) (d : SReg) (a : SReg) (b : SReg) : Statement (.amsg x d a b) :=
  via (x := x) (w := wV 5 44 d a b 0) rfl rfl (mod_wV ..)
    ((cls5 (by decide) d.isLt a.isLt b.isLt (by decide)).trans (show some (Instr.amsg x (r6 d.val) (r6 a.val) (r6 b.val)) = _ by simp only [r6_val]))

theorem setvl (x : Stack) (d : SReg) (a : SReg) (f : Fmt) (n : NregC) : Statement (.setvl x d a f n) :=
  via (x := x) (w := 6 * 536870912 + d * 8388608 + a * 131072 + f.code * 2048 + n.code * 256 + 3) rfl rfl (by omega)
    (by
    have hd := d.isLt
    have ha := a.isLt
    have hf := fmt_lt f
    have hn := nreg_lt n
    rw [clsW6 _ (by omega)]
    have g : (6 * 536870912 + d * 8388608 + a * 131072 + f.code * 2048 + n.code * 256 + 3) / 4 % 8 = 0 := by omega
    have e0 : (6 * 536870912 + d * 8388608 + a * 131072 + f.code * 2048 + n.code * 256 + 3) / 8388608 % 64 = d.val := by omega
    have e1 : (6 * 536870912 + d * 8388608 + a * 131072 + f.code * 2048 + n.code * 256 + 3) / 131072 % 64 = a.val := by omega
    have e2 : (6 * 536870912 + d * 8388608 + a * 131072 + f.code * 2048 + n.code * 256 + 3) / 2048 % 64 = f.code := by omega
    have e3 : (6 * 536870912 + d * 8388608 + a * 131072 + f.code * 2048 + n.code * 256 + 3) / 256 % 8 = n.code := by omega
    simp only [decode6, g, e0, e1, e2, e3, r6_val, fmtOf_code, nreg_code])

theorem setvlb (x : Stack) (d : SReg) (f : Fmt) (n : NregC) (z : Fin 5) (y : Fin 5) (w : Fin 5) : Statement (.setvlb x d f n z y w) :=
  via (x := x) (w := 6 * 536870912 + d * 8388608 + f.code * 131072 + n.code * 16384 + z * 2048 + y * 256 + w * 32 + 7) rfl rfl (by omega)
    (by
    have hd := d.isLt
    have hf := fmt_lt f
    have hn := nreg_lt n
    have hz := z.isLt
    have hy := y.isLt
    have hw := w.isLt
    rw [clsW6 _ (by omega)]
    have g : (6 * 536870912 + d * 8388608 + f.code * 131072 + n.code * 16384 + z * 2048 + y * 256 + w * 32 + 7) / 4 % 8 = 1 := by omega
    have e0 : (6 * 536870912 + d * 8388608 + f.code * 131072 + n.code * 16384 + z * 2048 + y * 256 + w * 32 + 7) / 8388608 % 64 = d.val := by omega
    have e1 : (6 * 536870912 + d * 8388608 + f.code * 131072 + n.code * 16384 + z * 2048 + y * 256 + w * 32 + 7) / 131072 % 64 = f.code := by omega
    have e2 : (6 * 536870912 + d * 8388608 + f.code * 131072 + n.code * 16384 + z * 2048 + y * 256 + w * 32 + 7) / 16384 % 8 = n.code := by omega
    have e3 : (6 * 536870912 + d * 8388608 + f.code * 131072 + n.code * 16384 + z * 2048 + y * 256 + w * 32 + 7) / 2048 % 8 = z.val := by omega
    have e4 : (6 * 536870912 + d * 8388608 + f.code * 131072 + n.code * 16384 + z * 2048 + y * 256 + w * 32 + 7) / 256 % 8 = y.val := by omega
    have e5 : (6 * 536870912 + d * 8388608 + f.code * 131072 + n.code * 16384 + z * 2048 + y * 256 + w * 32 + 7) / 32 % 8 = w.val := by omega
    simp only [decode6, g, e0, e1, e2, e3, e4, e5, r6_val, fmtOf_code, nreg_code, r5_val])

theorem setsh (x : Stack) (d : VReg) (s : Fin 64) (k : ShKind) (f : ShFace) : Statement (.setsh x d s k f) :=
  via (x := x) (w := 6 * 536870912 + d * 8388608 + s * 131072 + k.code * 256 + f.code * 32 + 11) rfl rfl (by omega)
    (by
    have hd := d.isLt
    have hs := s.isLt
    have hk := kind_lt k
    have hf := face_lt f
    rw [clsW6 _ (by omega)]
    have g : (6 * 536870912 + d * 8388608 + s * 131072 + k.code * 256 + f.code * 32 + 11) / 4 % 8 = 2 := by omega
    have e0 : (6 * 536870912 + d * 8388608 + s * 131072 + k.code * 256 + f.code * 32 + 11) / 8388608 % 64 = d.val := by omega
    have e1 : (6 * 536870912 + d * 8388608 + s * 131072 + k.code * 256 + f.code * 32 + 11) / 131072 % 64 = s.val := by omega
    have e2 : (6 * 536870912 + d * 8388608 + s * 131072 + k.code * 256 + f.code * 32 + 11) / 256 % 8 = k.code := by omega
    have e3 : (6 * 536870912 + d * 8388608 + s * 131072 + k.code * 256 + f.code * 32 + 11) / 32 % 8 = f.code := by omega
    simp only [decode6, g, e0, e1, e2, e3, r6_val, kind_code, face_code])

theorem csrr (x : Stack) (d : SReg) (c : Csr) : Statement (.csrr x d c) :=
  via (x := x) (w := 6 * 536870912 + d * 8388608 + c.num * 128 + 0 * 32 + 15) rfl rfl (by omega)
    (by
    have hd := d.isLt
    have hc := csr_lt c
    rw [clsW6 _ (by omega)]
    have g : (6 * 536870912 + d * 8388608 + c.num * 128 + 0 * 32 + 15) / 4 % 8 = 3 := by omega
    have e0 : (6 * 536870912 + d * 8388608 + c.num * 128 + 0 * 32 + 15) / 8388608 % 64 = d.val := by omega
    have e1 : (6 * 536870912 + d * 8388608 + c.num * 128 + 0 * 32 + 15) / 128 % 1024 = c.num := by omega
    have e2 : (6 * 536870912 + d * 8388608 + c.num * 128 + 0 * 32 + 15) / 32 % 4 = 0 := by omega
    simp only [decode6, g, e0, e1, e2, r6_val, csr_num])

theorem csrw (x : Stack) (a : SReg) (c : Csr) : Statement (.csrw x a c) :=
  via (x := x) (w := 6 * 536870912 + a * 131072 + c.num * 128 + 1 * 32 + 15) rfl rfl (by omega)
    (by
    have ha := a.isLt
    have hc := csr_lt c
    rw [clsW6 _ (by omega)]
    have g : (6 * 536870912 + a * 131072 + c.num * 128 + 1 * 32 + 15) / 4 % 8 = 3 := by omega
    have e0 : (6 * 536870912 + a * 131072 + c.num * 128 + 1 * 32 + 15) / 131072 % 64 = a.val := by omega
    have e1 : (6 * 536870912 + a * 131072 + c.num * 128 + 1 * 32 + 15) / 128 % 1024 = c.num := by omega
    have e2 : (6 * 536870912 + a * 131072 + c.num * 128 + 1 * 32 + 15) / 32 % 4 = 1 := by omega
    simp only [decode6, g, e0, e1, e2, r6_val, csr_num])

theorem csrs (x : Stack) (a : SReg) (c : Csr) : Statement (.csrs x a c) :=
  via (x := x) (w := 6 * 536870912 + a * 131072 + c.num * 128 + 2 * 32 + 15) rfl rfl (by omega)
    (by
    have ha := a.isLt
    have hc := csr_lt c
    rw [clsW6 _ (by omega)]
    have g : (6 * 536870912 + a * 131072 + c.num * 128 + 2 * 32 + 15) / 4 % 8 = 3 := by omega
    have e0 : (6 * 536870912 + a * 131072 + c.num * 128 + 2 * 32 + 15) / 131072 % 64 = a.val := by omega
    have e1 : (6 * 536870912 + a * 131072 + c.num * 128 + 2 * 32 + 15) / 128 % 1024 = c.num := by omega
    have e2 : (6 * 536870912 + a * 131072 + c.num * 128 + 2 * 32 + 15) / 32 % 4 = 2 := by omega
    simp only [decode6, g, e0, e1, e2, r6_val, csr_num])

theorem csrc (x : Stack) (a : SReg) (c : Csr) : Statement (.csrc x a c) :=
  via (x := x) (w := 6 * 536870912 + a * 131072 + c.num * 128 + 3 * 32 + 15) rfl rfl (by omega)
    (by
    have ha := a.isLt
    have hc := csr_lt c
    rw [clsW6 _ (by omega)]
    have g : (6 * 536870912 + a * 131072 + c.num * 128 + 3 * 32 + 15) / 4 % 8 = 3 := by omega
    have e0 : (6 * 536870912 + a * 131072 + c.num * 128 + 3 * 32 + 15) / 131072 % 64 = a.val := by omega
    have e1 : (6 * 536870912 + a * 131072 + c.num * 128 + 3 * 32 + 15) / 128 % 1024 = c.num := by omega
    have e2 : (6 * 536870912 + a * 131072 + c.num * 128 + 3 * 32 + 15) / 32 % 4 = 3 := by omega
    simp only [decode6, g, e0, e1, e2, r6_val, csr_num])

theorem amo (x : Stack) (d : SReg) (a : SReg) (b : SReg) (o : AmoOp) (z : Sz) : Statement (.amo x d a b o z) :=
  via (x := x) (w := wS 6 (o.code * 4 + z.code) 4 d a b) rfl rfl (mod_wS ..)
    (by
    have ho := amo_lt o
    have hz := sz_lt z
    have h := (fields_wS (c := 6) (f := o.code * 4 + z.code) (k := 4) (d := d.val) (a := a.val) (b := b.val) (by decide) (by omega) (by decide) d.isLt a.isLt b.isLt).2.2.2.2.2
    rw [clsS6 (by decide) (by omega) d.isLt a.isLt b.isLt]
    have e1 : (o.code * 4 + z.code) % 4 = z.code := by omega
    have e2 : (o.code * 4 + z.code) / 4 = o.code := by omega
    simp only [decode6, h.1, h.2.1, h.2.2, e1, e2, r6_val, amo_code, sz_code, Option.map_some])

theorem cas (x : Stack) (d : SReg) (a : SReg) (b : SReg) (z : Sz) : Statement (.cas x d a b z) :=
  via (x := x) (w := wS 6 z.code 5 d a b) rfl rfl (mod_wS ..)
    (by
    have hz := sz_lt z
    have h := (fields_wS (c := 6) (f := z.code) (k := 5) (d := d.val) (a := a.val) (b := b.val) (by decide) (by omega) (by decide) d.isLt a.isLt b.isLt).2.2.2.2.2
    rw [clsS6 (by decide) (by omega) d.isLt a.isLt b.isLt]
    have e1 : z.code % 4 = z.code := by omega
    simp only [decode6, h.1, h.2.1, e1, r6_val, sz_code])

theorem ldaq (x : Stack) (d : SReg) (a : SReg) (s : Scope) (z : Sz) : Statement (.ldaq x d a s z) :=
  via (x := x) (w := wS 6 z.code 6 d a s.code) rfl rfl (mod_wS ..)
    (by
    have hz := sz_lt z
    have h := (fields_wS (c := 6) (f := z.code) (k := 6) (d := d.val) (a := a.val) (b := s.code) (by decide) (by omega) (by decide) d.isLt a.isLt (Nat.lt_trans (scope_lt s) (by decide))).2.2.2.2.2
    rw [clsS6 (by decide) (by omega) d.isLt a.isLt (Nat.lt_trans (scope_lt s) (by decide))]
    have e1 : z.code % 4 = z.code := by omega
    have e2 : z.code / 4 = 0 := by omega
    simp only [decode6, h.1, h.2.1, h.2.2, e1, e2, r6_val, scopeOf_code, sz_code])

theorem strl (x : Stack) (d : SReg) (a : SReg) (s : Scope) (z : Sz) : Statement (.strl x d a s z) :=
  via (x := x) (w := wS 6 (4 + z.code) 6 d a s.code) rfl rfl (mod_wS ..)
    (by
    have hz := sz_lt z
    have h := (fields_wS (c := 6) (f := 4 + z.code) (k := 6) (d := d.val) (a := a.val) (b := s.code) (by decide) (by omega) (by decide) d.isLt a.isLt (Nat.lt_trans (scope_lt s) (by decide))).2.2.2.2.2
    rw [clsS6 (by decide) (by omega) d.isLt a.isLt (Nat.lt_trans (scope_lt s) (by decide))]
    have e1 : (4 + z.code) % 4 = z.code := by omega
    have e2 : (4 + z.code) / 4 = 1 := by omega
    simp only [decode6, h.1, h.2.1, h.2.2, e1, e2, r6_val, scopeOf_code, sz_code])

theorem claim (x : Stack) (d : SReg) (a : SReg) (b : SReg) : Statement (.claim x d a b) :=
  via (x := x) (w := wS 6 11 6 d a b) rfl rfl (mod_wS ..)
    (by
    have h := (fields_wS (c := 6) (f := 11) (k := 6) (d := d.val) (a := a.val) (b := b.val) (by decide) (by omega) (by decide) d.isLt a.isLt b.isLt).2.2.2.2.2
    rw [clsS6 (by decide) (by omega) d.isLt a.isLt b.isLt]
    simp only [decode6, h.1, h.2.2, r6_val, Nat.reduceDiv])

theorem waitm (x : Stack) (a : SReg) (b : SReg) : Statement (.waitm x a b) :=
  via (x := x) (w := wS 6 14 6 0 a b) rfl rfl (mod_wS ..)
    (by
    have h := (fields_wS (c := 6) (f := 14) (k := 6) (d := 0) (a := a.val) (b := b.val) (by decide) (by omega) (by decide) (by decide) a.isLt b.isLt).2.2.2.2.2
    rw [clsS6 (by decide) (by omega) (by decide) a.isLt b.isLt]
    simp only [decode6, h.1, h.2.2, r6_val, Nat.reduceDiv])

theorem sysc (x : Stack) : Statement (.sysc x) :=
  via (x := x) (w := wS 6 0 7 0 0 0) rfl rfl (mod_wS ..)
    ((clsSys (by decide) (by decide) (by decide) (by decide)).trans (show some (Instr.sysc x) = _ from rfl))

theorem tret (x : Stack) : Statement (.tret x) :=
  via (x := x) (w := wS 6 1 7 0 0 0) rfl rfl (mod_wS ..)
    ((clsSys (by decide) (by decide) (by decide) (by decide)).trans (show some (Instr.tret x) = _ from rfl))

theorem exit (x : Stack) : Statement (.exit x) :=
  via (x := x) (w := wS 6 2 7 0 0 0) rfl rfl (mod_wS ..)
    ((clsSys (by decide) (by decide) (by decide) (by decide)).trans (show some (Instr.exit x) = _ from rfl))

theorem fence (x : Stack) (s : Scope) (c : BitVec 4) : Statement (.fence x s c) :=
  via (x := x) (w := wS 6 3 7 s.code 0 c.toNat) rfl rfl (mod_wS ..)
    ((clsSys (by decide) (Nat.lt_trans (scope_lt s) (by decide)) (by decide)
    (Nat.lt_trans c.isLt (by decide))).trans
    (show some (Instr.fence x (scopeOf s.code) (.ofNat 4 c.toNat)) = _ by simp only [scopeOf_code, bits_val]))

theorem vsave (x : Stack) (a : SReg) : Statement (.vsave x a) :=
  via (x := x) (w := wS 6 4 7 0 a 0) rfl rfl (mod_wS ..)
    ((clsSys (by decide) (by decide) a.isLt (by decide)).trans (show some (Instr.vsave x (r6 a.val)) = _ by simp only [r6_val]))

theorem vrest (x : Stack) (a : SReg) : Statement (.vrest x a) :=
  via (x := x) (w := wS 6 5 7 0 a 0) rfl rfl (mod_wS ..)
    ((clsSys (by decide) (by decide) a.isLt (by decide)).trans (show some (Instr.vrest x (r6 a.val)) = _ by simp only [r6_val]))

theorem incb (x : Stack) (d : SReg) (a : SReg) : Statement (.incb x d a) :=
  via (x := x) (w := wS 6 6 7 d a 0) rfl rfl (mod_wS ..)
    ((clsSys (by decide) d.isLt a.isLt (by decide)).trans (show some (Instr.incb x (r6 d.val) (r6 a.val)) = _ by simp only [r6_val]))

theorem rcf (x : Stack) (d : SReg) (a : SReg) : Statement (.rcf x d a) :=
  via (x := x) (w := wS 6 7 7 d a 0) rfl rfl (mod_wS ..)
    ((clsSys (by decide) d.isLt a.isLt (by decide)).trans (show some (Instr.rcf x (r6 d.val) (r6 a.val)) = _ by simp only [r6_val]))

theorem slwb (x : Stack) (a : SReg) (b : SReg) : Statement (.slwb x a b) :=
  via (x := x) (w := wS 6 8 7 0 a b) rfl rfl (mod_wS ..)
    ((clsSys (by decide) (by decide) a.isLt b.isLt).trans (show some (Instr.slwb x (r6 a.val) (r6 b.val)) = _ by simp only [r6_val]))

theorem hmsw (x : Stack) (a : SReg) : Statement (.hmsw x a) :=
  via (x := x) (w := wS 6 9 7 0 a 0) rfl rfl (mod_wS ..)
    ((clsSys (by decide) (by decide) a.isLt (by decide)).trans (show some (Instr.hmsw x (r6 a.val)) = _ by simp only [r6_val]))

theorem gangAdmission (die : Fin 4) : Statement (.gangAdmission die) := fun h => Bool.noConfusion h

theorem waitcRead (g : BitVec 8) : Statement (.waitcRead g) := fun h => Bool.noConfusion h

theorem doneAdd (g : BitVec 8) : Statement (.doneAdd g) := fun h => Bool.noConfusion h

theorem gangStaging (g : BitVec 8) (c : CoreId) : Statement (.gangStaging g c) := fun h => Bool.noConfusion h

theorem budgetExpiry (g : BitVec 8) : Statement (.budgetExpiry g) := fun h => Bool.noConfusion h

theorem forcedStop (c : CoreId) (k : Ctx) : Statement (.forcedStop c k) := fun h => Bool.noConfusion h

theorem ageingPriorityRaise (c : CoreId) (k : Ctx) : Statement (.ageingPriorityRaise c k) := fun h => Bool.noConfusion h

theorem lcOnToRetention (c : CoreId) (l : Fin 8) : Statement (.lcOnToRetention c l) := fun h => Bool.noConfusion h

theorem lcRetentionToOff (c : CoreId) (l : Fin 8) : Statement (.lcRetentionToOff c l) := fun h => Bool.noConfusion h

theorem laneClusterWake (c : CoreId) (l : Fin 8) : Statement (.laneClusterWake c l) := fun h => Bool.noConfusion h

theorem registerRefill (c : CoreId) (k : Ctx) (v : VReg) : Statement (.registerRefill c k v) := fun h => Bool.noConfusion h

theorem stripeIssue (c : CoreId) (k : Ctx) : Statement (.stripeIssue c k) := fun h => Bool.noConfusion h

theorem instructionRetirement (c : CoreId) (k : Ctx) : Statement (.instructionRetirement c k) := fun h => Bool.noConfusion h

theorem interruptTaken (c : CoreId) (k : Ctx) : Statement (.interruptTaken c k) := fun h => Bool.noConfusion h

theorem protectionViolation (master : Word) (addr : Word) : Statement (.protectionViolation master addr) := fun h => Bool.noConfusion h

theorem pageSortingRound (c : CoreId) (k : Ctx) (pages : List Nat) : Statement (.pageSortingRound c k pages) := fun h => Bool.noConfusion h

theorem translationWalk (c : CoreId) (cid : BitVec 12) (va : Word) : Statement (.translationWalk c cid va) := fun h => Bool.noConfusion h

theorem tlbInvalidationAck (c : CoreId) (piece : Nat) : Statement (.tlbInvalidationAck c piece) := fun h => Bool.noConfusion h

theorem ptStoreCompletion (c : CoreId) (k : Ctx) : Statement (.ptStoreCompletion c k) := fun h => Bool.noConfusion h

theorem wordRegistration (c : CoreId) (k : Ctx) (at_ : SkewAddr) (val : BitVec 32) (be : BitVec 4) : Statement (.wordRegistration c k at_ val be) := fun h => Bool.noConfusion h

theorem sliceRead (r : Requester) (at_ : SkewAddr) : Statement (.sliceRead r at_) := fun h => Bool.noConfusion h

theorem readForward (c : CoreId) (pa : Nat) : Statement (.readForward c pa) := fun h => Bool.noConfusion h

theorem missTableAdmission (sl : Fin 512) : Statement (.missTableAdmission sl) := fun h => Bool.noConfusion h

theorem responseArrival (c : CoreId) (pa : Nat) : Statement (.responseArrival c pa) := fun h => Bool.noConfusion h

theorem writeBack (c : CoreId) (pa : Nat) : Statement (.writeBack c pa) := fun h => Bool.noConfusion h

theorem homeWriteApply (w : Sender) (pa : Nat) (bytes : List Byte) : Statement (.homeWriteApply w pa bytes) := fun h => Bool.noConfusion h

theorem sharerInvalidation (a : Agent) (piece : Nat) : Statement (.sharerInvalidation a piece) := fun h => Bool.noConfusion h

theorem homeAtomic (r : Requester) (op : HomeOp) (z : Sz) (pa : Nat) (b : Word) : Statement (.homeAtomic r op z pa b) := fun h => Bool.noConfusion h

theorem claimService (c : CoreId) (k : Ctx) (pa : Nat) (req : Word) : Statement (.claimService c k pa req) := fun h => Bool.noConfusion h

theorem farmWrite (at_ : HartAddr) (total : Word) : Statement (.farmWrite at_ total) := fun h => Bool.noConfusion h

theorem vredElementAdd (c : CoreId) (k : Ctx) : Statement (.vredElementAdd c k) := fun h => Bool.noConfusion h

theorem progressWordAdd (c : CoreId) (k : Ctx) : Statement (.progressWordAdd c k) := fun h => Bool.noConfusion h

theorem multicastHeader (c : CoreId) (k : Ctx) : Statement (.multicastHeader c k) := fun h => Bool.noConfusion h

theorem multicastBeatSend (part : McPart) : Statement (.multicastBeatSend part) := fun h => Bool.noConfusion h

theorem tellerHandlerRun (t : Fin 512) : Statement (.tellerHandlerRun t) := fun h => Bool.noConfusion h

theorem handlerAbort (t : Fin 512) : Statement (.handlerAbort t) := fun h => Bool.noConfusion h

theorem copyEngineTransfer (c : CoreId) (k : Ctx) : Statement (.copyEngineTransfer c k) := fun h => Bool.noConfusion h

theorem monitorWake (c : CoreId) (k : Ctx) : Statement (.monitorWake c k) := fun h => Bool.noConfusion h

theorem xrecvMessageArrival (c : CoreId) (k : Ctx) : Statement (.xrecvMessageArrival c k) := fun h => Bool.noConfusion h

theorem incarnationChange (p : Fin 32) (cid : BitVec 12) : Statement (.incarnationChange p cid) := fun h => Bool.noConfusion h

theorem sweepReport (ck : Checkpoint) (cid : BitVec 12) (inc : BitVec 8) : Statement (.sweepReport ck cid inc) := fun h => Bool.noConfusion h

theorem dieLossReport (a : Agent) : Statement (.dieLossReport a) := fun h => Bool.noConfusion h

theorem linkRetrain (l : Link) : Statement (.linkRetrain l) := fun h => Bool.noConfusion h

theorem linkRetrainTimeout (l : Link) : Statement (.linkRetrainTimeout l) := fun h => Bool.noConfusion h

theorem linkTrained (p : Fin 32) (dev : BitVec 16) : Statement (.linkTrained p dev) := fun h => Bool.noConfusion h

theorem agentRejoin (a : Agent) : Statement (.agentRejoin a) := fun h => Bool.noConfusion h

theorem weakarRequestAdmission (p : Fin 32) (r : PeerReq) : Statement (.weakarRequestAdmission p r) := fun h => Bool.noConfusion h

theorem hostSnoop (piece : Nat) : Statement (.hostSnoop piece) := fun h => Bool.noConfusion h

theorem arrayErrorDetected (loc : ErrLoc) (correctable : Bool) : Statement (.arrayErrorDetected loc correctable) := fun h => Bool.noConfusion h

theorem junctionOverTemperature (a : Agent) : Statement (.junctionOverTemperature a) := fun h => Bool.noConfusion h

theorem powerCapExceeded (watts : BitVec 16) : Statement (.powerCapExceeded watts) := fun h => Bool.noConfusion h

theorem powcapWrite (v : Word) : Statement (.powcapWrite v) := fun h => Bool.noConfusion h

theorem selfidWrite (v : Word) : Statement (.selfidWrite v) := fun h => Bool.noConfusion h

theorem portEnableWrite (p : Fin 32) (v : Word) : Statement (.portEnableWrite p v) := fun h => Bool.noConfusion h

theorem deviceRegisterWrite (off : Nat) (v : Word) : Statement (.deviceRegisterWrite off v) := fun h => Bool.noConfusion h

theorem hostLinkRequest (r : HostReq) : Statement (.hostLinkRequest r) := fun h => Bool.noConfusion h

theorem missFillAnswer (sl : Fin 512) (piece : Nat) : Statement (.missFillAnswer sl piece) := fun h => Bool.noConfusion h

theorem powerDrawBelowCap (watts : BitVec 16) : Statement (.powerDrawBelowCap watts) := fun h => Bool.noConfusion h

theorem cmdLaunch : Statement (.cmdLaunch) := fun h => Bool.noConfusion h

theorem cmdIncb : Statement (.cmdIncb) := fun h => Bool.noConfusion h

theorem cmdRcf : Statement (.cmdRcf) := fun h => Bool.noConfusion h

theorem cmdSlwb : Statement (.cmdSlwb) := fun h => Bool.noConfusion h

theorem cmdHmsw : Statement (.cmdHmsw) := fun h => Bool.noConfusion h

theorem cmdDeclareFailed : Statement (.cmdDeclareFailed) := fun h => Bool.noConfusion h

theorem cmdResumeHart : Statement (.cmdResumeHart) := fun h => Bool.noConfusion h

theorem cmdRetireHart : Statement (.cmdRetireHart) := fun h => Bool.noConfusion h

theorem cmdPreEmptGang : Statement (.cmdPreEmptGang) := fun h => Bool.noConfusion h

theorem cmdReleaseMaster : Statement (.cmdReleaseMaster) := fun h => Bool.noConfusion h

theorem cmdContextTable : Statement (.cmdContextTable) := fun h => Bool.noConfusion h

theorem cmdInterruptHart : Statement (.cmdInterruptHart) := fun h => Bool.noConfusion h

theorem cmdRerunGang : Statement (.cmdRerunGang) := fun h => Bool.noConfusion h

theorem cmdFarm : Statement (.cmdFarm) := fun h => Bool.noConfusion h

theorem cmdLoadTellers : Statement (.cmdLoadTellers) := fun h => Bool.noConfusion h

theorem cmdAttest : Statement (.cmdAttest) := fun h => Bool.noConfusion h

theorem cmdUnknown : Statement (.cmdUnknown) := fun h => Bool.noConfusion h

theorem commandCompletion : Statement (.commandCompletion) := fun h => Bool.noConfusion h

theorem boot : Statement (.boot) := fun h => Bool.noConfusion h

theorem mextWrite : Statement (.mextWrite) := fun h => Bool.noConfusion h

theorem measurementDone : Statement (.measurementDone) := fun h => Bool.noConfusion h

theorem hostLinkTrained : Statement (.hostLinkTrained) := fun h => Bool.noConfusion h

end Sys2Proof.Laws.WordRoundTrip
end

