-- ==== Sys2Proof/Laws/Vectors.lean ====
section
/-! SUPPORT. What the shared operations of vector work come to where nothing stands in the way: legality, the queues, and a
plan none of whose elements traps. -/

namespace Sys2Proof.Machine

theorem refillAll_none {s : State} (h : s.h.offChip = []) : ∀ rs, refillAll s rs = .ok s
  | [] => rfl
  | r :: rs => by
    have : refill s r = .ok s := by unfold refill; rw [h]; rfl
    rw [refillAll, this]
    exact refillAll_none h rs

theorem legalReads_eq {x : Stack} {ok : Bool} {regs reached : List VReg} {masks : List MReg} {qs : List (Fin 4)}
    {body : State → Res} {s : State} (h : VecReady x ok regs masks s) (hq : s.h.filled qs) :
    legalReads x ok regs reached masks qs body s = body s.wakeLanes := by
  unfold legalReads
  have h1 : (isSliced s.h.fmt && x.ofs.any Ofs.nonZero) = false := by
    cases hs : isSliced s.h.fmt
    · rfl
    · rw [h.offsets hs]; rfl
  have h2 : regs.any (fun r => decide (s.h.nreg ≤ r.val)) = false := by
    rw [List.any_eq_false]
    intro r hr
    have := h.declared r hr
    simp; omega
  have h3 : (decide (s.h.vl > 65536) && masks.any (· != 0)) = false := by
    rcases h.short with hv | hm
    · simp; intro hh; omega
    · rw [Bool.and_eq_false_iff]; right
      rw [List.any_eq_false]
      intro m hm'; simp [hm m hm']
  have h4 : (qs.any fun q => s.h.queues[q].isEmpty) = false := by
    rw [List.any_eq_false]
    intro q hq'
    have := hq q hq'
    simpa using this
  rw [h1, h.format, h2, h3, h4, refillAll_none h.onChip]
  rfl

theorem legalVec_eq {x : Stack} {ok : Bool} {regs : List VReg} {masks : List MReg} {body : State → Res} {s : State}
    (h : VecReady x ok regs masks s) : legalVec x ok regs masks body s = body s.wakeLanes :=
  legalReads_eq h fun _ h => nomatch h

/-! The state in which a body runs. -/

theorem issued_tokens_shape (i : Instr) (s : State) : ∃ tk, issued i s = { s with h := { s.h with tokens := tk } } := by
  unfold issued; split
  · exact ⟨s.h.tokens, rfl⟩
  · exact ⟨_, rfl⟩

theorem vecReady_issued {i : Instr} {x : Stack} {ok : Bool} {regs : List VReg} {masks : List MReg} {s : State}
    (h : VecReady x ok regs masks s) : VecReady x ok regs masks (issued i s) := by
  obtain ⟨tk, e⟩ := issued_tokens_shape i s
  rw [e]
  exact ⟨h.format, h.offsets, h.declared, h.short, h.onChip, h.steady, h.whole⟩

/-- Waking lane clusters changes the cores' power states alone. -/
theorem wakeLanes_h (s : State) : s.wakeLanes.h = s.h := by
  unfold State.wakeLanes State.modCore
  split
  · rfl
  · split <;> rfl

theorem wakeLanes_upsets (s : State) : s.wakeLanes.upsets = s.upsets := by
  unfold State.wakeLanes State.modCore
  split
  · rfl
  · split <;> rfl

theorem wakeLanes_sys (s : State) : s.wakeLanes.sys = s.sys := by
  unfold State.wakeLanes State.modCore
  split
  · rfl
  · split <;> rfl

theorem wakeLanes_mem (s : State) : s.wakeLanes.mem = s.mem := by
  unfold State.wakeLanes State.modCore
  split
  · rfl
  · split <;> rfl

/-! Plans. -/

theorem foldl_none {α β : Type} (f : Option β → α → Option β) (l : List α) (h : ∀ a ∈ l, f none a = none) :
    l.foldl f none = none := by
  induction l with
  | nil => rfl
  | cons a l ih =>
    rw [List.foldl_cons, h a (by simp)]
    exact ih fun b hb => h b (by simp [hb])

/-- The rows of a plan of the control thread that starts at stripe 0. -/
theorem Plan.rows_eq {p : Plan} {h : Hart} {on : Nat → Bool} (hr : h.resume = none) (hg : h.group = none)
    (ha : ∀ e < h.vl, p.act e = .ok (on e)) :
    p.rows h = ((List.range h.vl).filter on).map fun e => ⟨e, p.stripe e, p.f e⟩ := by
  unfold Plan.rows Hart.firstStripe
  rw [hr, hg]
  rw [← List.filterMap_eq_map, List.filterMap_filter]
  apply List.filterMap_congr
  intro e he
  have hl : e < h.vl := by simpa using he
  simp only [Option.map_none, Option.getD_none, Nat.not_lt_zero, if_false, Option.isSome_none, Bool.false_eq_true]
  rw [ha e hl]
  cases ho : on e <;> rfl

/-- A plan none of whose active elements traps completes. -/
theorem Plan.run_eq {p : Plan} {s : State} {on : Nat → Bool} {c f : Nat → Nat} {q : Nat → Bad} {b : Nat → Bool}
    (hs : s.h.single = false) (hr : s.h.resume = none) (hg : s.h.group = none)
    (ha : ∀ e < s.h.vl, p.act e = .ok (on e))
    (hf : ∀ e ∈ (List.range s.h.vl).filter on, p.f e = .val (c e) (f e) (q e) (b e) ∧ f e &&& s.h.enables = 0) :
    p.run none s = .done (s.modH fun h =>
      ((p.put (((List.range s.h.vl).filter on).map fun e => (e, c e, q e, b e)) h).raise
        (orAll (((List.range s.h.vl).filter on).map f))).complete p.frees p.purse) := by
  have hrows : p.rows s.h = ((List.range s.h.vl).filter on).map fun e => ⟨e, p.stripe e, .val (c e) (f e) (q e) (b e)⟩ := by
    rw [Plan.rows_eq hr hg ha]
    exact List.map_congr_left fun e he => by rw [(hf e he).1]
  have hnone : firstTrap s.h.enables (p.rows s.h) = none := by
    rw [hrows]
    unfold firstTrap
    refine foldl_none _ _ ?_
    intro r hr'
    simp only [List.mem_map] at hr'
    obtain ⟨e, he, rfl⟩ := hr'
    simp only [EOut.cause]
    rw [(hf e he).2]
    rfl
  have hvals : rowVals (p.rows s.h) = ((List.range s.h.vl).filter on).map fun e => (e, c e, q e, b e) := by
    rw [hrows]
    unfold rowVals
    rw [List.filterMap_map, ← List.filterMap_eq_map]
    rfl
  have hflags : rowFlags (p.rows s.h) = orAll (((List.range s.h.vl).filter on).map f) := by
    rw [hrows]
    unfold rowFlags orAll
    rw [List.foldl_map, List.foldl_map]
  unfold Plan.run Plan.runAll rowStop
  rw [hs]
  simp only [Bool.false_eq_true, if_false]
  rw [hnone, hvals, hflags]
  rfl

theorem active_eq {h : Hart} {m : MReg} {inv : Bool} (hg : h.group = none) (hm : h.maskClean m) :
    ∀ e < h.vl, h.active m inv e = .ok (h.maskBit m e != (m != 0 && inv)) := by
  intro e he
  unfold Hart.active
  rw [hg, hm e he]
  rfl

/-- Without an open instruction, operands are read as they stand. -/
theorem env_none {h : Hart} (hr : h.resume = none) (y : Layout) (d : Option VReg) (rs : List VReg) :
    h.env y d rs = h.operands y rs := by
  unfold Hart.operands Hart.env
  rw [hr]

/-! Frames of writes of a hart, and the state in which a body runs. -/

theorem vec_issue {i : Instr} {body k : State → Res} {s t : State} {x : Stack} {ok : Bool} {regs : List VReg} {masks : List MReg}
    (hi : Issues i s) (hv : VecReady x ok regs masks s) (hb : body (issued i s) = legalVec x ok regs masks k (issued i s))
    (hk : k (issued i s).wakeLanes = .done t) (ht : t.h.tokens = (issued i s).h.tokens) :
    issue i body s = .next (completed i t (behind i s)) := by
  rw [issue_done hi (t := t)]
  · rw [hb, legalVec_eq (vecReady_issued hv), hk]
  · exact ht

theorem vec_state {i : Instr} {s : State} (hi : Issues i s) {x ok regs masks} (hv : VecReady x ok regs masks s) :
    ∃ tk, (issued i s).h = { s.h with tokens := tk } ∧ (issued i s).wakeLanes.h = { s.h with tokens := tk } ∧ NoUpset (issued i s).wakeLanes := by
  obtain ⟨tk, hs⟩ := issued_tokens_shape i s
  refine ⟨tk, by rw [hs], by rw [wakeLanes_h, hs], ?_⟩
  unfold NoUpset; rw [wakeLanes_upsets, hs]; exact hv.steady

theorem group_none {i : Instr} {s : State} (hi : Issues i s) : s.h.group = none := by unfold Hart.group; rw [hi.thread]; rfl

theorem env_tok {h : Hart} (hr : h.resume = none) (tk) (y : Layout) (d : Option VReg) (rs : List VReg) :
    Hart.env { h with tokens := tk } y d rs = { h.operands y rs with h := { h with tokens := tk } } := by
  unfold Hart.operands Hart.env
  dsimp only
  rw [hr]; rfl

theorem read_tok {h : Hart} (tk) (y : Layout) (rs : List VReg) (src : Src) (e : Nat) :
    Env.read { h.operands y rs with h := { h with tokens := tk } } src e = (h.operands y rs).read src e := rfl

theorem popQueues_tokens : ∀ (l : List (Fin 4)) (h : Hart), (h.popQueues l).tokens = h.tokens := by
  intro l
  unfold Hart.popQueues
  induction l with
  | nil => intro h; rfl
  | cons k l ih => intro h; rw [List.foldl_cons, ih]

theorem putReg_tokens (d : VReg) (y : Layout) (vs) (h : Hart) : (putReg d y vs h).tokens = h.tokens := by
  unfold putReg; split <;> rfl

theorem putBitsOf_tokens (d : MReg) (vs) (h : Hart) : (putBitsOf d vs h).tokens = h.tokens := by
  unfold putBitsOf; split <;> rfl

theorem raise_tokens (h : Hart) (f : Nat) : (h.raise f).tokens = h.tokens := rfl

theorem orAll_zero {α : Type} (l : List α) (f : α → Nat) (h : ∀ e ∈ l, f e = 0) : orAll (l.map f) = 0 := by
  unfold orAll
  have : ∀ (l : List α) (z : Nat), (∀ e ∈ l, f e = 0) → (l.map f).foldl (· ||| ·) z = z := by
    intro l
    induction l with
    | nil => intro z _; rfl
    | cons a l ih => intro z h; rw [List.map_cons, List.foldl_cons, h a (by simp), Nat.or_zero]; exact ih z fun b hb => h b (by simp [hb])
  exact this l 0 h

theorem raise_zero (h : Hart) : h.raise 0 = h := by
  unfold Hart.raise
  have : h.fflags ||| wd 0 = h.fflags := BitVec.or_zero
  rw [this]

theorem filter_all {n : Nat} : (List.range n).filter (fun _ => true) = List.range n := List.filter_true _

theorem maskBit_tok (h : Hart) (tk) (m e) : Hart.maskBit { h with tokens := tk } m e = h.maskBit m e := rfl

theorem ready_tok {x ok regs masks} {s : State} {tk} (hv : VecReady x ok regs masks s) :
    VecReady x ok regs masks { s with h := { s.h with tokens := tk } } :=
  ⟨hv.format, hv.offsets, hv.declared, hv.short, hv.onChip, hv.steady, hv.whole⟩

theorem consumed_tokens (p q : Src) (t : State) : (consumed p q t).h.tokens = t.h.tokens := popQueues_tokens _ _

theorem elementwise_tokens (d y es v p t) : (elementwise d y es v p t).h.tokens = t.h.tokens := by
  unfold elementwise
  show (putReg _ _ _ _).tokens = _
  rw [putReg_tokens, wakeLanes_h]

theorem bitwise_tokens (d es b f t) : (bitwise d es b f t).h.tokens = t.h.tokens := by
  unfold bitwise
  show (putBitsOf _ _ _).tokens = _
  rw [putBitsOf_tokens, wakeLanes_h]

/-- The body of a vector form, known for every state, completes in the state in which the form runs. -/
theorem vec_passes {i : Instr} {body : State → Res} {f : State → State} {s : State} (hi : Issues i s)
    (hb : ∀ tk, body { s with h := { s.h with tokens := tk } } = .done (f { s with h := { s.h with tokens := tk } }))
    (ht : ∀ t, (f t).h.tokens = t.h.tokens) : issue i body s = passes i s f := by
  obtain ⟨tk, hs⟩ := issued_tokens_shape i s
  rw [issue_done hi (t := f (issued i s))]
  · rfl
  · rw [hs]; exact hb tk
  · exact ht _

end Sys2Proof.Machine
end

