-- ==== Sys2Proof/Laws/Places.lean ====
section
/-! SUPPORT. Vector loads: the probes of their elements, and what they deliver. -/

namespace Sys2Proof.Machine

theorem collect_eq {act : Nat → Except PLoc Bool} {addr : Nat → Except PLoc (Int × Nat)} {on : Nat → Bool} {A : Nat → Int × Nat} :
    ∀ (l : List Nat), (∀ e ∈ l, act e = .ok (on e)) → (∀ e ∈ l.filter on, addr e = .ok (A e)) →
      collect act addr l = .ok ((l.filter on).map fun e => ⟨e, (A e).1, (A e).2⟩) := by
  intro l
  induction l with
  | nil => intro _ _; rfl
  | cons e l ih =>
    intro h1 h2
    rw [collect, h1 e (by simp)]
    have ih' := ih (fun e he => h1 e (by simp [he])) (fun e he => h2 e (by
      have := List.mem_filter.mp he
      exact List.mem_filter.mpr ⟨by simp [this.1], this.2⟩))
    cases ho : on e with
    | false => simp only [ho, ih', Bool.false_eq_true, not_false_eq_true, List.filter_cons_of_neg]
    | true =>
      rw [h2 e (by simp [ho])]
      simp only [ih', ho, List.filter_cons_of_pos, List.map_cons]
      rfl

theorem probeAll_eq {s : State} {need : Need} {align : Nat} {A : Nat → Int × Nat} {p : Nat → Phys} :
    ∀ (l : List Nat), (∀ e ∈ l, (A e).2 ≠ 0 → probe s need (A e).1 (A e).2 align = .ok (p e)) →
      probeAll s need align (l.map fun e => ⟨e, (A e).1, (A e).2⟩) =
        .ok (l.map fun e => (⟨e, (A e).1, (A e).2⟩, if (A e).2 = 0 then ⟨0, false, false, false, 0⟩ else p e)) := by
  intro l
  induction l with
  | nil => intro _; rfl
  | cons e l ih =>
    intro h
    have ih' := ih (fun e he => h e (by simp [he]))
    rw [List.map_cons, probeAll]
    by_cases h0 : (A e).2 = 0
    · simp only [h0, if_true, ih', List.map_cons]; rfl
    · have hp := h e (by simp) h0
      simp only [h0, if_false]
      rw [hp]
      simp only [ih', List.map_cons, h0, if_false]
      rfl

theorem interlock_idle {s : State} {wr : Bool} {p : Phys} {n : Nat} (h : s.h.xfers = []) : s.interlock wr p n = s := by
  unfold State.interlock; rw [h]; rfl

theorem interlockElem_idle {s : State} {wr : Bool} {next} {va : Nat} {p : Phys} {n : Nat} (h : s.h.xfers = []) :
    s.interlockElem wr next va p n = s := by
  unfold State.interlockElem
  dsimp only
  simp only [interlock_idle h, ite_self]

theorem withElems_eq {need align} {act : Nat → Except PLoc Bool} {addr : Nat → Except PLoc (Int × Nat)} {on : Nat → Bool} {A : Nat → Int × Nat}
    {p : Nat → Phys} {k : List (Acc × Phys) → State → Res} {s : State} {l : List Nat}
    (h1 : ∀ e ∈ l, act e = .ok (on e)) (h2 : ∀ e ∈ l.filter on, addr e = .ok (A e))
    (hp : Placed need align (l.filter on) A p s) :
    withElems need align l act addr k s =
      k ((l.filter on).map fun e => (⟨e, (A e).1, (A e).2⟩, if (A e).2 = 0 then ⟨0, false, false, false, 0⟩ else p e)) s := by
  unfold withElems
  rw [collect_eq l h1 h2]
  dsimp only
  rw [probeAll_eq _ hp.place]
  dsimp only
  congr 1
  generalize ((l.filter on).map fun e => ((⟨e, (A e).1, (A e).2⟩ : Acc), if (A e).2 = 0 then (⟨0, false, false, false, 0⟩ : Phys) else p e)) = ps
  have : ∀ (ps : List (Acc × Phys)), ps.foldl (fun s p =>
      if p.1.n = 0 then s else s.interlockElem need.w State.nextPage p.1.a.toNat p.2 p.1.n) s = s := by
    intro ps
    induction ps with
    | nil => rfl
    | cons q ps ih =>
      rw [List.foldl_cons]
      have : (if q.1.n = 0 then s else s.interlockElem need.w State.nextPage q.1.a.toNat q.2 q.1.n) = s := by
        split
        · rfl
        · exact interlockElem_idle hp.idle
      rw [this]; exact ih
  exact this ps

theorem probe_wake (s : State) (need : Need) (a : Int) (n k : Nat) : probe s.wakeLanes need a n k = probe s need a n k :=
  probe_congr (wakeLanes_mem s) (wakeLanes_sys s) (by rw [wakeLanes_h]) (by rw [wakeLanes_h]) (by rw [wakeLanes_h]) need a n k

theorem placed_wake {need align es addr p} {s : State} (h : Placed need align es addr p s) : Placed need align es addr p s.wakeLanes :=
  ⟨fun e he hn => by rw [probe_wake]; exact h.place e he hn, by rw [wakeLanes_h]; exact h.idle⟩

theorem placed_tok {need align es addr p} {s : State} {tk} (h : Placed need align es addr p s) :
    Placed need align es addr p { s with h := { s.h with tokens := tk } } :=
  ⟨fun e he hn => by rw [probe_congr (s := { s with h := { s.h with tokens := tk } }) (t := s) rfl rfl rfl rfl rfl]; exact h.place e he hn, h.idle⟩

theorem deliverLoad_tokens (x d vs) (h : Hart) : (deliverLoad x d vs h).tokens = h.tokens := by
  unfold deliverLoad; split
  · rfl
  · split <;> rfl

theorem loaded_eq {u : State} {w : Nat} {l : List Nat} {A : Nat → Int × Nat} {p : Nat → Phys} (hw : width u.h.fmt = w) :
    loaded u (l.map fun e => (⟨e, (A e).1, (A e).2⟩, if (A e).2 = 0 then ⟨0, false, false, false, 0⟩ else p e)) = l.map (found w A p u) := by
  unfold loaded
  rw [List.map_map]
  apply List.map_congr_left
  intro e he
  unfold found
  dsimp only [Function.comp]
  rw [hw]
  by_cases h : (A e).2 = 0
  · rw [if_pos h, if_pos h]
  · rw [if_neg h, if_neg h, if_neg h]

theorem loads_of {i : Instr} {x d regs m rs ok need addr pre} {body : State → Res}
    (hx : ∀ s, exec i s = issue i body s) {ok' : Hart → Bool} {addr' : Hart → Env → Nat → Except PLoc (Int × Nat)} {miss} {rs' : List SReg}
    (hb : ∀ s, Clean rs s → body s = loadVec x d regs m rs' ok' need addr' miss s) (hrs : ∀ r ∈ rs', r ∈ rs)
    (hok : ∀ s tk, ok' { s.h with tokens := tk } = ok s)
    (haddr : ∀ s tk, pre s → ∀ e ∈ s.h.on m (maskInv x), addr' { s.h with tokens := tk } { s.h.operands s.h.layout regs with h := { s.h with tokens := tk } } e = .ok (addr s e))
    (hmiss : miss = true → acqScope x = none) : LoadsElements i x d regs m rs ok need addr pre := by
  intro s p on hi hv hc hm hq hpre hpl
  rw [hx]
  refine vec_passes hi ?_ ?_
  · intro tk
    rw [hb _ (by exact hc)]
    have hgn : Hart.group { s.h with tokens := tk } = none := group_none hi
    have hre : { s.h with tokens := tk }.resume = none := hi.afresh
    unfold loadVec
    have hsc : (if miss = true then acqScope x else none) = none := by
      split
      · next h => exact hmiss h
      · rfl
    rw [hsc]
    simp only [Option.isSome_none, Bool.false_eq_true, if_false]
    have hv' : VecReady x (ok' { s.h with tokens := tk } && !(toQueue x && decide (4 ≤ ({ s.h with tokens := tk } : Hart).queues[(Fin.ofNat 4 d.val : Fin 4)].length)))
        ((if toQueue x then [] else [d]) ++ regs) [m] { s with h := { s.h with tokens := tk } } := by
      have := ready_tok (tk := tk) hv
      refine ⟨?_, this.offsets, this.declared, this.short, this.onChip, this.steady, this.whole⟩
      rw [hok, hv.format]
      cases htq : toQueue x
      · rfl
      · have := hq htq
        have h4 : ¬ 4 ≤ ({ s.h with tokens := tk } : Hart).queues[(Fin.ofNat 4 d.val : Fin 4)].length := by
          show ¬ 4 ≤ s.h.queues[(Fin.ofNat 4 d.val : Fin 4)].length
          omega
        rw [decide_eq_false h4]; rfl
    rw [legalVec_eq hv', withClean_eq (by rw [wakeLanes_h]; exact hi.thread) (by intro r h; rw [wakeLanes_h]; exact hc r (hrs r h))]
    rw [wakeLanes_h]
    rw [withElems_eq (on := fun e => s.h.maskBit m e != (m != 0 && maskInv x)) (A := addr s) (p := p)]
    · dsimp only
      rw [loaded_eq (w := width s.h.fmt)]
      · rfl
      · rw [acqOf_h, wakeLanes_h]
    · intro e he
      exact active_eq hgn hm e (by simpa using he)
    · intro e he
      rw [env_tok hi.afresh]
      exact haddr s tk hpre e he
    · exact placed_wake (placed_tok hpl)
  · intro t
    show (deliverLoad _ _ _ _).tokens = _
    rw [deliverLoad_tokens, acqOf_h, wakeLanes_h]

end Sys2Proof.Machine
end

