-- ==== Sys2Proof/Laws/Scalar.lean ====
section
/-! SUPPORT. The scalar results as the manual writes them: products, quotients, remainders, minima and maxima. -/

namespace Sys2Proof.Machine

theorem slt_eq (a b : Word) : a.slt b = decide (a.toInt < b.toInt) := rfl

theorem mulh_eq (a b : Word) : mulhVal a b = (a.signExtend 128 * b.signExtend 128).extractLsb' 64 64 := by
  unfold mulhVal
  apply BitVec.eq_of_toNat_eq
  rw [BitVec.extractLsb'_toNat, Nat.shiftRight_eq_div_pow, BitVec.toNat_ofInt]
  have e : a.signExtend 128 * b.signExtend 128 = BitVec.ofInt 128 (a.toInt * b.toInt) := by
    rw [BitVec.ofInt_mul, BitVec.signExtend, BitVec.signExtend]
  rw [e, BitVec.toNat_ofInt]
  generalize a.toInt * b.toInt = z
  have h1 : (0:Int) ≤ z % (2^128 : Nat) := Int.emod_nonneg _ (by decide)
  apply Int.ofNat.inj
  simp only [Int.ofNat_eq_natCast]
  rw [Int.toNat_of_nonneg (Int.emod_nonneg _ (by decide))]
  push_cast
  rw [Int.toNat_of_nonneg (by simpa using h1)]
  omega
theorem mulhn_eq (a b : Word) : mulhnVal a b = (a.setWidth 128 * b.setWidth 128).extractLsb' 64 64 := by
  unfold mulhnVal
  apply BitVec.eq_of_toNat_eq
  rw [BitVec.extractLsb'_toNat, Nat.shiftRight_eq_div_pow]
  simp
  have h1 := a.isLt
  have h2 := b.isLt
  have : a.toNat * b.toNat < 2^64 * 2^64 := Nat.mul_lt_mul'' h1 h2
  rw [Nat.mod_eq_of_lt (by omega : a.toNat * b.toNat < _)]
theorem div_eq (a b : Word) : divVal a b = if b = 0 then -1 else a.sdiv b := by
  unfold divVal divS
  split
  · rfl
  · apply BitVec.eq_of_toInt_eq
    rw [BitVec.toInt_sdiv]; simp [BitVec.toInt_ofInt]
theorem rem_eq (a b : Word) : remVal a b = if b = 0 then a else a.srem b := by
  unfold remVal remS
  split
  · rfl
  · apply BitVec.eq_of_toInt_eq
    rw [BitVec.toInt_srem, BitVec.toInt_ofInt]
    rw [← BitVec.toInt_srem]; exact BitVec.toInt_bmod_cancel _
theorem min_eq (a b : Word) : minVal a b = if a.toInt ≤ b.toInt then a else b := by
  unfold minVal; rw [slt_eq]; by_cases h : b.toInt < a.toInt <;> simp [h] <;> omega
theorem max_eq (a b : Word) : maxVal a b = if b.toInt ≤ a.toInt then a else b := by
  unfold maxVal; rw [slt_eq]; by_cases h : a.toInt < b.toInt <;> simp [h] <;> omega

end Sys2Proof.Machine
end

