-- ==== Sys2Proof/Laws/Traps.lean ====
section
/-! SUPPORT. What a trap writes, what a report leaves, numbers in memory, and the trap of a whole form. -/

namespace Sys2Proof.Machine

theorem tcauseWord_eq (t : TrapInfo) (v : Bool) : tcauseWord t v = Spec.tcause t.code t.detail v := by
  apply BitVec.eq_of_toNat_eq
  unfold tcauseWord Spec.tcause wd
  simp only [BitVec.toNat_append, BitVec.toNat_ofNat, BitVec.toNat_ofBool]
  have ha : t.code % 256 < 2 ^ 8 := Nat.mod_lt _ (by decide)
  have hb : t.detail % 256 < 256 := Nat.mod_lt _ (by decide)
  norm_num
  generalize t.code % 256 = p at *
  generalize t.detail % 256 = q at *
  rw [← Nat.shiftLeft_add_eq_or_of_lt ha, ← Nat.shiftLeft_add_eq_or_of_lt (by omega : q < 2 ^ 8)]
  rw [Nat.shiftLeft_eq, Nat.shiftLeft_eq]
  cases v <;> simp <;> omega

/-- An agent's write that meets no backing area leaves a hart that monitors nothing as it stands. -/
theorem agentWrite_h {s : State} (a : Nat) (bs : List Byte) (w : Option Agent) (p : Bool) (hs : ∀ x n, s.h.monitors x n = false)
    (hb : s.backed a bs.length = false) : (s.agentWrite a bs w p).h = s.h := by
  unfold State.agentWrite
  rw [intoBacking_clear hb]
  unfold State.noteWrite State.finishWhere
  have h2 : s.h.monitors a bs.length = false := hs _ _
  show (if s.h.monitors a bs.length = true then wakeHart s.h else (s.h, [])).1 = s.h
  rw [h2]; rfl

theorem agentWrite_mem {s : State} (a : Nat) (bs : List Byte) (hb : s.backed a bs.length = false) :
    (s.agentWrite a bs).mem = s.mem.agentWrite false a bs := by
  unfold State.agentWrite; rw [intoBacking_clear hb]; rfl

theorem report_bytes_length (r : Report) : r.bytes.length = 64 := by
  unfold Report.bytes
  simp [natToBytes_length]

theorem curBytes_congr {m m' : Mem} : ∀ (n a : Nat), (∀ x, a ≤ x ∧ x < a + n → m.curByte x = m'.curByte x) → m.curBytes a n = m'.curBytes a n := by
  intro n
  induction n with
  | zero => intro a _; rfl
  | succ n ih => intro a h; rw [Mem.curBytes, Mem.curBytes, h a (by omega), ih (a+1) (fun x hx => h x (by omega))]

theorem curBytes_written {m : Mem} : ∀ (bs : List Byte) (a : Nat), (∀ x, a ≤ x ∧ x < a + bs.length → m.curByte x = bs.getD (x - a) 0) → m.curBytes a bs.length = bs := by
  intro bs
  induction bs with
  | nil => intro a _; rfl
  | cons b bs ih =>
    intro a h
    rw [List.length_cons, Mem.curBytes, h a (by simp), ih (a+1)]
    · simp
    · intro x hx
      rw [h x (by simp; omega)]
      rw [show x - a = (x - (a + 1)) + 1 by omega, List.getD_cons_succ]

theorem bytesNat_natToBytes (v : Nat) : ∀ n, v < 256 ^ n → bytesNat (natToBytes n v) = v := by
  intro n
  induction n generalizing v with
  | zero => intro h; simp at h; subst h; rfl
  | succ n ih =>
    intro h
    rw [natToBytes, bytesNat, ih]
    · simp; omega
    · rw [Nat.div_lt_iff_lt_mul (by decide), ← pow_succ]; exact h


/-- A report to a ring on a failed agent goes nowhere (R150). -/
theorem report_lost {s : State} (r : Report) (h : s.sys.homeLost s.ring = true) : s.report r = s := by
  unfold State.report
  exact if_pos h

/-- A report that must wait is kept (R220, R135). -/
theorem report_kept {s : State} (r : Report) (h : s.sys.homeLost s.ring = false) (w : s.reportWaits = true) :
    s.report r = s.modSys fun y => { y with reports := y.reports ++ [r] } := by
  unfold State.report
  rw [h, w]
  rfl

/-- A report that can be written takes record HEAD (R224, R230). -/
theorem report_room {s : State} {r : Report} {R H T : Nat} (hR : R = s.ring) (hH : H = s.mem.curNat R 8) (hT : T = s.mem.curNat (R + 8) 8)
    (hl : s.sys.homeLost R = false) (hp : s.sys.homeLost (R + 0x40 + 64 * (H % 16383)) = false) (hw : s.reportWaits = false)
    (h : H - T < 16383) :
    s.report r = ((s.agentWrite (R + 0x40 + 64 * (H % 16383)) r.bytes).agentWrite R
      (natToBytes 8 (H + 1))).modSys fun y => { y with msi := y.msi + 1 } := by
  have hr : s.recordAt = R + 0x40 + 64 * (H % 16383) := by rw [State.recordAt, ← hR, ← hH]
  unfold State.report
  simp only [← hR, ← hH, ← hT, hl, hw, hr, hp, Bool.false_eq_true, if_false]
  exact if_pos h

/-- A report to a full ring is counted in OVF (R224). -/
theorem report_full {s : State} {r : Report} {R H T V : Nat} (hR : R = s.ring) (hH : H = s.mem.curNat R 8) (hT : T = s.mem.curNat (R + 8) 8)
    (hV : V = s.mem.curNat (R + 16) 8) (hl : s.sys.homeLost R = false) (hw : s.reportWaits = false) (h : ¬ H - T < 16383) :
    s.report r = if V + 1 < 2 ^ 64 then s.agentWrite (R + 16) (natToBytes 8 (V + 1)) else s := by
  unfold State.report
  simp only [← hR, ← hH, ← hT, ← hV, hl, hw, Bool.false_eq_true, if_false]
  exact if_neg h

theorem curNat_lt' (m : Mem) (a : Nat) : m.curNat a 8 < 2 ^ 64 := by
  unfold Mem.curNat
  have := bytesNat_lt (m.curBytes a 8)
  rwa [curBytes_length] at this

theorem agent_other {m : Mem} {a : Nat} {bs : List Byte} {b n : Nat} (hw : m.wf = true) (hd : b + n ≤ a ∨ a + bs.length ≤ b) :
    (m.agentWrite false a bs).curBytes b n = m.curBytes b n :=
  curBytes_congr n b (fun x hx => Mem.agentWrite_other hw _ _ _ (by omega))

theorem agent_same {m : Mem} (a : Nat) (bs : List Byte) (hw : m.wf = true) :
    (m.agentWrite false a bs).curBytes a bs.length = bs :=
  curBytes_written bs a (fun x hx => agentWrite_same hw _ _ _ hx)

theorem agent_nat {m : Mem} (a v : Nat) (hw : m.wf = true) (hv : v < 2 ^ 64) :
    (m.agentWrite false a (natToBytes 8 v)).curNat a 8 = v := by
  have := agent_same a (natToBytes 8 v) hw
  rw [natToBytes_length] at this
  unfold Mem.curNat
  rw [this, bytesNat_natToBytes _ _ (by rw [show (256 : Nat) ^ 8 = 2 ^ 64 by norm_num]; exact hv)]

theorem agent_nat_other {m : Mem} {a : Nat} {bs : List Byte} {b : Nat} (hw : m.wf = true) (hd : b + 8 ≤ a ∨ a + bs.length ≤ b) :
    (m.agentWrite false a bs).curNat b 8 = m.curNat b 8 := by
  unfold Mem.curNat; rw [agent_other hw hd]

theorem modTokens_issued (i : Instr) (s : State) : ((issued i s).modH fun h => { h with tokens := s.h.tokens }) = s := by
  obtain ⟨tk, e⟩ := issued_shape i s
  rw [e]; rfl

theorem trapsWith_of {i : Instr} {body : State → Res} {s : State} {k : TrapInfo} (h : Issues i s)
    (he : exec i s = issue i body s) (hb : body (issued i s) = .trap (issued i s) k) (hk : k.opened = none) : exec i s = trapsWith s k := by
  rw [he, issue_trap h hb hk, modTokens_issued]; rfl

theorem issued_cid (i : Instr) (s : State) : (issued i s).h.cid = s.h.cid := by unfold issued; split <;> rfl
theorem issued_tvec (i : Instr) (s : State) : (issued i s).h.tvec = s.h.tvec := by unfold issued; split <;> rfl
theorem issued_group {i : Instr} {s : State} (h : Issues i s) : (issued i s).h.group = none := by
  have : (issued i s).h.vp = s.h.vp := by unfold issued; split <;> rfl
  unfold Hart.group; rw [this, h.thread]; rfl
theorem issued_inHandler (i : Instr) (s : State) : (issued i s).h.inHandler = s.h.inHandler := by
  unfold Hart.inHandler; rw [issued_tvec]
theorem illegal_issued {i : Instr} {s : State} (h : Issues i s) : illegal (issued i s) = .trap (issued i s) { code := 1 } := by
  have hv : (issued i s).h.vp = none := by rw [issued_vp]; exact h.thread
  unfold illegal Hart.blockVal Hart.group
  rw [hv]; rfl

theorem popQueues_shape : ∀ (qs : List (Fin 4)) (h : Hart), ∃ l, h.popQueues qs = { h with queues := l }
  | [], h => ⟨h.queues, rfl⟩
  | q :: qs, h => by
    obtain ⟨l, e⟩ := popQueues_shape qs { h with queues := h.queues.set q h.queues[q].tail }
    refine ⟨l, ?_⟩
    unfold Hart.popQueues at *
    rw [List.foldl_cons, e]

/-- Completing a vector instruction changes the queues and PURSE alone. -/
theorem complete_shape (h : Hart) (qs : List (Fin 4)) (n : Nat) : ∃ l p, h.complete qs n = { h with queues := l, purse := p } := by
  obtain ⟨l, e⟩ := popQueues_shape qs h
  unfold Hart.complete
  dsimp only
  rw [e]
  split
  · exact ⟨l, h.purse, rfl⟩
  · exact ⟨l, h.purse + wd n, rfl⟩

/-- A push, made or held, changes the tokens of the hart alone. -/
theorem pushOrHold_shape (s : State) (f : Option Nat) : ∃ l, (s.pushOrHold f).h = { s.h with tokens := l } := by
  unfold State.pushOrHold
  split
  · exact ⟨s.h.tokens, rfl⟩
  · split
    · exact ⟨_, rfl⟩
    · exact ⟨s.h.tokens, rfl⟩

theorem modOpened (s : State) : s.closeOpen.h.opened = none ∧ s.closeOpen.h.resume = s.h.resume ∧ s.closeOpen.h.tpc = s.h.tpc := by
  unfold State.closeOpen
  split
  · rename_i h; exact ⟨h, rfl, rfl⟩
  · rename_i o _
    obtain ⟨tk, e⟩ := pushOrHold_shape (s.modH fun h => { h with opened := none })
      (pushFifo o.instr.stack o.instr.adm.queue)
    rw [e]
    exact ⟨rfl, rfl, rfl⟩

theorem finishOpened (s : State) (o : OpenInstr) :
    (s.finishOpen o).h.opened = none ∧ (s.finishOpen o).h.resume = s.h.resume ∧ (s.finishOpen o).h.tpc = s.h.tpc := by
  obtain ⟨l, p, c⟩ := complete_shape s.h o.frees o.purse
  obtain ⟨a, b, d⟩ := modOpened (s.modH fun h => h.complete o.frees o.purse)
  refine ⟨a, b.trans ?_, d.trans ?_⟩
  · change (s.h.complete o.frees o.purse).resume = _
    rw [c]
  · change (s.h.complete o.frees o.purse).tpc = _
    rw [c]

theorem scalarAt_bad {need : Need} {va : Int} {n : Nat} {k : Phys → State → Res} {i : Instr} {s : State} {c : Nat}
    (h : probe s need va n n = .bad c) : scalarAt need va n n k (issued i s) = .trap (issued i s) { code := c } := by
  unfold scalarAt
  rw [issued_probe, h]
  rfl

theorem clean_sub {l m : List SReg} {s : State} (h : Clean m s) (hs : ∀ r ∈ l, r ∈ m) : Clean l s := fun r hr => h r (hs r hr)

end Sys2Proof.Machine
end

