-- ==== Sys2Proof/Laws/Trees.lean ====
section
/-! SUPPORT. The tree of R80, level by level and as a function of its height. -/

namespace Sys2Proof.Machine

def orR (g : Nat → Nat) (n : Nat) : Nat := (List.range n).foldl (fun a j => a ||| g j) 0

theorem orR_succ (g n) : orR g (n + 1) = orR g n ||| g n := by unfold orR; rw [List.range_succ, List.foldl_append]; rfl

theorem orR_add (g) (n m) : orR g (n + m) = orR g n ||| orR (fun j => g (n + j)) m := by
  induction m with
  | zero => simp [orR]
  | succ m ih => rw [← Nat.add_assoc, orR_succ, ih, orR_succ, Nat.or_assoc]

theorem orR_zero (g) (n) (h : ∀ j < n, g j = 0) : orR g n = 0 := by
  induction n with
  | zero => rfl
  | succ n ih => rw [orR_succ, ih (fun j hj => h j (by omega)), h n (by omega)]; rfl

theorem orR_front (g : Nat → Nat) (n) : orR g (n + 1) = g 0 ||| orR (fun j => g (j + 1)) n := by
  rw [Nat.add_comm, orR_add]
  congr 1
  · simp [orR]
  · unfold orR; congr 1; funext a j; show a ||| g (1 + j) = _; rw [Nat.add_comm]

theorem orR_cut (g) {n m} (hnm : n ≤ m) (h : ∀ j, n ≤ j → g j = 0) : orR g m = orR g n := by
  obtain ⟨k, rfl⟩ := Nat.exists_eq_add_of_le hnm
  rw [orR_add, orR_zero (fun j => g (n + j)) k (fun j _ => h _ (by omega)), Nat.or_zero]

theorem or6 (a b c d e : Nat) : a ||| b ||| (c ||| d) ||| e = a ||| c ||| e ||| (b ||| d) := by
  apply Nat.eq_of_testBit_eq
  intro i
  simp only [Nat.testBit_or]
  generalize a.testBit i = a, b.testBit i = b, c.testBit i = c, d.testBit i = d, e.testBit i = e
  revert a b c d e; decide

section
variable {f : Option Nat → Option Nat → Option Nat × Nat} (hz : f none none = (none, 0))

/-- Node `j` of the level over the nodes `l`. -/
def lvl (f : Option Nat → Option Nat → Option Nat × Nat) (l : List (Option Nat)) (j : Nat) := f (l.getD (2 * j) none) (l.getD (2 * j + 1) none)

include hz in
theorem treeLevel_eq : ∀ (n : Nat) (l : List (Option Nat)), l.length ≤ n → ∀ fl,
    (∀ j, (treeLevel f l fl).1.getD j none = (lvl f l j).1) ∧
    (treeLevel f l fl).1.length = (l.length + 1) / 2 ∧
    (treeLevel f l fl).2 = fl ||| orR (fun j => (lvl f l j).2) ((l.length + 1) / 2) := by
  intro n
  induction n with
  | zero =>
    intro l hl fl
    have : l = [] := List.length_eq_zero_iff.mp (by omega)
    subst this
    refine ⟨fun j => ?_, rfl, by simp [treeLevel, orR]⟩
    simp [treeLevel, lvl, hz]
  | succ n ih =>
    intro l hl fl
    match l with
    | [] =>
      refine ⟨fun j => ?_, rfl, by simp [treeLevel, orR]⟩
      simp [treeLevel, lvl, hz]
    | [a] =>
      refine ⟨fun j => ?_, by simp [treeLevel], ?_⟩
      · cases j with
        | zero => rfl
        | succ j =>
          have : lvl f [a] (j + 1) = (none, 0) := by
            unfold lvl
            rw [show 2 * (j + 1) = (2 * j + 1) + 1 by omega, show 2 * j + 1 + 1 + 1 = (2 * j + 2) + 1 by omega]
            simpa using hz
          rw [this]; simp [treeLevel]
      · simp [treeLevel, orR]; rfl
    | a :: b :: l =>
      have := ih l (by simp at hl; omega) (fl ||| (f a b).2)
      obtain ⟨h1, h2, h3⟩ := this
      have hs : ∀ j, lvl f (a :: b :: l) (j + 1) = lvl f l j := by
        intro j; unfold lvl
        rw [show 2 * (j + 1) = 2 * j + 1 + 1 by omega]
        simp
      refine ⟨fun j => ?_, ?_, ?_⟩
      · cases j with
        | zero => rfl
        | succ j =>
          rw [hs, ← h1]
          simp [treeLevel]
      · simp only [treeLevel, List.length_cons, h2]; omega
      · simp only [treeLevel, h3, List.length_cons]
        rw [show (l.length + 1 + 1 + 1) / 2 = (l.length + 1) / 2 + 1 by omega, orR_front]
        simp only [hs]
        rw [← Nat.or_assoc]
        rfl

theorem spec_step (leaf : Nat → Option Nat) : ∀ (k j : Nat),
    (Spec.tree f leaf (k + 1) j).1 = (Spec.tree f (fun i => (f (leaf (2 * i)) (leaf (2 * i + 1))).1) k j).1 ∧
    (Spec.tree f leaf (k + 1) j).2 = (Spec.tree f (fun i => (f (leaf (2 * i)) (leaf (2 * i + 1))).1) k j).2 |||
      orR (fun i => (f (leaf (2 * (j * 2 ^ k + i))) (leaf (2 * (j * 2 ^ k + i) + 1))).2) (2 ^ k) := by
  intro k
  induction k with
  | zero =>
    intro j
    refine ⟨rfl, ?_⟩
    simp [Spec.tree, orR]
  | succ k ih =>
    intro j
    have e1 := ih (2 * j)
    have e2 := ih (2 * j + 1)
    constructor
    · rw [Spec.tree]; dsimp only
      rw [e1.1, e2.1]; rfl
    · rw [Spec.tree]; dsimp only
      rw [e1.1, e2.1, e1.2, e2.2]
      rw [show (Spec.tree f (fun i => (f (leaf (2 * i)) (leaf (2 * i + 1))).1) (k + 1) j).2 = (Spec.tree f (fun i => (f (leaf (2 * i)) (leaf (2 * i + 1))).1) k (2*j)).2 ||| (Spec.tree f (fun i => (f (leaf (2 * i)) (leaf (2 * i + 1))).1) k (2*j+1)).2 ||| (f (Spec.tree f (fun i => (f (leaf (2 * i)) (leaf (2 * i + 1))).1) k (2*j)).1 (Spec.tree f (fun i => (f (leaf (2 * i)) (leaf (2 * i + 1))).1) k (2*j+1)).1).2 from rfl]
      rw [pow_succ, Nat.mul_two, orR_add]
      have q1 : ∀ i, j * (2 ^ k + 2 ^ k) + i = 2 * j * 2 ^ k + i := by intro i; ring
      have q2 : ∀ i, j * (2 ^ k + 2 ^ k) + (2 ^ k + i) = (2 * j + 1) * 2 ^ k + i := by intro i; ring
      simp only [q2]
      simp only [q1]
      exact or6 ..

theorem spec_congr {g g' : Nat → Option Nat} (h : ∀ j, g j = g' j) (k j) : Spec.tree f g k j = Spec.tree f g' k j := by
  have : g = g' := funext h
  rw [this]

include hz in
theorem tree_eq : ∀ (k : Nat) (l : List (Option Nat)) (fl : Nat), l.length ≤ 2 ^ k →
    tree f k l fl = ((Spec.tree f (fun e => l.getD e none) k 0).1, fl ||| (Spec.tree f (fun e => l.getD e none) k 0).2) := by
  intro k
  induction k with
  | zero =>
    intro l fl hl
    rw [tree]
    match l, hl with
    | [], _ => simp [Spec.tree]
    | [a], _ => simp [Spec.tree]
  | succ k ih =>
    intro l fl hl
    obtain ⟨h1, h2, h3⟩ := treeLevel_eq hz l.length l le_rfl fl
    rw [tree]
    rw [ih _ _ (by rw [h2]; rw [pow_succ] at hl; omega)]
    have hs := spec_step (f := f) (fun e => l.getD e none) k 0
    have hc : ∀ j, (treeLevel f l fl).1.getD j none = (f (l.getD (2 * j) none) (l.getD (2 * j + 1) none)).1 := h1
    rw [spec_congr hc, hs.1, hs.2, h3]
    congr 1
    have hcut : orR (fun i => (f (l.getD (2 * (0 * 2 ^ k + i)) none) (l.getD (2 * (0 * 2 ^ k + i) + 1) none)).2) (2 ^ k) =
        orR (fun j => (lvl f l j).2) ((l.length + 1) / 2) := by
      simp only [Nat.zero_mul, Nat.zero_add]
      apply orR_cut (g := fun j => (lvl f l j).2)
      · rw [pow_succ] at hl; omega
      · intro j hj
        have a1 : l.getD (2 * j) none = none := by simp [List.getD]; rw [List.getElem?_eq_none (by omega)]; rfl
        have a2 : l.getD (2 * j + 1) none = none := by simp [List.getD]; rw [List.getElem?_eq_none (by omega)]; rfl
        unfold lvl
        rw [a1, a2, hz]
    rw [hcut, Nat.or_assoc, Nat.or_comm (orR _ _)]
end

theorem depth_eq {n k : Nat} (h1 : n ≤ 2 ^ k) (h2 : k = 0 ∨ 2 ^ (k - 1) < n) : treeDepth n = k := by
  unfold treeDepth bitLen
  rcases h2 with rfl | h2
  · simp at h1; simp [h1]
  · cases k with
    | zero => simp at h1; simp [h1]
    | succ k =>
      simp at h2
      have hp : 0 < 2 ^ k := Nat.two_pow_pos k
      have : ¬ n ≤ 1 := by omega
      rw [if_neg this, if_neg (by omega)]
      congr 1
      rw [Nat.log2_eq_iff (by omega)]
      constructor
      · omega
      · rw [pow_succ] at h1 ⊢; omega

theorem take1 (n : Nat) : (List.range n).filter (fun e => e == 0) = (List.range n).take 1 := by
  cases n with
  | zero => rfl
  | succ n =>
    rw [List.range_succ_eq_map]
    simp

theorem findIdx_none {α} (p : α → Bool) : ∀ (l : List α) (k : Nat), (∀ a ∈ l, p a = false) → Machine.findIdx p l k = none := by
  intro l
  induction l with
  | nil => intro k _; rfl
  | cons a l ih =>
    intro k h
    rw [Machine.findIdx, h a (by simp)]
    exact ih _ (fun b hb => h b (by simp [hb]))

theorem treeNode_eq (f : Nat → Nat → Nat × Nat) (g : Nat → Nat × Nat) : treeNode f g = Spec.node f g := by
  funext a b
  cases a <;> cases b <;> rfl

/-- The node of a reduction `g` with the identity `z` (R80). -/
def nodeOf (g : Hart → Nat → Nat → Nat × Nat) (z : Hart → Nat) (h : Hart) : Option Nat → Option Nat → Option Nat × Nat :=
  Spec.node (g h) fun c => g { h with frm := h.frm &&& ~~~7 } c (z h)

theorem reduce_body {i : Instr} {x d a m} {ok : Fmt → Bool} {ident : Hart → Nat} {g : Hart → Nat → Nat → Nat × Nat} {S : State} {u : Nat → Nat} {k : Nat}
    (hgrp : S.h.group = none) (hr : S.h.resume = none)
    (hv : VecReady x (ok S.h.fmt) [d, a] [m] S) (hm : S.h.maskClean m)
    (he : ∀ e ∈ S.h.on m (maskInv x), ((S.h.operands S.h.layout [a]).elem a e).gives (u e))
    (h1 : S.h.vl ≤ 2 ^ k) (h2 : k = 0 ∨ 2 ^ (k - 1) < S.h.vl)
    (hen : (Spec.tree (nodeOf g ident S.h) (fun e => if e ∈ S.h.on m (maskInv x) then some (u e) else none) k 0).2 &&& S.h.enables = 0) :
    reduceBody i x d a m ok ident g S = .done (elementwise d S.h.layout ((List.range S.h.vl).take 1)
      (fun _ => let r := Spec.tree (nodeOf g ident S.h) (fun e => if e ∈ S.h.on m (maskInv x) then some (u e) else none) k 0
        (r.1.getD (ident S.h), r.2)) (t := S)) := by
  have hup : NoUpset S.wakeLanes := by unfold NoUpset; rw [wakeLanes_upsets]; exact hv.steady
  unfold reduceBody
  rw [legalVec_eq hv, checked_eq hup]
  simp only [wakeLanes_h]
  rw [env_none hr]
  rw [List.map_congr_left (l := List.range S.h.vl) (g := fun e => ((if e ∈ S.h.on m (maskInv x) then some (u e) else none), (none : Option PLoc))) ?hl]
  case hl =>
    intro e hel
    have hl : e < S.h.vl := by simpa using hel
    rw [active_eq hgrp hm e hl]
    by_cases ho : e ∈ S.h.on m (maskInv x)
    · obtain ⟨oo, hh⟩ := he e ho
      have hb : (S.h.maskBit m e != (m != 0 && maskInv x)) = true := by
        unfold Hart.on at ho
        exact (List.mem_filter.mp ho).2
      rw [hb, if_pos ho, hh]
      rfl
    · have hb : (S.h.maskBit m e != (m != 0 && maskInv x)) = false := by
        cases hq : (S.h.maskBit m e != (m != 0 && maskInv x))
        · rfl
        · exact absurd (List.mem_filter.mpr ⟨hel, hq⟩) ho
      rw [hb, if_neg ho]
  rw [findIdx_none _ _ _ (by intro a ha; simp only [List.mem_map] at ha; obtain ⟨e, _, rfl⟩ := ha; rfl)]
  simp only [List.map_map]
  rw [treeNode_eq, show (Spec.node (g S.h) fun a => g { S.h with frm := S.h.frm &&& ~~~7 } a (ident S.h)) = nodeOf g ident S.h from rfl,
    tree_eq rfl _ _ _ (by rw [List.length_map, List.length_range, depth_eq h1 h2]; exact h1), depth_eq h1 h2]
  have hsp : Spec.tree (nodeOf g ident S.h) (fun e => ((List.range S.h.vl).map ((fun p : Option Nat × Option PLoc => p.1) ∘ fun e => ((if e ∈ S.h.on m (maskInv x) then some (u e) else none), (none : Option PLoc)))).getD e none) k 0 =
      Spec.tree (nodeOf g ident S.h) (fun e => if e ∈ S.h.on m (maskInv x) then some (u e) else none) k 0 := by
    apply spec_congr
    intro e
    by_cases hl : e < S.h.vl
    · simp [List.getD, hl]
    · have hno : ¬ e ∈ S.h.on m (maskInv x) := by
        intro hh; unfold Hart.on at hh
        have := (List.mem_filter.mp hh).1; simp at this; omega
      rw [if_neg hno]
      simp [List.getD, hl]
  rw [hsp]
  generalize hgen : Spec.tree (nodeOf g ident S.h) (fun e => if e ∈ S.h.on m (maskInv x) then some (u e) else none) k 0 = r at hen ⊢
  rw [Plan.run_eq (on := fun e => e == 0) (c := fun _ => r.1.getD (ident S.h)) (f := fun _ => r.2) (q := fun _ => 0) (b := fun _ => false)]
  · simp only [wakeLanes_h, take1]
    rfl
  · rw [wakeLanes_h]; exact hv.whole
  · rw [wakeLanes_h]; exact hr
  · rw [wakeLanes_h]; exact hgrp
  · intro e _; rfl
  · rw [wakeLanes_h]
    intro e _
    refine ⟨?_, hen⟩
    simp [Nat.zero_or]

end Sys2Proof.Machine
end

