-- ==== Sys2Proof/Laws/VecBodies.lean ====
section
/-! SUPPORT. What the bodies of the vector instructions come to where nothing stands in the way: carries, selections, comparisons, bit-sliced arithmetic, moves, masks. -/

namespace Sys2Proof.Machine

theorem codeOf_sub (w : Nat) (u v c : Nat) (hv : v + c ≤ 2 ^ w) : codeOf w ((u : Int) - v - c) = (2 ^ w + u - v - c) % 2 ^ w := by
  unfold codeOf
  have : ((2 ^ w : Nat) : Int) + ((u : Int) - v - c) = ((2 ^ w + u - v - c : Nat) : Int) := by omega
  rw [← Int.add_emod_left, this]
  norm_cast

theorem codeOf_nat (w n : Nat) : codeOf w (n : Int) = n % 2 ^ w := by
  unfold codeOf; norm_cast


theorem carry_body {i : Instr} {g : Int → Int → Int → Int} {x d a b} {mc : MReg} {sc} {S : State} {u v : Nat → Nat} {code : Nat → Nat} {bit : Nat → Bool}
    (hgrp : S.h.group = none) (hr : S.h.resume = none)
    (hv : VecReady x (isInt S.h.fmt && mc != 0) (d :: ((S.h.src1 x a).reg? ++ (S.h.src2 x b sc).reg?)) [mc] S)
    (hq : S.h.filled (queuesOf (S.h.src1 x a) (S.h.src2 x b sc))) (hmc : S.h.maskClean mc)
    (he : ∀ e < S.h.vl, ((S.h.operands S.h.layout (S.h.regsOf (S.h.src1 x a) ++ S.h.regsOf (S.h.src2 x b sc))).read (S.h.src1 x a) e).gives (u e) ∧
      ((S.h.operands S.h.layout (S.h.regsOf (S.h.src1 x a) ++ S.h.regsOf (S.h.src2 x b sc))).read (S.h.src2 x b sc) e).gives (v e) ∧
      codeOf (width S.h.fmt) (g (u e) (v e) (if S.h.maskBit mc e then 1 else 0)) = code e ∧
      decide (g (u e) (v e) (if S.h.maskBit mc e then 1 else 0) < 0 ∨ ((2 ^ width S.h.fmt : Nat) : Int) ≤ g (u e) (v e) (if S.h.maskBit mc e then 1 else 0)) = bit e) :
    carryBody i x d a b mc sc g S = .done (consumed (S.h.src1 x a) (S.h.src2 x b sc) (S.wakeLanes.modH fun h =>
      putBitsOf mc ((List.range S.h.vl).map fun e => (e, code e, 0, bit e)) (putReg d S.h.layout ((List.range S.h.vl).map fun e => (e, code e, 0, bit e)) h))) := by
  have hup : NoUpset S.wakeLanes := by unfold NoUpset; rw [wakeLanes_upsets]; exact hv.steady
  unfold carryBody
  dsimp only
  rw [legalReads_eq hv hq, checked_eq hup]
  rw [Plan.run_eq (on := fun _ => true) (c := code) (f := fun _ => 0) (q := fun _ => 0) (b := bit)]
  · rw [filter_all, orAll_zero _ _ (fun _ _ => rfl)]
    simp only [wakeLanes_h, raise_zero]
    unfold Hart.forMask
    rw [hr]
    rfl
  · rw [wakeLanes_h]; exact hv.whole
  · rw [wakeLanes_h]; exact hr
  · rw [wakeLanes_h]; exact hgrp
  · intro e he
    rw [wakeLanes_h]
    unfold Hart.forMask
    simp only [hr]
    unfold Hart.active
    rw [hgrp]
    rfl
  · rw [wakeLanes_h, filter_all]
    intro e hel
    have hlt : e < S.h.vl := by simpa using hel
    obtain ⟨⟨o1, g1⟩, ⟨o2, g2⟩, g3, g4⟩ := he e hlt
    refine ⟨?_, Nat.zero_and _⟩
    unfold Hart.forMask
    simp only [hr]
    rw [hmc e hlt]
    dsimp only
    rw [env_none hr, g1, g2]
    dsimp only [on2]
    rw [g3, ← Bool.decide_or, g4]

theorem vsel_body {i : Instr} {x d a b} {mc : MReg} {sc} {S : State} {u : Nat → Nat} {z : Nat → Option (PLoc × Bad)}
    (hgrp : S.h.group = none) (hr : S.h.resume = none)
    (hv : VecReady x (isArith S.h.fmt) (d :: ((S.h.src1 x a).reg? ++ (S.h.src2 x b sc).reg?)) [mc] S)
    (hq : S.h.filled (queuesOf (S.h.src1 x a) (S.h.src2 x b sc))) (hmc : S.h.maskClean mc)
    (he : ∀ e < S.h.vl, ∃ g, (if e ∈ S.h.on mc (maskInv x) then (S.h.operands S.h.layout (S.h.regsOf (S.h.src1 x a) ++ S.h.regsOf (S.h.src2 x b sc))).read (S.h.src1 x a) e
      else (S.h.operands S.h.layout (S.h.regsOf (S.h.src1 x a) ++ S.h.regsOf (S.h.src2 x b sc))).read (S.h.src2 x b sc) e) = .code (u e) g (z e)) :
    vselBody i x d a b mc sc S = .done (consumed (S.h.src1 x a) (S.h.src2 x b sc)
      (elementwise d S.h.layout (List.range S.h.vl) (fun e => (u e, 0)) (fun e => badOf (z e)) S)) := by
  have hup : NoUpset S.wakeLanes := by unfold NoUpset; rw [wakeLanes_upsets]; exact hv.steady
  unfold vselBody
  dsimp only
  rw [legalReads_eq hv hq, checked_eq hup]
  rw [Plan.run_eq (on := fun _ => true) (c := u) (f := fun _ => 0) (q := fun e => badOf (z e)) (b := fun _ => false)]
  · rw [filter_all]
    simp only [wakeLanes_h]
    rfl
  · rw [wakeLanes_h]; exact hv.whole
  · rw [wakeLanes_h]; exact hr
  · rw [wakeLanes_h]; exact hgrp
  · intro e he
    rw [wakeLanes_h]
    unfold Hart.active
    rw [hgrp]
    rfl
  · rw [wakeLanes_h, filter_all]
    intro e hel
    have hlt : e < S.h.vl := by simpa using hel
    obtain ⟨g, h1⟩ := he e hlt
    refine ⟨?_, Nat.zero_and _⟩
    dsimp only
    rw [hmc e hlt, env_none hr]
    have : (e ∈ S.h.on mc (maskInv x)) ↔ (S.h.maskBit mc e != (mc != 0 && maskInv x)) = true := by
      unfold Hart.on; simp [hlt]
    simp only [this] at h1
    dsimp only
    rw [h1]
    rfl

theorem vcmp_body {i : Instr} {x} {c : VCond} {d : MReg} {a b} {m : MReg} {sc} {S : State} {u v : Nat → Nat}
    (hgrp : S.h.group = none) (hr : S.h.resume = none)
    (hv : VecReady x (isArith S.h.fmt && d != 0) ((S.h.src1 x a).reg? ++ (S.h.src2 x b sc).reg?) [d, m] S)
    (hq : S.h.filled (queuesOf (S.h.src1 x a) (S.h.src2 x b sc))) (hmc : S.h.maskClean m) {value : Nat → Bool × Nat}
    (hval : value = fun e => if isFloat S.h.fmt then condF c (operandF S.h.fmt S.h.ftz (u e)) (operandF S.h.fmt S.h.ftz (v e))
      else (condI c (intOf S.h.fmt (u e)) (intOf S.h.fmt (v e)), 0))
    (he : ∀ e ∈ S.h.on m (maskInv x), ((S.h.operands S.h.layout (S.h.regsOf (S.h.src1 x a) ++ S.h.regsOf (S.h.src2 x b sc))).read (S.h.src1 x a) e).gives (u e) ∧
      ((S.h.operands S.h.layout (S.h.regsOf (S.h.src1 x a) ++ S.h.regsOf (S.h.src2 x b sc))).read (S.h.src2 x b sc) e).gives (v e) ∧ (value e).2 &&& S.h.enables = 0) :
    vcmpBody i x c d a b m sc S = .done (consumed (S.h.src1 x a) (S.h.src2 x b sc)
      (bitwise d (S.h.on m (maskInv x)) (fun e => (value e).1) (fun e => (value e).2) S)) := by
  have hup : NoUpset S.wakeLanes := by unfold NoUpset; rw [wakeLanes_upsets]; exact hv.steady
  unfold vcmpBody
  dsimp only
  rw [legalReads_eq hv hq, checked_eq hup]
  have hfm : (if m = d then S.wakeLanes.h.forMask d else S.wakeLanes.h) = S.h := by
    rw [wakeLanes_h]; unfold Hart.forMask; rw [hr]; simp
  rw [hfm]
  rw [Plan.run_eq (on := fun e => S.h.maskBit m e != (m != 0 && maskInv x)) (c := fun _ => 0) (f := fun e => (value e).2) (q := fun _ => 0) (b := fun e => (value e).1)]
  · simp only [wakeLanes_h]
    rfl
  · rw [wakeLanes_h]; exact hv.whole
  · rw [wakeLanes_h]; exact hr
  · rw [wakeLanes_h]; exact hgrp
  · intro e he
    rw [wakeLanes_h] at he
    exact active_eq hgrp hmc e he
  · rw [wakeLanes_h]
    intro e hel
    obtain ⟨⟨o1, h1⟩, ⟨o2, h2⟩, h3⟩ := he e hel
    refine ⟨?_, h3⟩
    dsimp only
    rw [env_none hr, h1, h2]
    dsimp only [on2]
    rw [hval]
    dsimp only
    cases isFloat S.h.fmt <;> rfl

theorem sliced_body {i : Instr} {x d} {a b : VReg} {m : MReg} {S : State} {u v : Nat → Nat} {g : Int → Int → Int}
    (hgrp : S.h.group = none) (hr : S.h.resume = none)
    (hv : VecReady x (isSliced S.h.fmt) (d :: ((S.h.src1 x a).reg? ++ (S.h.src2 x b false).reg?)) [m] S)
    (hq : S.h.filled (queuesOf (S.h.src1 x a) (S.h.src2 x b false))) (hmc : S.h.maskClean m)
    (he : ∀ e ∈ S.h.on m (maskInv x), ((S.h.operands (S.h.layoutAt (width S.h.fmt) true) (S.h.regsOf (S.h.src1 x a) ++ S.h.regsOf (S.h.src2 x b false))).read (S.h.src1 x a) e).gives (u e) ∧
      ((S.h.operands (S.h.layoutAt (width S.h.fmt) true) (S.h.regsOf (S.h.src1 x a) ++ S.h.regsOf (S.h.src2 x b false))).read (S.h.src2 x b false) e).gives (v e) ∧
      (deliverInt S.h.fmt S.h.sat (g (intOf S.h.fmt (u e)) (intOf S.h.fmt (v e)))).2 &&& S.h.enables = 0) :
    slicedBody i x d a b m g S = .done (consumed (S.h.src1 x a) (S.h.src2 x b false)
      (elementwise d (S.h.layoutAt (width S.h.fmt) true) (S.h.on m (maskInv x)) (fun e => deliverInt S.h.fmt S.h.sat (g (intOf S.h.fmt (u e)) (intOf S.h.fmt (v e)))) (t := S))) := by
  have hup : NoUpset S.wakeLanes := by unfold NoUpset; rw [wakeLanes_upsets]; exact hv.steady
  unfold slicedBody
  dsimp only
  rw [legalReads_eq hv hq, checked_eq hup]
  rw [Plan.run_eq (on := fun e => S.h.maskBit m e != (m != 0 && maskInv x)) (c := fun e => (deliverInt S.h.fmt S.h.sat (g (intOf S.h.fmt (u e)) (intOf S.h.fmt (v e)))).1) (f := fun e => (deliverInt S.h.fmt S.h.sat (g (intOf S.h.fmt (u e)) (intOf S.h.fmt (v e)))).2) (q := fun _ => 0) (b := fun _ => false)]
  · simp only [wakeLanes_h]
    rfl
  · rw [wakeLanes_h]; exact hv.whole
  · rw [wakeLanes_h]; exact hr
  · rw [wakeLanes_h]; exact hgrp
  · intro e he
    rw [wakeLanes_h] at he ⊢
    exact active_eq hgrp hmc e he
  · rw [wakeLanes_h]
    intro e hel
    obtain ⟨⟨o1, h1⟩, ⟨o2, h2⟩, h3⟩ := he e hel
    refine ⟨?_, h3⟩
    unfold planTwo
    simp only [Bool.false_eq_true, if_false, List.nil_append]
    rw [env_none hr, h1, h2]
    rfl

theorem vmov_body {i : Instr} {x} {d a : VReg} {m : MReg} {S : State} {u : Nat → Nat} {z : Nat → Option (PLoc × Bad)}
    (hgrp : S.h.group = none) (hr : S.h.resume = none)
    (hv : VecReady x (isArith S.h.fmt) [d, a] [m] S) (hmc : S.h.maskClean m)
    (he : ∀ e ∈ S.h.on m (maskInv x), ∃ g, (S.h.operands S.h.layout (S.h.regsOf (S.h.src1 x a))).read (S.h.src1 x a) e = .code (u e) g (z e)) :
    vmovBody i x d a m S = .done (elementwise d S.h.layout (S.h.on m (maskInv x)) (fun e => (u e, 0)) (fun e => badOf (z e)) S) := by
  have hup : NoUpset S.wakeLanes := by unfold NoUpset; rw [wakeLanes_upsets]; exact hv.steady
  have hns : isSliced S.h.fmt = false := by
    have := hv.format
    revert this; cases S.h.fmt <;> intro h <;> first | rfl | exact absurd h (by decide) | simp [isArith, isInt, isFloat] at h
  have hv' : VecReady x (isArith S.h.fmt || isSliced S.h.fmt && m == 0) [d, a] [m] S :=
    ⟨by rw [hv.format]; rfl, hv.offsets, hv.declared, hv.short, hv.onChip, hv.steady, hv.whole⟩
  unfold vmovBody
  dsimp only
  rw [legalReads_eq hv' (fun q hq => absurd hq List.not_mem_nil), wakeLanes_h, hns]
  simp only [Bool.false_and, Bool.false_eq_true, if_false]
  rw [checked_eq hup]
  simp only [wakeLanes_h, hns]
  rw [Plan.run_eq (on := fun e => S.h.maskBit m e != (m != 0 && maskInv x)) (c := u) (f := fun _ => 0) (q := fun e => badOf (z e)) (b := fun _ => false)]
  · simp only [wakeLanes_h]
    rfl
  · rw [wakeLanes_h]; exact hv.whole
  · rw [wakeLanes_h]; exact hr
  · rw [wakeLanes_h]; exact hgrp
  · intro e he
    rw [wakeLanes_h] at he
    exact active_eq hgrp hmc e he
  · rw [wakeLanes_h]
    intro e hel
    obtain ⟨g, h1⟩ := he e hel
    refine ⟨?_, Nat.zero_and _⟩
    rw [env_none hr]
    change moved ((S.h.operands S.h.layout (S.h.regsOf (S.h.src1 x a))).read (S.h.src1 x a) e) = _
    rw [h1]
    rfl

theorem vmovSliced_body {i : Instr} {x} {d a : VReg} {S : State} (hgrp : S.h.group = none) (hr : S.h.resume = none) (hs : isSliced S.h.fmt = true)
    (hv : VecReady x true [d, a] [0] S) : vmovBody i x d a 0 S = .done (S.wakeLanes.modH (copyBlocks d a)) := by
  have hup : NoUpset S.wakeLanes := by unfold NoUpset; rw [wakeLanes_upsets]; exact hv.steady
  have hv' : VecReady x (isArith S.h.fmt || isSliced S.h.fmt && (0 : MReg) == 0) [d, a] [0] S :=
    ⟨by rw [hs]; simp, hv.offsets, hv.declared, hv.short, hv.onChip, hv.steady, hv.whole⟩
  unfold vmovBody
  dsimp only
  rw [legalReads_eq hv' (fun q hq => absurd hq List.not_mem_nil)]
  simp only [wakeLanes_h, hs, hgrp, Option.isNone_none, Bool.and_self, if_true]
  unfold wordsBody checkedWhole
  rw [checked_eq hup]
  dsimp only
  have h0 : S.wakeLanes.h.firstStripe = 0 := by rw [wakeLanes_h]; unfold Hart.firstStripe; rw [hr]; rfl
  have hf : (S.wakeLanes.modH fun h => stripesOf d h.firstStripe 128 (copyBlocks d a) h) = S.wakeLanes.modH (copyBlocks d a) := by
    have hs : stripesOf d S.wakeLanes.h.firstStripe 128 (copyBlocks d a) S.wakeLanes.h = copyBlocks d a S.wakeLanes.h := by
      unfold stripesOf
      exact if_pos ⟨h0, le_refl _⟩
    exact congrArg (fun h => (S.wakeLanes.modH fun _ => h)) hs
  exact congrArg Res.done hf

theorem vmovScalar_body {i : Instr} {x} {d : VReg} {c : SReg} {m : MReg} {S : State}
    (hvp : S.h.vp = none) (hr : S.h.resume = none)
    (hv : VecReady x (isArith S.h.fmt) [d] [m] S) (hmc : S.h.maskClean m) :
    vmovScalarBody i x d c m S = .done (elementwise d S.h.layout (S.h.on m (maskInv x)) (fun _ => ((S.h.sreg c).toNat % 2 ^ width S.h.fmt, 0)) (fun _ => allBad (S.h.sPoison c)) S) := by
  have hgrp : S.h.group = none := by unfold Hart.group; rw [hvp]; rfl
  have hup : NoUpset S.wakeLanes := by unfold NoUpset; rw [wakeLanes_upsets]; exact hv.steady
  unfold vmovScalarBody
  dsimp only
  rw [legalVec_eq hv, checked_eq hup]
  rw [Plan.run_eq (on := fun e => S.h.maskBit m e != (m != 0 && maskInv x)) (c := fun _ => (S.h.sreg c).toNat % 2 ^ width S.h.fmt) (f := fun _ => 0) (q := fun _ => allBad (S.h.sPoison c)) (b := fun _ => false)]
  · simp only [wakeLanes_h]
    rfl
  · rw [wakeLanes_h]; exact hv.whole
  · rw [wakeLanes_h]; exact hr
  · rw [wakeLanes_h]; exact hgrp
  · intro e he
    rw [wakeLanes_h] at he ⊢
    exact active_eq hgrp hmc e he
  · rw [wakeLanes_h]
    intro e hel
    refine ⟨?_, Nat.zero_and _⟩
    dsimp only
    rw [operand_eq hvp, operandPoison_eq hvp]
    rfl

theorem vidx_body {i : Instr} {x} {d : VReg} {st : BitVec 10} {sp : BitVec 8} {S : State}
    (hgrp : S.h.group = none) (hr : S.h.resume = none)
    (hv : VecReady x (isInt S.h.fmt) [d] [] S) :
    vidxBody i x d st sp S = .done (elementwise d S.h.layout (List.range S.h.vl) (fun e => (codeOf (width S.h.fmt) (st.toInt + e * sp.toInt), 0)) (t := S)) := by
  have hup : NoUpset S.wakeLanes := by unfold NoUpset; rw [wakeLanes_upsets]; exact hv.steady
  unfold vidxBody
  dsimp only
  rw [legalVec_eq hv, checked_eq hup]
  rw [Plan.run_eq (on := fun _ => true) (c := fun e => codeOf (width S.h.fmt) (st.toInt + e * sp.toInt)) (f := fun _ => 0) (q := fun _ => 0) (b := fun _ => false)]
  · simp only [wakeLanes_h, filter_all]
    rfl
  · rw [wakeLanes_h]; exact hv.whole
  · rw [wakeLanes_h]; exact hr
  · rw [wakeLanes_h]; exact hgrp
  · intro e he
    rw [wakeLanes_h] at he ⊢
    unfold Hart.active
    rw [hgrp]
    rfl
  · rw [wakeLanes_h]
    intro e hel
    exact ⟨rfl, Nat.zero_and _⟩

theorem mask_body {i : Instr} {x d ms rs} {f : Hart → Nat → Bool} {src : Nat → Option Nat} {S : State} {g : Nat → Bool}
    (hvp : S.h.vp = none) (hr : S.h.resume = none)
    (hv : VecReady x (d != 0) [] (d :: ms) S) (hm : ∀ m ∈ ms, S.h.maskClean m) (hc : Clean rs S)
    (hsrc : ∀ e k, src e = some k → k ≤ e) (hf : ∀ e, f S.h e = g e) :
    maskBody i x d ms rs f S src = .done (bitwise d (List.range S.h.vl) g (fun _ => 0) S) := by
  have hgrp : S.h.group = none := by unfold Hart.group; rw [hvp]; rfl
  have hup : NoUpset S.wakeLanes := by unfold NoUpset; rw [wakeLanes_upsets]; exact hv.steady
  have hcl : Clean rs S.wakeLanes := by intro r h; rw [wakeLanes_h]; exact hc r h
  have hfm : S.wakeLanes.h.forMask d = S.h := by rw [wakeLanes_h]; unfold Hart.forMask; rw [hr]
  unfold maskBody
  rw [legalVec_eq hv, withClean_eq (by rw [wakeLanes_h]; exact hvp) hcl, checked_eq hup]
  dsimp only
  rw [hfm]
  rw [Plan.run_eq (on := fun _ => true) (c := fun _ => 0) (f := fun _ => 0) (q := fun _ => 0) (b := g)]
  · simp only [wakeLanes_h, filter_all]
    rfl
  · rw [wakeLanes_h]; exact hv.whole
  · rw [wakeLanes_h]; exact hr
  · rw [wakeLanes_h]; exact hgrp
  · intro e he
    unfold Hart.active
    rw [hgrp]; rfl
  · rw [wakeLanes_h, filter_all]
    intro e hel
    refine ⟨?_, Nat.zero_and _⟩
    have : ms.findSome? (fun m => (src e).bind (S.h.maskPoison m)) = none := by
      rw [List.findSome?_eq_none_iff]
      intro m hm'
      cases hk : src e with
      | none => rfl
      | some k => exact hm m hm' _ (lt_of_le_of_lt (hsrc e k hk) (by simpa using hel))
    dsimp only
    rw [this, hf]

theorem elems_none {h : Hart} (hg : h.group = none) : h.elems = List.range h.vl := by
  unfold Hart.elems; rw [hg]

theorem move_run {i : Instr} {d : VReg} {S : State} {p : Plan} {u : Nat → Nat} {z : Nat → Option (PLoc × Bad)} {on : Nat → Bool}
    (hgrp : S.h.group = none) (hr : S.h.resume = none) (hw : S.h.single = false)
    (ha : ∀ e < S.h.vl, p.act e = .ok (on e))
    (hf : ∀ e ∈ (List.range S.h.vl).filter on, p.f e = .val (u e) 0 (badOf (z e)) false)
    (hput : p.put = putReg d S.h.layout) (hfree : p.frees = []) (hpurse : p.purse = 0) :
    p.run none S.wakeLanes = .done (elementwise d S.h.layout ((List.range S.h.vl).filter on) (fun e => (u e, 0)) (fun e => badOf (z e)) S) := by
  rw [Plan.run_eq (on := on) (c := u) (f := fun _ => 0) (q := fun e => badOf (z e)) (b := fun _ => false)]
  · simp only [wakeLanes_h, hput, hfree, hpurse]
    rfl
  · rw [wakeLanes_h]; exact hw
  · rw [wakeLanes_h]; exact hr
  · rw [wakeLanes_h]; exact hgrp
  · rw [wakeLanes_h]; exact ha
  · rw [wakeLanes_h]
    intro e he
    exact ⟨hf e he, Nat.zero_and _⟩

theorem filter_lt (n k : Nat) : (List.range n).filter (fun e => decide (e < k)) = List.range (Nat.min n k) := by
  induction n with
  | zero => simp
  | succ n ih =>
    rw [List.range_succ, List.filter_append, ih]
    by_cases h : n < k
    · have h1 : Nat.min n k = n := by show min n k = n; omega
      have h2 : Nat.min (n + 1) k = n + 1 := by show min (n+1) k = n+1; omega
      rw [h1, h2, List.range_succ]; simp [h]
    · have h1 : Nat.min (n + 1) k = Nat.min n k := by show min (n+1) k = min n k; omega
      rw [h1]; simp [h]

theorem arr_getD (l : List Nat) (e d : Nat) : l.toArray.getD e d = l.getD e d := by
  by_cases h : e < l.length <;> simp [Array.getD, List.getD, h]

/-! What the manual's tables give. -/

/-- The value of an integer code (R63). -/
theorem intOf_eq_val {f : Fmt} {c : Nat} (hc : c < 2 ^ width f) : intOf f c = Spec.val f c := by
  unfold intOf Spec.val Spec.neg signedOf
  rw [Nat.mod_eq_of_lt hc]
  cases isSigned f
  · simp
  · by_cases h : 2 ^ (width f - 1) ≤ c
    · simp [h, Nat.not_lt.2 h]
    · simp [h, Nat.lt_of_not_le h]

/-- An exact integer delivered (R76). -/
theorem deliverInt_eq_fit (f : Fmt) (sat : Bool) (v : Int) : deliverInt f sat v = Spec.fit f sat v := by
  unfold deliverInt Spec.fit
  cases f <;> rfl

/-- VCMP on integers (Table 15-9). -/
theorem condI_eq_comparison {c : VCond} {f : Fmt} {ftz : Bool} {a b : Nat} (hf : isFloat f = false) (ha : a < 2 ^ width f)
    (hb : b < 2 ^ width f) : (condI c (intOf f a) (intOf f b), 0) = Spec.comparison c f ftz a b := by
  unfold Spec.comparison
  rw [hf, intOf_eq_val ha, intOf_eq_val hb]
  cases c <;> rfl
end Sys2Proof.Machine
end

