-- ==== Sys2Proof/Laws/Walks.lean ====
section
/-! SUPPORT. What a walk answers within one leaf, and the pages of a backing area (R104). -/

namespace Sys2Proof.Machine

theorem div_pow_eq {a b i j : Nat} (h : a / 2 ^ i = b / 2 ^ i) (hij : i ≤ j) : a / 2 ^ j = b / 2 ^ j := by
  obtain ⟨k, rfl⟩ := Nat.exists_eq_add_of_le hij
  rw [Nat.pow_add, ← Nat.div_div_eq_div_mul, ← Nat.div_div_eq_div_mul, h]

/-- Addresses under one leaf of level `k` choose the same entries down to that level. -/
theorem entryAt_eq {va va' l k t : Nat} (h : va' / 2 ^ (48 - 9 * k) = va / 2 ^ (48 - 9 * k)) (hl : l ≤ k) :
    entryAt va' l t = entryAt va l t := by
  unfold entryAt bitsOf
  rw [div_pow_eq h (by omega : 48 - 9 * k ≤ 48 - 9 * l)]

/-- A leaf answers every address that it maps, each at its place in the frame. -/
theorem walkFrom_leaf {s : State} {va : Nat} {e : Word} {size : Nat} {qs : List Nat} :
    ∀ (ls : List Nat) (t : Nat) (ps : List Nat) (pa : Nat), ls.Pairwise (· < ·) → (∀ l ∈ ls, l ≤ 4) →
      walkFrom s va ls t ps = .leaf pa e size qs →
      (∃ k ∈ ls, size = 2 ^ (48 - 9 * k)) ∧ ∃ frame, frame % size = 0 ∧ ∀ va', va' / size = va / size →
        walkFrom s va' ls t ps = .leaf (frame + va' % size) e size qs
  | [], _, _, _, _, _, h => by simp [walkFrom] at h
  | l :: ls, t, ps, pa, hp, hl, h => by
    have hl4 := hl l (List.mem_cons_self ..)
    obtain ⟨hlt, hp⟩ := List.pairwise_cons.mp hp
    unfold walkFrom at h
    dsimp only at h
    split at h
    · cases h
    · rename_i hw
      split at h
      · cases h
      · rename_i hpo
        split at h
        · cases h
        · rename_i hv
          split at h
          · rename_i hptr
            split at h
            · cases h
            · rename_i next hn
              split at h
              · cases h
              · rename_i h4
                obtain ⟨⟨k, hk, rfl⟩, frame, hf, hall⟩ := walkFrom_leaf ls next _ pa hp (fun l hm => hl l (List.mem_cons_of_mem _ hm)) h
                refine ⟨⟨k, List.mem_cons_of_mem _ hk, rfl⟩, frame, hf, fun va' hva => ?_⟩
                unfold walkFrom
                dsimp only
                rw [entryAt_eq hva (hlt k hk).le, if_neg hw, if_neg hpo, if_neg hv, if_pos hptr, hn]
                dsimp only
                rw [if_neg h4]
                exact hall va' hva
          · rename_i hptr
            split at h
            · cases h
            · rename_i h2
              split at h
              · cases h
              · rename_i hok
                cases h
                have hs : 12 + 9 * (4 - l) = 48 - 9 * l := by omega
                refine ⟨⟨l, List.mem_cons_self .., by rw [hs]⟩, bitsOf (s.mem.home64 (entryAt va l t)).toNat 51 12 * 4096, ?_,
                  fun va' hva => ?_⟩
                rotate_left
                · unfold walkFrom
                  dsimp only
                  rw [hs] at hva
                  rw [entryAt_eq (k := l) (t := t) hva le_rfl, if_neg hw, if_neg hpo, if_neg hv, if_neg hptr, if_neg h2,
                    if_neg hok]
                · simp only [Bool.not_eq_true, Bool.or_eq_false_iff, bne_eq_false_iff_eq] at hok
                  exact hok.2

/-- A whole walk in the same way. -/
theorem walk_leaf {s : State} {cid : BitVec 12} {va pa : Nat} {e : Word} {size : Nat} {qs : List Nat}
    (h : walk s cid va = .leaf pa e size qs) :
    (∃ k ≤ 4, size = 2 ^ (48 - 9 * k)) ∧ ∃ frame, frame % size = 0 ∧ ∀ va', va' / size = va / size →
      walk s cid va' = .leaf (frame + va' % size) e size qs := by
  unfold walk at h ⊢
  split at h
  · cases h
  · split at h
    · cases h
    · split at h
      · cases h
      · obtain ⟨⟨k, hk, hs⟩, frame, hf, hall⟩ := walkFrom_leaf _ _ _ _ (by decide) (by decide) h
        refine ⟨⟨k, (by decide : ∀ k ∈ [0, 1, 2, 3, 4], k ≤ 4) k hk, hs⟩, frame, hf, fun va' hva => ?_⟩
        rw [if_neg ‹_›, if_neg ‹_›]
        exact hall va' hva

theorem Walk.page_leaf {pa size : Nat} {e : Word} {ps : List Nat} {a : Nat} :
    (Walk.leaf pa e size ps).page = some a ↔ leafKind e ≠ 2 ∧ a = pa / 4096 * 4096 := by
  unfold Walk.page
  split <;> simp_all [eq_comm]

theorem Walk.page_iff {w : Walk} {a : Nat} :
    w.page = some a ↔ ∃ p e size ps, w = .leaf p e size ps ∧ leafKind e ≠ 2 ∧ a = p / 4096 * 4096 := by
  cases w with
  | leaf p e size ps => simp [Walk.page_leaf]
  | fault => simp [Walk.page]
  | poisoned _ => simp [Walk.page]
  | wait => simp [Walk.page]

/-- Under one leaf, page `n` of an area is where its own walk leads. -/
theorem page_in_leaf {s : State} {cid : BitVec 12} {base n : Nat} (h : (walk s cid base).mapsArea base = true) (hn : n < 32) :
    (walk s cid (base + 4096 * n)).page = (walk s cid base).page.map (· + 4096 * n) := by
  cases hw : walk s cid base with
  | fault => simp [hw, Walk.mapsArea] at h
  | poisoned _ => simp [hw, Walk.mapsArea] at h
  | wait => simp [hw, Walk.mapsArea] at h
  | leaf pa e size ps =>
    obtain ⟨⟨k, hk, hs⟩, frame, hf, hall⟩ := walk_leaf hw
    have hd : base / size = (base + 4096 * 31) / size := by simpa [hw, Walk.mapsArea] using h
    have hpos : 0 < size := by rw [hs]; positivity
    have hn' : (base + 4096 * n) / size = base / size :=
      le_antisymm (hd ▸ Nat.div_le_div_right (by omega)) (Nat.div_le_div_right (by omega))
    have h0 := hall base rfl
    rw [hw] at h0
    cases h0
    rw [hall _ hn']
    have e1 := Nat.div_add_mod base size
    have e2 := Nat.div_add_mod (base + 4096 * n) size
    rw [hn'] at e2
    have hmod : (base + 4096 * n) % size = base % size + 4096 * n := by omega
    simp only [Walk.page]
    split
    · rfl
    · rw [hmod, Option.map_some]
      exact congrArg some (by omega)

/-- R104: where no walk waits for a link, the pages of a backing area are those that the walks of its pages reach. -/
theorem mem_backingPages {s : State} {cid : BitVec 12} {base a : Nat} {old : List Nat}
    (hw : ∀ n < 32, walk s cid (base + 4096 * n) ≠ .wait) :
    a ∈ backingPages s cid base old ↔ ∃ n < 32, (walk s cid (base + 4096 * n)).page = some a := by
  unfold backingPages
  dsimp only
  split
  · rename_i h
    simp only [List.mem_filterMap, List.mem_range]
    exact exists_congr fun n => and_congr_right fun hn => by rw [page_in_leaf h hn]
  · rw [if_neg]
    · simp [List.mem_filterMap]
    · simpa [List.contains_iff_mem] using hw

end Sys2Proof.Machine
end

