-- ==== Sys2Proof/Tests/Slice0.lean ====
section
/-! SUPPORT. The tests: terms that the checks refuse, words written out from the manual's tables, and a state and operands
that meet the hypotheses of each statement. -/

namespace Sys2Proof.Tests

open Machine

-- One theorem after another: each of many small kernel checks would take a thread of its own.
set_option Elab.async false

/-! WellFormed refuses a term for each check. -/

/-- An operand modifier with nothing in it. -/
def noOp : OpMod := ⟨none, none, false, false, false, false⟩

/-- A memory modifier with nothing in it. -/
def noMem : MemMod := ⟨false, .none, .dev, 0⟩

/-- Forms that the checks take: with tokens, F, queues, an acquire, a release, NTF, an extension, offsets, TILE, IMMX. -/
theorem test_wellFormed_takes :
    ∀ i ∈ [Instr.add .plain 1 2 3, .vadd { opm := some { noOp with tw := some 2, tp := some 0, f := true } } 1 2 3 4 false,
      .vadd { opm := some { noOp with q1 := true, q2 := true } } 1 3 3 0 false,
      .vld { opm := some { noOp with qd := true }, memm := some { noMem with ord := true, sem := .acq } } 3 5 0,
      .vst { memm := some { noMem with sem := .rel, scope := .sys, ntf := 7 } } 1 5 0,
      .vldb { ext := some (63 * 64) } 1 2 3 0, .vldbS2c { ext := some (31 * 64 + 3) } 1 2 3 0, .amsg { ext := some 255 } 1 2 3,
      .vadd { ofs := some ⟨7, 8, 0, 0, 0, 1⟩, crit := true } 1 2 3 0 false, .mop { tile := some ⟨3, 0, 0⟩ } 1 2,
      .mrow { tile := some ⟨3, 9, 3⟩ } 4 1 2, .addi { immx := some 0xFFFFFF } 1 2 3, .setsh .plain 1 9 .const .xm],
      i.wellFormed = true := by decide

/-- R261: a token FIFO from or to the instruction's own queue. -/
theorem test_wellFormed_ownQueue :
    (Instr.add { opm := some { noOp with tw := some 0 } } 1 2 3).wellFormed = false ∧
    (Instr.vadd { opm := some { noOp with tp := some 1 } } 1 2 3 0 false).wellFormed = false := by decide

/-- R261: F where no mask is read; QD, Q1 and Q2 where the instruction does not admit them; a queue number above 3. -/
theorem test_wellFormed_operandModifier :
    ∀ i ∈ [Instr.vadd { opm := some { noOp with f := true } } 1 2 3 0 false, .add { opm := some { noOp with f := true } } 1 2 3,
      .vst { opm := some { noOp with qd := true } } 1 2 0, .vperm { opm := some { noOp with q1 := true } } 1 2 3 0,
      .vadd { opm := some { noOp with q2 := true } } 1 2 3 0 true, .vadd { opm := some { noOp with q1 := true } } 1 4 3 0 false,
      .vld { opm := some { noOp with qd := true } } 4 2 0], i.wellFormed = false := by decide

/-- R262: an empty modifier; a scope with neither SEM nor NTF; ORD, an acquire, a release or NTF where it has no place. -/
theorem test_wellFormed_memoryModifier :
    ∀ i ∈ [Instr.vld { memm := some noMem } 1 2 0, .vld { memm := some { noMem with ord := true, scope := .sys } } 1 2 0,
      .vldb { ext := some 0, memm := some { noMem with ord := true } } 1 2 3 0, .vst { memm := some { noMem with sem := .acq } } 1 2 0,
      .vld { memm := some { noMem with sem := .rel } } 1 2 0, .vld { memm := some { noMem with ntf := 1 } } 1 2 0,
      .vred { memm := some { noMem with sem := .acqrel } } 1 2 0], i.wellFormed = false := by decide

/-- R263, R259, R47, R88: an extension, CRIT, offsets, TILE and IMMX out of place, or missing, or with a bit out of place. -/
theorem test_wellFormed_rest :
    ∀ i ∈ [Instr.vldb .plain 1 2 3 0, .vldb { ext := some 1 } 1 2 3 0, .vldbS2c { ext := some 4 } 1 2 3 0, .amsg { ext := some 256 } 1 2 3,
      .vld { ext := some 0 } 1 2 0, .ld { crit := true } 1 2 0 .d, .vadd { ofs := some ⟨0, 0, 0, 1, 0, 0⟩ } 1 2 3 0 true,
      .vadd { ofs := some ⟨1, 0, 0, 0, 0, 0⟩, opm := some { noOp with q1 := true } } 1 2 3 0 false,
      .vperm { ofs := some ⟨1, 0, 0, 0, 0, 0⟩ } 1 2 3 0, .mop .plain 1 2, .mop { tile := some ⟨0, 1, 0⟩ } 1 2,
      .mrow .plain 4 1 2, .vadd { tile := some ⟨0, 0, 0⟩ } 1 2 3 0 false, .lih { immx := some 0 } 1 0,
      .setsh .plain 1 9 .zero .xm, .addi .plain 0 0 1, .hint .plain 0, .cmdLaunch], i.wellFormed = false := by decide

/-! Decoding: words written out from the tables of chapter 13 and of the instruction pages. -/

/-- Class 000 and 001 and the compressed words. -/
theorem test_decode_scalar :
    ∀ p ∈ ([(32, 0x028C397F, .div .plain 5 6 7), (32, 0x0281FFE3, .addi .plain 5 0 (-1)), (32, 0x22841063, .ld .plain 5 2 8 .d),
      (32, 0x20800207, .jal .plain 1 16), (32, 0x228C011B, .bltn .plain 5 6 8), (16, 0x0001, .caddi 0 0)] :
      List (Nat × Nat × Instr)), decodeTableWord p.1 p.2.1 = some p.2.2 := by decide +kernel

/-- Class 010 and 011. -/
theorem test_decode_vector :
    ∀ p ∈ ([(32, 0x490828A3, .vcmp .plain .lt 2 4 5 0 false), (32, 0x6084180F, .mand .plain 1 2 3),
      (32, 0x610280FB, .vcvt .plain 2 1 .fp32 0 .dyn), (32, 0x60841823, .vperm .plain 1 2 3 0),
      (32, 0x603000E3, .vbsl .plain 0 24), (32, 0x6102000B, .vrsum .plain 2 1 0)] :
      List (Nat × Nat × Instr)), decodeTableWord p.1 p.2.1 = some p.2.2 := by decide +kernel

/-- Class 100 and 101. -/
theorem test_decode_memory_matrix :
    ∀ p ∈ ([(32, 0x808A105F, .vredIndexed .plain 1 5 2 0), (32, 0x800000C7, .tkclr .plain),
      (32, 0xA0002003, .msetm .plain .m16), (32, 0xA0125083, .cecopy .plain 9 10), (32, 0xA00E02A3, .bar .plain 7 .pod)] :
      List (Nat × Nat × Instr)), decodeTableWord p.1 p.2.1 = some p.2.2 := by decide +kernel

/-- Class 110. -/
theorem test_decode_system :
    ∀ p ∈ ([(32, 0xC300000F, .csrr .plain 6 .vl), (32, 0xC28C3873, .amo .plain 5 6 7 .add .d), (32, 0xC000001F, .sysc .plain),
      (32, 0xC000005F, .exit .plain), (32, 0xC280787F, .fence .plain .sys 15)] :
      List (Nat × Nat × Instr)), decodeTableWord p.1 p.2.1 = some p.2.2 := by decide +kernel

/-! Checks that decide the hypotheses on a state. -/

/-- The checks of `Issues`. -/
def issues? (i : Instr) (s : State) : Bool :=
  s.h.status == .running && s.h.vp.isNone && s.h.resume.isNone && (s.heldOf s.h).isEmpty && s.h.ahead.isEmpty &&
    (i.effect == .internal || !s.stuck) && (popFifo i.stack i.adm.queue).all (fun f => s.h.tokens.getD f 0 != 0) &&
    (pushFifo i.stack i.adm.queue).all (issued i s).h.hasPlace

theorem issues_of {i : Instr} {s : State} (h : issues? i s = true) : Issues i s := by
  simp only [issues?, Bool.and_eq_true, beq_iff_eq, Option.isNone_iff_eq_none, List.isEmpty_iff, Option.all_eq_true,
    bne_iff_ne, Bool.or_eq_true, Bool.not_eq_true'] at h
  exact ⟨h.1.1.1.1.1.1.1, h.1.1.1.1.1.1.2, h.1.1.1.1.1.2, h.1.1.1.1.2, h.1.1.1.2, h.1.1.2, h.1.2, h.2⟩

theorem clean_of {rs : List SReg} {s : State} (h : rs.all (fun r => !s.h.sPoison r) = true) : Clean rs s := by
  intro r hr
  simpa using List.all_eq_true.mp h r hr

/-- The checks of `VecReady`. -/
def vecReady? (x : Stack) (ok : Bool) (regs : List VReg) (masks : List MReg) (s : State) : Bool :=
  ok && (!isSliced s.h.fmt || !x.ofs.any Ofs.nonZero) && regs.all (fun r => decide (r.val < s.h.nreg)) &&
    (decide (s.h.vl ≤ 65536) || masks.all (· == 0)) && s.h.offChip.isEmpty && s.upsets.isEmpty && !s.h.single

theorem vecReady_of {x : Stack} {ok : Bool} {regs : List VReg} {masks : List MReg} {s : State}
    (h : vecReady? x ok regs masks s = true) : VecReady x ok regs masks s := by
  simp only [vecReady?, Bool.and_eq_true, Bool.or_eq_true, List.all_eq_true, decide_eq_true_eq, List.isEmpty_iff,
    Bool.not_eq_true', beq_iff_eq] at h
  obtain ⟨⟨⟨⟨⟨⟨h1, h2⟩, h3⟩, h4⟩, h5⟩, h6⟩, h7⟩ := h
  exact ⟨h1, fun hs => h2.resolve_left (by simp [hs]), h3, h4, h5, h6, h7⟩

/-- The code that a read gives. -/
def codeOfRead : RRes → Nat
  | .code c _ _ => c
  | .shell => 0

/-- A read gives a clean code. -/
def gives? : RRes → Bool
  | .code _ _ p => p.isNone
  | .shell => false

theorem gives_of {r : RRes} (h : gives? r = true) : r.gives (codeOfRead r) := by
  cases r with
  | shell => cases h
  | code c o p => exact ⟨o, by rw [show p = none from Option.isNone_iff_eq_none.mp h]; rfl⟩

theorem code_of {r : RRes} (h : gives? r = true) : ∃ g, r = .code (codeOfRead r) g none := gives_of h

/-- The place that a probe finds. -/
def placeOf : Probe → Phys
  | .ok p => p
  | _ => ⟨0, false, false, false, 0⟩

/-- A probe finds a place. -/
def placed? : Probe → Bool
  | .ok _ => true
  | _ => false

theorem placed_of {p : Probe} (h : placed? p = true) : p = .ok (placeOf p) := by
  cases p <;> first | rfl | cases h

/-- The checks of `Placed`. -/
def allPlaced? (need : Need) (align : Nat) (es : List Nat) (addr : Nat → Int × Nat) (s : State) : Bool :=
  es.all (fun e => (addr e).2 == 0 || placed? (probe s need (addr e).1 (addr e).2 align)) && s.h.xfers.isEmpty

theorem allPlaced_of {need : Need} {align : Nat} {es : List Nat} {addr : Nat → Int × Nat} {s : State}
    (h : allPlaced? need align es addr s = true) :
    Placed need align es addr (fun e => placeOf (probe s need (addr e).1 (addr e).2 align)) s := by
  simp only [allPlaced?, Bool.and_eq_true, List.all_eq_true, Bool.or_eq_true, beq_iff_eq, List.isEmpty_iff] at h
  exact ⟨fun e he h0 => placed_of ((h.1 e he).resolve_left h0), h.2⟩

/-- The checks of `Reaches`. -/
def reaches? (need : Need) (va : Int) (n : Nat) (s : State) : Bool :=
  placed? (probe s need va n n) && s.h.xfers.isEmpty && !s.inBacking va.toNat n

theorem reaches_of {need : Need} {va : Int} {n : Nat} {s : State} (h : reaches? need va n s = true) :
    Reaches need va n (placeOf (probe s need va n n)) s := by
  simp only [reaches?, Bool.and_eq_true, List.isEmpty_iff, Bool.not_eq_true'] at h
  exact ⟨placed_of h.1.1, h.1.2, h.2⟩

/-! States. -/

/-- A privileged hart that runs, with memory mapped; a scalar register reads 16 times its number, above 0x800000. -/
def base : State :=
  let s := State.reset.withFetchWord 32 3
  { s with h := { s.h with sregs := Vector.ofFn fun r : SReg => if r.val = 0 then 0 else wd (0x800000 + 16 * r.val) } }

/-- The same with a scalar register at a value. -/
def withS (rs : List (SReg × Word)) (s : State) : State :=
  rs.foldl (fun s r => { s with h := { s.h with sregs := s.h.sregs.set r.1 r.2 } }) s

/-- The words of registers 1 to 5 that hold the first three elements, in a format of 32 bits: element `e` at code `e`. -/
def cells : List VCell := [1, 2, 3, 4, 5].flatMap fun r => [⟨8192 * r, 0, false⟩, ⟨8192 * r + 128, 1, false⟩, ⟨8192 * r + 256, 2, false⟩]

/-- The same hart with one lane cluster, `vl` elements of format `f`, and bits in every mask. -/
def vec (f : Fmt) (vl : Nat) : State :=
  { base with h := { base.h with lcs := 1, vl := vl, fmt := f, nregc := .n8, masks := Vector.replicate 8 5, vregs := cells } }

/-- An open instruction, with nothing kept. -/
def openOf (pc : Word) (i : Instr) (n : Nat) : OpenInstr := ⟨pc, i, n, [], 0, [], [], 0⟩

/-- A place in memory. -/
def memAt (pa : Nat) : Phys := ⟨pa, false, false, false, 0⟩

/-- The machine of `base` with a change to the hart. -/
def onH (s : State) (f : Hart → Hart) : State := { s with h := f s.h }

/-- The machine of `base` with a change outside the hart. -/
def onSys (s : State) (f : Sys → Sys) : State := { s with sys := f s.sys }

/-- A form that pops a token of queue 2 and pushes one to queue 1, and the tokens that it needs. -/
def tokX : Stack := { opm := some { noOp with tw := some 2, tp := some 1 } }

/-- The machine of `base` with one token in the FIFO from queue 2 to queue 0. -/
def tokBase : State := onH base fun h => { h with tokens := h.tokens.set 10 1 }

/-! Witnesses: for each statement, a state and operands that meet its hypotheses, clause by clause. -/

/-- Every form without a modifier issues on `base`. -/
theorem base_issues {i : Instr} (h : i.stack = .plain) : Issues i base := by
  refine ⟨rfl, rfl, rfl, by decide +kernel, rfl, .inr (by decide +kernel), ?_, ?_⟩ <;> intro f hf <;> rw [h] at hf <;> cases hf

/-- The same for a hart with vector state. -/
theorem vec_issues {i : Instr} {f : Fmt} {n : Nat} (h : i.stack = .plain) : Issues i (vec f n) := by
  refine ⟨rfl, rfl, rfl, rfl, rfl, .inr ?_, ?_, ?_⟩
  · exact Bool.or_eq_false_iff.mpr ⟨rfl, Bool.and_eq_false_iff.mpr (.inr (by simp [vec, base, State.withFetchWord, State.reset]))⟩
  all_goals
    intro g hg
    rw [h] at hg
    cases hg

/-- ScalarTwoSourceResults: for each instruction, with two registers and with sd = s0. -/
theorem witness_scalarTwo : ∀ p ∈ Spec.two, ∀ d, Issues (p.1 .plain d 6 7) base ∧ Clean [6, 7] base ∧ NoUpset base := by
  intro p hp d
  refine ⟨base_issues ?_, clean_of rfl, rfl⟩
  simp only [Spec.two, List.mem_cons, List.not_mem_nil, or_false] at hp
  rcases hp with rfl | rfl | rfl | rfl | rfl | rfl | rfl | rfl | rfl | rfl | rfl | rfl | rfl | rfl | rfl | rfl | rfl | rfl |
    rfl | rfl | rfl <;> rfl

/-- ScalarOneSourceResults, HintsChangeNothing: each clause asks no more than this. -/
theorem witness_scalarOne : (∀ i ∈ [Instr.clz .plain 1 2, .popc .plain 1 2, .shli .plain 1 2 63, .shri .plain 1 2 0,
    .srai .plain 1 2 63, .addi .plain 1 2 0x800, .andi .plain 1 2 0, .ori .plain 1 2 0, .xori .plain 1 2 0, .slti .plain 1 2 0,
    .lih .plain 1 0x20000, .adpc .plain 1 0x3FFFF, .caddi 1 32, .cli 1 31, .cmov 1 2, .cadd 1 2, .csub 1 2,
    .hint .plain 1, .nop .plain, .clz .plain 0 2], Issues i base) ∧ Clean [2, r32 1, r32 2] base ∧ NoUpset base := by
  refine ⟨fun i hi => issues_of ?_, clean_of rfl, rfl⟩
  revert i
  decide +kernel

/-- The same for a form with tokens: it pops from queue 2 and pushes to queue 1. -/
theorem witness_tokens : Issues (.addi tokX 1 2 3) tokBase ∧ (Instr.addi tokX 1 2 3).wellFormed = true :=
  ⟨issues_of (by decide +kernel), by decide⟩

/-- BranchesGoWhereTheySay: taken and not taken; JumpsLinkAndGo: an even and an odd target. -/
theorem witness_branches : (∀ i ∈ [Instr.beq .plain 1 2 4, .bne .plain 1 2 4, .blt .plain 1 2 4, .bge .plain 1 2 4,
    .bltn .plain 1 2 4, .bgen .plain 1 2 4, .cbeqz 1 4, .cbnez 1 4, .cj 4, .jal .plain 1 4, .jalr .plain 1 2 0, .jalr .plain 1 2 1],
    Issues i base) ∧ Clean [1, 2, r32 1] base ∧ base.h.sreg 1 ≠ base.h.sreg 2 ∧ base.h.sreg 1 = base.h.sreg 1 ∧
    (base.h.sreg 1).toInt < (base.h.sreg 2).toInt ∧ base.h.sreg (r32 1) ≠ 0 ∧
    (base.h.sreg 2 + (0 : BitVec 8).signExtend 64) % 2 = 0 ∧ (base.h.sreg 2 + (1 : BitVec 8).signExtend 64) % 2 = 1 := by
  refine ⟨fun i hi => issues_of ?_, clean_of rfl, by decide, rfl, by decide, by decide, by decide, by decide⟩
  revert i
  decide +kernel

/-- ScalarLoadsRead, ScalarStoresWrite, ScalarAtomicsUpdate: each size, at a place that is aligned for it. -/
theorem witness_scalarMemory :
    (∀ i ∈ [Instr.ld .plain 1 2 0xF8 .d, .ldaq .plain 1 2 .sys .d, .cldw 1 2 31, .cldd 1 2 31, .st .plain 1 2 0xF8 .d,
      .strl .plain 1 2 .sys .d, .cstw 1 2 31, .cstd 1 2 31, .amo .plain 1 2 3 .add .d, .cas .plain 1 2 3 .d], Issues i base) ∧
    Clean [1, 2, 3, r8 1, r8 2] base ∧
    (∀ z : Sz, ∃ p q r, Reaches needLd (base.readN 2 + (0xF8 : BitVec 8).toInt) (szBytes z) p base ∧
      Reaches needSt (base.readN 2 + (0xF8 : BitVec 8).toInt) (szBytes z) q base ∧
      Reaches needAtomic (base.readN 2) (szBytes z) r base) ∧
    (∃ p q, Reaches needLd (base.readN (r8 2) + (8 * 31 : Nat)) 8 p base ∧
      Reaches needSt (base.readN (r8 2) + (4 * 31 : Nat)) 4 q base) := by
  refine ⟨fun i hi => issues_of ?_, clean_of rfl, fun z => ?_, _, _, reaches_of (by decide +kernel), reaches_of (by decide +kernel)⟩
  · revert i
    decide +kernel
  · cases z <;> exact ⟨_, _, _, reaches_of (by decide +kernel), reaches_of (by decide +kernel), reaches_of (by decide +kernel)⟩

theorem base_alone : base.placedOnce ∧ (∀ h ∈ base.rest, h.core = base.h.core → h.status = .absent) :=
  ⟨fun h hh => absurd hh (by simp [base, State.withFetchWord]), fun h hh => absurd hh (by simp [base, State.withFetchWord])⟩

/-- ScalarInstructionsLeaveTheRest: memory is in its form, the place is in memory and meets no backing area, and the store completes;
a register operation completes, and one with sd = s0. -/
theorem witness_scalarFrames : base.mem.Formed ∧ base.placedOnce ∧ base.h.ptStores = 0 ∧
    (let p := placeOf (probe base needSt (base.readN 2 + (8 : BitVec 8).toInt) (szBytes .d) (szBytes .d))
     base.holds p ∧ base.backed p.pa 8 = false ∧ Reaches needSt (base.readN 2 + (8 : BitVec 8).toInt) 8 p base) ∧
    Issues (.st .plain 1 2 8 .d) base ∧ Clean [2] base ∧ (∃ t, exec (.st .plain 1 2 8 .d) base = .next t) ∧
    (∃ t, exec (.add .plain 1 2 3) base = .next t) ∧ (∃ t, exec (.add .plain 0 2 3) base = .next t) ∧ NoUpset base := by
  refine ⟨⟨by decide +kernel, by decide +kernel⟩, base_alone.1, rfl,
    ⟨by unfold State.holds; decide +kernel, by decide +kernel, reaches_of (by decide +kernel)⟩, base_issues rfl, clean_of rfl,
    ⟨_, rfl⟩, ⟨_, rfl⟩, ⟨_, rfl⟩, rfl⟩

/-- A handler is set up at 0x20000. -/
def trapping : State := onH base fun h => { h with tvec := 0x20001 }

/-- TrapsAreDeliveredOrHoldTheHart: EN without INH, an ordinary cause, and a data error that is delivered; EN clear; INH set; the cause
0x28; a data error of detail 2. -/
theorem witness_traps : trapping.h.ahead = [] ∧ (let t : TrapInfo := { code := 0x20 }; t.code ≠ 0x28 ∧ ¬(t.code = 0x20 ∧ t.detail = 2)) ∧
    trapping.h.tvec.getLsbD 0 = true ∧ trapping.h.tvec.getLsbD 1 = false ∧
    (let t : TrapInfo := { code := 1 }; t.code ≠ 0x28 ∧ ¬(t.code = 0x20 ∧ t.detail = 2)) ∧ base.h.tvec.getLsbD 0 = false ∧
    (onH base fun h => { h with tvec := 3 }).h.tvec.getLsbD 1 = true ∧
    (let t : TrapInfo := { code := 0x20, detail := 2 }; t.code = 0x20 ∧ t.detail = 2) := by decide

/-- Memory in which the ring has HEAD 16 383 and TAIL `t`: full for t = 0, and with a place for t = 1. -/
def ringAt (t : Nat) : State :=
  { base with mem := { base.mem with home := [] }.agentWrite false 0x200000 (natToBytes 8 16383 ++ natToBytes 8 t) }

/-- ReportsGoToTheRing: an empty ring, a ring with one place, and a full one; a die that has failed, and reports that wait. -/
theorem witness_reports : (ringAt 0).mem.Formed ∧ (ringAt 0).sys.ctxBase + 0x100000 = 0x200000 ∧
    (ringAt 0).mem.curNat 0x200000 8 = 16383 ∧ (ringAt 1).mem.curNat 0x200000 8 = 16383 ∧ (ringAt 1).mem.curNat 0x200008 8 = 1 ∧
    State.reset.mem.curNat (0x100000 + 8) 8 = 0 ∧ (ringAt 0).backed 0x200000 0x100000 = false ∧
    (∀ p, (ringAt 0).sys.linkWaits p = false → p < mainEnd → (ringAt 0).sys.homeLost p = false) ∧
    (∀ p ∈ [0x200000, 0x200040 + 64 * 16382], (ringAt 0).sys.linkWaits p = false ∧ (ringAt 0).sys.mcHolds p = false) ∧
    (ringAt 0).sys.reports = [] ∧ (onSys (ringAt 0) fun y => { y with failed := [.cdie 0] }).sys.homeLost 0x200000 = true ∧
    (let s := onSys (ringAt 0) fun y => { y with reports := [{ kind := 4 }] }
     s.sys.reports ≠ [] ∧ s.sys.homeLost 0x200000 = false) := by
  refine ⟨⟨by decide +kernel, by decide +kernel⟩, rfl, ?_, ?_, ?_, rfl, ?_, fun p _ _ => ?_, ?_, ?_, ?_, ?_⟩
  case refine_5 =>
    unfold Sys.homeLost
    split <;> rfl
  all_goals decide +kernel

/-- A hart in its handler, with an open vector instruction at 0x10000. -/
def handling : State :=
  onH base fun h => { h with tvec := 0x20003, tpc := 0x10000, opened := some (openOf 0x10000 (.vadd .plain 1 2 3 0 false) 1) }

/-- SyscTrapsAndTretReturns: in and out of a handler; with an open instruction, before and past its last stripe, elsewhere, without. -/
theorem witness_sysc : Issues (.sysc .plain) base ∧ Issues (.tret .plain) handling ∧ handling.h.inHandler = true ∧
    handling.h.tcause.getLsbD 16 = false ∧ (∃ o, handling.h.opened = some o ∧ handling.h.tpc = o.pc ∧
      handling.h.tstripe.toNat < 1 ∧ 0 ≤ handling.h.tstripe.toNat) ∧ base.h.opened = none ∧
    (onH handling fun h => { h with tpc := 0x10004 }).h.tpc ≠ 0x10000 ∧
    (let t := onH handling fun h => { h with tcause := 0x10000, vpClosed := some (0x10008, some 3) }
     t.h.tcause.getLsbD 16 = true ∧ t.h.vpClosed = some (0x10008, some 3)) :=
  ⟨issues_of (by decide +kernel), issues_of (by decide +kernel), rfl, rfl, ⟨_, rfl, rfl, by decide, by decide⟩, rfl, by decide, by decide, rfl⟩

/-- ForbiddenFormsTrap: a hart of another context; a handler; TRET outside one. -/
theorem witness_forbidden : (∃ s, s.h.cid ≠ 0 ∧ ∀ i ∈ [Instr.incb .plain 1 2, .rcf .plain 1 2, .slwb .plain 1 2, .hmsw .plain 1],
      Issues i s) ∧
    (handling.h.inHandler = true ∧ isSliced .fp32 = false ∧ ∀ i ∈ [Instr.setvl .plain 1 2 .fp32 .n8,
      .setvlb .plain 1 .fp32 .n8 0 0 0, .claim .plain 1 2 3, .vrest .plain 1, .msetm .plain .m16, .mrel .plain], Issues i handling) ∧
    base.h.inHandler = false ∧ Issues (.tret .plain) base := by
  refine ⟨⟨onH base fun h => { h with cid := 1 }, by decide, fun i hi => issues_of ?_⟩, ⟨rfl, rfl, fun i hi => issues_of ?_⟩, rfl,
    base_issues rfl⟩ <;> revert i <;> decide +kernel

/-- FaultyAccessesTrap: an access that leaves the address space, one that is not aligned, one that no leaf maps; a poisoned
source that was replayed. -/
theorem witness_faulty :
    (∃ s, Clean [2, 3, 1] s ∧ probe s needLd (s.readN 2 + (1 : BitVec 8).toInt) 8 8 = .bad 8 ∧ Issues (.ld .plain 1 2 1 .d) s ∧
      probe s needSt (s.readN 2 + (1 : BitVec 8).toInt) 8 8 = .bad 8 ∧ Issues (.st .plain 1 2 1 .d) s) ∧
    (∃ s c, Clean [2, 3, 1] s ∧ probe s needLd (s.readN 2) 8 8 = .bad c ∧ probe s needSt (s.readN 2) 8 8 = .bad c ∧
      probe s needAtomic (s.readN 2) 8 8 = .bad c ∧ ∀ i ∈ [Instr.ldaq .plain 1 2 .dev .d, .strl .plain 1 2 .dev .d,
        .amo .plain 1 2 3 .add .d, .cas .plain 1 2 3 .d], Issues i s) ∧
    addressOk (2 ^ 64 - 1) 2 = false ∧ addressOk (-1) 1 = false ∧
    ∃ s, (3 : SReg) ≠ 0 ∧ Issues (.add .plain 3 2 1) s ∧ NoUpset s ∧ s.h.sPoison 2 = true ∧ s.h.squash = some (.sreg 2) := by
  refine ⟨⟨base, clean_of rfl, by decide +kernel, base_issues rfl, by decide +kernel, base_issues rfl⟩,
    ⟨withS [(2, 0x80000000)] base, 4, clean_of (by decide +kernel), by decide +kernel, by decide +kernel, by decide +kernel, fun i hi => issues_of ?_⟩,
    by decide, by decide, ⟨onH base fun h => { h with poison := [.sreg 2], squash := some (.sreg 2) }, by decide,
      issues_of (by decide +kernel), rfl, by decide, rfl⟩⟩
  revert i
  decide +kernel

/-- CsrrReads, CsrWritesChangeTheirFields: for every control register. -/
theorem witness_csrs (c : Csr) : Clean [2] base ∧
    ∀ i ∈ [Instr.csrr .plain 1 c, .csrw .plain 2 c, .csrs .plain 2 c, .csrc .plain 2 c], Issues i base := by
  refine ⟨clean_of rfl, fun i hi => base_issues ?_⟩
  simp only [List.mem_cons, List.not_mem_nil, or_false] at hi
  rcases hi with rfl | rfl | rfl | rfl <;> rfl

theorem maskClean_of {h : Hart} {m : MReg} (hp : h.poison = []) : h.maskClean m := by
  intro e _
  simp [Hart.maskPoison, hp]

theorem vec_enables {f : Fmt} {n : Nat} : (vec f n).h.enables = 0 := by
  unfold Hart.enables
  rw [show (vec f n).h.frm = 0 from rfl]
  rfl

/-- The checks of `Hart.filled`. -/
def filled? (h : Hart) (qs : List (Fin 4)) : Bool := qs.all fun q => !h.queues[q].isEmpty

theorem filled_of {h : Hart} {qs : List (Fin 4)} (w : filled? h qs = true) : h.filled qs := by
  intro q hq he
  simpa [he] using List.all_eq_true.mp w q hq

/-- The reads of `es` by `r` are clean. -/
def allGive? (es : List Nat) (r : Nat → RRes) : Bool := es.all fun e => gives? (r e)

theorem allGive_of {es : List Nat} {r : Nat → RRes} (h : allGive? es r = true) :
    ∀ e ∈ es, (r e).gives (codeOfRead (r e)) := fun e he => gives_of (List.all_eq_true.mp h e he)

/-- TwoSourceVectorResults: each instruction, under a mask, with register and scalar sources. -/
theorem witness_vecTwo : ∀ p ∈ Spec.vecTwo, ∀ sc : Bool,
    let s := vec .i32 3
    let i := p.form .plain 1 2 3 4 sc
    let a := s.h.src1 .plain 2
    let b := s.h.src2 .plain 3 sc
    let o := s.h.operands s.h.layout ((if p.third then [1] else []) ++ s.h.regsOf a ++ s.h.regsOf b)
    Issues i s ∧ VecReady .plain (p.ok s.h.fmt) (1 :: (a.reg? ++ b.reg?)) [4] s ∧ s.h.filled (queuesOf a b) ∧ s.h.maskClean 4 ∧
    s.h.on 4 false = [0, 2] ∧ ∀ e ∈ [0, 2], (o.read a e).gives (codeOfRead (o.read a e)) ∧
      (o.read b e).gives (codeOfRead (o.read b e)) ∧ (p.third = true → (o.elem 1 e).gives (codeOfRead (o.elem 1 e))) ∧
      s.h.enables = 0 := by
  intro p hp sc
  have h : (issues? (p.form .plain 1 2 3 4 sc) (vec .i32 3) &&
      vecReady? .plain (p.ok .i32) (1 :: (((vec .i32 3).h.src1 .plain 2).reg? ++ ((vec .i32 3).h.src2 .plain 3 sc).reg?)) [4]
        (vec .i32 3)) = true := by
    revert sc p
    decide +kernel
  rw [Bool.and_eq_true] at h
  refine ⟨issues_of h.1, vecReady_of h.2, filled_of (by cases sc <;> rfl), maskClean_of rfl, by decide +kernel, ?_⟩
  have g : ∀ third sc : Bool,
      let s := vec .i32 3
      let a := s.h.src1 .plain 2
      let b := s.h.src2 .plain 3 sc
      let o := s.h.operands s.h.layout ((if third then [1] else []) ++ s.h.regsOf a ++ s.h.regsOf b)
      ∀ e ∈ [0, 2], gives? (o.read a e) = true ∧ gives? (o.read b e) = true ∧ (third = true → gives? (o.elem 1 e) = true) := by
    decide +kernel
  intro e he
  have := g p.third sc e he
  exact ⟨gives_of this.1, gives_of this.2.1, fun t => gives_of (this.2.2 t), rfl⟩

/-- A hart that holds one entry in each load queue. -/
def queued (f : Fmt) : State :=
  onH (vec f 3) fun h => { h with queues := Vector.replicate 4 [⟨[(1, 0), (2, 0), (3, 0)]⟩] }

/-- The same with queue operands. -/
theorem witness_vecTwo_queues :
    let x : Stack := { opm := some { noOp with q1 := true, q2 := true } }
    let s := queued .i32
    let a := s.h.src1 x 2
    let b := s.h.src2 x 3 false
    let o := s.h.operands s.h.layout (s.h.regsOf a ++ s.h.regsOf b)
    Issues (.vadd x 1 2 3 0 false) s ∧ VecReady x true (1 :: (a.reg? ++ b.reg?)) [0] s ∧ queuesOf a b = [2, 3] ∧
    s.h.filled (queuesOf a b) ∧ ∀ e ∈ s.h.on 0 false, (o.read a e).gives (codeOfRead (o.read a e)) := by
  refine ⟨issues_of (by decide +kernel), vecReady_of (by decide +kernel), by decide +kernel, filled_of (by decide +kernel),
    allGive_of (by decide +kernel)⟩

/-- OneSourceVectorResults: each instruction, in a format that it admits. -/
theorem witness_vecOne : ∀ p ∈ Spec.vecOne, ∃ f,
    let s := vec f 3
    let a := s.h.src1 .plain 2
    let o := s.h.operands s.h.layout (s.h.regsOf a ++ s.h.regsOf a)
    Issues (p.form .plain 1 2 4) s ∧ VecReady .plain (p.ok f) (1 :: a.reg?) [4] s ∧ s.h.filled (queuesOf a a) ∧ s.h.maskClean 4 ∧
    ∀ e ∈ s.h.on 4 false, (o.read a e).gives (codeOfRead (o.read a e)) ∧ s.h.enables = 0 := by
  have h : ∀ p ∈ Spec.vecOne, ∃ f ∈ [Fmt.fp32, .i32],
      let s := vec f 3
      let a := s.h.src1 .plain 2
      let o := s.h.operands s.h.layout (s.h.regsOf a ++ s.h.regsOf a)
      issues? (p.form .plain 1 2 4) s = true ∧ vecReady? .plain (p.ok f) (1 :: a.reg?) [4] s = true ∧
      filled? s.h (queuesOf a a) = true ∧ allGive? (s.h.on 4 false) (o.read a) = true := by
    decide +kernel
  intro p hp
  obtain ⟨f, -, h1, h2, h3, h4⟩ := h p hp
  exact ⟨f, issues_of h1, vecReady_of h2, filled_of h3, maskClean_of rfl, fun e he => ⟨allGive_of h4 e he, vec_enables⟩⟩

/-- CarrySelectCompareResults: VADC and VSBC; VSEL, whose elements off the mask come from the other source; VCMP. -/
theorem witness_carrySelectCompare :
    let s := vec .i32 3
    let p := s.h.src1 .plain 2
    let q := s.h.src2 .plain 3 false
    let o := s.h.operands s.h.layout (s.h.regsOf p ++ s.h.regsOf q)
    (∀ i ∈ [Instr.vadc .plain 1 2 3 4 false, .vsbc .plain 1 2 3 4 false, .vsel .plain 1 2 3 4 false, .vcmp .plain .le 4 2 3 5 false],
      Issues i s) ∧ VecReady .plain (isInt .i32 && (4 : MReg) != 0) (1 :: (p.reg? ++ q.reg?)) [4] s ∧
    VecReady .plain (isArith .i32 && (4 : MReg) != 0) (p.reg? ++ q.reg?) [4, 5] s ∧ s.h.filled (queuesOf p q) ∧ s.h.maskClean 4 ∧
    (∀ e ∈ List.range 3, (o.read p e).gives (codeOfRead (o.read p e)) ∧ (o.read q e).gives (codeOfRead (o.read q e)) ∧
      codeOfRead (o.read p e) < 2 ^ 32 ∧ codeOfRead (o.read q e) < 2 ^ 32) ∧
    (∀ e < 3, ∃ g, (if e ∈ s.h.on 4 false then o.read p e else o.read q e) =
      .code (codeOfRead (if e ∈ s.h.on 4 false then o.read p e else o.read q e)) g none) ∧ s.h.enables = 0 := by
  refine ⟨fun i hi => issues_of ?_, vecReady_of (by decide +kernel), vecReady_of (by decide +kernel), filled_of rfl, maskClean_of rfl,
    fun e he => ⟨gives_of ?_, gives_of ?_, ?_⟩, fun e he => code_of ?_, rfl⟩
  · revert i
    decide +kernel
  all_goals
    revert e
    decide +kernel

/-- Two registers of which element 0 holds 1.0, element 1 infinities of the two signs, and every enable set. -/
def trappy : State := onH (vec .fp32 3) fun h => { h with
  frm := 0x3F00
  vregs := [⟨8192 * 2, 0x3F800000, false⟩, ⟨8192 * 2 + 128, 0x7F800000, false⟩, ⟨8192 * 2 + 256, 0, false⟩,
    ⟨8192 * 3, 0x3F800000, false⟩, ⟨8192 * 3 + 128, 0xFF800000, false⟩, ⟨8192 * 3 + 256, 0, false⟩] }

/-- The result of element `e` of VADD on that state. -/
def trappyAt (e : Nat) : Option (Nat × Nat) :=
  let p := trappy.h.src1 .plain 2
  let q := trappy.h.src2 .plain 3 false
  let o := trappy.h.operands trappy.h.layout ([] ++ trappy.h.regsOf p ++ trappy.h.regsOf q)
  some (fVadd trappy.h (codeOfRead (o.read p e)) (codeOfRead (o.read q e)) 0)

/-- VectorFormsTrap: an enabled flag at element 1, behind one that completes. -/
theorem witness_vectorTraps : let i := Instr.vadd .plain 1 2 3 0 false
    let p := trappy.h.src1 .plain 2
    let q := trappy.h.src2 .plain 3 false
    Reading i .plain (isArith trappy.h.fmt) 1 p q 0 false (fVadd trappy.h) trappyAt trappy ∧
    FirstTrap (trappy.h.on 0 false) trappy.h.layout.stripe (fun e => trapCause trappy.h.enables ((trappyAt e).map (·.2))) 1 0x10 := by
  refine ⟨⟨issues_of (by decide +kernel), vecReady_of (by decide +kernel), filled_of rfl, maskClean_of rfl, fun e he => ⟨0, nofun, fun _ => rfl, .inl ?_⟩⟩,
    by unfold FirstTrap; decide +kernel⟩
  have h : ∀ e ∈ trappy.h.on 0 false,
      let p := trappy.h.src1 .plain 2
      let q := trappy.h.src2 .plain 3 false
      let o := trappy.h.operands trappy.h.layout ([] ++ trappy.h.regsOf p ++ trappy.h.regsOf q)
      gives? (o.read p e) = true ∧ gives? (o.read q e) = true := by decide +kernel
  exact ⟨_, _, gives_of (h e he).1, gives_of (h e he).2, rfl⟩

/-- The first source one element along x, so that the last element reads the trap face. -/
def shifted : Stack := { ofs := some ⟨1, 0, 0, 0, 0, 0⟩ }

/-- The state of `trappy`, of one element, whose register 2 has trap faces. -/
def faced : State := onH (vec .i32 1) fun h => { h with shells := (List.range 6).map fun k => (12 + k, .trap) }

/-- VectorFormsTrap: a shell trap, of the instructions of one source and of two. -/
theorem witness_shellTraps : let p := faced.h.src1 shifted 2
    let q := faced.h.src2 shifted 3 false
    Reading (.vadd shifted 1 2 3 0 false) shifted (isArith .i32) 1 p q 0 false (fVadd faced.h) (fun _ => none) faced ∧
    Reading (.vneg shifted 1 2 0) shifted (isArith .i32) 1 p p 0 false (fun c _ _ => fVneg faced.h c) (fun _ => none) faced ∧
    FirstTrap (faced.h.on 0 false) faced.h.layout.stripe (fun _ => trapCause faced.h.enables none) 0 0x18 := by
  have h : ∀ e ∈ faced.h.on 0 false,
      let p := faced.h.src1 shifted 2
      let q := faced.h.src2 shifted 3 false
      let o := faced.h.operands faced.h.layout ([] ++ faced.h.regsOf p ++ faced.h.regsOf q)
      let o' := faced.h.operands faced.h.layout ([] ++ faced.h.regsOf p ++ faced.h.regsOf p)
      o.read p e = .shell ∧ gives? (o.read q e) = true ∧ o'.read p e = .shell := by decide +kernel
  refine ⟨⟨issues_of (by decide +kernel), vecReady_of (by decide +kernel), filled_of rfl, maskClean_of rfl,
      fun e he => ⟨0, nofun, fun _ => rfl, .inr ⟨.inl ⟨(h e he).1, .inr ⟨_, gives_of (h e he).2.1⟩⟩, rfl⟩⟩⟩,
    ⟨issues_of (by decide +kernel), vecReady_of (by decide +kernel), filled_of rfl, maskClean_of rfl,
      fun e he => ⟨0, nofun, fun _ => rfl, .inr ⟨.inl ⟨(h e he).2.2, .inl (h e he).2.2⟩, rfl⟩⟩⟩,
    by unfold FirstTrap; decide +kernel⟩

/-- VectorFormsTrap, the checks: CHK.EN is set, no enabled flag is raised, and a lane cluster that is outvoted can be retired, with a
spare left and with none. -/
theorem witness_checks : (vec .i32 3).h.chkEn = true ∧ ((vec .i32 3).coreOf 0).spUsed = false ∧
    (((vec .i32 3).modCore 0 fun k => { k with spUsed := true }).coreOf 0).spUsed = true ∧
    trapCause (vec .i32 3).h.enables (some 0) = none ∧
    (let i := Instr.vadd .plain 1 2 3 0 false
     ∃ u, retireLc 7 ((issued i ((vec .i32 3).modH fun h => h.countMismatch 2)).wakeLanes) = some u ∧
       u.h.vregs = (vec .i32 3).h.vregs ∧ u.h.vgen = (vec .i32 3).h.vgen) ∧
    (onH (vec .i32 3) fun h => { h with chkEn := false }).h.chkEn = false ∧
    Issues (.add { crit := true } 1 2 3) base ∧ Clean [2, 3] base ∧ NoUpset base ∧
    Issues (.vadd { crit := true } 1 2 3 0 false) (vec .i32 3) :=
  ⟨by decide +kernel, by decide +kernel, by decide +kernel, rfl, ⟨_, rfl, by decide +kernel, by decide +kernel⟩, by decide +kernel,
    issues_of (by decide +kernel), clean_of rfl, rfl, issues_of (by decide +kernel)⟩

/-- The same hart in a bit-sliced format of 3 bits. -/
def sliced : State := vec (.bsi 2) 3

/-- SlicedResults: VBSADD, VBSMUL; VBSL, VBSJ. -/
theorem witness_sliced :
    let s := sliced
    let p := s.h.src1 .plain 2
    let q := s.h.src2 .plain 3 false
    let o := s.h.operands (s.h.layoutAt (width s.h.fmt) true) (s.h.regsOf p ++ s.h.regsOf q)
    (∀ i ∈ [Instr.vbsadd .plain 1 2 3 4, .vbsmul .plain 1 2 3 4, .vbsl .plain 1 2, .vbsj .plain 1 2], Issues i s) ∧
    VecReady .plain (isSliced s.h.fmt) (1 :: (p.reg? ++ q.reg?)) [4] s ∧ VecReady .plain (isSliced s.h.fmt) [1, 2] [] s ∧
    s.h.filled (queuesOf p q) ∧ s.h.maskClean 4 ∧ (∀ e ∈ s.h.on 4 false, (o.read p e).gives (codeOfRead (o.read p e))) ∧
    (∀ e ∈ s.h.on 4 false, (o.read q e).gives (codeOfRead (o.read q e))) ∧
    (∀ e ∈ s.h.on 4 false, codeOfRead (o.read p e) < 2 ^ 3 ∧ codeOfRead (o.read q e) < 2 ^ 3) ∧ s.h.enables = 0 := by
  refine ⟨fun i hi => issues_of ?_, vecReady_of (by decide +kernel), vecReady_of (by decide +kernel), filled_of rfl, maskClean_of rfl,
    allGive_of (by decide +kernel), allGive_of (by decide +kernel), by decide +kernel, rfl⟩
  revert i
  decide +kernel

/-- VectorMoveResults: VMOV joined and sliced, from a scalar, VIDX. MaskResults: each mask instruction, MPOPC, MFIRST with a true
bit and with none. -/
theorem witness_moves_masks :
    let s := vec .i32 3
    let o := s.h.operands s.h.layout (s.h.regsOf (s.h.src1 .plain 2))
    (∀ i ∈ [Instr.vmov .plain 1 2 4, .vmovScalar .plain 1 2 4, .vidx .plain 1 0x200 0x80, .mand .plain 1 4 5, .mor .plain 1 4 5,
      .mxor .plain 1 4 5, .mandn .plain 1 4 5, .mnot .plain 1 4, .mshl .plain 1 4 2, .mset .plain 1 2, .mpopc .plain 1 4,
      .mfirst .plain 1 4], Issues i s) ∧ VecReady .plain (isArith .i32) [1, 2] [4] s ∧
    VecReady .plain ((1 : MReg) != 0) [] (1 :: [4, 5]) s ∧ s.h.maskClean 4 ∧ s.h.maskClean 5 ∧ Clean [2] s ∧
    (∀ e ∈ s.h.on 4 false, ∃ g, o.read (s.h.src1 .plain 2) e = .code (codeOfRead (o.read (s.h.src1 .plain 2) e)) g none) ∧
    Issues (.vmov .plain 1 2 0) sliced ∧ isSliced sliced.h.fmt = true ∧ VecReady .plain true [1, 2] [0] sliced ∧
    s.h.maskBit 4 0 = true ∧ ∀ e < 0, s.h.maskBit 4 e = false := by
  refine ⟨fun i hi => issues_of ?_, vecReady_of (by decide +kernel), vecReady_of (by decide +kernel), maskClean_of rfl, maskClean_of rfl,
    clean_of rfl, fun e he => code_of ?_, issues_of (by decide +kernel), rfl, vecReady_of (by decide +kernel), by decide +kernel,
    by simp⟩
  · revert i
    decide +kernel
  · revert e
    decide +kernel

/-- PermutationResults: an index below VL; VCOMP; VDECB. ElementAccess: an element, and one beyond. -/
theorem witness_permutations :
    let s := vec .i32 3
    let o := s.h.operands s.h.layout [2]
    let oj := s.h.operands s.h.layout [2, 3]
    (∀ i ∈ [Instr.vperm .plain 1 2 3 4, .vcomp .plain 1 2 4, .vdecb .plain 1 2 0 0 1, .vext .plain 1 2 0, .vext .plain 1 2 3,
      .vins .plain 1 3 0], Issues i s) ∧ VecReady .plain (!isSliced .i32 && 8 ≤ width .i32) [1, 2, 3] [4] s ∧ s.h.maskClean 4 ∧
    s.h.on 4 false = [0, 2] ∧ s.h.vl = 3 ∧ (∀ e ∈ [0, 2], (oj.elem 3 e).gives e) ∧
    (∀ e ∈ [0, 1, 2], (∃ g, oj.elem 2 e = .code e g none) ∧ ∃ g, o.elem 2 e = .code e g none) ∧
    s.readN 0 < s.h.vl ∧ s.h.vl ≤ s.readN 3 ∧ Clean [0, 3] s := by
  have h : ∀ e ∈ [0, 1, 2],
      let s := vec .i32 3
      let oj := s.h.operands s.h.layout [2, 3]
      let o := s.h.operands s.h.layout [2]
      ∀ r ∈ [oj.elem 3 e, oj.elem 2 e, o.elem 2 e], codeOfRead r = e ∧ gives? r = true := by decide +kernel
  have w : ∀ {r : RRes} {e : Nat}, codeOfRead r = e ∧ gives? r = true → ∃ g, r = .code e g none := fun h => h.1 ▸ code_of h.2
  refine ⟨fun i hi => issues_of ?_, vecReady_of (by decide +kernel), maskClean_of rfl, by decide +kernel, rfl,
    fun e he => w (h e ?_ _ (by simp)), fun e he => ⟨w (h e he _ (by simp)), w (h e he _ (by simp))⟩, by decide +kernel,
    by decide +kernel, clean_of rfl⟩
  · revert i
    decide +kernel
  · revert e
    decide

/-- VPERM with an index that is not below VL. -/
theorem witness_vperm_beyond : ∃ k, let s := onH (vec .i32 3) fun h => { h with vregs := [⟨8192 * 3, 3, false⟩] }
    let oj := s.h.operands s.h.layout [2, 3]
    (oj.elem 3 0).gives k ∧ s.h.vl ≤ k := ⟨_, gives_of (by decide +kernel), by decide +kernel⟩

/-- ReductionResults: every reduction, with VL = 3 and two active elements, and with VL = 1. -/
theorem witness_reductions : ∀ p ∈ Spec.vecFold, ∀ n k, (n, k) ∈ [(3, 2), (1, 0)] →
    let s := vec .i32 n
    let o := s.h.operands s.h.layout [2]
    Issues (p.1 .plain 1 2 4) s ∧ VecReady .plain (p.2.1 s.h.fmt) [1, 2] [4] s ∧ s.h.maskClean 4 ∧
    (∀ e ∈ s.h.on 4 false, (o.elem 2 e).gives (codeOfRead (o.elem 2 e))) ∧ s.h.vl ≤ 2 ^ k ∧ (k = 0 ∨ 2 ^ (k - 1) < s.h.vl) ∧
    s.h.enables = 0 := by
  have h : ∀ p ∈ Spec.vecFold, ∀ q ∈ [(3, 2), (1, 0)],
      let s := vec .i32 q.1
      issues? (p.1 .plain 1 2 4) s = true ∧ vecReady? .plain (p.2.1 s.h.fmt) [1, 2] [4] s = true ∧
      allGive? (s.h.on 4 false) ((s.h.operands s.h.layout [2]).elem 2) = true ∧ q.1 ≤ 2 ^ q.2 ∧ (q.2 = 0 ∨ 2 ^ (q.2 - 1) < q.1) := by
    decide +kernel
  intro p hp n k hn
  obtain ⟨h1, h2, h3, h4, h5⟩ := h p hp (n, k) hn
  exact ⟨issues_of h1, vecReady_of h2, maskClean_of rfl, allGive_of h3, h4, h5, vec_enables⟩

/-- What a conversion brings: its code and its flags. -/
def outOf : EOut → Nat × Nat
  | .val c f _ _ => (c, f)
  | _ => (0, 0)

/-- ReshapeResults, and VCVT, VSCL and VARGMAX of ConversionResults and ArgmaxResults; VCVT from E2M1 without an escape. -/
theorem witness_conversions : ∀ f ∈ [Fmt.fp32, .e2m1],
    let s := vec f 3
    let o := s.h.operands s.h.layout [2]
    let p := s.h.src1 .plain 2
    let oc := s.h.operands s.h.layout (s.h.regsOf p)
    let y := s.h.layoutAt (width .fp16) false
    (∀ i ∈ [Instr.vresh .plain 1 2 .fp16, .vcvt .plain 1 2 .fp16 4 .dyn, .vscl .plain 1 2 .e4m3 4 .dyn, .vargmax .plain 1 2 4],
      Issues i s) ∧
    VecReady .plain (!isSliced f && !isSliced .fp16 && y.b * y.s * y.w ≤ 32 * s.h.blockWords) (1 :: p.reg?) [4] s ∧
    s.h.filled (queuesOf p p) ∧ s.h.maskClean 4 ∧ s.h.xfers = [] ∧
    (f = .e2m1 → readPurse s 0 (escapes oc (p.reg?.map fun u => (u, List.range s.h.vl))) = .ok []) ∧
    (∀ e ∈ s.h.on 4 false, let r := cvtElem s.h .fp16 (s.h.rmOf .dyn) [] 1 e (oc.read p e)
      r = .val (outOf r).1 (outOf r).2 0 false ∧ (outOf r).2 &&& s.h.enables = 0) ∧
    (f = .fp32 → VecReady .plain (isFloat f && isSmall .e4m3) [2] [4] s ∧ VecReady .plain (isArith f) [1, 2] [4] s ∧
      (∀ e ∈ s.h.on 4 false, (o.elem 2 e).gives (codeOfRead (o.elem 2 e))) ∧ s.h.on 4 false ≠ []) ∧ s.h.enables = 0 := by
  intro f hf
  simp only [List.mem_cons, List.not_mem_nil, or_false] at hf
  rcases hf with rfl | rfl
  · refine ⟨fun i hi => issues_of ?_, vecReady_of (by decide +kernel), filled_of rfl, maskClean_of rfl, rfl, fun h => absurd h (by decide), ?_,
      fun _ => ⟨vecReady_of (by decide +kernel), vecReady_of (by decide +kernel), allGive_of (by decide +kernel), by decide +kernel⟩,
      rfl⟩
    · revert i
      decide +kernel
    · decide +kernel
  · refine ⟨fun i hi => issues_of ?_, vecReady_of (by decide +kernel), filled_of rfl, maskClean_of rfl, rfl, fun _ => ?_, ?_,
      fun h => absurd h (by decide), rfl⟩
    · revert i
      decide +kernel
    · rw [show escapes ((vec .e2m1 3).h.operands (vec .e2m1 3).h.layout ((vec .e2m1 3).h.regsOf ((vec .e2m1 3).h.src1 .plain 2)))
        ((((vec .e2m1 3).h.src1 .plain 2).reg?).map fun u => (u, List.range (vec .e2m1 3).h.vl)) = [] by decide +kernel]
      rfl
    · decide +kernel

/-! Vector memory. -/

/-- The hypotheses of `LoadsElements` and of the other vector accesses, on one state. -/
def AccessHyps (i : Instr) (x : Stack) (regs : List VReg) (m : MReg) (masks : List MReg) (rs : List SReg) (ok : Bool) (need : Need)
    (align : Nat) (addr : Nat → Int × Nat) (s : State) : Prop :=
  Issues i s ∧ VecReady x ok regs masks s ∧ Clean rs s ∧ s.h.maskClean m ∧ s.h.on m (maskInv x) ≠ [] ∧
  ∃ p, Placed need align (s.h.on m (maskInv x)) addr p s

/-- The checks of `AccessHyps`. -/
def access? (i : Instr) (x : Stack) (regs : List VReg) (m : MReg) (masks : List MReg) (rs : List SReg) (ok : Bool) (need : Need)
    (align : Nat) (addr : Nat → Int × Nat) (s : State) : Bool :=
  issues? i s && vecReady? x ok regs masks s && rs.all (fun r => !s.h.sPoison r) && s.h.poison.isEmpty &&
    !(s.h.on m (maskInv x)).isEmpty && allPlaced? need align (s.h.on m (maskInv x)) addr s

theorem access_of {i : Instr} {x : Stack} {regs : List VReg} {m : MReg} {masks : List MReg} {rs : List SReg} {ok : Bool} {need : Need}
    {align : Nat} {addr : Nat → Int × Nat} {s : State} (h : access? i x regs m masks rs ok need align addr s = true) :
    AccessHyps i x regs m masks rs ok need align addr s := by
  simp only [access?, Bool.and_eq_true, Bool.not_eq_true', List.isEmpty_iff, List.isEmpty_eq_false_iff] at h
  exact ⟨issues_of h.1.1.1.1.1, vecReady_of h.1.1.1.1.2, clean_of h.1.1.1.2, maskClean_of h.1.1.2, h.1.2, _, allPlaced_of h.2⟩

/-- A hart of four elements in a row of two bricks, with byte offsets 0, 4, 8 and 12 in register 5. -/
def bricks : State := onH (vec .i32 4) fun h => { h with
  bgeo := wd (2 ^ 0 + 1 * 2 ^ 12)
  vregs := (List.range 4).map fun (e : Nat) => ⟨8192 * 5 + 128 * (e / 2) + e % 2, BitVec.ofNat 32 (4 * e), false⟩ }

/-- The offsets of register 5. -/
def offset (s : State) (rs : List VReg) (e : Nat) : Nat := codeOfRead ((s.h.operands s.h.layout rs).elem 5 e)

/-- A brick load or store whose pitch of z stands in s9. -/
def pitched : Stack := { ext := some (9 * 64) }

/-- An acquire, a release, and a release with a progress word at s7. -/
def acquiring : Stack := { memm := some { noMem with sem := .acq, scope := .sys } }
def releasing : Stack := { memm := some { noMem with sem := .rel, scope := .sys } }
def notifying : Stack := { memm := some { noMem with sem := .rel, scope := .sys, ntf := 8 } }

theorem witness_vld : AccessHyps (.vld acquiring 1 2 4) acquiring [1] 4 [4] [2] true (unitNeed acquiring false) 4
    (fun e => ((vec .i32 3).readN 2 + (e * 32 / 8 : Nat), (e * 32 % 8 + 32 + 7) / 8)) (vec .i32 3) := access_of (by decide +kernel)

/-- Elements of 4 bits, at half bytes. -/
theorem witness_vld_halfBytes : AccessHyps (.vld .plain 1 2 4) .plain [1] 4 [4] [2] true (unitNeed .plain false) 1
    (fun e => ((vec .e2m1 3).readN 2 + (e * 4 / 8 : Nat), (e * 4 % 8 + 4 + 7) / 8)) (vec .e2m1 3) := access_of (by decide +kernel)

/-- To a queue that has a place: three entries stand there. -/
theorem witness_vld_queue : let x : Stack := { opm := some { noOp with qd := true } }
    let s := onH (vec .i32 3) fun h => { h with queues := Vector.replicate 4 (List.replicate 3 ⟨[]⟩) }
    AccessHyps (.vld x 3 2 4) x [] 4 [4] [2] true (unitNeed x false) 4
      (fun e => (s.readN 2 + (e * 32 / 8 : Nat), (e * 32 % 8 + 32 + 7) / 8)) s ∧
    toQueue x = true ∧ s.h.queues[(Fin.ofNat 4 3 : Fin 4)].length < 4 := ⟨access_of (by decide +kernel), rfl, by decide⟩

/-- The core mask names only the hart's own core, the greatest that it can name aside. -/
theorem witness_vldm : ∀ w ∈ [1, 65535], let s := withS [(3, wd w)] (vec .i32 3)
    AccessHyps (.vldm .plain 1 2 3 4) .plain [1] 4 [4] [2, 3] (s.readN 3 < 65536 && (s.readN 3).testBit (s.h.core.val % 16))
      needNormalRead 4 (fun e => (s.readN 2 + (e * 32 / 8 : Nat), (e * 32 % 8 + 32 + 7) / 8)) s := by
  intro w hw
  refine access_of ?_
  revert w
  decide +kernel

/-- A stride below zero. -/
theorem witness_strided : let s := withS [(3, -1)] (vec .i32 3)
    let addr := fun e : Nat => ((s.readN 2 : Int) + e * (s.h.sreg 3).toInt * (32 / 8 : Nat), 32 / 8)
    AccessHyps (.vldStrided .plain 1 2 3 4) .plain [1] 4 [4] [2, 3] (!isSliced .i32 && 8 ≤ width .i32) needRead 4 addr s ∧
    AccessHyps (.vstStrided .plain 1 2 3 4) .plain [1] 4 [4] [2, 3] (!isSliced .i32 && 8 ≤ width .i32) needWrite 4 addr s ∧
    AccessHyps (.vprefStrided .plain 2 3 4) .plain [] 4 [4] [2, 3] (!isSliced .i32 && 8 ≤ width .i32) needRead 4 addr s :=
  ⟨access_of (by decide +kernel), access_of (by decide +kernel), access_of (by decide +kernel)⟩

/-- VLDX, plain and as an acquire; VSTX; VPREF; the atomics and the adds through offsets. -/
theorem witness_indexed : let s := bricks
    let addr := fun (rs : List VReg) (e : Nat) => ((s.readN 2 : Int) + signedOf 32 (offset s rs e), 32 / 8)
    let ok := !isSliced Fmt.i32 && 8 ≤ width .i32
    AccessHyps (.vldx .plain 1 2 5 4) .plain [1, 5] 4 [4] [2] ok needRead 4 (addr [5]) s ∧
    AccessHyps (.vldx acquiring 1 2 5 4) acquiring [1, 5] 4 [4, 7] [2] ok needRead 4 (addr [5]) s ∧ acqScope .plain = none ∧
    acqScope acquiring = some .sys ∧
    AccessHyps (.vstx releasing 1 2 5 4) releasing [1, 5] 4 [4] [2] ok needWrite 4 (addr [1, 5]) s ∧
    AccessHyps (.vprefIndexed .plain 2 5 4) .plain [5] 4 [4] [2] ok needRead 4 (addr [5]) s ∧
    AccessHyps (.vamo acquiring 0 1 2 5 4) acquiring [1, 5] 4 [4, 7] [2] (vamoFmt .i32) needAtomic 4 (addr [1, 5]) s ∧
    AccessHyps (.vamoSwap .plain 1 2 5 4) .plain [1, 5] 4 [4] [2] (vamoFmt .i32) needAtomic 4 (addr [1, 5]) s ∧
    AccessHyps (.vredIndexed releasing 1 2 5 4) releasing [1, 5] 4 [4] [2] (vredFmt s.h && 16 ≤ width .i32) needNormalWrite 4
      (addr [1, 5]) s ∧
    ∀ rs ∈ [[5], [1, 5]], ∀ e ∈ s.h.on 4 false, ((s.h.operands s.h.layout rs).elem 5 e).gives (offset s rs e) := by
  refine ⟨access_of (by decide +kernel), access_of (by decide +kernel), rfl, rfl, access_of (by decide +kernel),
    access_of (by decide +kernel), access_of (by decide +kernel), access_of (by decide +kernel), access_of (by decide +kernel),
    fun rs hr e he => gives_of ?_⟩
  revert e rs
  decide +kernel

/-- The brick forms, in two bricks of two elements. -/
theorem witness_brick : let s := bricks
    let addr := fun e : Nat =>
      let p := s.h.geo.coord e
      ((s.readN 2 : Int) + p.z * (s.h.sreg (extReg pitched)).toInt + p.y * (s.h.sreg 3).toInt + p.x * (32 / 8 : Nat), 32 / 8)
    let ok := pitched.ext.isSome && (!isSliced Fmt.i32 && 8 ≤ width .i32)
    AccessHyps (.vldb pitched 1 2 3 4) pitched [1] 4 [4] [2, 3, extReg pitched] ok needRead 4 addr s ∧
    AccessHyps (.vstb pitched 1 2 3 4) pitched [1] 4 [4] [2, 3, extReg pitched] ok needWrite 4 addr s :=
  ⟨access_of (by decide +kernel), access_of (by decide +kernel)⟩

/-- Five elements along x, of which 0, 2 and 4 are active, and one channel. -/
def row5 : State := withS [(9, 1)] (onH (vec .i32 5) fun h => { h with bgeo := wd (4 * 2 ^ 12), masks := Vector.replicate 8 21 })

/-- VLDB.S2C and VSTB.C2S: a group of four pixels, and element 4, which it does not reach. -/
theorem witness_channels : let s := row5
    let x := pitched
    let fx := if (x.ext.getD 0).getLsbD 0 then 4 else 2
    let fy := if (x.ext.getD 0).getLsbD 1 then 4 else 2
    let c := s.readN (extReg x)
    let addr := fun e : Nat =>
      let p := s.h.geo.coord e
      let n := p.x.toNat
      if fx * fy * c ≤ n then ((0, 0) : Int × Nat)
      else ((s.readN 2 : Int) + ((p.z.toNat * fy + n / c / fx : Nat) : Int) * (s.h.sreg 3).toInt +
        (((p.y.toNat * fx + n / c % fx) * c + n % c) * (32 / 8) : Nat), 32 / 8)
    let ok := x.ext.isSome && c != 0 && fx * fy * c ≤ s.h.geo.gx * s.h.geo.bx && (!isSliced s.h.fmt && 8 ≤ width s.h.fmt)
    AccessHyps (.vldbS2c x 1 2 3 4) x [1] 4 [4] [2, 3, extReg x] ok needRead 4 addr s ∧
    AccessHyps (.vstbC2s x 1 2 3 4) x [1] 4 [4] [2, 3, extReg x] ok needWrite 4 addr s :=
  ⟨access_of (by decide +kernel), access_of (by decide +kernel)⟩

/-- VST and VRED, with a progress word and without one; the codes of the source. -/
theorem witness_vst : let s := vec .i32 3
    let addr := fun e : Nat => ((s.readN 2 : Int) + (e * 32 / 8 : Nat), (e * 32 % 8 + 32 + 7) / 8)
    AccessHyps (.vst notifying 1 2 4) notifying [1] 4 [4] [2] true (unitNeed notifying true) 4 addr s ∧
    AccessHyps (.vst .plain 1 2 4) .plain [1] 4 [4] [2] true (unitNeed .plain true) 4 addr s ∧ Notifies .plain s none ∧
    (∃ nt, Notifies notifying s (some nt)) ∧
    AccessHyps (.vred .plain 1 2 4) .plain [1] 4 [4] [2] (vredFmt s.h && true) needNormalWrite 4
      (fun e => (s.readN 2 + (e * 4 : Nat), 4)) s ∧
    (∀ e ∈ s.h.on 4 false, ∃ g, (s.h.operands s.h.layout [1]).elem 1 e = .code e g none) ∧ s.h.fmt ≠ .e2m1 ∧
    s.entriesUsed + 1 ≤ 32 := by
  refine ⟨access_of (by decide +kernel), access_of (by decide +kernel), rfl, ⟨_, clean_of rfl, _, placed_of (by decide +kernel), rfl⟩,
    access_of (by decide +kernel), fun e he => ?_, by decide, by decide +kernel⟩
  have h : ∀ e ∈ (vec .i32 3).h.on 4 false,
      codeOfRead (((vec .i32 3).h.operands (vec .i32 3).h.layout [1]).elem 1 e) = e ∧
      gives? (((vec .i32 3).h.operands (vec .i32 3).h.layout [1]).elem 1 e) = true := by decide +kernel
  have w := code_of (h e he).2
  rwa [(h e he).1] at w

/-- An access of the active elements finds a fault, of cause 4, first at element `t`. -/
def faults? (i : Instr) (x : Stack) (regs : List VReg) (m : MReg) (rs : List SReg) (ok : Bool) (need : Need) (align : Nat)
    (addr : Nat → Int × Nat) (t : Nat) (s : State) : Bool :=
  issues? i s && vecReady? x ok regs [m] s && rs.all (fun r => !s.h.sPoison r) && s.h.poison.isEmpty &&
    (s.h.on m (maskInv x)).contains t && (addr t).2 != 0 &&
    (match probe s need (addr t).1 (addr t).2 align with
      | .bad c => c == 4
      | _ => false) &&
    (s.h.on m (maskInv x)).all fun e => t ≤ e || (addr e).2 == 0 || placed? (probe s need (addr e).1 (addr e).2 align)

/-- VectorFormsTrap: each instruction that accesses memory, at an address that no leaf maps; the strided ones with an element before it
that finds its place. -/
theorem witness_elementFaults : let s := withS [(2, 0x80000000)] (vec .i32 3)
    let u := withS [(3, 0x10000000)] (vec .i32 3)
    let b := withS [(2, 0x80000000)] bricks
    let r := withS [(2, 0x80000000)] row5
    let k := offset b [5]
    let k1 := offset b [1, 5]
    let x := pitched
    faults? (.vld .plain 1 2 4) .plain [1] 4 [2] true (unitNeed .plain false) 4 (unitAt 2 s) 0 s = true ∧
    faults? (.vst .plain 1 2 4) .plain [1] 4 [2] true (unitNeed .plain true) 4 (unitAt 2 s) 0 s = true ∧
    faults? (.vldm .plain 1 2 3 4) .plain [1] 4 [2, 3] ((withS [(3, 1)] s).readN 3 < 65536 && ((withS [(3, 1)] s).readN 3).testBit 0)
      needNormalRead 4 (unitAt 2 s) 0 (withS [(3, 1)] s) = true ∧
    faults? (.vldStrided .plain 1 2 3 4) .plain [1] 4 [2, 3] (wideIn u) needRead 4 (strideAt 2 3 u) 2 u = true ∧
    faults? (.vstStrided .plain 1 2 3 4) .plain [1] 4 [2, 3] (wideIn u) needWrite 4 (strideAt 2 3 u) 2 u = true ∧
    faults? (.vldx .plain 1 2 5 4) .plain [1, 5] 4 [2] (wideIn b) needRead 4 (offsetAt 2 k b) 0 b = true ∧
    faults? (.vstx .plain 1 2 5 4) .plain [1, 5] 4 [2] (wideIn b) needWrite 4 (offsetAt 2 k1 b) 0 b = true ∧
    faults? (.vldb x 1 2 3 4) x [1] 4 [2, 3, extReg x] (x.ext.isSome && wideIn b) needRead 4 (rasterAt 2 3 (extReg x) b) 0 b = true ∧
    faults? (.vstb x 1 2 3 4) x [1] 4 [2, 3, extReg x] (x.ext.isSome && wideIn b) needWrite 4 (rasterAt 2 3 (extReg x) b) 0 b = true ∧
    faults? (.vldbS2c x 1 2 3 4) x [1] 4 [2, 3, extReg x] (pixelsFit x r) needRead 4 (pixelAt x 2 3 r) 0 r = true ∧
    faults? (.vstbC2s x 1 2 3 4) x [1] 4 [2, 3, extReg x] (pixelsFit x r) needWrite 4 (pixelAt x 2 3 r) 0 r = true ∧
    faults? (.vamo .plain 0 1 2 5 4) .plain [1, 5] 4 [2] (vamoFmt .i32) needAtomic 4 (offsetAt 2 k1 b) 0 b = true ∧
    faults? (.vamoSwap .plain 1 2 5 4) .plain [1, 5] 4 [2] (vamoFmt .i32) needAtomic 4 (offsetAt 2 k1 b) 0 b = true ∧
    faults? (.vred .plain 1 2 4) .plain [1] 4 [2] (vredFmt s.h && !s.h.scaled s.h.fmt) needNormalWrite 4
      (fun e => ((s.readN 2 : Int) + (e * 4 : Nat), 4)) 0 s = true ∧
    faults? (.vredIndexed .plain 1 2 5 4) .plain [1, 5] 4 [2] (vredFmt b.h && !b.h.scaled b.h.fmt && 16 ≤ width .i32) needNormalWrite 4
      (offsetAt 2 k1 b) 0 b = true ∧
    s.h.xfers = [] ∧ s.entriesUsed + 1 ≤ 32 ∧ Notifies .plain s none := by
  refine ⟨?_, ?_, ?_, ?_, ?_, ?_, ?_, ?_, ?_, ?_, ?_, ?_, ?_, ?_, ?_, ?_, ?_, rfl⟩ <;> decide +kernel

/-- VLDM: an entry that its header joins, and none. -/
theorem witness_parts : let part : McPart := ⟨0, ⟨0x800000, 4, 3, 4, 1, 0, 0⟩⟩
    let e : McEntry := ⟨part, [(0x800000, 7, false)], 0, [], []⟩
    (onSys base fun y => { y with mc := [e] }).sys.mc.find? (fun e => e.part == part) = some e ∧
    (∀ e ∈ base.sys.mc, e.part ≠ part) ∧ (base.partBytes part).length = 12 ∧ base.sys.homeLost 0x800000 = false ∧
    base.backed 0x800000 1 = false := by
  refine ⟨?_, ?_, ?_, ?_, ?_⟩ <;> decide +kernel

/-- VPREF in whole; a queue with an entry, and an empty one; TKCLR. -/
theorem witness_prefetch : AccessHyps (.vpref .plain 2 4) .plain [] 4 [4] [2] true needRead 1 (fun _ => (0x800000, 1)) (vec .i32 3) ∧
    Issues (.qdrop .plain 3) (queued .i32) ∧ (queued .i32).h.queues[(3 : Fin 4)] ≠ [] ∧
    Issues (.qdrop .plain 3) (vec .i32 3) ∧ (vec .i32 3).h.queues[(3 : Fin 4)] = [] ∧ Issues (.tkclr .plain) tokBase :=
  ⟨access_of (by decide +kernel), issues_of (by decide +kernel), by decide, vec_issues rfl, rfl, issues_of (by decide +kernel)⟩

/-- VKLD and VKST of the scales of 33 elements: two entries. -/
theorem witness_scales : let s := vec .i32 33
    let js := List.range ((s.h.vl + 31) / 32)
    js = [0, 1] ∧ VecReady .plain true [] [] s ∧ Clean [2] s ∧ s.h.vl ≤ 65536 ∧ Issues (.vkld .plain 1 2) s ∧
    Issues (.vkst .plain 1 2) s ∧ (∃ p, Placed needRead 1 js (fun j => ((s.readN 2 : Int) + j, 1)) p s) ∧
    ∃ p, Placed needWrite 1 js (fun j => ((s.readN 2 : Int) + j, 1)) p s :=
  ⟨rfl, vecReady_of (by decide +kernel), clean_of rfl, by decide, vec_issues rfl, vec_issues rfl, ⟨_, allPlaced_of (by decide +kernel)⟩,
    ⟨_, allPlaced_of (by decide +kernel)⟩⟩

/-- A block of virtual processors of elements 0 and 2, which stand at 0x20000. -/
def block (g : Option (List Nat)) : State := onH (vec .i32 3) fun h => { h with
  vp := some ⟨[⟨0, 0x20000, 0x20000⟩, ⟨2, 0x20000, 0x20000⟩], 0x10000, 0x10004, none, none, g, [], h.masks, h.sregs, 0, 0, []⟩ }

/-- VirtualProcessorsRun: VFETCH at an address that is not a multiple of 4, at one that is, with active elements and with none;
a group of one virtual processor and of all; offsets 0 and 8. -/
theorem witness_virtual : Issues (.vfetch .plain 2 4) (vec .i32 3) ∧ VecReady .plain true [] [4] (vec .i32 3) ∧ Clean [2] (vec .i32 3) ∧
    (vec .i32 3).h.maskClean 4 ∧ ((vec .i32 3).h.sreg 2).toNat % 4 = 0 ∧ (vec .i32 3).h.on 4 false ≠ [] ∧
    (vec .i32 0).h.on 4 false = [] ∧ ((withS [(2, 0x20002)] (vec .i32 3)).h.sreg 2).toNat % 4 ≠ 0 ∧
    (∀ g ∈ [[0], [0, 2]], ∃ r, (block (some g)).h.vp = some r ∧ r.group = some g ∧ NoUpset (block (some g)) ∧ r.vps ≠ [] ∧
      (block (some g)).h.resume = none ∧ (∀ v ∈ r.vps, g.contains v.e = true → v.e ∈ (block (some g)).h.elems)) ∧
    (∀ g ∈ [[0], [0, 2]], VecReady .plain (!isSliced .i32) [5] [] (block (some g))) ∧
    (∀ e ∈ bricks.h.elems, ((bricks.h.operands bricks.h.layout [5]).elem 5 e).gives (offset bricks [5] e) ∧
      signedOf 32 (offset bricks [5] e) % 4 = 0) := by
  refine ⟨vec_issues rfl, vecReady_of (by decide +kernel), clean_of rfl, maskClean_of rfl, by decide, by decide, by decide, by decide,
    fun g hg => ⟨_, rfl, rfl, rfl, by simp, rfl, ?_⟩, fun g hg => vecReady_of ?_, fun e he => ⟨gives_of ?_, ?_⟩⟩
  · revert g
    decide +kernel
  · revert g
    decide +kernel
  all_goals
    revert e
    decide +kernel

/-! The matrix unit, engines and lane clusters. -/

/-- A hart that holds the matrix unit at MVL 16. -/
def holding : State := onH (vec .fp32 3) fun h => { h with mvl := some .m16, nregc := .n16 }

/-- Another hart of the core of `base`, placed in context 1. -/
def other : Hart := { probeHart with ctx := 1, index := 1 }

/-- A hart that holds the matrix unit, and the other hart of its core, which waits for it since age 0. -/
def giving (w : Stall) : State := { holding with rest := [{ other with status := .stalled w }] }

/-- MatrixUnitClaims: MREL beside a hart that waits in its MSETM, and one that waits to have the unit back. -/
theorem witness_claims_waiting : ∀ w ∈ [Stall.matrix .m32 .plain, .reclaim .m32], ∃ h ∈ (giving w).rest,
    Issues (.mrel .plain) (giving w) ∧ (giving w).h.inHandler = false ∧ (giving w).h.mvl ≠ none ∧ h.core = (giving w).h.core ∧
    h.waitsUnit = true ∧ h.ctx ≠ (giving w).h.ctx ∧ h.status = .stalled w ∧ ∀ k ∈ (giving w).rest, k.mvl = none ∧ k = h := by
  intro w hw
  refine ⟨{ other with status := .stalled w }, List.mem_singleton.mpr rfl, issues_of ?_, (rfl : holding.h.inHandler = false),
    Option.some_ne_none MvlC.m16, rfl, ?_, (by decide : other.ctx ≠ holding.h.ctx), rfl, fun k hk => ⟨?_, List.mem_singleton.mp hk⟩⟩
  · revert w
    decide +kernel
  · revert w
    decide +kernel
  · cases List.mem_singleton.mp hk
    rfl

/-- MatrixUnitClaims: MSETM with its own MVL, with another, with a free unit, and with one that another hart holds; MREL, MZERO of the
last tile. -/
theorem witness_claims : (∀ i ∈ [Instr.msetm .plain .m16, .mrel .plain, .mzero .plain 3], Issues i holding) ∧
    holding.h.inHandler = false ∧ holding.h.mvl = some .m16 ∧ (∃ k, holding.h.mvl = some k ∧ k ≠ .m32) ∧
    (3 : Fin 4).val < tilesOf .m16 ∧ (∀ h ∈ holding.rest, h.core = holding.h.core → h.waitsUnit = false) ∧
    Issues (.msetm .plain .m16) base ∧ base.unitHeld base.h.core = false ∧ base.h.mvl = none ∧
    (let s := { base with rest := [{ other with mvl := some .m16 }] }
     Issues (.msetm .plain .m16) s ∧ s.h.mvl = none ∧ s.unitHeld s.h.core = true) := by
  refine ⟨fun i hi => issues_of ?_, rfl, rfl, ⟨_, rfl, by decide⟩, by decide, fun h hh => absurd hh (by simp [holding, onH, vec, base, State.withFetchWord]),
    base_issues rfl, rfl, rfl, issues_of (by decide +kernel), rfl, by decide +kernel⟩
  revert i
  decide +kernel

/-- The value of a matrix read. -/
def valueOf : MRead → FVal
  | .val v => v
  | _ => .fin false 0 0

/-- A matrix read gives a value. -/
def value? : MRead → Bool
  | .val _ => true
  | _ => false

theorem value_of {r : MRead} (h : value? r = true) : r = .val (valueOf r) := by
  cases r <;> first | rfl | cases h

/-- MatrixProducts: MOP on the last tile, MROW on its last row. -/
theorem witness_products : let x : Stack := { tile := some ⟨3, 9, 0⟩ }
    let y : Stack := { tile := some ⟨3, 0, 0⟩ }
    let s := withS [(4, 15), (9, 1)] holding
    let o1 := Src.reg 1 (s.h.disp1 x)
    let o2 := Src.reg 2 (s.h.disp2 x)
    let o := s.h.operands s.h.layout (s.h.regsOf o1 ++ s.h.regsOf o2)
    let tile : List VReg := (List.range 8).map fun u => Fin.ofNat 64 (4 + u)
    let ow := s.h.operands s.h.layout (s.h.regsOf o1 ++ tile)
    s.h.mvl = some .m16 ∧ (tileAt x).at_.val < tilesOf .m16 ∧ s.h.xfers = [] ∧ isSliced s.h.fmt = false ∧ s.h.fmt ≠ .e2m1 ∧
    Issues (.mop y 1 2) s ∧ VecReady y (matFmt s.h.fmt) [1, 2] [] s ∧ s.h.cellPoison (3 * 16 * 16) (16 * 16) = none ∧
    (∀ e < 16 * 1, mread o [] o1 e = .val (valueOf (mread o [] o1 e)) ∧ mread o [] o2 e = .val (valueOf (mread o [] o2 e))) ∧
    Issues (.mrow x 4 1 4) s ∧ Clean [4, (tileAt x).sb] s ∧ s.readN 4 < 16 ∧
    VecReady x (matFmt s.h.fmt && (4 : VReg).val + 7 < s.h.nreg) (1 :: tile) [] s ∧
    s.h.cellPoison (3 * 16 * 16 + 15 * 16) 16 = none ∧
    (∀ k < 8, mread ow [] o1 (s.readN (tileAt x).sb + k) = .val (valueOf (mread ow [] o1 (s.readN (tileAt x).sb + k))) ∧ ∀ j < 16,
      let r := mread ow [] (.reg (Fin.ofNat 64 (4 + k)) ⟨0, 0, 0⟩) j
      r = .val (valueOf r)) := by
  refine ⟨rfl, by decide, rfl, rfl, by decide, issues_of (by decide +kernel), vecReady_of (by decide +kernel), by decide +kernel,
    fun e he => ⟨value_of ?_, value_of ?_⟩, issues_of (by decide +kernel), clean_of (by decide +kernel), by decide +kernel,
    vecReady_of (by decide +kernel), by decide +kernel, fun k hk => ⟨value_of ?_, fun j hj => value_of ?_⟩⟩
  · revert e
    decide +kernel
  · revert e
    decide +kernel
  · revert k
    decide +kernel
  · revert j
    revert k
    decide +kernel

/-- MatrixRowsMove: the last row, from element 1 on. -/
theorem witness_rows : let s := withS [(4, 15), (9, 1)] holding
    let js := (List.range 16).filter fun j => (s.h.on 4 false).contains (s.readN 9 + j)
    s.h.mvl = some .m16 ∧ (3 : Fin 4).val < tilesOf .m16 ∧ VecReady .plain (isFloat s.h.fmt) [1] [4] s ∧ Clean [4, 9] s ∧
    s.h.maskClean 4 ∧ s.readN 4 < 16 ∧ js = [1] ∧ Issues (.mmovv .plain 1 4 9 4 3) s ∧ Issues (.mlda .plain 1 4 9 4 3) s ∧
    (∀ j ∈ js, s.h.poison.contains (.cell (3 * 16 * 16 + s.readN 4 * 16 + j)) = false) ∧
    ∀ j ∈ js, let r := (s.h.operands s.h.layout [1]).elem 1 (s.readN 9 + j)
      r.gives (codeOfRead r) := by
  refine ⟨rfl, by decide, vecReady_of (by decide +kernel), clean_of (by decide +kernel), maskClean_of rfl, by decide +kernel,
    by decide +kernel, issues_of (by decide +kernel), issues_of (by decide +kernel), fun j hj => rfl, fun j hj => gives_of ?_⟩
  revert j
  decide +kernel

/-- The places that a range probe finds. -/
def partsOf : Except Res (List (Nat × Nat × Phys)) → List (Nat × Nat × Phys)
  | .ok l => l
  | .error _ => []

/-- A range probe finds no fault. -/
def range? : Except Res (List (Nat × Nat × Phys)) → Bool
  | .ok _ => true
  | .error _ => false

theorem range_of {r : Except Res (List (Nat × Nat × Phys))} (h : range? r = true) : r = .ok (partsOf r) := by
  cases r <;> first | rfl | cases h

/-- A tensor of three words at 0x900000, at strides of 4, described at `a`. -/
def tensorAt (a : Nat) (s : State) : State :=
  { s with mem := s.mem.agentWrite false a (natToBytes 8 0x900000 ++ [2, 1, 0, 0, 0, 0, 0, 0] ++ natToBytes 8 3 ++ natToBytes 8 4) }

/-- The bytes of a read that finds no poison. -/
def cleanBytes (r : List Byte × Option PLoc) : Bool := r.2.isNone

theorem clean_bytes {r : List Byte × Option PLoc} (h : cleanBytes r = true) : r = (r.1, none) := by
  cases r with
  | mk a b => cases b <;> first | rfl | cases h

/-- EngineTransfersEnter: the two descriptors of a copy, which a release at .sys with a progress word begins. -/
theorem witness_engines : let s := withS [(2, 0x800000), (3, 0x800100)] (tensorAt 0x800000 (tensorAt 0x800100 base))
    let t : Tensor := ⟨0x900000, 4, [(3, 4)]⟩
    Describes s (s.readN 2) t ∧ Describes s (s.readN 3) t ∧ s.entriesUsed + 2 ≤ 32 ∧ s.h.xfers = [] ∧
    t.count * t.esz ≤ 2 ^ 40 ∧ Issues (.cecopy notifying 2 3) s ∧ Issues (.cefill .plain 2 3) s ∧ Issues (.cestat .plain 1) s ∧
    Clean [2, 3] s ∧ (∃ nt, Notifies notifying s (some nt)) ∧ (∃ p, EnginePlaced needRead t p s) ∧ ∃ p, EnginePlaced needWrite t p s := by
  have g : ∀ need ∈ [needRead, needWrite], ∀ e < 3,
      placed? (probeEngine (withS [(2, 0x800000), (3, 0x800100)] (tensorAt 0x800000 (tensorAt 0x800100 base))) need
        ((⟨0x900000, 4, [(3, 4)]⟩ : Tensor).addrs.getD e 0) 4 4) = true := by decide +kernel
  have d : ∀ a ∈ [(2 : SReg), 3],
      let s := withS [(2, 0x800000), (3, 0x800100)] (tensorAt 0x800000 (tensorAt 0x800100 base))
      let p := placeOf (probe s needRead (s.readN a) 256 1)
      s.readN a % 64 = 0 ∧ placed? (probe s needRead (s.readN a) 256 1) = true ∧ cleanBytes (s.loadBytes (s.readN a) p 256) = true ∧
        Tensor.ofBytes (s.loadBytes (s.readN a) p 256).1 = some ⟨0x900000, 4, [(3, 4)]⟩ := by decide +kernel
  have w : ∀ a ∈ [(2 : SReg), 3], Describes (withS [(2, 0x800000), (3, 0x800100)] (tensorAt 0x800000 (tensorAt 0x800100 base)))
      ((withS [(2, 0x800000), (3, 0x800100)] (tensorAt 0x800000 (tensorAt 0x800100 base))).readN a) ⟨0x900000, 4, [(3, 4)]⟩ :=
    fun a ha => ⟨(d a ha).1, _, _, placed_of (d a ha).2.1, clean_bytes (d a ha).2.2.1, (d a ha).2.2.2⟩
  refine ⟨w 2 (by simp), w 3 (by simp), by decide +kernel, rfl,
    by decide, issues_of (by decide +kernel), issues_of (by decide +kernel), issues_of (by decide +kernel),
    clean_of (by decide +kernel), ⟨_, clean_of (by decide +kernel), _, placed_of (by decide +kernel), rfl⟩,
    ⟨_, fun e he => placed_of (g needRead (by simp) e he)⟩, ⟨_, fun e he => placed_of (g needWrite (by simp) e he)⟩⟩

/-- MSTA: every cell of the last tile at its place. -/
theorem witness_msta : let s := withS [(3, 64)] holding
    let ok := fun (addr : Nat → Int) => allPlaced? needWrite 4 ((List.range 256).filter fun c => (s.h.on 4 false).contains (c % 16))
      (fun c => (addr c, 4)) s
    Issues (.mstaStrided notifying 2 3 4 3) s ∧ VecReady notifying true [] [4] s ∧ Clean [2, 3] s ∧ s.h.maskClean 4 ∧
    (∃ nt, Notifies notifying s (some nt)) ∧
    ok (fun c => s.readN 2 + (c / 16 : Nat) * (s.h.sreg 3).toInt + (4 * (c % 16) : Nat)) = true ∧ s.h.poison = [] :=
  ⟨issues_of (by decide +kernel), vecReady_of (by decide +kernel), clean_of (by decide +kernel), maskClean_of rfl,
    ⟨_, clean_of (by decide +kernel), _, placed_of (by decide +kernel), rfl⟩, by decide +kernel, rfl⟩

theorem witness_msta_indexed : let s := onH bricks fun h => { h with mvl := some .m16 }
    Issues (.mstaIndexed .plain 2 5 4 3) s ∧ VecReady .plain (16 ≤ width s.h.fmt) [5] [4] s ∧ Clean [2] s ∧
    allPlaced? needWrite 4 ((List.range 256).filter fun c => (s.h.on 4 false).contains (c / 16))
      (fun c => (s.readN 2 + signedOf 32 (offset s [5] (c / 16)) + (4 * (c % 16) : Nat), 4)) s = true ∧
    ∀ e ∈ s.h.on 4 false, ((s.h.operands s.h.layout [5]).elem 5 e).gives (offset s [5] e) := by
  refine ⟨issues_of (by decide +kernel), vecReady_of (by decide +kernel), clean_of (by decide +kernel), by decide +kernel,
    fun e he => gives_of ?_⟩
  revert e
  decide +kernel

/-- GeometryIsNegotiated: no element, one, and more than fit; a geometry of bricks. -/
theorem witness_geometry : (∀ i ∈ [Instr.setvl .plain 1 0 .fp32 .n8, .setvl .plain 1 2 .fp32 .n64, .setvlb .plain 1 .i8 .n4 4 4 4],
    Issues i base) ∧ base.h.inHandler = false ∧ base.h.preempt = false ∧ base.placedOnce ∧ base.readN 0 = 0 ∧ base.readN 2 ≠ 0 ∧
    (withS [(2, -1)] base).readN 2 = 2 ^ 64 - 1 ∧ isSliced .i8 = false ∧ Clean [0, 2] base ∧
    ∀ h ∈ base.rest, h.core = base.h.core → h.status = .absent := by
  refine ⟨fun i hi => issues_of ?_, rfl, rfl, base_alone.1, by decide +kernel, by decide +kernel, by decide +kernel, rfl, clean_of rfl,
    base_alone.2⟩
  revert i
  decide +kernel

/-- Table 2-5, before its step 4: H0 holds every lane cluster; H1 waits, and H2 behind it. -/
def shared : State :=
  let waits := fun (k : Ctx) (age : Nat) => { probeHart with
    ctx := k, index := k.val, requester := true, waitAge := age, demand := 8,
    status := .stalled (.lanes ⟨.flat 100000, 1, .fp32, .n8, 8, .plain⟩) }
  withS [(2, 100000)] { onH base fun h => { h with lcs := 0xFF, requester := true, demand := 8 } with rest := [waits 1 5, waits 2 9] }

theorem shared_waits : WaitsForLanes shared shared.rest := by
  constructor
  · intro h
    refine ⟨fun hh => ⟨hh, ?_⟩, And.left⟩
    revert h
    decide +kernel
  · decide +kernel
  · intro h hh
    simp only [shared, List.mem_cons, List.not_mem_nil, or_false, withS, List.foldl_cons, List.foldl_nil, onH] at hh
    rcases hh with rfl | rfl <;> exact ⟨_, rfl⟩
  · decide +kernel

/-- GeometryIsNegotiated, Table 2-5, step 4: H0 asks for eight again and keeps two, H1 is granted LC0 and LC1, and H2 LC2 and LC3. -/
theorem witness_geometry_shared : WaitsForLanes shared shared.rest ∧ (∀ i ∈ [Instr.setvl .plain 1 2 .fp32 .n8, .setvl .plain 1 0 .fp32 .n8,
      .setvlb .plain 1 .i8 .n4 4 4 4], Issues i shared) ∧ shared.h.inHandler = false ∧ shared.h.preempt = false ∧
    Clean [0, 2] shared ∧ shared.readN 2 ≠ 0 ∧ shared.readN 0 = 0 ∧ (shared.h.lcs ≠ 0) ∧
    Spec.fairShare (1 + shared.otherRequesters) = 2 ∧ Spec.grants 2 (shared.freeClusters [6, 7]) [8, 8] = [[0, 1], [2, 3]] := by
  refine ⟨shared_waits, fun i hi => issues_of ?_, rfl, rfl, clean_of (by decide +kernel), by decide +kernel, by decide +kernel,
    by decide, by decide +kernel, by decide +kernel⟩
  revert i
  decide +kernel

/-- An image of three words at 0x800000. -/
def imaged : State :=
  let header := natToBytes 8 3 ++ natToBytes 8 0x10 ++ natToBytes 8 (2 ^ 62) ++ natToBytes 8 0 ++ natToBytes 8 (imageLen 3 32 4)
  withS [(4, 0x800000)] { base with mem := base.mem.agentWrite false 0x800000 header }

/-- ShellsAndImages: a face to a link and to a constant; VSAVE; VREST of a header with its image. -/
theorem witness_images :
    (∀ k ∈ [ShKind.link, .const, .zero], Issues (.setsh .plain 7 7 k .all) (vec .i32 3)) ∧ (7 : VReg).val < (vec .i32 3).h.nreg ∧
    Clean [7] (vec .i32 3) ∧
    (Issues (.vsave .plain 4) imaged ∧ Clean [4] imaged ∧ imaged.h.offChip = [] ∧ imaged.h.xfers = [] ∧ imaged.h.vl ≤ 65536 ∧
      imaged.readN 4 % 64 = 0 ∧
      ∃ ps, rangeProbe imaged needWrite (imaged.readN 4) (pageParts (imaged.readN 4) (imageLen imaged.h.vl 32 imaged.h.nreg)) = .ok ps) ∧
    (Issues (.vrest .plain 4) imaged ∧ imaged.h.inHandler = false ∧ imaged.h.preempt = false ∧ imaged.readN 4 % 64 = 0 ∧
      (∀ h ∈ imaged.rest, h.core = imaged.h.core → h.status = .absent)) ∧
    ∃ ps qs, rangeProbe imaged needRead 0x800000 (pageParts 0x800000 64) = .ok ps ∧
      rangeProbe imaged needRead 0x800000 (pageParts 0x800000 (imageScaleAt 3 32 4 8)) = .ok qs ∧
      (∀ o ∈ (imaged.rangeBytes 0x800000 ps).2, 0x28 ≤ o) ∧
      let hd := (imaged.rangeBytes 0x800000 ps).1
      vtypeFields (imageAt hd 8 8) = some (.fp32, .n4) ∧ imageAt hd 0x10 8 / 2 ^ 36 % 2 ^ 26 = 0 ∧
      imageAt hd 0x10 8 / 2 ^ 9 % 8 = 0 ∧ imageAt hd 0x20 8 = imageScaleAt (imageAt hd 0 8) (width .fp32) (4 * 2 ^ NregC.n4.code) 8 ∧
      imageAt hd 0 8 ≤ 65536 ∧ imageAt (imaged.rangeBytes 0x800000 qs).1 0 8 ≤ 65536 ∧
      ∃ sh, shellAt (imageAt (imaged.rangeBytes 0x800000 qs).1) 0x100 sh := by
  refine ⟨fun k _ => vec_issues rfl, by decide +kernel, clean_of rfl,
    ⟨issues_of (by decide +kernel), clean_of (by decide +kernel), rfl, rfl, by decide +kernel, by decide +kernel, _,
      range_of (by decide +kernel)⟩,
    ⟨issues_of (by decide +kernel), rfl, rfl, by decide +kernel,
      fun h hh => absurd hh (by simp [imaged, withS, base, State.withFetchWord])⟩,
    _, _, range_of (by decide +kernel), range_of (by decide +kernel), ?_, ?_, ?_, ?_, ?_, ?_, ?_, .zero, ?_⟩ <;>
    first | decide +kernel | (unfold shellAt; decide +kernel)

/-- VREST: a geometry that fits the lane clusters granted, and one that does not. -/
theorem witness_images_fit :
    let fits := fun (vl g bricks size w k : Nat) => vl ≤ k * 262144 / (2 * 4 * w) && (g.testBit 62 ||
      size ≤ 512 && (bricks + 8 * k - 1) / (8 * k) * size * w ≤ 32 * (512 / 4))
    fits 3 (2 ^ 62) 1 1 32 1 = true ∧ fits 65536 (2 ^ 62) 1 1 32 8 = false ∧
    fits 1024 0 1 1024 32 8 = false := by decide
/-! Synchronisation, gangs, privilege. -/

/-- StripsAreClaimed: a block of a farm whose bytes are clean; s[sb] is not 0. -/
theorem witness_strips : let s := vec .i32 3
    let p := placeOf (probe s needAtomic (s.readN 2) 16 16)
    let r := (s.atHome s.h p 16).curPhys s.h.core p 16
    Clean [2, 3] s ∧ Reaches needAtomic (s.readN 2) 16 p s ∧ Issues (.claim .plain 1 2 3) s ∧ Issues (.farm .plain 2 3) s ∧
    s.h.inHandler = false ∧ s.h.lcs ≠ 0 ∧ s.readN 3 ≠ 0 ∧ r = (r.1, none) :=
  ⟨clean_of rfl, reaches_of (by decide +kernel), vec_issues rfl, vec_issues rfl, rfl, by decide, by decide +kernel, by decide +kernel⟩

/-- FENCE with the least and the greatest set; WAITM with a word that differs, one that is equal, and an interrupt that pends. -/
theorem witness_waits : (∀ c ∈ [(1 : BitVec 4), 15], c ≠ 0 ∧ Issues (.fence .plain .sys c) base) ∧
    (∀ b : SReg, Issues (.waitm .plain 2 b) base) ∧ Clean [2, 3, 0] base ∧
    (let p := placeOf (probe base needRead (base.readN 2) 4 4)
     let r := base.curPhys base.h.core p 4
     Reaches needRead (base.readN 2) 4 p base ∧ r = (r.1, none) ∧ bytesNat r.1 ≠ base.readN 3 % 2 ^ 32 ∧
       bytesNat r.1 = base.readN 0 % 2 ^ 32) ∧ base.h.irq = none ∧ base.h.preempt = false ∧
    (onH base fun h => { h with irq := some (5, false) }).h.irq ≠ none := by
  refine ⟨fun c hc => ⟨?_, base_issues rfl⟩, fun b => base_issues rfl, clean_of rfl,
    ⟨reaches_of (by decide +kernel), by decide +kernel, by decide +kernel, by decide +kernel⟩, rfl, rfl, by decide⟩
  revert c
  decide

/-- A second hart of the gang of `base`, on core 1. -/
def peer : Hart := { probeHart with core := 1, index := 1 }

/-- BAR of core 0 alone; of cores 0 and 1, first and last to arrive. -/
theorem witness_barriers :
    let named := fun (s : State) (m : Nat) (y : BarInst) => y.pod = 0 ∧ y.gang = s.h.gang ∧ y.mask = BitVec.ofNat 16 m
    let old : BarInst := ⟨0, 0, 3, .pod, [1]⟩
    let two : State := { base with rest := [peer] }
    let last := onSys two fun y => { y with bars := [old] }
    (∀ s ∈ [withS [(7, 1)] base, withS [(7, 3)] two, withS [(7, 3)] last], Issues (.bar .plain 7 .pod) s ∧ Clean [7] s ∧
      s.readN 7 < 2 ^ 16 ∧ (s.readN 7).testBit (s.h.core.val % 16) = true ∧
      ∀ k < 16, (s.readN 7).testBit k = true → s.hasParticipant s.h.gang (16 * 0 + k) = true) ∧
    barScope .pod = true ∧ base.sys.bars.find? (fun y => named base 1 y) = none ∧ base.sys.bars.countP (fun y => y.pod = 0) < 16 ∧
    (∀ j ∈ base.awaits ⟨0, 0, 1, .pod, [0]⟩, j ∈ [0]) ∧
    (∃ j ∈ two.awaits ⟨0, 0, 3, .pod, [0]⟩, j ∉ [0]) ∧
    last.sys.bars.find? (fun y => named last 3 y) = some old ∧ old.scope = .pod ∧
    ∀ j ∈ last.awaits ⟨0, 0, 3, .pod, [1, 0]⟩, j ∈ [1, 0] := by
  refine ⟨fun s hs => ⟨issues_of ?_, clean_of ?_, ?_, ?_, ?_⟩, rfl, rfl, by decide, by decide +kernel, by decide +kernel, by decide +kernel,
    rfl, by decide +kernel⟩
  all_goals
    revert s
    decide +kernel

/-- A gang of two harts on cores 0 and 1, that of `base` and its peer. -/
def duo : Gang :=
  ⟨0, ⟨0x10000, 0, 0, 0, 0, 0x400000, 0, 1, 3, 2, 0, 0, 0, 0, 0⟩, 0, 0, true, [(0, 0)], .resident, true, 0, 0, 2, [], [],
    [(0, 0, 0), (1, 1, 0)], false⟩

/-- The harts of that gang, with s2 naming hart 1. -/
def exchange (ms : List Message) : State :=
  let s := withS [(2, 1)] (vec .i32 3)
  { s with rest := [peer], sys := { s.sys with gangs := [duo], msgs := ms } }

/-- EXIT of a hart that stands once at its place, in a gang. HartsCommunicate: XSEND while 7 messages stand, none from the sender beside
one; XRECV with a message and with none. -/
theorem witness_exchange :
    (∀ i ∈ [Instr.exit .plain, .xsend .plain 2 1, .xrecv .plain 1 2], Issues i (exchange [])) ∧ (exchange []).placedOnce ∧
    (exchange []).gangOf (exchange []).h.gang = some duo ∧ Clean [2] (exchange []) ∧
    (exchange []).readN 2 < duo.desc.harts.toNat ∧ (exchange []).readN 2 ≠ (exchange []).h.index ∧
    (∀ p ∈ duo.places, p.1 = 1 → podOf p.2.1 = 0 ∧ p.2.1 ≠ 0) ∧ (1 : VReg).val < (exchange []).h.nreg ∧
    (exchange []).h.offChip = [] ∧
    (let ms := List.replicate 6 (⟨0, 2, 1, 0, [], []⟩ : Message) ++ [⟨0, 0, 1, 0, [], []⟩]
     Issues (.xsend .plain 2 1) (exchange ms) ∧ (ms.filter fun m => m.gang = 0 ∧ m.receiver = 1).length < 8 ∧
       (ms.filter fun m => m.gang = 0 ∧ m.receiver = 1).countP (fun m => m.sender = 0) < 2) ∧
    (let m : Message := ⟨0, 1, 0, 1, [0], [⟨0, 7, false⟩]⟩
     Issues (.xrecv .plain 1 2) (exchange [m]) ∧
       (exchange [m]).sys.msgs.find? (fun m => decide (m.gang = 0 ∧ m.receiver = 0 ∧ m.sender = 1)) = some m) ∧
    ∀ m ∈ (exchange []).sys.msgs, ¬(m.gang = 0 ∧ m.receiver = 0 ∧ m.sender = 1) := by
  refine ⟨fun i hi => issues_of ?_, fun h hh => ?_, rfl, clean_of rfl, by decide +kernel, by decide +kernel, by decide, by decide +kernel,
    rfl, ⟨issues_of (by decide +kernel), by decide, by decide⟩, ⟨issues_of (by decide +kernel), rfl⟩, by decide⟩
  · revert i
    decide +kernel
  · rw [show (exchange []).rest = [peer] from rfl, List.mem_singleton] at hh
    subst hh
    decide

/-- A descriptor of one hart on core 0, of priority `p`, of context 0. -/
def oneHart (p : BitVec 8) : Desc := ⟨0x10000, 0, 0, 0, 0, 0x400000, 0, 1, 1, 1, 0, p, 0, 0, 0⟩

/-- The machine of `base`, with its page at 0x800000 in host memory. -/
def hosted : State := onSys { base with mem := { base.mem with
  transl := [⟨.tlb 0, 0, 0x800, wd (0x20000000000 + 127), 4096, []⟩] } } fun y => { y with hostUp := true }

/-- HartsCommunicate: AMSG to a target that no die homes, and to one whose Teller answers, or waits for what an open multicast entry
holds. -/
theorem witness_amsg : Issues (.amsg { ext := some 1 } 1 2 4) hosted ∧
    (∃ p, probe hosted needNormalAtomic (hosted.readN 2) 1 1 = .ok p ∧ homeDie p.pa = none) ∧
    (∃ p, probe hosted needRead (hosted.readN 4) 64 64 = .ok p) ∧
    (∃ p, probe base needNormalAtomic (base.readN 2) 1 1 = .ok p ∧ homeDie p.pa = some 0) ∧
    (let m : TMsg := ⟨5, none, 1, List.replicate 64 0, 0x800020, 0, 0⟩
     ((base.runQueue 5).bind fun u => runHandler u m).isSome = true) := by
  refine ⟨issues_of (by decide +kernel), ⟨_, placed_of (by decide +kernel), by decide +kernel⟩, ⟨_, placed_of (by decide +kernel)⟩,
    ⟨_, placed_of (by decide +kernel), by decide +kernel⟩, ?_⟩
  decide +kernel

/-- HartsCommunicate: LAUNCH and AMSG; a descriptor that is bad, one of priority 3 from a hart without privilege, one with slots, one
without. -/
theorem witness_launches : Issues (.launch .plain 1 2) base ∧ Issues (.amsg { ext := some 1 } 1 2 4) base ∧ Clean [2, 4] base ∧
    (let p := placeOf (probe base needRead (base.readN 2) 80 16)
     probe base needRead (base.readN 2) 80 16 = .ok p ∧ (base.loadBytes (base.readN 2) p 80).2 = none) ∧
    (∃ p, probe base needNormalAtomic (base.readN 2) 1 1 = .ok p) ∧ (∃ p, probe base needRead (base.readN 4) 64 64 = .ok p) ∧
    (oneHart 4).bad true = true ∧ (oneHart 3).bad true = false ∧ (oneHart 3).prio = 3 ∧ (oneHart 0).bad true = false ∧
    (oneHart 0).prio ≠ 3 ∧ (oneHart 0).dies = [0] ∧ State.reset.sys.freeSlot 0 ≠ none ∧
    (onSys State.reset fun y => { y with failed := [.cdie 0] }).sys.freeSlot 0 = none := by
  refine ⟨base_issues rfl, issues_of (by decide +kernel), clean_of rfl, ⟨placed_of (by decide +kernel), by decide +kernel⟩,
    ⟨_, placed_of (by decide +kernel)⟩, ⟨_, placed_of (by decide +kernel)⟩, ?_, ?_, rfl, ?_, by decide, ?_, ?_, ?_⟩ <;> decide +kernel

/-- PrivilegedOperations: INCB of the least and the greatest context, with the next incarnation free and not free; RCF with a sweep and
without; SLWB of a range and of none, and one that waits for a multicast entry; HMSW. -/
theorem witness_privileged : base.h.cid = 0 ∧ (∀ i ∈ [Instr.incb .plain 1 2, .rcf .plain 1 2, .slwb .plain 2 3, .slwb .plain 2 0, .hmsw .plain 2],
      Issues i base) ∧ Clean [2, 3, 0] base ∧ base.readN 0 = 0 ∧ base.readN 3 ≠ 0 ∧ base.h.sreg 2 ≠ 0 ∧
    (withS [(2, 1)] base).readN 2 = 1 ∧ (withS [(2, 4095)] base).readN 2 = 4095 ∧
    base.sys.incState 1 1 = .free ∧ (onSys base fun y => { y with states := [(1, 1, .sweep)] }).sys.incState 1 1 ≠ .free ∧
    base.sys.sweeping 1 = false ∧ (onSys base fun y => { y with sweeps := [⟨1, 0, [], false⟩] }).sys.sweeping 1 = true ∧
    (let s := withS [(3, 4097)] base
     Issues (.slwb .plain 2 3) s ∧ addressOk (s.readN 2) (s.readN 3) = true ∧
       ∃ ps, rangeBy s (slwbProbe s) (s.readN 2) (pageParts (s.readN 2) (s.readN 3)) = .ok ps) ∧
    base.stuckOn 0 = false ∧ base.slwbWaits 0 0x800000 64 = false ∧
    (let s := { base with mem := { base.mem with regd := [⟨0x800000, 0, 0, 0, 7, false, 0, false⟩] } }
     (onSys s fun y => { y with mc := [⟨⟨0, ⟨0x800000, 4, 4, 4, 1, 0, 0⟩⟩, [], 0, [], []⟩] }).slwbWaits 0 0x800000 64 = true) ∧
    (onSys (onH base fun h => { h with xfers := [⟨.cefill, [.put (memAt 0x20000000000) [1] false], none, 1⟩] })
      fun y => { y with hostUp := true, retraining := [.host] }).stuckOn 0 = true := by
  refine ⟨rfl, fun i hi => base_issues ?_, clean_of rfl, by decide +kernel, by decide +kernel, by decide +kernel, by decide +kernel,
    by decide +kernel, rfl, by decide, rfl, rfl, ⟨issues_of (by decide +kernel), by decide +kernel, _, range_of (by decide +kernel)⟩, by decide +kernel, by decide +kernel,
    by decide +kernel, by decide +kernel⟩
  simp only [List.mem_cons, List.not_mem_nil, or_false] at hi
  rcases hi with rfl | rfl | rfl | rfl | rfl <;> rfl

/-! The module's own rows. -/

/-- DeviceRegistersTakeStores: offsets at the ends of each clause's ranges; a command block that is busy, and one that is not. -/
theorem witness_deviceRegisters :
    (∀ off ∈ [8, 0xF010, 0x10000, 0x10028, 0x20100, 0x3F2F8], devAssigned off = true ∧
      (off < 0x10000 ∧ (off % 0x1000 = 8 ∨ off % 0x1000 = 0x10) ∨ 0x10000 ≤ off ∧ off < 0x10030 ∨
        0x20000 ≤ off ∧ 0x100 ≤ off % 0x1000 ∧ off % 0x1000 < 0x300)) ∧
    (∀ off ∈ [0x20000, 0x3F0F8], devAssigned off = true ∧ 0x20000 ≤ off ∧ off % 0x1000 < 0x100) ∧
    (∀ off ∈ [0x20, 0xF020, 0x10038], devAssigned off = true ∧ (off < 0x10000 ∧ off % 0x1000 = 0x20 ∨ off = 0x10038)) ∧
    (∀ off ∈ [0x18, 0xF018, 0x10040, 0x101B8, 0x11008, 0x12000], devAssigned off = true ∧
      (off < 0x10000 ∧ off % 0x1000 = 0x18 ∨ 0x10040 ≤ off ∧ off < 0x11000 ∨ off = 0x11008 ∨ off = 0x12000)) ∧
    (∀ off ∈ [0, 0xF000], devAssigned off = true ∧ off < 0x10000 ∧ off % 0x1000 = 0 ∧
      (State.reset.sys.dev (off + 0x20)).getLsbD 0 = false ∧
      ((onSys State.reset fun y => { y with devr := [(off + 0x20, 1)] }).sys.dev (off + 0x20)).getLsbD 0 = true) ∧
    (∀ off ∈ [0x10030, 0x11000, 0x13000, 0x20300, 0x3F300], devAssigned off = true) ∧
    ∀ off ∈ [0x20300, 0x3F300], 0x20000 ≤ off ∧ off % 0x1000 = 0x300 := by decide

/-- DeviceRegistersTakeStores: a module that stays in reset, and one that runs; the least and the greatest offset of the Vault. -/
theorem witness_deviceRegisters_reset : State.reset.sys.booted = false ∧ base.sys.booted = true ∧
    (∀ off ∈ [0x10000, 0x101B8], devAssigned off = true ∧ 0x10000 ≤ off ∧ off < 0x101C0) ∧
    ∀ off ∈ [0xF020, 0x11000], devAssigned off = true ∧ ¬(0x10000 ≤ off ∧ off < 0x101C0) := by
  refine ⟨rfl, rfl, ?_, ?_⟩ <;> decide

/-- VaultPowerAndBoot: POWCAP below, at and above its ends; SELFID unset and set, below and at 2040; a port that is enabled and one
that is not; MEXT of a locked index, of a free one, while busy; a measurement; a draw above and at the cap. -/
theorem witness_vault :
    ((900 : Word).toNat % 2 ^ 16 = 900 ∧ (1800 : Word).toNat % 2 ^ 16 = 1800 ∧ (899 : Word).toNat % 2 ^ 16 = 899 ∧
      (1801 : Word).toNat % 2 ^ 16 = 1801) ∧ State.reset.sys.selfSet = false ∧
    (2039 : Word).toNat % 2 ^ 11 < 2040 ∧ 2040 ≤ (2040 : Word).toNat % 2 ^ 11 ∧
    (∃ s, exec (.selfidWrite 7) State.reset = .next s ∧ s.sys.selfSet = true) ∧
    (State.reset.sys.dev 0x10030).toNat < 4 ∧
    (let s := fun i : Word => onSys State.reset fun y => { y with devr := [(0x10030, i)] }
     ((s 4).sys.dev 0x10030).toNat = 4 ∧ ((s 7).sys.dev 0x10030).toNat = 7 ∧ ((s 4).sys.dev 0x10038).getLsbD 0 = false) ∧
    (let s := onSys State.reset fun y => { y with measuring := some (4, [1]) }
     s.sys.measuring = some (4, [1])) ∧
    (State.reset.sys.dev 0x11000).toNat < (1801 : BitVec 16).toNat ∧ (1800 : BitVec 16).toNat ≤ (State.reset.sys.dev 0x11000).toNat ∧
    (onSys State.reset fun y => { y with withheld := true }).sys.withheld = true ∧ (1 : Word).getLsbD 0 = true ∧
    (0 : Word).getLsbD 0 = false ∧ State.reset.sys.portUp 31 = false ∧
    (onSys State.reset fun y => { y with devr := [(portReg 31, 2)] }).sys.portUp 31 = true ∧ State.reset.sys.booted = false :=
  ⟨by decide +kernel, rfl, by decide +kernel, by decide +kernel, ⟨_, rfl, by decide +kernel⟩, by decide, by decide, rfl, by decide, by decide, rfl, rfl, rfl,
    by decide +kernel, by decide +kernel, rfl⟩

theorem verify_five {i : Image} {room : Nat} (h : imageAt i.header 0 4 ≠ 0x37424C55) : i.verify room ≠ 0 := by
  simp [Image.verify, h]

theorem verify_zero {i : Image} {room : Nat} (h0 : ¬(imageAt i.header 0 4 ≠ 0x37424C55 ∨ room < imageAt i.header 8 8))
    (h1 : ¬(imageAt i.header 0x20 96 ≠ 0 ∨ imageAt i.header 0xE1 31 ≠ 0)) (h2 : imageAt i.header 0xE0 1 = 0)
    (hk : Config.keyRevoked 0 = false) (hn : ¬imageAt i.header 4 4 < Config.fusedSvn.toNat)
    (hs : signatureOk (Config.publicKey 0) (sha384 (i.signed (imageAt i.header 8 8))) (List.take 48 (List.drop 128 i.header))
      (List.take 48 (List.drop 176 i.header)) = true) : i.verify room = 0 := by
  simp [Image.verify, h0, h1, h2, hk, hn, hs]

/-- A flash that holds an image of no bytes, of key 0 and the greatest security version. -/
def imageFlash : Store :=
  Store.setN unlistedFlash 0xE0 (List.replicate 32 0) (Store.setN unlistedFlash 0x20 (List.replicate 96 0)
    (Store.setN unlistedFlash 8 (List.replicate 8 0) (Store.setN unlistedFlash 0 (natToBytes 4 0x37424C55) [])))

/-- Boot from an empty flash fails twice; an image verifies where its key and its signature hold (log entry 12). -/
theorem witness_boot : (flashImage [] 0).verify (0x8000000 - 0x100) ≠ 0 ∧ (flashImage [] 0x8000000).verify (0x8000000 - 0x100) ≠ 0 ∧
    (let i := flashImage imageFlash 0
     Config.keyRevoked 0 = false → signatureOk (Config.publicKey 0) (sha384 (i.signed (imageAt i.header 8 8)))
       (List.take 48 (List.drop 128 i.header)) (List.take 48 (List.drop 176 i.header)) = true →
      (flashImage imageFlash 0).verify (0x8000000 - 0x100) = 0) := by
  refine ⟨verify_five (by decide +kernel), verify_five (by decide +kernel), fun hk hs => ?_⟩
  have hsvn : ¬(imageAt (flashImage imageFlash 0).header 4 4 < Config.fusedSvn.toNat) := by
    have h0 : imageAt (flashImage imageFlash 0).header 4 4 = 2 ^ 32 - 1 := by decide +kernel
    have := Config.fusedSvn.isLt
    omega
  have h0 : ¬(imageAt (flashImage imageFlash 0).header 0 4 ≠ 0x37424C55 ∨
      0x8000000 - 0x100 < imageAt (flashImage imageFlash 0).header 8 8) := by decide +kernel
  have h1 : ¬(imageAt (flashImage imageFlash 0).header 0x20 96 ≠ 0 ∨ imageAt (flashImage imageFlash 0).header 0xE1 31 ≠ 0) := by
    decide +kernel
  exact verify_zero h0 h1 (by decide +kernel) hk hsvn hs

/-- A command of code `op` in block 0. -/
def cmd (op : BitVec 8) (a b : Word) : CmdRun := ⟨0, op, a, b, false, none⟩

/-- `s` with that command in progress. -/
def running (op : BitVec 8) (a b : Word) (s : State) : State := onSys s fun y => { y with cmds := [cmd op a b] }

/-- CommandsTakeEffect: a command of each code is in progress, and of two codes that are not assigned. -/
theorem witness_commands_run : (∀ n < 17, (running (BitVec.ofNat 8 n) 0 0 base).runs n (cmd (BitVec.ofNat 8 n) 0 0)) ∧
    (∀ n ∈ [0, 17, 255], (running (BitVec.ofNat 8 n) 0 0 base).sys.pendingCmds (fun op => op = 0 ∨ 16 < op) =
      [cmd (BitVec.ofNat 8 n) 0 0]) := by
  refine ⟨?_, by decide +kernel⟩
  unfold State.runs
  decide +kernel

/-- The operands just inside the limits and just outside them. -/
theorem witness_commands_operands :
    (8 : Word).toNat % 16 ≠ 0 ∧ mainEnd < (0x180000000000 : Word).toNat + 80 ∧ (0 : Word).toNat % 16 = 0 ∧
    (0 : Word).toNat + 80 ≤ mainEnd ∧ (BitVec.ofNat 64 (mainEnd - 80) : Word).toNat + 80 = mainEnd ∧
    (4095 : Word).toNat = 4095 ∧ (4096 : Word).toNat = 4096 ∧ (BitVec.ofNat 64 (2 ^ 52 - 1) : Word).toNat + (1 : Word).toNat = 2 ^ 52 ∧
    (1 : Word) ≠ 0 ∧ (3 : Word).toNat < 4 ∧ (4 : Word).toNat = 4 ∧ (255 : Word).toNat < 256 ∧ (256 : Word).toNat = 256 ∧
    (0x10000 : Word).toNat % 0x10000 = 0 ∧ (BitVec.ofNat 64 (mainEnd - 0x200000) : Word).toNat + 0x200000 = mainEnd ∧
    (BitVec.ofNat 64 (mainEnd - 0x2000) : Word).toNat + 0x2000 = mainEnd ∧ (64 : Word).toNat % 64 = 0 ∧ (15 : Word).toNat = 15 ∧
    (16 : Word).toNat = 16 ∧ (BitVec.ofNat 64 (mainEnd - 544) : Word).toNat + 544 ≤ mainEnd := by
  refine ⟨?_, ?_, ?_, ?_, ?_, ?_, ?_, ?_, ?_, ?_, ?_, ?_, ?_, ?_, ?_, ?_, ?_, ?_, ?_, ?_⟩ <;> decide +kernel

/-- Agents, harts, masters and gangs that a command names, and some that it does not. -/
theorem witness_commands_names :
    agentOf 0 = some (.cdie 0) ∧ agentOf 0x30000 = some (.cdie 3) ∧ agentOf 0x40000 = none ∧ agentOf 0x1010000 = some (.hdie 1) ∧
    agentOf 0x21F07F7 = some (.peer 31 2039) ∧ agentOf 0x21F07F8 = none ∧ agentOf 0x3000000 = some .host ∧
    base.sys.hostUp = false ∧ (onSys base fun y => { y with hostUp := true }).sys.hostUp = true ∧
    base.namedHart 0 = some base.h ∧ base.namedHart 1 = none ∧ base.h.status ≠ .heldInFault ∧
    (let s := onH base fun h => { h with status := .heldInFault, tvec := 3 }
     s.namedHart 0 = some s.h ∧ s.h.status = .heldInFault ∧ s.onHart s.h.core s.h.ctx resumeHeld = some (resumeHeld s)) ∧
    base.onHart base.h.core base.h.ctx exitHart = some (exitHart base) ∧
    (Master.ofWord 0x500000000000000).valid 0x500000000000000 = true ∧ (Master.ofWord 0).valid 0 = false ∧
    base.gangOf 0 = none ∧ (exchange []).gangOf 0 = some duo ∧ duo.st = .resident ∧ base.mem.wf = true ∧
    base.sys.homeLost 0x800000 = false ∧ base.sys.mcHolds 0x800000 = false ∧ base.mem.regd = [] ∧
    base.sys.sweeping 4 = false := by
  refine ⟨?_, ?_, ?_, ?_, ?_, ?_, ?_, rfl, rfl, rfl, ?_, by decide, ⟨rfl, rfl, rfl⟩, rfl, ?_, ?_, rfl, rfl, rfl, ?_, rfl, rfl, ?_, rfl⟩ <;>
    decide +kernel

/-- Operands in memory that the commands may name, and beyond it; links that are up; a rerun that can be done, one that is done and
waits, and one whose transfers wait for a link. -/
theorem witness_commands_memory :
    (∀ p ∈ [(0x800000, 16), (0x800000, 0x2000), (0x800000, 544), (0x800000, 48), (0x800000 + 0x100000, 64), (mainEnd - 64, 64)],
      base.sys.normal p.1 p.2 = true) ∧ (∀ p ∈ [(mainEnd, 16), (mainEnd - 8, 16), (0x180000000000, 64)], base.sys.normal p.1 p.2 = false) ∧
    base.sys.linkWaits 0x900000 = false ∧ base.sys.endsWait 0x800000 0x2000 = false ∧ base.sys.endsWait 0x800000 48 = false ∧
    base.sys.endsWait 0x800000 544 = false ∧ (∀ i < 544, base.sys.homeLost (0x800000 + i) = false) ∧ base.sys.reports = [] ∧
    (∀ d, base.slwbWaits d 0x800000 64 = false) ∧ base.sys.mcHoldsN 0x800000 544 = false ∧ base.backed 0x800000 544 = false ∧
    base.backed 0x900000 64 = false ∧ (∀ h ∈ base.harts, base.stuckOf h = false) ∧ base.stuckFor base.h = false ∧ base.stuckOn 3 = false ∧
    (exchange []).rerunWaits duo = false ∧ ({ cmd 13 0 0 with down := true } : CmdRun).down = true ∧
    ((exchange []).rerun duo |>.gangOf 0 |>.map (·.st)) = some .resident ∧
    (let s := onSys (onH (exchange []) fun h => { h with xfers := [⟨.cefill, [.put (memAt 0x20000000000) [1] false], none, 1⟩] })
      fun y => { y with hostUp := true, retraining := [.host] }
     s.rerunWaits duo = true) := by
  refine ⟨?_, ?_, ?_, ?_, ?_, ?_, ?_, ?_, ?_, ?_, ?_, ?_, ?_, ?_, ?_, ?_, rfl, ?_, ?_⟩ <;> decide +kernel

/-- A command that has been answered. -/
theorem witness_command_answered : let k : CmdRun := { cmd 5 3 1 with n := 15, ans := some 0 }
    let s := onSys base fun y => { y with cmds := [k] }
    s.sys.cmds.find? (fun x => x.ans.isSome) = some k ∧ k.ans = some 0 := ⟨rfl, rfl⟩

/-- A gang of one hart on core 0, numbered 0, that waits; ready or not. -/
def waiting (ready : Bool) (w : Word) : Gang :=
  ⟨0, { oneHart 0 with waitc := 0x800000, waitn := w }, 0, 0, true, [(0, 0)], .waiting, ready, 0, 0, 1, [], [], [], false⟩

/-- A module with memory mapped, no hart, and a gang. -/
def launching (g : Gang) : State := { base with h := Hart.reset, sys := { base.sys with gangs := [g] } }

theorem admission_of {α : Type} {o : Option (Gang × α)} {g : Gang} (h : o.map (·.1) = some g) : ∃ ps, o = some (g, ps) := by
  cases o with
  | none => cases h
  | some q => cases h; exact ⟨q.2, rfl⟩

/-- A probe finds a fault. -/
def bad? : Probe → Bool
  | .bad _ => true
  | _ => false

theorem bad_of {p : Probe} (h : bad? p = true) : ∃ c, p = .bad c := by
  cases p <;> first | exact ⟨_, rfl⟩ | cases h

/-- GangsAreAdmittedAndCounted: no gang and one that is admitted; WAITC reached, not reached, not mapped. -/
theorem witness_gangs_waiting :
    base.nextAdmission 0 = none ∧ (∃ ps, (launching (waiting true 0)).nextAdmission 0 = some (waiting true 0, ps)) ∧
    base.gangOf 0 = none ∧ (waiting false 0).st = .waiting ∧ (waiting false 0).ready = false ∧
    (launching (waiting false 0)).gangOf 0 = some (waiting false 0) ∧
    (launching (waiting false 0)).sys.dieLost (waiting false 0).home.val = false ∧
    (∃ p, unitProbe (launching (waiting false 0)) needNormalRead (waiting false 0) 8 0x800000 = .ok p ∧
      (launching (waiting false 0)).sys.homeLost p.pa = false ∧
      anyWord (launching (waiting false 0)).mem.curPoison p.pa 8 = false ∧ (launching (waiting false 0)).mem.curNat p.pa 8 = 0) ∧
    ∃ c, unitProbe (launching (waiting false 0)) needNormalRead (waiting false 0) 8 0x80000000 = .bad c := by
  exact ⟨rfl, admission_of (by decide +kernel), rfl, rfl, rfl, rfl, rfl,
    ⟨_, placed_of (by decide +kernel), by decide +kernel, by decide +kernel, by decide +kernel⟩, bad_of (by decide +kernel)⟩

/-- A gang that has ended, with a DONE word and without; staging; a budget; a forced stop; ageing. -/
theorem witness_gangs_ended :
    (let g := { waiting true 0 with st := .ended }
     (launching g).gangOf 0 = some g ∧ g.st = .ended ∧ (launching g).sys.dieLost g.home.val = false ∧ g.desc.done = 0) ∧
    (let g := { waiting true 0 with st := .ended, desc := { oneHart 0 with done := 0x800000 } }
     (launching g).gangOf 0 = some g ∧ g.desc.done ≠ 0 ∧ (launching g).mem.wf = true ∧
       ∃ p, unitProbe (launching g) needNormalAtomic g 8 0x800000 = .ok p ∧ (launching g).sys.homeLost p.pa = false) ∧
    (let g := waiting true 0
     ((launching g).nextOn g.home 0).map (·.num) = some 0 ∧ (launching g).imageWaits g = false ∧
       (launching g).backed 0x800000 8 = false ∧ (0 : CoreId) ∈ g.desc.coreSet ∧ (0 : CoreId) ∉ g.staged ∧ (launching g).sys.dieLost (dieOf 0).val = false ∧
       (launching g).residents 0 = [] ∧ ∀ x ∈ (launching g).sys.gangs, (0 : CoreId) ∉ x.staged) ∧
    (let g := { duo with desc := { duo.desc with budget := 1 } }
     (launching g).gangOf 0 = some g ∧ g.st = .resident ∧ g.desc.budget ≠ 0) ∧
    (let s := onH base fun h => { h with preempt := true }
     s.h.at 0 0 = true ∧ s.h.preempt = true ∧ s.h.status ≠ .heldInFault ∧ s.h.status ≠ .frozen) ∧
    base.h.at 0 0 = true ∧ base.ready base.h = true := by
  refine ⟨⟨rfl, rfl, rfl, rfl⟩, ⟨rfl, by decide, by decide +kernel, _, placed_of (by decide +kernel), by decide +kernel⟩,
    ⟨by decide +kernel, by decide +kernel, by decide +kernel, by decide +kernel, by decide, rfl, by decide +kernel, ?_⟩, ⟨rfl, rfl, by decide⟩, ⟨rfl, rfl, by decide, by decide⟩, rfl, by decide +kernel⟩
  decide +kernel

/-- The gang of two harts, with its backing areas and records at an address. -/
def duoAt (vbas : Word) : Gang := { duo with desc := { duo.desc with vbas := vbas } }

/-- A hart of that gang which a pre-emption awaits, and whose TLB holds the leaf of its addresses. -/
def stopping (vbas : Word) : State :=
  let s := onH (exchange []) fun h => { h with preempt := true }
  { s with mem := { s.mem with transl := [⟨.tlb 0, 0, 0, 127, 2 ^ 30, []⟩] }, sys := { s.sys with gangs := [duoAt vbas] } }

/-- The frames of its record. -/
def frames : List Nat := (List.range 256).map fun i => 0x440000 + 4096 * i

theorem frames_sound : frames.Nodup ∧ ∀ p ∈ frames, p % 4096 = 0 := by
  refine ⟨(List.nodup_range).map fun a b (h : 0x440000 + 4096 * a = 0x440000 + 4096 * b) => by omega, fun p hp => ?_⟩
  obtain ⟨i, -, rfl⟩ := List.mem_map.mp hp
  omega

/-- The frames found are those of a list. -/
def framesAre? (l : List Nat) : Except Bool (List Nat) → Bool
  | .ok r => r == l
  | .error _ => false

theorem frames_of {l : List Nat} {r : Except Bool (List Nat)} (h : framesAre? l r = true) : r = .ok l := by
  cases r with
  | ok x => exact congrArg _ (eq_of_beq h)
  | error b => cases h

/-- A frame faults. -/
def noFrames? : Except Bool (List Nat) → Bool
  | .ok _ => false
  | .error b => !b

theorem noFrames_of {r : Except Bool (List Nat)} (h : noFrames? r = true) : r = .error false := by
  cases r with
  | ok l => cases h
  | error b => cases b <;> first | rfl | cases h

/-- StopRecords: a pending pre-emption at SETVL, SETVLB and VREST, with a record and with one that faults. -/
theorem witness_preempt : let s := stopping 0x400000
    let t := stopping 0x80000000
    (∀ i ∈ [Instr.setvl .plain 1 2 .fp32 .n8, .setvlb .plain 1 .fp32 .n8 0 0 0, .vrest .plain 1], Issues i s ∧ Issues i t) ∧
    isSliced .fp32 = false ∧ s.h.preempt = true ∧ s.h.tvec.getLsbD 1 = false ∧ s.h.xfers = [] ∧ s.h.lost = none ∧ s.sys.reports = [] ∧ s.mem.wf = true ∧
    s.gangOf s.h.gang = some (duoAt 0x400000) ∧ t.gangOf t.h.gang = some (duoAt 0x80000000) ∧
    recordFrames (s.release .sys) needNormalWrite s.h (recordBase (duoAt 0x400000).desc s.h.index) (List.range 256) = .ok frames ∧
    recordFrames (t.release .sys) needNormalWrite t.h (recordBase (duoAt 0x80000000).desc t.h.index) (List.range 256) =
      .error false := by
  refine ⟨fun i hi => ⟨issues_of ?_, issues_of ?_⟩, rfl, rfl, rfl, rfl, rfl, rfl, by decide +kernel, rfl, rfl, frames_of ?_, noFrames_of ?_⟩
  · revert i
    decide +kernel
  · revert i
    decide +kernel
  all_goals decide +kernel

/-- The state that a forced stop records, of a hart that holds no lane cluster. -/
def forcedFrom (vbas : Word) : State :=
  let s := onH (stopping vbas) fun h => { h with lcs := 0 }
  ((s.leaveBarrier s.h).modSys fun y => y.detach s.h).release .sys

/-- A hart that holds no lane cluster writes nothing back. -/
theorem writeBackAll_none {s : State} (h : s.h.lcs = 0) : writeBackAll s = .ok s := by
  unfold writeBackAll
  induction List.finRange 8 with
  | nil => rfl
  | cons l ls ih => simpa [List.foldl_cons, Except.bind, h] using ih

/-- StopRecords: a forced stop, with a record and with one that faults. -/
theorem witness_forced : let s := onH (stopping 0x400000) fun h => { h with lcs := 0 }
    s.h.at 0 0 = true ∧ s.h.preempt = true ∧ s.h.status ≠ .heldInFault ∧ s.h.status ≠ .frozen ∧ s.stuck = false ∧ s.h.vp = none ∧
    s.heldOf s.h = [] ∧ s.h.ahead = [] ∧ writeBackAll (forcedFrom 0x400000) = .ok (forcedFrom 0x400000) ∧
    writeBackAll (forcedFrom 0x80000000) = .ok (forcedFrom 0x80000000) ∧
    recordFrames (forcedFrom 0x400000) needNormalWrite s.h (recordBase (duoAt 0x400000).desc s.h.index) (List.range 256) = .ok frames ∧
    recordFrames (forcedFrom 0x80000000) needNormalWrite s.h (recordBase (duoAt 0x80000000).desc s.h.index) (List.range 256) =
      .error false := by
  refine ⟨rfl, rfl, by decide, by decide, ?_, rfl, rfl, rfl, writeBackAll_none ?_, writeBackAll_none ?_, frames_of ?_, noFrames_of ?_⟩ <;>
    decide +kernel

/-- A gang of one hart that waits to be admitted again, after a stop of a kind. -/
def again (how : Nat) : Gang :=
  { waiting true 0 with stopped := [⟨0, how, 1, none, 0, none⟩], desc := { oneHart 0 with vbas := 0x420000 } }

/-- A module with that gang, whose record names VTYPE 0x10, and the matrix unit at a length. -/
def resuming (how : Nat) (l : BitVec 8) : State :=
  let s := launching (again how)
  let m := { s.mem with transl := [⟨.tlb 0, 0, 0, 127, 2 ^ 30, []⟩] }
  { s with mem := (m.agentWrite false 0x440248 (natToBytes 8 0x10)).agentWrite false 0x440013 [l] }

/-- StopRecords: admitted again, after a stop of each kind; with a matrix unit and with none. -/
theorem witness_resumed : ∀ how ∈ [1, 2], ∀ l ∈ [(0 : BitVec 8), 4],
    let s := resuming how l
    s.nextAdmission 0 = some (again how, [(0, 0, 0)]) ∧
    (again how).stopped.find? (fun r => r.index == 0) = some ⟨0, how, 1, none, 0, none⟩ ∧
    recordFrames s needNormalRead (freshHart s (again how) 0 0 0) (recordBase (again how).desc 0) (List.range 256) = .ok frames ∧
    (∃ f n, vtypeFields (RecordView.num ⟨frames.toArray, s.mem⟩ 0x248 8) = some (f, n)) := by
  have h : ∀ how ∈ [1, 2], ∀ l ∈ [(0 : BitVec 8), 4],
      let s := resuming how l
      s.nextAdmission 0 = some (again how, [(0, 0, 0)]) ∧
      framesAre? frames (recordFrames s needNormalRead (freshHart s (again how) 0 0 0) (recordBase (again how).desc 0) (List.range 256)) =
        true ∧ (vtypeFields (RecordView.num ⟨frames.toArray, s.mem⟩ 0x248 8)).isSome = true := by decide +kernel
  intro how hh l hl
  obtain ⟨h1, h2, h3⟩ := h how hh l hl
  obtain ⟨v, hv⟩ := Option.isSome_iff_exists.mp h3
  exact ⟨h1, rfl, frames_of h2, v.1, v.2, hv⟩

/-- The fields of two lengths of the matrix unit (Table 5-1), and of none. -/
theorem witness_lengths : MvlC.ofCode 0 = none ∧ MvlC.ofCode 4 ≠ none := by decide

/-! Steps of cores, of the memory system and of the edge. -/

/-- `s` with a form at the pc of the hart of `base`. -/
def fetching (i : Instr) (s : State) : State := { s with mem := probeMem Mem.reset (natBytes 28 i.word) }

/-- `base` with lane cluster 7 of core 0 in a power state. -/
def powered (p : Power) : State := base.modCore 0 fun k => { k with power := k.power.set 7 p }

/-- CoresTakeTheirSteps: the power states; a hart held in fault that holds the lane cluster, and no hart. -/
theorem witness_power : ((powered .on).coreOf 0).power[(7 : Fin 8)] = .on ∧ ((powered .off).coreOf 0).power[(7 : Fin 8)] ≠ .on ∧
    ((powered .retention).coreOf 0).power[(7 : Fin 8)] = .retention ∧ (powered .retention).holder 0 7 = none ∧
    (let s := onH (powered .retention) fun h => { h with status := .heldInFault, lcs := 0x80 }
     s.holder 0 7 = some s.h ∧ s.h.idles = true ∧ ∃ r, writeBackLc s s.h 7 = .ok r) ∧
    (∀ i ∈ [Instr.vadd .plain 1 2 3 0 false, .nop .plain],
      let s := fetching i (onH (powered .off) fun h => { h with lcs := 0x80 })
      s.holder 0 7 = some s.h ∧ s.h.status = .running ∧ s.usesLanes s.h = decide (i ≠ .nop .plain)) := by
  refine ⟨by decide +kernel, by decide +kernel, by decide +kernel, by decide +kernel, ⟨by decide +kernel, rfl, _, rfl⟩, by decide +kernel⟩

/-- A refill, forms that may retire, an interrupt, a monitor. -/
theorem witness_core_steps : base.h.at 0 0 = true ∧
    (let s := onH base fun h => { h with offChip := [(3, 0)] }
     (∃ j, ((3 : VReg), j) ∈ s.h.offChip) ∧ ∃ u, refill s 3 = .ok u) ∧
    (∀ e f, let d : Held := ⟨base.h, .nop .plain, f, e, false⟩
      let s := { base with held := [d] }
      (s.heldOf s.h).head? = some d ∧ d.due = false ∧ ((some 24).all s.h.hasPlace = true)) ∧
    (let s := onH trapping fun h => { h with irq := some (5, false) }
     s.h.interruptible = true ∧ s.takable s.h = true ∧ s.h.irq = some (5, false)) ∧
    (onH base fun h => { h with status := .stalled (.monitor .plain) }).h.status = .stalled (.monitor .plain) ∧
    (Master.ofWord 0x100000000000000).valid 0x100000000000000 = true ∧ (Master.ofWord 0x100000000000000).kind = 1 ∧
    (Master.ofWord 0x200000000000000).valid 0x200000000000000 = true ∧ (Master.ofWord 0x200000000000000).kind = 2 ∧
    base.h.at (Master.ofWord 0x200000000000000).number (Fin.ofNat 8 (Master.ofWord 0x200000000000000).ctx) = true ∧
    (Master.ofWord 0x300000000000000).valid 0x300000000000000 = true ∧ (Master.ofWord 0x300000000000000).kind = 3 := by
  refine ⟨rfl, ⟨⟨0, by decide⟩, _, rfl⟩, fun e f => ⟨rfl, rfl, rfl⟩, ⟨rfl, by decide +kernel, rfl⟩, rfl, ?_, ?_, ?_, ?_, ?_, ?_, ?_⟩ <;>
    decide +kernel

/-- Bytes decode to a form of `n` bytes. -/
def decodes? {ε : Type} (i : Instr) (n : Nat) : Except ε (Instr × Nat) → Bool
  | .ok r => r == (i, n)
  | .error _ => false

theorem decodes_of {ε : Type} {i : Instr} {n : Nat} {r : Except ε (Instr × Nat)} (h : decodes? i n r = true) : r = .ok (i, n) := by
  cases r with
  | error e => cases h
  | ok q => exact congrArg _ (eq_of_beq h)

/-- A hart that waits in XRECV v1, s2, and the message that arrives. -/
theorem witness_arrival : let i := Instr.xrecv .plain 1 2
    let m : Message := ⟨0, 1, 0, 1, [0], [⟨0, 7, false⟩]⟩
    let u := fetching i (exchange [m])
    let s := onH u fun h => { h with status := .stalled .retry }
    s.h.at 0 0 = true ∧ decodeFor (isSliced s.h.fmt) (fetchBytes s 18 s.h.pc.toNat) = .ok (i, 4) ∧
    Issues i u ∧ s.gangOf s.h.gang = some duo ∧ Clean [2] s ∧ s.readN 2 < duo.desc.harts.toNat ∧ s.readN 2 ≠ s.h.index ∧
    s.sys.msgs.find? (fun m => decide (m.gang = 0 ∧ m.receiver = 0 ∧ m.sender = 1)) = some m := by
  refine ⟨rfl, decodes_of (by decide +kernel), issues_of (by decide +kernel), rfl, clean_of rfl, by decide +kernel, by decide +kernel, rfl⟩

/-- A message at a Teller whose handler is not an instruction. -/
theorem witness_handlers : let m : TMsg := ⟨0, none, 0, List.replicate 64 0, 0x800000, 0, 0⟩
    let s := onSys base fun y => { y with tellerQ := [m] }
    let t := s.modSys fun y => { y with tellerQ := y.tellerQ.erase m }
    s.sys.nextMsg 0 = some m ∧ s.sys.msgStale m = false ∧ (runHandler t m).map (·.2.1) = some (-1) ∧
    (onSys s fun y => { y with cur := [(0, 1)] }).sys.msgStale m = true := by
  refine ⟨?_, ?_, ?_, ?_⟩ <;> decide +kernel

/-- A Teller whose handler stores where an open multicast entry holds the piece waits. -/
def holdsPart (pa : Nat) : McEntry := ⟨⟨0, ⟨pa, 4, 4, 4, 1, 0, 0⟩⟩, [], 0, [], []⟩

/-- A form of nine elements in two stripes. -/
theorem witness_stripes : let i := Instr.vadd .plain 1 2 3 0 false
    let s := fetching i (vec .i32 9)
    let p := s.h.src1 .plain 2
    let q := s.h.src2 .plain 3 false
    let o := s.h.operands s.h.layout (s.h.regsOf p ++ s.h.regsOf q)
    s.h.at 0 0 = true ∧ decodeFor (isSliced s.h.fmt) (fetchBytes s 18 s.h.pc.toNat) = .ok (i, 4) ∧
    fetchPoison s ((4 + 1) / 2) s.h.pc.toNat = none ∧ Issues i s ∧ VecReady .plain (isArith .i32) (1 :: (p.reg? ++ q.reg?)) [0] s ∧ s.h.filled (queuesOf p q) ∧ s.h.maskClean 0 ∧
    (∃ e ∈ s.h.on 0 false, s.h.layout.stripe e ≠ 0) ∧ (∀ e ∈ s.h.on 0 false, (o.read p e).gives (codeOfRead (o.read p e))) ∧
    (∀ e ∈ s.h.on 0 false, (o.read q e).gives (codeOfRead (o.read q e))) ∧ s.h.enables = 0 := by
  refine ⟨rfl, decodes_of (by decide +kernel), by decide +kernel, issues_of (by decide +kernel), vecReady_of (by decide +kernel),
    filled_of rfl, maskClean_of rfl, by decide +kernel, allGive_of (by decide +kernel), allGive_of (by decide +kernel), rfl⟩

/-- A walk reaches a leaf. -/
def leaf? : Walk → Bool
  | .leaf .. => true
  | _ => false

theorem leaf_of {w : Walk} (h : leaf? w = true) : ∃ q e n ps, w = .leaf q e n ps := by
  cases w <;> first | exact ⟨_, _, _, _, rfl⟩ | cases h

/-- A word registered to core 0, at 0x800000; it stays, or its write-back has begun. -/
def registeredAs (leaving : Bool) : State :=
  { base with mem := { base.mem with regd := [⟨0x800000, 0, 0, 0, 7, false, 0, leaving⟩] } }
def registered : State := registeredAs false

/-- A read of core 1, of hart context 0. -/
def readBy (pa : Nat) : ReadReq := ⟨1, pa, ⟨0, 0, 0⟩⟩

/-- SlicesTakeTheirSteps: walks that reach a leaf and that fault; a page; a PT store; a word that may be registered; reads that are
forwarded, answered, given a miss entry, made to wait. -/
theorem witness_slices : canonical 0x800000 = true ∧ canonical 0x80000000 = true ∧
    walk base 0 0x80000000 = .fault ∧ walkBy base 0 0 0x80000000 = .fault ∧
    (∃ q e n ps, walk base 0 0x800000 = .leaf q e n ps) ∧ (∃ q e n ps, walkBy base 0 0 0x800000 = .leaf q e n ps) ∧
    base.mem.pointer 0 0 0x800000 = none ∧ walkTables base 0 0x800000 ≠ [] ∧
    base.harts.find? (fun x => x.at 0 0) = some base.h ∧ [0x800].length ≤ 64 ∧ [0x800].Nodup ∧ canonical (4096 * 0x800) = true ∧
    (∀ h ∈ base.harts, base.stuckOf h = false ∧ base.stuckFor h = false) ∧ base.h.status ≠ .frozen ∧ 0x800000 % 64 = 0 ∧
    (let s := onH base fun h => { h with ptStores := 1 }
     s.owesAcks s.h = true) ∧ (1 : BitVec 4) ≠ 0 ∧
    base.sys.holds 0x800000 = true ∧ homeAgent 0x800000 ≠ some .device ∧ base.sys.linkWaits 0x800000 = false ∧
    base.sys.mcHolds 0x800000 = false ∧ base.sys.homeLost 0x800000 = false ∧ base.backed 0x800000 4 = false ∧
    base.mem.copy 1 0x800000 = none ∧ base.sys.staleAt 1 (readBy 0x800000).tag = false ∧
    (onSys base fun y => { y with cur := [(0, 1)] }).sys.staleAt 1 (readBy 0x800000).tag = true ∧
    (∃ r, registered.mem.reg 0x800003 = some r ∧ r.core ≠ 1 ∧ r.core = 0) ∧ base.mem.reg 0x800000 = none ∧
    ({ base.mem with sliceCopies := [0x800000] }).sliceHas 1 0x800000 = true ∧ base.mem.sliceHas 1 0x800000 = false ∧
    base.missRoom (base.sliceOf 1 0 0x800000) 0x800000 = true ∧
    (let s := { base with mem := { base.mem with misses := (List.range 64).map fun i => (base.sliceOf 1 0 0x800000, 64 * i) } }
     s.missRoom (s.sliceOf 1 0 0x800000) 0x800000 = false) ∧
    (let s := registeredAs true
     s.missRoom (s.sliceOf 0 0 0x800000) 0x800400 = false) := by
  refine ⟨?_, ?_, ?_, ?_, leaf_of (by decide +kernel), leaf_of (by decide +kernel), ?_, ?_, rfl, by decide +kernel, by decide +kernel, ?_, ?_, ?_, ?_,
    by decide +kernel, by decide +kernel, ?_, ?_, ?_, ?_, ?_, ?_, ?_, ?_, ?_,
    ⟨⟨0x800000, 0, 0, 0, 7, false, 0, false⟩, by decide +kernel, by decide +kernel, by decide +kernel⟩, ?_, ?_, ?_, ?_, ?_, ?_⟩ <;> decide +kernel

/-- Forwards, waits, misses, answers on their way that stand and that do not, and a registered word. -/
theorem witness_slices_pending :
    (let s := { registered with mem := { registered.mem with forwards := [readBy 0x800000], answers := [⟨⟨1, 0x800000, 7, false⟩, ⟨0, 0, 0⟩⟩] } }
     s.mem.forwards.find? (fun f => f.pa == wordAt 0x800003) = some (readBy 0x800000) ∧
       (∃ r, s.mem.reg 0x800003 = some r ∧ r.core = 0) ∧
       (s.mem.answers.find? fun x => x.copy.core == 1 && x.copy.pa == wordAt 0x800003) = some ⟨⟨1, 0x800000, 7, false⟩, ⟨0, 0, 0⟩⟩ ∧
       (∀ r, s.mem.reg 0x800003 = some r → r.core ≠ 1) ∧ s.mem.curWord 0x800003 = 7 ∧ s.mem.curPoison 0x800003 = false) ∧
    (let s := { base with mem := { base.mem with
       waiting := [(5, readBy 0x800000)], misses := [(5, 0x800000)], missReads := [(5, readBy 0x800000)], homeAnswers := [(1, 3, ⟨0, 0, 0⟩)] } }
     s.mem.waiting.find? (fun x => x.1 == 5 && !s.leavingAt 5 x.2.pa) = some (5, readBy 0x800000) ∧ s.missRoom 5 0x800000 = true ∧
       (5, 0x800000) ∈ s.mem.misses ∧ (5, readBy 0x800000) ∈ s.mem.missReads ∧ pieceOf (readBy 0x800000).pa = 0x800000 ∧
       s.mem.answers.find? (fun x => x.copy.core == 1 && x.copy.pa == wordAt 0x800000) = none ∧
       s.mem.homeAnswers.find? (fun a => a.1 == 1) = some (1, 3, ⟨0, 0, 0⟩)) ∧
    registered.mem.wf = true ∧ (registeredAs true).mem.wf = true ∧
    (∀ b, ∃ r, (registeredAs b).mem.reg 0x800000 = some r ∧ r.core = 0 ∧ r.leaving = b) ∧
    registered.mem.regd.countP (fun x => x.leaving && registered.sliceOf x.core x.skew x.pa == registered.sliceOf 0 0 0x800000) < 16 := by
  refine ⟨⟨by decide +kernel, ⟨_, rfl, rfl⟩, by decide +kernel, ?_, by decide +kernel, by decide +kernel⟩,
    ⟨by decide +kernel, ?_, ?_, by decide +kernel, by decide +kernel, by decide +kernel, ?_⟩, ?_, ?_, fun b => ⟨_, rfl, rfl, rfl⟩, ?_⟩
  · intro r hr
    have : r = ⟨0x800000, 0, 0, 0, 7, false, 0, false⟩ := (Option.some.inj hr).symm
    subst this
    decide
  all_goals decide +kernel

/-- A hart with a fill, a VRED of two adds and one of one, and a progress word. -/
def busy : State := onH base fun h => { h with xfers := [
  ⟨.cefill, [.put (memAt 0x800000) [1] false], some ⟨memAt 0x800040, 2, .sys⟩, 1⟩,
  ⟨.vred, [.add (memAt 0x800080) .i32 .i32 1 127 false, .skip], none, 1⟩] }

/-- HomesTakeTheirSteps: packets of 1 byte and of a whole piece, from a die, a peer, the host and an H-die; sizes and blocks that are
aligned; a claim; transfers that may add their progress word, and one that may not. -/
theorem witness_homes : base.mem.wf = true ∧
    (0x800000 < mainEnd ∧ base.sys.mcHolds 0x800000 = false ∧ base.sys.homeLost 0x800000 = false ∧ base.sys.mcHoldsN 0x800000 64 = false ∧
      base.backed 0x800000 64 = false) ∧
    (∀ n ∈ [1, 64], List.replicate n (0 : Byte) ≠ [] ∧ pieceOf (0x800000 + (List.replicate n (0 : Byte)).length - 1) = pieceOf 0x800000) ∧
    (∀ a ∈ [Agent.host, .cdie 0, .hdie 3, .peer 31 5], a ∉ base.sys.failed ∧ base.sys.staleFrom a ⟨0, 0, 0⟩ = false) ∧
    base.sys.staleFrom (.cdie 0) ⟨0, 1, 0⟩ = true ∧ base.sys.staleFrom .host ⟨0, 0, 1⟩ = true ∧
    Agent.host ∈ (onSys base fun y => { y with failed := [.host] }).sys.failed ∧
    (∀ h ∈ base.harts, base.stuckOf h = false ∧ base.stuckFor h = false) ∧
    (∀ r ∈ registered.mem.regd, r.pa + 4 ≤ 0x800004 ∨ 0x800004 + 4 ≤ r.pa) ∧
    (Agent.host, 0x800000) ∈ ({ base.mem with sharers := [(.host, 0x800000)] }).sharers ∧ 0x800000 % szBytes .d = 0 ∧
    0x800000 % 16 = 0 ∧ (vec .i32 3).harts.find? (fun x => x.at 0 0) = some (vec .i32 3).h ∧ (vec .i32 3).h.lcs ≠ 0 ∧
    (∃ b x r, firstXfer (fun k => k != .vred) busy.h.xfers = some (b, x, r) ∧ x.elems ≠ [] ∧ (∀ e ∈ x.elems, busy.sys.elemWaits e = false)) ∧
    busy.engineFrozen busy.h = false ∧
    (∃ b x r e f es, firstXfer (fun k => k == .vred) busy.h.xfers = some (b, x, r) ∧ x.elems = e :: f :: es ∧ busy.sys.elemWaits e = false) ∧
    (∃ b x r e, firstXfer (fun k => k == .vred) [⟨.vred, [.skip], none, 1⟩] = some (b, x, r) ∧ x.elems = [e] ∧ x.notify = none) ∧
    (∃ x xs n, busy.h.xfers = x :: xs ∧ x.notify = some n ∧ n.pending ≠ 0 ∧ busy.mayAdd [] busy.h n = true) ∧
    busy.mayAdd [⟨.vred, [.skip], none, 1⟩] busy.h ⟨memAt 0x800040, 2, .sys⟩ = false := by
  refine ⟨by decide +kernel, ⟨by decide, rfl, rfl, by decide +kernel, by decide +kernel⟩, by decide +kernel, by decide +kernel, by decide +kernel,
    by decide +kernel, by decide, by decide +kernel, by decide +kernel, by decide, by decide, by decide, rfl, by decide,
    ⟨_, _, _, rfl, by decide, by decide +kernel⟩, by decide +kernel, ⟨_, _, _, _, _, _, rfl, rfl, by decide +kernel⟩,
    ⟨_, _, _, _, rfl, rfl, rfl⟩, ⟨_, _, _, rfl, rfl, by decide, by decide +kernel⟩, by decide +kernel⟩

/-- A range of 2 KiB for cores 0 and 15 of a pod. -/
def part : McPart := ⟨9, ⟨0x800000, 4, 512, 4, 0x8001, 0, 0⟩⟩

/-- A hart that executes VLDM next, and its headers. -/
def loading : State := fetching (.vldm .plain 1 2 3 4) (withS [(3, 1)] (vec .i32 3))

/-- HomesTakeTheirSteps: a VLDM that sends its headers, and multicast entries that open, are joined, send, replay and close; a hart that
waits for the last beat of its only entry. -/
theorem witness_multicast :
    (loading.h.status = .running ∧ Issues (.vldm .plain 1 2 3 4) loading ∧
      decodeFor (isSliced loading.h.fmt) (fetchBytes loading 18 loading.h.pc.toNat) = .ok (.vldm .plain 1 2 3 4, 4) ∧
      AccessHyps (.vldm .plain 1 2 3 4) .plain [1] 4 [4] [2, 3]
        (loading.readN 3 < 65536 && (loading.readN 3).testBit (loading.h.core.val % 16)) needNormalRead 4 (unitAt 2 loading) loading ∧
      mcParts loading.wakeLanes (loading.readN 2) 32 1 ((loading.h.on 4 false).map fun e =>
        ((⟨e, (unitAt 2 loading e).1, (unitAt 2 loading e).2⟩ : Acc), placeOf (probe loading needNormalRead (unitAt 2 loading e).1 4 4))) ≠ []) ∧
    (∀ e ∈ base.sys.mc, e.part ≠ part) ∧
    (let e : McEntry := ⟨part, List.replicate 2048 (0, 0, false), 14, [(15, 0, 0)], []⟩
     [e].find? (fun e => e.part == part) = some e ∧ e.next + 1 < e.beats ∧ e.attached.countP (fun a => base.h.at a.1 a.2.1) = 0 ∧
       ({ e with attached := [(0, 0, 3)] } : McEntry).attached.countP (fun a => base.h.at a.1 a.2.1) = 1 ∧
       ({ e with next := 16 } : McEntry).beats ≤ 16 ∧
       ({ e with next := 16, replay := [(15, 0, 0), (15, 0, 1)] } : McEntry).replay = (15, 0, 0) :: (15, 0, 1) :: [] ∧
       ({ e with next := 15, attached := [(0, 0, 0)] } : McEntry).next + 1 = e.beats) := by
  refine ⟨⟨rfl, issues_of (by decide +kernel), decodes_of (by decide +kernel), access_of (by decide +kernel), by decide +kernel⟩, ?_, ?_, ?_, ?_, ?_, ?_, ?_,
    ?_⟩ <;> decide +kernel

/-- A module with a peer of device number 5 at port 31, and a host. -/
def edge : State := onSys base fun y => { y with
  hostUp := true, peers := [(31, 5)], windows := [(31, 5)]
  devr := [(0x13000, 2048 + 7), (portReg 31, 3), (0x20000 + 0x1000 * 31, 1), (0x20000 + 0x1000 * 31 + 8, 0x7FF000), (0x20000 + 0x1000 * 31 + 0x100, 1)] }

/-- TheEdgeTakesItsSteps: a port that is up, and one that retrains; a sweep with one report left, and with two, at a checkpoint that
holds nothing of it and at one that does; dies, links, the host; an agent that may join again, and one of which copies are left. -/
theorem witness_edge : edge.sys.portUp 31 = true ∧ Link.port 31 ∉ edge.sys.retraining ∧
    (let w : Sweep := ⟨1, 0, [.memCtrl 0, .hostPort], false⟩
     let s := onSys edge fun y => { y with sweeps := [w] }
     s.sys.sweeps.find? (fun w => w.cid == 1 && w.inc == 0) = some w ∧ .hostPort ∈ w.pending ∧ s.sys.canReport .hostPort = true ∧
       (s.absorb .hostPort 1 0).holdsInc .hostPort 1 0 = false ∧
       w.pending.erase .hostPort ≠ [] ∧ ({ w with pending := [.hostPort] } : Sweep).pending.erase .hostPort = []) ∧
    (let s := { base with mem := { base.mem with forwards := [⟨1, 0x800000, ⟨1, 0, 0⟩⟩] } }
     (s.absorb (.core 0) 1 0).holdsInc (.core 0) 1 0 = false) ∧
    Agent.cdie 3 ∉ edge.sys.failed ∧
    (let s := onSys edge fun y => { y with failed := [.cdie 3, .peer 31 5, .host] }
     Agent.cdie 3 ∈ s.sys.failed ∧ s.sys.linkUp (.port 31) = true ∧ (31, 5) ∈ s.sys.peers ∧ s.sys.linkUp .host = true ∧
       s.leftOf (.cdie 3) = false ∧ { s with mem := { s.mem with sharers := [(.cdie 3, 0)] } }.leftOf (.cdie 3) = true) ∧
    (let s := onSys edge fun y => { y with retraining := [.port 31] }
     Link.port 31 ∈ s.sys.retraining ∧ s.sys.farAgent (.port 31) = some (.peer 31 5) ∧ s.sys.peerOf 31 = some 5) ∧
    (edge.sys.dev (portReg 31)).getLsbD 0 = true ∧ edge.sys.selfSet = true ∧ (2039 : BitVec 16).toNat < 2040 ∧
    (let s := onSys edge fun y => { y with devr := [(0x13000, 2048 + 7), (portReg 31, 1)], peers := [] }
     s.sys.portUp 31 = false ∧ Link.port 31 ∉ s.sys.retraining) ∧ base.sys.linkUp .host = false := by
  refine ⟨?_, ?_, ⟨?_, ?_, ?_, ?_, ?_, ?_⟩, ?_, ?_, ⟨?_, ?_, ?_, ?_, ?_, ?_⟩, ⟨?_, ?_, ?_⟩, ?_, ?_, ?_, ⟨?_, ?_⟩, ?_⟩ <;> decide +kernel

theorem witness_requests :
    (∀ k ∈ [PeerKind.write [1, 2], .read 4096, .atomic .add .d 1, .cas .d 0 1, .amsg 1 (List.replicate 64 0)],
      peerReqOk ⟨5, 0x7FE000, 0, 0, 0, k⟩ = true ∧ edge.sys.admits 31 ⟨5, 0x7FE000, 0, 0, 0, k⟩ = true) ∧
    Agent.peer 31 5 ∉ edge.sys.failed ∧ peerMaster 31 ∉ edge.sys.frozen ∧ (0 : BitVec 8) = edge.sys.joinOf (.peer 31 5) ∧
    (0 : BitVec 8) = edge.sys.portInc 31 0 ∧ (1 : BitVec 8) ≠ edge.sys.joinOf (.peer 31 5) ∧ edge.sys.peerOf 31 = some 5 ∧
    edge.sys.admits 31 ⟨5, 0x800000, 0, 0, 0, .write [1]⟩ = false ∧ edge.sys.homeLost 0x7FE000 = false ∧
    edge.sys.mcHoldsN 0x7FE000 2 = false ∧ edge.backed 0x7FE000 8 = false ∧ edge.mem.wf = true ∧ edge.sys.booted = true ∧
    State.reset.sys.booted = false ∧ homeAgent 0x20000000000 = some .host ∧ edge.sys.linkUp .host = true ∧
    Agent.host ∉ edge.sys.failed ∧ hostMaster ∉ edge.sys.frozen ∧ 0x7FE000 + [(1 : Byte)].length ≤ mainEnd ∧
    (0 : BitVec 8) = edge.sys.joinOf .host ∧
    (natToBytes 8 5).length = 8 ∧ mainEnd ≤ devBase + 0x10000 ∧ devAssigned (devBase + 0x10000 - devBase) = true ∧
    hostMaster ∈ (onSys edge fun y => { y with frozen := [hostMaster] }).sys.frozen ∧ (0 : Nat) < mainEnd ∧ mainEnd - 1 < mainEnd ∧
    base.h.at 0 0 = true ∧ (63 : SReg) ≠ 0 ∧ (0x1FFF : Nat) < 0x2000 := by
  refine ⟨?_, ?_, ?_, ?_, ?_, ?_, ?_, ?_, ?_, ?_, ?_, ?_, ?_, ?_, ?_, ?_, ?_, ?_, ?_, ?_, ?_, ?_, ?_, ?_, ?_, ?_, ?_, ?_, ?_⟩ <;> decide +kernel

/-- AStepRunsTheDecodedInstruction: a module step that waits; nothing to do; a form that may retire; a grant of a form, of a form that
resumes, of an interrupt, of bytes that do not decode. -/
theorem witness_steps : State.reset.inbox = .boot :: [] ∧ Instr.inReset .boot = true ∧ Instr.inReset (.gangAdmission 0) = false ∧
    State.reset.sys.booted = false ∧ base.sys.booted = true ∧
    (let s := onSys base fun y => { y with withheld := true }
     s.inbox = [] ∧ (∀ d ∈ s.held, d.due = false) ∧ s.sys.withheld = true) ∧
    (let d : Held := ⟨base.h, .nop .plain, none, false, true⟩
     let s := { base with held := [d] }
     s.inbox = [] ∧ s.held.find? (fun d => d.due) = some d) ∧
    (let s := fetching (.add .plain 1 2 3) base
     s.tries = [(0, 0)] ∧ s.focus 0 0 = some s ∧ s.h.retries = false ∧ s.h.vp = none ∧ s.grant.takable s.grant.h = false ∧
       s.h.resume = none ∧ fetchPoison s.grant 2 s.grant.h.pc.toNat = none ∧ s.grant.heldOf s.grant.h = [] ∧
       decodeFor (isSliced s.grant.h.fmt) (fetchBytes s.grant 18 s.grant.h.pc.toNat) = .ok (.add .plain 1 2 3, 4)) ∧
    (let s := onH trapping fun h => { h with irq := some (5, false) }
     s.tries = [(0, 0)] ∧ s.grant.takable s.grant.h = true) ∧
    (onH base fun h => { h with resume := some (openOf 0x10000 (.nop .plain) 1) }).h.resume ≠ none ∧
    (∀ n < 32, walk base base.h.cid ((base.h.vbase &&& ~~~4095).toNat + 4096 * n) ≠ .wait) := by
  refine ⟨rfl, rfl, rfl, rfl, rfl, ⟨rfl, by decide, rfl⟩, ⟨rfl, by decide⟩, ⟨?_, rfl, rfl, rfl, ?_, rfl, ?_, rfl, decodes_of ?_⟩, ⟨?_, ?_⟩,
    by decide, ?_⟩ <;> decide +kernel

/-- Words that do not decode, at the first unit and at a later one, and bytes that end in the middle. -/
theorem witness_undecoded : decodeFor false (natToBytes 18 0) ≠ .ok (.nop .plain, 4) ∧
    (∃ o, decodeFor false (natToBytes 18 0xFFFFFFFF) = .error (.illegalInstr o) ∨
      decodeFor false (natToBytes 18 0xFFFFFFFF) = .error (.illegalUnit o)) ∧
    ∃ o, decodeFor false [3] = .error (.short o) := by
  refine ⟨by decide +kernel, ?_, ⟨0, rfl⟩⟩
  exact ⟨0, by decide +kernel⟩

/-- A step goes on. -/
def next? : Out → Bool
  | .next _ => true
  | _ => false

theorem next_of {o : Out} (h : next? o = true) : ∃ t, o = .next t := by
  cases o <;> first | exact ⟨_, rfl⟩ | cases h

/-- MemoryKeepsItsForm, EveryStepKeepsMemorySound: a state of that form, whose step goes on, as an instruction of the list does. -/
theorem witness_form : registered.mem.Sound ∧ (∃ t, step (fetching (.st .plain 1 2 8 .d) base) = .next t) ∧
    ∃ t, exec (.st .plain 1 2 8 .d) base = .next t :=
  ⟨⟨⟨by decide +kernel, by decide +kernel⟩, by decide +kernel⟩, next_of (by decide +kernel), next_of (by decide +kernel)⟩

/-- EncodingsDecode, DecodingsEncode: an instruction that is well-formed, and bytes that decode. -/
theorem witness_encodings : (Instr.vldbS2c { ext := some (31 * 64 + 3), opm := some { noOp with qd := true } } 1 2 3 4).wellFormed = true ∧
    decodeForm (natToBytes 4 0x028C397F) = .ok (.div .plain 5 6 7, 4) := ⟨by decide, decodes_of (by decide +kernel)⟩
/-! Results on fixed values, from the manual's rules. -/

/-- A scalar register of the hart in focus after a step. -/
def after (r : SReg) : Out → Option Word
  | .next t => some (t.h.sreg r)
  | _ => none

/-- A part of the state after a step. -/
def later {α : Type} (f : State → α) : Out → Option α
  | .next t => some (f t)
  | _ => none

/-- s6 and s7 at two values. -/
def pair (a b : Word) : State := withS [(6, a), (7, b)] base

/-- R275: division by zero gives -1, and the least value by -1 gives the least value. -/
theorem test_div : after 5 (exec (.div .plain 5 6 7) (pair 9 0)) = some (-1) ∧
    after 5 (exec (.div .plain 5 6 7) (pair 0x8000000000000000 (-1))) = some 0x8000000000000000 ∧
    after 5 (exec (.rem .plain 5 6 7) (pair 0x8000000000000000 (-1))) = some 0 := by decide +kernel

/-- R303: REM of -7 by 2 keeps the sign of the dividend; REM by zero gives the dividend. -/
theorem test_rem : after 5 (exec (.rem .plain 5 6 7) (pair (-7) 2)) = some (-1) ∧
    after 5 (exec (.remn .plain 5 6 7) (pair 9 0)) = some 9 := by decide +kernel

/-- R303: shifts use the low six bits of their count. -/
theorem test_shift : after 5 (exec (.shl .plain 5 6 7) (pair 1 65)) = some 2 ∧
    after 5 (exec (.sra .plain 5 6 7) (pair (-8) 1)) = some (-4) := by decide +kernel

/-- R303: the high halves of signed and unsigned products. -/
theorem test_mulh : after 5 (exec (.mulh .plain 5 6 7) (pair (-1) (-1))) = some 0 ∧
    after 5 (exec (.mulhn .plain 5 6 7) (pair (-1) (-1))) = some (-2) := by decide +kernel

/-- R275: CLZ of 0 is 64, and of 1 is 63. -/
theorem test_clz : after 5 (exec (.clz .plain 5 6) (pair 0 0)) = some 64 ∧ after 5 (exec (.clz .plain 5 6) (pair 1 0)) = some 63 := by
  decide +kernel

/-- R267: nothing is written to s0, and an instruction may read what it writes. -/
theorem test_s0 : after 0 (exec (.add .plain 0 6 7) (pair 1 2)) = some 0 ∧ after 6 (exec (.add .plain 6 6 6) (pair 3 2)) = some 6 := by
  decide +kernel

/-- R276: the 12-bit immediate is sign-extended; an IMMX word puts 24 bits above it. -/
theorem test_addi : after 5 (exec (.addi .plain 5 6 0xFFF) (pair 3 0)) = some 2 ∧
    after 5 (exec (.addi { immx := some 1 } 5 6 0) (pair 3 0)) = some 4099 := by decide +kernel

/-- R283: a branch goes by its offset times 2, and an untaken one passes. -/
theorem test_branch : later (·.h.pc) (exec (.bltn .plain 6 7 8) (pair 1 (-1))) = some 0x10010 ∧
    later (·.h.pc) (exec (.blt .plain 6 7 8) (pair 1 (-1))) = some 0x10004 := by decide +kernel

/-- R294: JAL writes the address behind itself and goes by its offset times 4. -/
theorem test_jal : after 1 (exec (.jal .plain 1 16) base) = some 0x10004 ∧ later (·.h.pc) (exec (.jal .plain 1 16) base) = some 0x10040 := by
  decide +kernel

/-- R296, R309: a byte stored comes back sign-extended, and the byte above it stays 0. -/
theorem test_store_load : ((later id (exec (.st .plain 6 2 0 .b) (pair 0x1F0 0))).bind fun t => after 5 (exec (.ld .plain 5 2 0 .b) t)) =
      some (-16) ∧
    ((later id (exec (.st .plain 6 2 0 .b) (pair 0x1F0 0))).bind fun t => after 5 (exec (.ld .plain 5 2 0 .h) t)) = some 0xF0 := by
  decide +kernel

/-- R278: AMO gives the old word, and an AMO behind it finds the sum. -/
theorem test_amo : ((later id (exec (.amo .plain 5 2 6 .add .w) (pair 7 0))).bind fun t => after 5 (exec (.amo .plain 5 2 6 .add .w) t)) =
    some 7 := by decide +kernel

/-- R284: a CAS that fails gives the old word and leaves it. -/
theorem test_cas : after 6 (exec (.cas .plain 6 2 7 .w) (pair 5 9)) = some 0 ∧
    ((later id (exec (.cas .plain 6 2 7 .w) (pair 0 9))).bind fun t => after 5 (exec (.ld .plain 5 2 0 .w) t)) = some 9 := by decide +kernel

/-- R192, R310: SYSC with a handler at 0x20000: TCAUSE 0x30, TPC behind it, INH set. -/
theorem test_sysc : later (fun t => (t.h.pc, t.h.tpc, t.h.tcause, t.h.tvec)) (exec (.sysc .plain) trapping) =
    some (0x20000, 0x10004, 0x30, 0x20003) := by decide +kernel

/-- R196: TRET without an open instruction continues at TPC and clears INH. -/
theorem test_tret : later (fun t => (t.h.pc, t.h.tvec)) (exec (.tret .plain) (onH trapping fun h => { h with tvec := 0x20003, tpc := 0x10008 })) =
    some (0x10008, 0x20001) := by decide +kernel

/-- R190, R179: a load that is not aligned raises cause 8 and writes nothing. -/
theorem test_misaligned : later (fun t => (t.h.pc, t.h.tcause, t.h.sreg 5)) (exec (.ld .plain 5 2 1 .d) trapping) =
    some (0x20000, 8, 0x800050) := by decide +kernel

/-- R258: HMSW of a hart of another context raises cause 1. -/
theorem test_privilege : later (fun t => t.h.tcause) (exec (.hmsw .plain 6) (onH trapping fun h => { h with cid := 1 })) = some 1 := by
  decide +kernel

/-- R269: CSRS of DIL takes its 24 bits alone; VL is not written. -/
theorem test_csr : later (fun t => t.h.dil) (exec (.csrs .plain 6 .dil) (pair (-1) 0)) = some 0xFFFFFF ∧
    later (fun t => t.h.vl) (exec (.csrw .plain 6 .vl) (pair 9 0)) = some 0 := by decide +kernel

/-- The code of element `e` of v1 after a step. -/
def element (e : Nat) : Out → Option Nat :=
  later fun t => codeOfRead ((t.h.operands t.h.layout [1]).elem 1 e)

/-- R351, R300: VADD of i32 wraps, at the active elements alone. -/
theorem test_vadd : let s := withS [(6, -1)] (vec .i32 3)
    element 2 (exec (.vadd .plain 1 2 6 4 true) s) = some 1 ∧ element 1 (exec (.vadd .plain 1 2 6 4 true) s) = some 1 := by
  decide +kernel

/-- R324: VADD of fp32: 1.0 and 1.0 give 2.0. -/
theorem test_vadd_fp32 : let s := onH (vec .fp32 1) fun h => { h with vregs := [⟨8192 * 1, 0, false⟩, ⟨8192 * 2, 0x3F800000, false⟩, ⟨8192 * 3, 0x3F800000, false⟩] }
    element 0 (exec (.vadd .plain 1 2 3 0 false) s) = some 0x40000000 := by decide +kernel

/-- R316: VCMP writes the bits of active elements: 0 < 1 holds, 2 < 1 does not. -/
theorem test_vcmp : later (fun t => t.h.masks[(2 : MReg)]) (exec (.vcmp .plain .lt 2 4 5 0 true) (withS [(5, 1)] (vec .i32 3))) = some 1 := by
  decide +kernel

/-- R302: MPOPC counts the true bits below VL, and MFIRST of an empty mask gives -1. -/
theorem test_masks : after 5 (exec (.mpopc .plain 5 4) (vec .i32 3)) = some 2 ∧
    after 5 (exec (.mfirst .plain 5 4) (onH (vec .i32 3) fun h => { h with masks := Vector.replicate 8 0 })) = some (-1) := by decide +kernel

/-- R343: the sum of elements 0, 1 and 2 stands in element 0. -/
theorem test_vrsum : later (fun t => (t.h.vregs.find? fun c => c.key == 8192 * 1).map (·.val)) (exec (.vrsum .plain 1 2 0) (vec .i32 3)) =
    some (some 3) := by decide +kernel

/-- R307: SETVL of 9 words of 8 registers on one lane cluster grants 9. -/
theorem test_setvl : later (fun t => (t.h.vl, t.h.lcn, t.h.sreg 1)) (exec (.setvl .plain 1 6 .i32 .n8) (pair 9 0)) = some (9, 1, 9) := by
  decide +kernel

/-- Table 2-5, step 4: H0 gives up LC0 to LC5; H1 gets LC0 and LC1, H2 gets LC2 and LC3; H0 keeps two; VL = 1024 for each. -/
theorem test_setvl_shared : later (fun t => (t.h.lcs, t.h.vl, t.rest.map fun h => (h.lcs, h.vl, h.status)))
    (exec (.setvl .plain 1 2 .fp32 .n8) shared) =
      some (0xC0, 1024, [(0x03, 1024, .running), (0x0C, 1024, .running)]) := by decide +kernel

/-- R84 to R90: MOP adds the product of 1.0 and 1.0 to the first cell. -/
theorem test_mop : let s := onH holding fun h => { h with vl := 1, vregs := [⟨8192 * 1, 0x3F800000, false⟩, ⟨8192 * 2, 0x3F800000, false⟩] }
    later (fun t => (t.h.cell 0, t.h.cell 1)) (exec (.mop { tile := some ⟨0, 0, 0⟩ } 1 2) s) = some (0x3F800000, 0) := by decide +kernel

/-- R282: a barrier of one core passes at once, and one of two waits. -/
theorem test_bar : later (·.h.pc) (exec (.bar .plain 7 .pod) (withS [(7, 1)] base)) = some 0x10004 ∧
    later (·.h.status) (exec (.bar .plain 7 .pod) (withS [(7, 3)] { base with rest := [peer] })) = some (.stalled (.barrier .pod .plain)) := by
  decide +kernel

/-- R12: LAUNCH of a descriptor of zeros gives -2. -/
theorem test_launch : after 1 (exec (.launch .plain 1 2) base) = some (-2) := by decide +kernel

/-- R231: POWCAP takes 900 and refuses 899. -/
theorem test_powcap : later (fun t => t.sys.dev 0x11000) (exec (.powcapWrite 900) State.reset) = some 900 ∧
    later (fun t => t.sys.dev 0x11000) (exec (.powcapWrite 899) State.reset) = some 1800 := by decide +kernel

end Sys2Proof.Tests
end

section
/-! PROOF. The branches and the jumps (R283, R294, R266). -/

namespace Sys2Proof.Machine

/-! Offsets, parities and the fields of the words. -/

/-- The manual shifts an offset left by one; the model doubles it. -/
theorem word_mul_two (w : Word) : w * (2 : Word) = w <<< 1 := (BitVec.shiftLeft_eq_mul_twoPow w 1).symm

/-- The manual shifts an offset left by two; the model multiplies it by four. -/
theorem word_mul_four (w : Word) : w * (4 : Word) = w <<< 2 := (BitVec.shiftLeft_eq_mul_twoPow w 2).symm

/-- The lowest bit of a word tells whether it is odd. -/
theorem getLsbD_zero_eq_odd (w : Word) : w.getLsbD 0 = decide (w % 2 = 1) := by
  rw [BitVec.getLsbD, Nat.testBit_zero]
  congr 1
  rw [← BitVec.toNat_inj, BitVec.toNat_umod]
  rfl

/-- The fields of a word of the I or B format. -/
theorem wI_fields (cls k d a i : Nat) : wI cls k d a i = cls * 2 ^ 29 + d * 2 ^ 23 + a * 2 ^ 17 + i * 2 ^ 5 + k * 2 ^ 2 + 3 := rfl

/-- The fields of a word of the J format. -/
theorem wJ_fields (cls k d i : Nat) : wJ cls k d i = cls * 2 ^ 29 + d * 2 ^ 23 + i * 2 ^ 5 + k * 2 ^ 2 + 3 := rfl

/-- The fields of a word of the M format of class 001. -/
theorem wM_fields (d a i op : Nat) : wM d a i op = 1 * 2 ^ 29 + d * 2 ^ 23 + a * 2 ^ 17 + i * 2 ^ 9 + op * 2 ^ 5 + 3 := rfl

/-! Branches. -/

section
variable (x : Stack) (a b : SReg) (k : BitVec 12) (c : Fin 32) (m : BitVec 6) (l : BitVec 11) (s : State)

theorem exec_beq : exec (.beq x a b k) s =
    branch (.beq x a b k) [a, b] (fun h => h.sreg a == h.sreg b) (k.signExtend 64 * (2 : Word)) s := rfl
theorem exec_bne : exec (.bne x a b k) s =
    branch (.bne x a b k) [a, b] (fun h => h.sreg a != h.sreg b) (k.signExtend 64 * (2 : Word)) s := rfl
theorem exec_blt : exec (.blt x a b k) s =
    branch (.blt x a b k) [a, b] (fun h => (h.sreg a).slt (h.sreg b)) (k.signExtend 64 * (2 : Word)) s := rfl
theorem exec_bge : exec (.bge x a b k) s =
    branch (.bge x a b k) [a, b] (fun h => !(h.sreg a).slt (h.sreg b)) (k.signExtend 64 * (2 : Word)) s := rfl
theorem exec_bltn : exec (.bltn x a b k) s =
    branch (.bltn x a b k) [a, b] (fun h => (h.sreg a).ult (h.sreg b)) (k.signExtend 64 * (2 : Word)) s := rfl
theorem exec_bgen : exec (.bgen x a b k) s =
    branch (.bgen x a b k) [a, b] (fun h => !(h.sreg a).ult (h.sreg b)) (k.signExtend 64 * (2 : Word)) s := rfl
theorem exec_cbeqz : exec (.cbeqz c m) s =
    branch (.cbeqz c m) [r32 c] (fun h => h.sreg (r32 c) == 0) (m.signExtend 64 * (2 : Word)) s := rfl
theorem exec_cbnez : exec (.cbnez c m) s =
    branch (.cbnez c m) [r32 c] (fun h => h.sreg (r32 c) != 0) (m.signExtend 64 * (2 : Word)) s := rfl
theorem exec_cj : exec (.cj l) s = branch (.cj l) [] (fun _ => true) (l.signExtend 64 * (2 : Word)) s := rfl

end

/-- A form that runs as a branch goes where its condition and its offset say. -/
theorem branches_of {i : Instr} {rs : List SReg} {c : Hart → Bool} {w : Nat} {n : BitVec w} {taken : State → Bool}
    (he : ∀ s, exec i s = branch i rs c (n.signExtend 64 * (2 : Word)) s) (hc : ∀ s, c (issued i s).h = taken s) :
    Branches i rs taken fun s => s.h.pc + n.signExtend 64 <<< 1 := by
  intro s hi hclean
  rw [he, branch_eq hi hclean, hc, word_mul_two]

/-- The condition codes of the six branches stand in [4:2] of their words. -/
theorem branch_words (x : Stack) (a b : SReg) (k : BitVec 12) :
    ∀ p ∈ [(2, Instr.beq x a b k), (3, .bne x a b k), (4, .blt x a b k), (5, .bge x a b k), (6, .bltn x a b k), (7, .bgen x a b k)],
      p.2.word = wI 1 p.1 a b k.toNat := by
  simp only [List.forall_mem_cons]
  exact ⟨rfl, rfl, rfl, rfl, rfl, rfl, List.forall_mem_nil _⟩

/-- Settles O4: each branch runs as the model's `branch` with the manual's condition and offset. -/
theorem branchesGoWhereTheySay : Obligations.BranchesGoWhereTheySay := by
  intro x a b k c m l near short
  refine ⟨branches_of (exec_beq x a b k) fun s => ?eq, branches_of (exec_bne x a b k) fun s => ?ne,
    branches_of (exec_blt x a b k) fun s => ?lt, branches_of (exec_bge x a b k) fun s => ?ge,
    branches_of (exec_bltn x a b k) fun s => ?ltn, branches_of (exec_bgen x a b k) fun s => ?gen,
    branches_of (exec_cbeqz c m) fun s => ?eqz, branches_of (exec_cbnez c m) fun s => ?nez,
    branches_of (exec_cj l) fun _ => rfl, fun p hp => (branch_words x a b k p hp).trans (wI_fields ..)⟩
  case eq | eqz => simp only [issued_sreg, beq_eq_decide]
  case ne | nez => simp only [issued_sreg, bne, beq_eq_decide, ← decide_not, ne_eq]
  case lt => simp only [issued_sreg, slt_eq]
  case ge => simp only [issued_sreg, slt_eq, ← decide_not, not_lt]
  case ltn => simp only [issued_sreg, BitVec.ult_eq_decide]
  case gen => simp only [issued_sreg, BitVec.ult_eq_decide, ← decide_not, not_lt]

/-! Jumps. -/

/-- A form whose body jumps out of the state in which it is issued; the counterpart of `trapsWith_of`. -/
theorem jumpsTo_of {i : Instr} {body : State → Res} {s : State} {f : State → State} {pc : Word} (h : Issues i s)
    (he : exec i s = issue i body s) (hb : body (issued i s) = .jump (f (issued i s)) pc)
    (ht : (f (issued i s)).h.tokens = (issued i s).h.tokens) : exec i s = jumpsTo i s f pc :=
  he.trans (issue_jump h hb ht)

theorem exec_jal (x : Stack) (d : SReg) (l : BitVec 18) (s : State) : exec (.jal x d l) s =
    issue (.jal x d l) (fun s => .jump (s.writeS d (s.h.pc + wd x.len)) (s.h.pc + l.signExtend 64 * (4 : Word))) s := rfl

/-- JAL links and jumps (R294). -/
theorem jal_jumps {x : Stack} {d : SReg} {l : BitVec 18} {s : State} (h : Issues (.jal x d l) s) :
    exec (.jal x d l) s =
      jumpsTo (.jal x d l) s (fun t => t.writeS d (s.h.pc + wd x.len)) (s.h.pc + l.signExtend 64 <<< 2) := by
  refine jumpsTo_of h (exec_jal ..) ?_ (by simp)
  rw [issued_pc, word_mul_four]

/-- The body of JALR (R294): the lowest bit of the target decides. -/
def jalrBody (x : Stack) (d a : SReg) (k : BitVec 8) : State → Res :=
  withClean [a] fun s =>
    let target := s.readS a + k.signExtend 64
    if target.getLsbD 0 then .trap s (wholeTrap cMisaligned) else .jump (s.writeS d (s.h.pc + wd x.len)) target

theorem exec_jalr (x : Stack) (d a : SReg) (k : BitVec 8) (s : State) :
    exec (.jalr x d a k) s = issue (.jalr x d a k) (jalrBody x d a k) s := rfl

/-- With a clean source the parity of the target decides what JALR answers. -/
theorem jalrBody_eq {x : Stack} {d a : SReg} {k : BitVec 8} {s : State} (h : Issues (.jalr x d a k) s) (hc : Clean [a] s) :
    jalrBody x d a k (issued (.jalr x d a k) s) =
      if (s.h.sreg a + k.signExtend 64) % 2 = 1 then .trap (issued (.jalr x d a k) s) (wholeTrap cMisaligned)
      else .jump ((issued (.jalr x d a k) s).writeS d (s.h.pc + wd x.len)) (s.h.sreg a + k.signExtend 64) := by
  unfold jalrBody
  rw [withClean_eq (by rw [issued_vp]; exact h.thread) (clean_issued hc)]
  simp only [State.readS, issued_sreg, issued_pc, getLsbD_zero_eq_odd, decide_eq_true_eq]

/-- JALR to an even address links and jumps (R294). -/
theorem jalr_even_jumps {x : Stack} {d a : SReg} {k : BitVec 8} {s : State} (h : Issues (.jalr x d a k) s) (hc : Clean [a] s)
    (he : (s.h.sreg a + k.signExtend 64) % 2 = 0) :
    exec (.jalr x d a k) s =
      jumpsTo (.jalr x d a k) s (fun t => t.writeS d (s.h.pc + wd x.len)) (s.h.sreg a + k.signExtend 64) :=
  jumpsTo_of h (exec_jalr ..) ((jalrBody_eq h hc).trans (if_neg (by rw [he]; decide))) (by simp)

/-- JALR to an odd address traps as a whole (R294). -/
theorem jalr_odd_traps {x : Stack} {d a : SReg} {k : BitVec 8} {s : State} (h : Issues (.jalr x d a k) s) (hc : Clean [a] s)
    (ho : (s.h.sreg a + k.signExtend 64) % 2 = 1) :
    exec (.jalr x d a k) s = trapsWith s { code := cMisaligned, val := 0 } :=
  trapsWith_of h (exec_jalr ..) ((jalrBody_eq h hc).trans (if_pos ho)) rfl

theorem jal_word (x : Stack) (d : SReg) (l : BitVec 18) : (Instr.jal x d l).word = wJ 1 1 d l.toNat := rfl

theorem jalr_word (x : Stack) (d a : SReg) (k : BitVec 8) : (Instr.jalr x d a k).word = wM d a k.toNat 8 := rfl

/-- Settles O5: the parity of JALR's target decides between the jump and the trap. -/
theorem jumpsLinkAndGo : Obligations.JumpsLinkAndGo := fun x d a k l _ =>
  ⟨jal_jumps, fun h hc => ⟨jalr_even_jumps h hc, jalr_odd_traps h hc⟩,
    (jal_word x d l).trans (wJ_fields ..), (jalr_word x d a k).trans (wM_fields ..)⟩

end Sys2Proof.Machine
end
